-- ==== Sys2Proof/Word.lean ====
section
/-! DEFINITION. The widths of the spec: bytes, 16-bit and 32-bit values, and the rounding-up division
of 00_scope.md rule R10. -/

namespace Sys2Proof

/-- `UInt8` of the spec: an opcode, an operand byte, a chip register value. -/
abbrev Byte := BitVec 8

/-- `UInt16` of the spec. -/
abbrev Half := BitVec 16

/-- `UInt32` of the spec: interrupt masks, flags, durations in carrier cycles. -/
abbrev Word := BitVec 32

/-- `ceil_div(a, b) = (a + b − 1) div b`, for `b > 0` (00 R10). -/
def ceilDiv (a b : Nat) : Nat := (a + b - 1) / b

end Sys2Proof
end

