-- ==== Sys2Proof/Syntax.lean ====
section
/-! DEFINITION. The host commands of 30_encoding.md rule R90 as syntax: one constructor per row of the
opcode map, operands in the rule's order. -/

namespace Sys2Proof

/-- A `ref` operand that names a host location (30 R81). -/
structure Ref where
  region : Byte
  offset : Word
  deriving DecidableEq, Repr

/-- A host command. `Option Ref` is a `ref` operand, `none` for `region = 0`; `Option Byte` is a `cb`
operand, `none` for 0 (30 R81). -/
inductive Instr where
  | init
  | deinit
  | setMode (mode txBR rxBR : Byte)
  | getMode
  | setBitrate (txBR rxBR : Byte)
  | getBitrate
  | setFdtPoll (cycles : Word)
  | setFdtListen (cycles : Word)
  | setGt (cycles : Word)
  | fieldOn
  | fieldOff
  | startTransceive (txBuf : Option Ref) (txBufLen : Half) (rxBuf : Option Ref) (rxBufLen : Half)
      (rxRcvdLen : Option Ref) (flags fwt : Word)
  | worker
  | getTransceiveStatus
  | getTransceiveState
  | transceiveBlocking (txBuf : Option Ref) (txBufLen : Half) (rxBuf : Option Ref) (rxBufLen : Half)
      (rxRcvdLen : Option Ref) (flags fwt : Word)
  | setPreCb (cb : Option Byte)
  | setPostCb (cb : Option Byte)
  | setSyncCb (cb : Option Byte)
  | setIrqCb (cb : Option Byte)
  | irqEnable (mask : Word)
  | irqDisable (mask : Word)
  | irqPoll
  | irqGet (mask : Word)
  | irqWait (mask timeoutMs : Word)
  | irqIsr
  | fifoStatusUpdate
  | fifoStatusClear
  | fifoGetNumBytes
  | fifoGetIncBits
  | fifoIsMissingPar
  | iso14443aAnticollFrame (buf bytesToSend bitsToSend rxLength : Option Ref) (fwt : Word)
  | iso14443aShortFrame (cmd : Byte) (rxBuf : Option Ref) (rxBufLen : Half) (rxRcvdLen : Option Ref)
      (fwt : Word)
  | iso15693AnticollFrame (txBuf : Option Ref) (txBufLen : Half) (rxBuf : Option Ref) (rxBufLen : Half)
      (rxRcvdLen : Option Ref)
  | iso15693Eof (rxBuf : Option Ref) (rxBufLen : Half) (rxRcvdLen : Option Ref)
  | setEmd (enable : Byte) (maxLen : Half)
  | setObsMode (enable : Byte)
  deriving DecidableEq, Repr

end Sys2Proof
end

