-- ==== Sys2Proof/WellFormed.lean ====
section
/-! DEFINITION. Which commands have an encoding: a `ref` that names a location has a region other than
0, a `cb` that names a callback is other than 0 (30_encoding.md rule R81). Every other operand has
exactly the values its field holds. -/

namespace Sys2Proof

/-- A `ref` operand the encoding can carry (30 R81). -/
def refOk : Option Ref → Bool
  | none => true
  | some r => r.region != 0

/-- A `cb` operand the encoding can carry (30 R81). -/
def cbOk : Option Byte → Bool
  | none => true
  | some c => c != 0

/-- The command has an encoding. -/
def Instr.wf : Instr → Bool
  | .startTransceive txBuf _ rxBuf _ rxRcvdLen _ _ => refOk txBuf && refOk rxBuf && refOk rxRcvdLen
  | .transceiveBlocking txBuf _ rxBuf _ rxRcvdLen _ _ => refOk txBuf && refOk rxBuf && refOk rxRcvdLen
  | .setPreCb cb => cbOk cb
  | .setPostCb cb => cbOk cb
  | .setSyncCb cb => cbOk cb
  | .setIrqCb cb => cbOk cb
  | .iso14443aAnticollFrame buf bytesToSend bitsToSend rxLength _ =>
      refOk buf && refOk bytesToSend && refOk bitsToSend && refOk rxLength
  | .iso14443aShortFrame _ rxBuf _ rxRcvdLen _ => refOk rxBuf && refOk rxRcvdLen
  | .iso15693AnticollFrame txBuf _ rxBuf _ rxRcvdLen => refOk txBuf && refOk rxBuf && refOk rxRcvdLen
  | .iso15693Eof rxBuf _ rxRcvdLen => refOk rxBuf && refOk rxRcvdLen
  | .init | .deinit | .setMode _ _ _ | .getMode | .setBitrate _ _ | .getBitrate
  | .setFdtPoll _ | .setFdtListen _ | .setGt _ | .fieldOn | .fieldOff | .worker
  | .getTransceiveStatus | .getTransceiveState | .irqEnable _ | .irqDisable _ | .irqPoll
  | .irqGet _ | .irqWait _ _ | .irqIsr | .fifoStatusUpdate | .fifoStatusClear
  | .fifoGetNumBytes | .fifoGetIncBits | .fifoIsMissingPar | .setEmd _ _ | .setObsMode _ => true

end Sys2Proof
end

