-- ==== Sys2Proof/Decode.lean ====
section
/-! DEFINITION. The command codec of 30_encoding.md rules R80 to R82 and R90: a total decoder of byte
strings, which rejects by name, then the encoder. -/

namespace Sys2Proof

/-- Why a byte string is no command (30 R82). -/
inductive DecodeError where
  /-- No opcode byte at all. -/
  | empty
  /-- The opcode is not in the map of 30 R90. -/
  | unknownOpcode (op : Byte)
  /-- The string is shorter or longer than its opcode's operand list. -/
  | wrongLength (op : Byte)
  deriving DecidableEq, Repr

/-! ## Operand readers: each takes its bytes from the front (30 R81) -/

/-- `u8`. -/
def takeU8 : List Byte → Option (Byte × List Byte)
  | b :: rest => some (b, rest)
  | [] => none

/-- `u16`, least significant byte first. -/
def takeU16 : List Byte → Option (Half × List Byte)
  | b0 :: b1 :: rest => some (b1 ++ b0, rest)
  | _ => none

/-- `u32`, least significant byte first. -/
def takeU32 : List Byte → Option (Word × List Byte)
  | b0 :: b1 :: b2 :: b3 :: rest => some (b3 ++ b2 ++ b1 ++ b0, rest)
  | _ => none

/-- `ref` = `region:u8 ++ offset:u32`, `region = 0` meaning none whatever the offset bytes hold. -/
def takeRef (bs : List Byte) : Option (Option Ref × List Byte) := do
  let (region, bs) ← takeU8 bs
  let (offset, bs) ← takeU32 bs
  pure (if region = 0 then none else some { region, offset }, bs)

/-- `cb`, 0 meaning none. -/
def takeCb (bs : List Byte) : Option (Option Byte × List Byte) := do
  let (c, bs) ← takeU8 bs
  pure (if c = 0 then none else some c, bs)

/-- The operands of START_TRANSCEIVE and TRANSCEIVE_BLOCKING. -/
def takeExchange
    (mk : Option Ref → Half → Option Ref → Half → Option Ref → Word → Word → Instr)
    (bs : List Byte) : Option (Instr × List Byte) := do
  let (txBuf, bs) ← takeRef bs
  let (txBufLen, bs) ← takeU16 bs
  let (rxBuf, bs) ← takeRef bs
  let (rxBufLen, bs) ← takeU16 bs
  let (rxRcvdLen, bs) ← takeRef bs
  let (flags, bs) ← takeU32 bs
  let (fwt, bs) ← takeU32 bs
  pure (mk txBuf txBufLen rxBuf rxBufLen rxRcvdLen flags fwt, bs)

/-- One `u32` operand. -/
def takeOneWord (mk : Word → Instr) (bs : List Byte) : Option (Instr × List Byte) := do
  let (w, bs) ← takeU32 bs
  pure (mk w, bs)

/-- One `cb` operand. -/
def takeOneCb (mk : Option Byte → Instr) (bs : List Byte) : Option (Instr × List Byte) := do
  let (c, bs) ← takeCb bs
  pure (mk c, bs)

/-- SET_MODE's operands. -/
def takeSetMode (bs : List Byte) : Option (Instr × List Byte) := do
  let (mode, bs) ← takeU8 bs
  let (txBR, bs) ← takeU8 bs
  let (rxBR, bs) ← takeU8 bs
  pure (.setMode mode txBR rxBR, bs)

/-- SET_BITRATE's operands. -/
def takeSetBitrate (bs : List Byte) : Option (Instr × List Byte) := do
  let (txBR, bs) ← takeU8 bs
  let (rxBR, bs) ← takeU8 bs
  pure (.setBitrate txBR rxBR, bs)

/-- IRQ_WAIT's operands. -/
def takeIrqWait (bs : List Byte) : Option (Instr × List Byte) := do
  let (mask, bs) ← takeU32 bs
  let (timeoutMs, bs) ← takeU32 bs
  pure (.irqWait mask timeoutMs, bs)

/-- ISO14443A_ANTICOLL_FRAME's operands. -/
def takeAnticoll (bs : List Byte) : Option (Instr × List Byte) := do
  let (buf, bs) ← takeRef bs
  let (bytesToSend, bs) ← takeRef bs
  let (bitsToSend, bs) ← takeRef bs
  let (rxLength, bs) ← takeRef bs
  let (fwt, bs) ← takeU32 bs
  pure (.iso14443aAnticollFrame buf bytesToSend bitsToSend rxLength fwt, bs)

/-- ISO14443A_SHORT_FRAME's operands. -/
def takeShortFrame (bs : List Byte) : Option (Instr × List Byte) := do
  let (cmd, bs) ← takeU8 bs
  let (rxBuf, bs) ← takeRef bs
  let (rxBufLen, bs) ← takeU16 bs
  let (rxRcvdLen, bs) ← takeRef bs
  let (fwt, bs) ← takeU32 bs
  pure (.iso14443aShortFrame cmd rxBuf rxBufLen rxRcvdLen fwt, bs)

/-- ISO15693_ANTICOLL_FRAME's operands. -/
def takeIso15693Anticoll (bs : List Byte) : Option (Instr × List Byte) := do
  let (txBuf, bs) ← takeRef bs
  let (txBufLen, bs) ← takeU16 bs
  let (rxBuf, bs) ← takeRef bs
  let (rxBufLen, bs) ← takeU16 bs
  let (rxRcvdLen, bs) ← takeRef bs
  pure (.iso15693AnticollFrame txBuf txBufLen rxBuf rxBufLen rxRcvdLen, bs)

/-- ISO15693_EOF's operands. -/
def takeIso15693Eof (bs : List Byte) : Option (Instr × List Byte) := do
  let (rxBuf, bs) ← takeRef bs
  let (rxBufLen, bs) ← takeU16 bs
  let (rxRcvdLen, bs) ← takeRef bs
  pure (.iso15693Eof rxBuf rxBufLen rxRcvdLen, bs)

/-- SET_EMD's operands. -/
def takeSetEmd (bs : List Byte) : Option (Instr × List Byte) := do
  let (enable, bs) ← takeU8 bs
  let (maxLen, bs) ← takeU16 bs
  pure (.setEmd enable maxLen, bs)

/-- SET_OBS_MODE's operand. -/
def takeSetObsMode (bs : List Byte) : Option (Instr × List Byte) := do
  let (enable, bs) ← takeU8 bs
  pure (.setObsMode enable, bs)

/-- The opcode map (30 R90): the reader of the opcode's operand list, `none` for a reserved opcode. -/
def operandReader (op : Byte) : Option (List Byte → Option (Instr × List Byte)) :=
  match op.toNat with
  | 0x01 => some fun bs => some (.init, bs)
  | 0x02 => some fun bs => some (.deinit, bs)
  | 0x10 => some takeSetMode
  | 0x11 => some fun bs => some (.getMode, bs)
  | 0x12 => some takeSetBitrate
  | 0x13 => some fun bs => some (.getBitrate, bs)
  | 0x18 => some (takeOneWord .setFdtPoll)
  | 0x19 => some (takeOneWord .setFdtListen)
  | 0x1A => some (takeOneWord .setGt)
  | 0x20 => some fun bs => some (.fieldOn, bs)
  | 0x21 => some fun bs => some (.fieldOff, bs)
  | 0x30 => some (takeExchange .startTransceive)
  | 0x31 => some fun bs => some (.worker, bs)
  | 0x32 => some fun bs => some (.getTransceiveStatus, bs)
  | 0x33 => some fun bs => some (.getTransceiveState, bs)
  | 0x34 => some (takeExchange .transceiveBlocking)
  | 0x40 => some (takeOneCb .setPreCb)
  | 0x41 => some (takeOneCb .setPostCb)
  | 0x42 => some (takeOneCb .setSyncCb)
  | 0x43 => some (takeOneCb .setIrqCb)
  | 0x50 => some (takeOneWord .irqEnable)
  | 0x51 => some (takeOneWord .irqDisable)
  | 0x52 => some fun bs => some (.irqPoll, bs)
  | 0x53 => some (takeOneWord .irqGet)
  | 0x54 => some takeIrqWait
  | 0x55 => some fun bs => some (.irqIsr, bs)
  | 0x60 => some fun bs => some (.fifoStatusUpdate, bs)
  | 0x61 => some fun bs => some (.fifoStatusClear, bs)
  | 0x62 => some fun bs => some (.fifoGetNumBytes, bs)
  | 0x63 => some fun bs => some (.fifoGetIncBits, bs)
  | 0x64 => some fun bs => some (.fifoIsMissingPar, bs)
  | 0x70 => some takeAnticoll
  | 0x71 => some takeShortFrame
  | 0x72 => some takeIso15693Anticoll
  | 0x73 => some takeIso15693Eof
  | 0x80 => some takeSetEmd
  | 0x81 => some takeSetObsMode
  | _ => none

/-- The decoder (30 R80 to R82): total, rejecting by name. -/
def decode : List Byte → Except DecodeError Instr
  | [] => .error .empty
  | op :: bs =>
    match operandReader op with
    | none => .error (.unknownOpcode op)
    | some reader =>
      match reader bs with
      | some (i, []) => .ok i
      | _ => .error (.wrongLength op)

/-! ## The encoder -/

/-- The two bytes of a `u16`, least significant first (30 R81). -/
def encU16 (h : Half) : List Byte := [h.extractLsb' 0 8, h.extractLsb' 8 8]

/-- The four bytes of a `u32`, least significant first (30 R81). -/
def encU32 (w : Word) : List Byte :=
  [w.extractLsb' 0 8, w.extractLsb' 8 8, w.extractLsb' 16 8, w.extractLsb' 24 8]

/-- The five bytes of a `ref` (30 R81). -/
def encRef : Option Ref → List Byte
  | none => 0 :: encU32 0
  | some r => r.region :: encU32 r.offset

/-- The byte of a `cb` (30 R81). -/
def encCb : Option Byte → List Byte
  | none => [0]
  | some c => [c]

/-- The opcode (30 R90). -/
def opcode : Instr → Byte
  | .init => 0x01
  | .deinit => 0x02
  | .setMode _ _ _ => 0x10
  | .getMode => 0x11
  | .setBitrate _ _ => 0x12
  | .getBitrate => 0x13
  | .setFdtPoll _ => 0x18
  | .setFdtListen _ => 0x19
  | .setGt _ => 0x1A
  | .fieldOn => 0x20
  | .fieldOff => 0x21
  | .startTransceive _ _ _ _ _ _ _ => 0x30
  | .worker => 0x31
  | .getTransceiveStatus => 0x32
  | .getTransceiveState => 0x33
  | .transceiveBlocking _ _ _ _ _ _ _ => 0x34
  | .setPreCb _ => 0x40
  | .setPostCb _ => 0x41
  | .setSyncCb _ => 0x42
  | .setIrqCb _ => 0x43
  | .irqEnable _ => 0x50
  | .irqDisable _ => 0x51
  | .irqPoll => 0x52
  | .irqGet _ => 0x53
  | .irqWait _ _ => 0x54
  | .irqIsr => 0x55
  | .fifoStatusUpdate => 0x60
  | .fifoStatusClear => 0x61
  | .fifoGetNumBytes => 0x62
  | .fifoGetIncBits => 0x63
  | .fifoIsMissingPar => 0x64
  | .iso14443aAnticollFrame _ _ _ _ _ => 0x70
  | .iso14443aShortFrame _ _ _ _ _ => 0x71
  | .iso15693AnticollFrame _ _ _ _ _ => 0x72
  | .iso15693Eof _ _ _ => 0x73
  | .setEmd _ _ => 0x80
  | .setObsMode _ => 0x81

/-- The operand bytes in the order of 30 R90. -/
def encOperands : Instr → List Byte
  | .setMode mode txBR rxBR => [mode, txBR, rxBR]
  | .setBitrate txBR rxBR => [txBR, rxBR]
  | .setFdtPoll c => encU32 c
  | .setFdtListen c => encU32 c
  | .setGt c => encU32 c
  | .startTransceive txBuf txBufLen rxBuf rxBufLen rxRcvdLen flags fwt =>
      encRef txBuf ++ encU16 txBufLen ++ encRef rxBuf ++ encU16 rxBufLen ++ encRef rxRcvdLen
        ++ encU32 flags ++ encU32 fwt
  | .transceiveBlocking txBuf txBufLen rxBuf rxBufLen rxRcvdLen flags fwt =>
      encRef txBuf ++ encU16 txBufLen ++ encRef rxBuf ++ encU16 rxBufLen ++ encRef rxRcvdLen
        ++ encU32 flags ++ encU32 fwt
  | .setPreCb cb => encCb cb
  | .setPostCb cb => encCb cb
  | .setSyncCb cb => encCb cb
  | .setIrqCb cb => encCb cb
  | .irqEnable mask => encU32 mask
  | .irqDisable mask => encU32 mask
  | .irqGet mask => encU32 mask
  | .irqWait mask timeoutMs => encU32 mask ++ encU32 timeoutMs
  | .iso14443aAnticollFrame buf bytesToSend bitsToSend rxLength fwt =>
      encRef buf ++ encRef bytesToSend ++ encRef bitsToSend ++ encRef rxLength ++ encU32 fwt
  | .iso14443aShortFrame cmd rxBuf rxBufLen rxRcvdLen fwt =>
      cmd :: (encRef rxBuf ++ encU16 rxBufLen ++ encRef rxRcvdLen ++ encU32 fwt)
  | .iso15693AnticollFrame txBuf txBufLen rxBuf rxBufLen rxRcvdLen =>
      encRef txBuf ++ encU16 txBufLen ++ encRef rxBuf ++ encU16 rxBufLen ++ encRef rxRcvdLen
  | .iso15693Eof rxBuf rxBufLen rxRcvdLen => encRef rxBuf ++ encU16 rxBufLen ++ encRef rxRcvdLen
  | .setEmd enable maxLen => enable :: encU16 maxLen
  | .setObsMode enable => [enable]
  | .init | .deinit | .getMode | .getBitrate | .fieldOn | .fieldOff | .worker
  | .getTransceiveStatus | .getTransceiveState | .irqPoll | .irqIsr | .fifoStatusUpdate
  | .fifoStatusClear | .fifoGetNumBytes | .fifoGetIncBits | .fifoIsMissingPar => []

/-- The byte string of a well-formed command (30 R80). -/
def encode (i : Instr) : List Byte := opcode i :: encOperands i

/-! ## An instruction given as one number -/

/-- How many bytes a command with this opcode has (30 R80, R90); `none` for a reserved opcode. -/
def commandLength (op : Byte) : Option Nat :=
  match op.toNat with
  | 0x01 | 0x02 | 0x11 | 0x13 | 0x20 | 0x21 | 0x31 | 0x32 | 0x33 | 0x52 | 0x55
  | 0x60 | 0x61 | 0x62 | 0x63 | 0x64 => some 1
  | 0x40 | 0x41 | 0x42 | 0x43 | 0x81 => some 2
  | 0x12 => some 3
  | 0x10 | 0x80 => some 4
  | 0x18 | 0x19 | 0x1A | 0x50 | 0x51 | 0x53 => some 5
  | 0x54 => some 9
  | 0x73 => some 13
  | 0x71 => some 18
  | 0x72 => some 20
  | 0x70 => some 25
  | 0x30 | 0x34 => some 28
  | _ => none

/-- The first `n` bytes of a number, the least significant first. -/
def numberBytes : Nat → Nat → List Byte
  | 0, _ => []
  | n + 1, w => BitVec.ofNat 8 w :: numberBytes n (w / 256)

/-- The byte string of an instruction whose bits are the low `nbits` bits of `w`, byte 0 (the opcode)
least significant: every byte of the command above `nbits` is 0. -/
def wordBytes (nbits w : Nat) : List Byte :=
  let low := w % 2 ^ nbits
  let given := (nbits + 7) / 8
  numberBytes (max given ((commandLength (BitVec.ofNat 8 low)).getD given)) low

/-- The command the decoder reads from an instruction given as one number. -/
def decodeTableWord (nbits w : Nat) : Option Instr :=
  match decode (wordBytes nbits w) with
  | .ok i => some i
  | .error _ => none

end Sys2Proof
end

