-- ==== Sys2Proof/Config.lean ====
section
/-! DEFINITION. What the spec leaves to the implementation and to the environment: the OPEN parameters
of 00_scope.md rule R8 as one plain record (`Params`), the constants the spec fixes, and the free
values (opaque: nothing can compute or prove what they are). -/

namespace Sys2Proof

/-- The RF technologies by name (30 R86). Codes 14 to 255 are no mode. -/
inductive Mode where
  | none | nfca | nfcaT1t | nfcb | nfcbPrime | nfcbCts | nfcf | nfcv | picopass
  | activeP2p | listenNfca | listenNfcb | listenNfcf | listenActiveP2p
  deriving DecidableEq, Repr

/-- The named interrupts (00 R12, 30 R84). -/
inductive Irq where
  | fwl | txe | rxs | rxe | nre | gpe | rxRest | crc | par | errHard | errSoft | col
  deriving DecidableEq, Repr

namespace Config

/-- `IRQ_BUILD` (40 R100): who services the interrupt line. -/
inductive IrqBuild where
  | isr | polled
  deriving DecidableEq, Repr

/-- `IRQ_POS(name)` (00 R8, 30 R84): the bit of each interrupt in the 32-bit mask. -/
structure IrqPos where
  fwl : Fin 32
  txe : Fin 32
  rxs : Fin 32
  rxe : Fin 32
  nre : Fin 32
  gpe : Fin 32
  rxRest : Fin 32
  crc : Fin 32
  par : Fin 32
  errHard : Fin 32
  errSoft : Fin 32
  col : Fin 32
  deriving DecidableEq, Repr

/-- `FS2_LAYOUT` (43 R162): where FIFO status 2 holds count bit 8, the three incomplete-bit count bits
(their lowest) and the missing-parity bit. -/
structure Fs2Layout where
  b8 : Fin 8
  lbLo : Fin 6
  np : Fin 8
  deriving DecidableEq, Repr

/-- The OPEN parameters of 00 R8 ("the model takes it as an argument"). A parameter that is a function
of a finite domain is the list of the arguments at which it differs from the spec's default, so that
every such function is some value of the field. log 2. -/
structure Params where
  /-- `FIFO_DEPTH`. -/
  fifoDepth : Nat
  /-- `WL_CHUNK`. -/
  wlChunk : Nat
  /-- `FC_PER_MS`. -/
  fcPerMs : Nat
  /-- `GPT_UNIT`. -/
  gptUnit : Nat
  /-- `FWT_EFF(mode, fwt)` where it is not `fwt` (41 R129). -/
  fwtEffTable : List ((Mode × Word) × Nat)
  /-- `FDT_POLL_EFF(mode, fdtPoll)` where it is not `fdtPoll` (41 R129). -/
  fdtPollEffTable : List ((Mode × Word) × Nat)
  /-- `SUPPORTED_BR`. -/
  supportedBr : List Byte
  /-- `MODE_DEFAULTS(mode)` = (P, C) where it is not the table of 42 R144. -/
  modeDefaultTable : List (Mode × Bool × Bool)
  /-- `MAX_TX_BITS`. -/
  maxTxBits : Nat
  /-- `IRQ_POS`. -/
  irqPos : IrqPos
  /-- `FS2_LAYOUT`. -/
  fs2 : Fs2Layout
  /-- `COLL_DECODE(r)` = (byte, bit) where it is not `(r[7:3], r[2:0])` (46 R246). -/
  collTable : List (Byte × Byte × Byte)
  /-- The identity values `CHIP_ID_OK` rejects (47 R250). -/
  rejectedIds : List Byte
  /-- `ANTICOLL_FRAME_LEN`. -/
  anticollFrameLen : Nat
  /-- `IRQ_BUILD`. -/
  irqBuild : IrqBuild
  /-- `size(region)` of the host's regions (20 R61) where it is not the whole offset range. log 9. -/
  regionSizes : List (Byte × Nat)
  /-- The host's layout of a 16-bit cell (20 R64): low byte at the lower offset, or high byte. log 10. -/
  cellLowFirst : Bool
  deriving DecidableEq, Repr

/-- The default layout of 30 R84. -/
def defaultIrqPos : IrqPos :=
  { fwl := 0, txe := 1, rxs := 2, rxe := 3, nre := 4, gpe := 5, rxRest := 6,
    crc := 8, par := 9, errHard := 10, errSoft := 11, col := 12 }

/-- The default layout of 43 R162: `FS2_B8 = 7`, `FS2_LB = 3:1`, `FS2_NP = 0`. -/
def defaultFs2 : Fs2Layout := { b8 := 7, lbLo := 1, np := 0 }

/-- The defaults the spec gives for its test vectors (93 section 1, 95 section 0). DESIGN CHOICE: no
statement rests on them. log 2. -/
def defaultParams : Params :=
  { fifoDepth := 6, wlChunk := 4, fcPerMs := 13560, gptUnit := 64,
    fwtEffTable := [], fdtPollEffTable := [],
    supportedBr := [0x00, 0x01, 0x02, 0x03, 0xEB, 0xEC],
    modeDefaultTable := [], maxTxBits := 0xFFFF, irqPos := defaultIrqPos, fs2 := defaultFs2,
    collTable := [], rejectedIds := [], anticollFrameLen := 7, irqBuild := .polled,
    regionSizes := [], cellLowFirst := true }

/-- `CRC_LEN` (00 R8). -/
def crcLen : Nat := 2

/-- `INC_BYTE_LEN` (00 R8, 45 R208). -/
def incByteLen : Nat := 1

/-- `FWT_FOREVER` (10 R28). -/
def fwtForever : Word := 0xFFFFFFFF

/-- `KEEP`, the bit-rate sentinel (30 R87). -/
def keep : Byte := 0xFF

/-- What the Chip answers to the n-th free register or FIFO read (93 I30). -/
opaque freeByte : Nat → Byte

/-- What the Chip answers to the n-th free status bit read, and the Host to a free sync gate question
(93 I33, I35). -/
opaque freeBit : Nat → Bool

/-- How many milliseconds the host clock has moved at the n-th free reading (93 I36). -/
opaque freeElapsed : Nat → Nat

/-- The two result bytes of a `GET_BITRATE` refused by its gate: 42 R149 states none. log 13. -/
opaque gatedRates : Byte → Byte → Byte × Byte

/-- The u16 capacity of the anticollision helper's rx buffer where `8·(ANTICOLL_FRAME_LEN − B)` (46 R240) does not
fit 16 bits: the spec states none. log 29. -/
opaque wideCapacity : Nat → BitVec 16

end Config

end Sys2Proof
end

