-- ==== Sys2Proof/Machine/State.lean ====
section
/-! DEFINITION. The state of the machine (10_state.md rule R20, 70_reset_and_hazards.md rule R290), the
host memory and the environment's scripts, as plain data; the reasons a step can stop; the reset state. -/

namespace Sys2Proof.Machine

open Sys2Proof.Config (Params)

/-! ## Named values -/

/-- The lifecycle (10 R21). -/
inductive Lifecycle where
  | uninit | init | modeSet | txrx
  deriving DecidableEq, Repr

/-- The transceive sub-state, the block's one control point (10 R26, R31). -/
inductive TxrxState where
  | idle
  | txIdle | txWaitGt | txWaitFdt | txPrepTx | txTransmit | txWaitWl | txReloadFifo | txWaitTxe
  | txDone | txFail
  | rxIdle | rxWaitRxs | rxWaitRxe | rxErrCheck | rxReadData | rxReadFifo | rxDone | rxFail
  deriving DecidableEq, Repr

/-- The statuses (30 R85). -/
inductive Status where
  | none | nomem | busy | io | timeout | system | wrongState | invalidParam | notSupported
  | notImplemented | hwMismatch | rfCollision | framing | parity | crc | incompleteByte
  deriving DecidableEq, Repr

/-- The step size of the no-response timer (10 R35). -/
inductive NrtStep where
  | s64 | s4096
  deriving DecidableEq, Repr

/-! ## The groups of the block state -/

/-- A host buffer: `(region, offset)` (20 R61). The offset is a natural number, so that `buf + B` of
46 R240 never wraps. -/
structure BufRef where
  region : Byte
  offset : Nat
  deriving DecidableEq, Repr

/-- The guard-time stopwatch (10 R25). -/
structure GtTimer where
  armed : Bool
  startMs : Nat
  durMs : Nat
  deriving DecidableEq, Repr

/-- TransceiveContext, the operand registers (10 R28). -/
structure Ctx where
  txBuf : Option BufRef
  txBufLen : Half
  rxBuf : Option BufRef
  rxBufLen : Half
  rxRcvdLen : Option BufRef
  flags : Word
  fwt : Word
  deriving DecidableEq, Repr

/-- FifoCounters (10 R30). -/
structure Fifo where
  bytesTotal : Nat
  bytesWritten : Nat
  deriving DecidableEq, Repr

/-- FifoStatusSnapshot (10 R32). -/
structure FifoStatus where
  valid : Bool
  st1 : Byte
  st2 : Byte
  deriving DecidableEq, Repr

/-- InterruptState (10 R33). -/
structure IrqState where
  enabled : Word
  pending : Word
  callback : Option Byte
  deriving DecidableEq, Repr

/-- The block's record of the three chip mask registers (10 R34). -/
structure HwMask where
  m0 : Byte
  m1 : Byte
  m2 : Byte
  deriving DecidableEq, Repr

/-- NoResponseTimer (10 R35). -/
structure Nrt where
  regVal : Half
  step : NrtStep
  mirror64 : Word
  enabled : Bool
  deriving DecidableEq, Repr

/-- The record of the chip's frame configuration bits (10 R37). -/
structure Cfg where
  txParity : Bool
  txCrc : Bool
  rxCrcCheck : Bool
  rxParityKeep : Bool
  agc : Bool
  nfcip1 : Bool
  collDetect : Bool
  deriving DecidableEq, Repr

/-- Observation mode (10 R38). -/
structure Obs where
  configured : Bool
  active : Bool
  deriving DecidableEq, Repr

/-- The host's registered callbacks (10 R39). -/
structure Callbacks where
  pre : Option Byte
  post : Option Byte
  sync : Option Byte
  deriving DecidableEq, Repr

/-- EMD configuration (10 R40). -/
structure Emd where
  enabled : Bool
  maxLen : Half
  deriving DecidableEq, Repr

/-! ## Chip-side names and the trace -/

/-- Chip registers by symbolic name (30 R89). -/
inductive Reg where
  | irqStatus (k : Fin 3)
  | irqMask (k : Fin 3)
  | fifoStatus1 | fifoStatus2 | numTxBytes | nrt | nrtStep | gpt | collPos | frameCfg | modeReg
  | bitrateReg | icIdentity
  deriving DecidableEq, Repr

/-- Chip direct commands by symbolic name (30 R89). -/
inductive ChipCmd where
  | transmitWithCrc | transmitWithoutCrc | clearFifo | resetRxGain | unmaskReceive | obsOn | obsOff
  | fieldOn | fieldOff
  deriving DecidableEq, Repr

/-- The value a register write carries: a byte, or one of the abstract values of 42 R143, R145, R147. -/
inductive RegValue where
  | byte (v : Byte)
  | modeCfg (mode : Mode)
  | brCfg (txBR rxBR : Byte)
  | frameCfg (cfg : Cfg)
  deriving DecidableEq, Repr

/-- The tag of an applied analog preset (42 R146). -/
inductive PresetTag where
  | tech (mode : Mode)
  | bitrate (txBR rxBR : Byte)
  deriving DecidableEq, Repr

/-- What the outside sees of a run, in the order issued: bus events (20 R66) and host-visible events
(00 R11 `emit`). -/
inductive Event where
  | regRead (r : Reg) (v : Byte)
  | regWrite (r : Reg) (v : RegValue)
  | regWrite16 (r : Reg) (v : Half)
  | cmd (c : ChipCmd)
  | fifoWrite (bytes : List Byte)
  | fifoRead (bytes : List Byte)
  | preCallback (cb : Byte)
  | postCallback (cb : Byte)
  | irqCallback (cb : Byte)
  | presetApplied (tag : PresetTag)
  deriving DecidableEq, Repr

/-! ## The environment -/

/-- The coming answers of the Chip, the Host and the ISR agent (00 R7), each list used from its front.
Past the end of `regs`, `fifo`, `chipBits`, `sync` and `clock` the answer is a free value of Config
(log 3); past the end of `line` the line rests at `lineRest` (log 4); past the end of `edges` no rising
edge is delivered inside a command (log 6). -/
structure Env where
  /-- Samples of the interrupt line, true for high (40 R100). -/
  line : List Bool
  /-- The level of the line after its script. -/
  lineRest : Bool
  /-- Answers of `BusRegRead` (20 R66). -/
  regs : List Byte
  /-- Bytes of `FifoRead` (20 R66). -/
  fifo : List Byte
  /-- Answers of `ChipStatus` (00 R11). -/
  chipBits : List Bool
  /-- Answers of the sync gate (44 R177). -/
  sync : List Bool
  /-- Milliseconds the host clock moves before each reading (41 R124). -/
  clock : List Nat
  /-- At each point where the ISR agent may run inside a command: true, it runs once more there; false,
  the command goes on (20 R70). -/
  edges : List Bool
  /-- How many free values have been taken. -/
  draws : Nat
  deriving DecidableEq, Repr

/-- The locals of an anticollision command whose exchange is running (46 R240). -/
structure Anticoll where
  buf : Option BufRef
  bytesToSend : Option BufRef
  bitsToSend : Option BufRef
  /-- `B`. -/
  sentBytes : Nat
  /-- `b`. -/
  sentBits : Nat
  /-- `save`. -/
  saved : Byte
  deriving DecidableEq, Repr

/-- A command that loops and has not returned yet. -/
inductive Running where
  /-- Inside a drain whose line never goes low (40 R104): it never returns. -/
  | hung
  /-- IRQ_WAIT's loop with its operands and `t0` (40 R106). -/
  | irqWait (mask timeoutMs : Word) (t0 : Nat)
  /-- TRANSCEIVE_BLOCKING's loop (47 R258). -/
  | blocking
  /-- The blocking exchange inside ISO14443A_ANTICOLL_FRAME (46 R240). -/
  | anticoll (call : Anticoll)
  deriving DecidableEq, Repr

/-! ## The state -/

/-- The block state of 10 R20 (`lifecycle` to `emd`), host memory, the command port and the
environment. -/
structure State where
  /-- 10 R21. -/
  lifecycle : Lifecycle
  /-- 10 R22. -/
  mode : Mode
  /-- 10 R22. -/
  txBR : Byte
  /-- 10 R22. -/
  rxBR : Byte
  /-- 10 R23, in carrier cycles. -/
  fdtPoll : Word
  /-- 10 R23, stored and read by nothing in scope. -/
  fdtListen : Word
  /-- 10 R23. -/
  gt : Word
  /-- 10 R24. -/
  fieldOn : Bool
  /-- 10 R25. -/
  gtTimer : GtTimer
  /-- 10 R26, R31. -/
  txrxState : TxrxState
  /-- 10 R27. -/
  status : Status
  /-- 10 R28. -/
  ctx : Ctx
  /-- 10 R30. -/
  fifo : Fifo
  /-- 10 R32. -/
  fifoStatus : FifoStatus
  /-- 10 R33. -/
  irq : IrqState
  /-- 10 R34. -/
  hwMask : HwMask
  /-- 10 R35. -/
  nrt : Nrt
  /-- 10 R36. -/
  gptPreload : Half
  /-- 10 R37. -/
  cfg : Cfg
  /-- 10 R38. -/
  obs : Obs
  /-- 10 R39. -/
  cb : Callbacks
  /-- 10 R40. -/
  emd : Emd
  /-- Host memory (20 R60): addresses strictly rising, no entry that reads as an unlisted byte does. -/
  mem : List Host.Cell
  /-- The last reading of `HostClockMs()` (41 R124). -/
  clockMs : Nat
  /-- Host commands waiting on the command port, the next one first (30 R80). -/
  port : List (List Byte)
  /-- The response to the last command; empty while none has answered yet (30 R80). -/
  response : List Byte
  /-- The loop command in progress. -/
  running : Option Running
  /-- Every event so far, the newest first. -/
  trace : List Event
  /-- The environment's coming answers. -/
  env : Env
  /-- The OPEN parameters of 00 R8: read by the rules, written by nothing. log 2. -/
  params : Params
  deriving DecidableEq, Repr

/-- Model faults (60 R273): the run stops with a named mark because the source gives no behaviour. -/
inductive Fault where
  /-- `FAULT_BUFFER_BOUNDS` (20 R62): raised by every access to host memory outside its buffer's region,
  or through a null buffer. Safe: the model stops where the hardware is undefined. -/
  | bufferBounds
  /-- `FAULT_CHIP_RANGE` (20 R67): raised where the FIFO status is fetched, by the engine or by a host's query,
  with a byte count above FIFO_DEPTH. Safe: a conforming chip never answers so. -/
  | chipRange
  deriving DecidableEq, Repr

/-- Refusals. -/
inductive Refusal where
  /-- Raised by `exec`'s arm of a command that has no meaning yet. Safe. -/
  | notModelled (mnemonic : String)
  /-- `REFUSED_HELPER(op)` (46 R247, 60 R273): raised by the three helpers the source names without
  behaviour. Safe: nothing is claimed of them. -/
  | refusedHelper (op : Byte)
  deriving DecidableEq, Repr

/-- An environment with empty scripts: every answer is free, the line rests low. -/
def quietEnv : Env :=
  { line := [], lineRest := false, regs := [], fifo := [], chipBits := [], sync := [], clock := [],
    edges := [], draws := 0 }

/-- `RESET_STATE` (70 R290) with nothing on the port, nothing in host memory and an empty trace. -/
def State.reset : State :=
  { lifecycle := .uninit
    mode := .none
    txBR := Config.keep
    rxBR := Config.keep
    fdtPoll := 0
    fdtListen := 0
    gt := 0
    fieldOn := false
    gtTimer := { armed := false, startMs := 0, durMs := 0 }
    txrxState := .idle
    status := .none
    ctx := { txBuf := none, txBufLen := 0, rxBuf := none, rxBufLen := 0, rxRcvdLen := none,
             flags := 0, fwt := 0 }
    fifo := { bytesTotal := 0, bytesWritten := 0 }
    fifoStatus := { valid := false, st1 := 0, st2 := 0 }
    irq := { enabled := 0, pending := 0, callback := none }
    hwMask := { m0 := 0xFF, m1 := 0xFF, m2 := 0xFF }
    nrt := { regVal := 0, step := .s64, mirror64 := 0, enabled := false }
    gptPreload := 0
    cfg := { txParity := false, txCrc := false, rxCrcCheck := false, rxParityKeep := false,
             agc := false, nfcip1 := false, collDetect := false }
    obs := { configured := false, active := false }
    cb := { pre := none, post := none, sync := none }
    emd := { enabled := false, maxLen := 0 }
    mem := []
    clockMs := 0
    port := []
    response := []
    running := none
    trace := []
    env := quietEnv
    params := Config.defaultParams }

end Sys2Proof.Machine
end

