-- ==== Sys2Proof/Machine/Operands.lean ====
section
/-! DEFINITION. Operand forms, code tables, and the functions of the parameters that the rules name:
units of time, mode defaults, rates, region sizes, the collision decode. -/

namespace Sys2Proof

open Sys2Proof.Config (Params)

/-! ## Code tables (30_encoding.md) -/

/-- The code of a mode (30 R86). -/
def Mode.code : Mode → Byte
  | .none => 0 | .nfca => 1 | .nfcaT1t => 2 | .nfcb => 3 | .nfcbPrime => 4 | .nfcbCts => 5
  | .nfcf => 6 | .nfcv => 7 | .picopass => 8 | .activeP2p => 9 | .listenNfca => 10
  | .listenNfcb => 11 | .listenNfcf => 12 | .listenActiveP2p => 13

/-- The mode a code names (30 R86); codes 14 to 255 name none. -/
def Mode.ofCode (b : Byte) : Option Mode :=
  match b.toNat with
  | 0 => some .none | 1 => some .nfca | 2 => some .nfcaT1t | 3 => some .nfcb
  | 4 => some .nfcbPrime | 5 => some .nfcbCts | 6 => some .nfcf | 7 => some .nfcv
  | 8 => some .picopass | 9 => some .activeP2p | 10 => some .listenNfca
  | 11 => some .listenNfcb | 12 => some .listenNfcf | 13 => some .listenActiveP2p
  | _ => Option.none

namespace Machine

/-- The code of a status (30 R85). -/
def Status.code : Status → Byte
  | .none => 0 | .nomem => 1 | .busy => 2 | .io => 3 | .timeout => 4 | .system => 5
  | .wrongState => 6 | .invalidParam => 7 | .notSupported => 8 | .notImplemented => 9
  | .hwMismatch => 10 | .rfCollision => 11 | .framing => 12 | .parity => 13 | .crc => 14
  | .incompleteByte => 15

/-- The code of a sub-state (30 R88). -/
def TxrxState.code : TxrxState → Byte
  | .idle => 0x00
  | .txIdle => 0x11 | .txWaitGt => 0x12 | .txWaitFdt => 0x13 | .txPrepTx => 0x14
  | .txTransmit => 0x15 | .txWaitWl => 0x16 | .txReloadFifo => 0x17 | .txWaitTxe => 0x18
  | .txDone => 0x19 | .txFail => 0x1A
  | .rxIdle => 0x51 | .rxWaitRxs => 0x52 | .rxWaitRxe => 0x53 | .rxErrCheck => 0x54
  | .rxReadData => 0x55 | .rxReadFifo => 0x56 | .rxDone => 0x57 | .rxFail => 0x58

/-- The order `UNINIT < INIT < MODE_SET < TXRX` (10 R21). -/
def Lifecycle.rank : Lifecycle → Nat
  | .uninit => 0 | .init => 1 | .modeSet => 2 | .txrx => 3

/-- `max` of two lifecycles (42 R141). -/
def Lifecycle.max (a b : Lifecycle) : Lifecycle := if a.rank < b.rank then b else a

/-- The cycles of an NRT step (10 R35). -/
def NrtStep.cycles : NrtStep → Nat
  | .s64 => 64
  | .s4096 => 4096

/-! ## Operand forms -/

/-- The buffer a `ref` operand names (20 R61, 30 R81). -/
def toBuf (r : Option Ref) : Option BufRef :=
  r.map fun r => { region := r.region, offset := r.offset.toNat }

/-- `buf + n`: the buffer `n` bytes further on (46 R240). What `none + n` is the spec does not say; the model takes
`none`, so that a null `buf` with `b = 0` reaches an inner start that answers INVALID_PARAM. DESIGN CHOICE, log 28. -/
def bufPlus (b : Option BufRef) (n : Nat) : Option BufRef :=
  b.map fun b => { b with offset := b.offset + n }

/-- The context record of START_TRANSCEIVE's operands (44 R170). -/
def exchangeCtx (txBuf : Option Ref) (txBufLen : Half) (rxBuf : Option Ref) (rxBufLen : Half)
    (rxRcvdLen : Option Ref) (flags fwt : Word) : Ctx :=
  { txBuf := toBuf txBuf, txBufLen, rxBuf := toBuf rxBuf, rxBufLen, rxRcvdLen := toBuf rxRcvdLen,
    flags, fwt }

/-- `txBytes` (44 R175). -/
def Ctx.txBytes (c : Ctx) : Nat := ceilDiv c.txBufLen.toNat 8

/-- `capBytes` (45 R201). -/
def Ctx.capBytes (c : Ctx) : Nat := ceilDiv c.rxBufLen.toNat 8

/-! ## Units of time (41_timing.md) -/

/-- `toMs(c, u)` (41 R121). -/
def toMs (p : Params) (c u : Nat) : Nat := ceilDiv (c * u) p.fcPerMs

/-- `toCycles(ms)` (41 R122). -/
def toCycles (p : Params) (ms : Nat) : Nat := ms * p.fcPerMs

/-- `steps(v, n)` (41 R123). -/
def timerSteps (v n : Nat) : Nat := ceilDiv v n

/-- `FWT_EFF(mode, fwt)` (41 R129). -/
def fwtEff (p : Params) (mode : Mode) (fwt : Word) : Nat :=
  (p.fwtEffTable.lookup (mode, fwt)).getD fwt.toNat

/-- `FDT_POLL_EFF(mode, fdtPoll)` (41 R129). -/
def fdtPollEff (p : Params) (mode : Mode) (fdtPoll : Word) : Nat :=
  (p.fdtPollEffTable.lookup (mode, fdtPoll)).getD fdtPoll.toNat

/-- The record NRT programming leaves (41 R130): 64/fc steps where they fit 16 bits, else 4096/fc,
saturated. -/
def nrtFor (p : Params) (mode : Mode) (fwt : Word) : Nrt :=
  if fwt = Config.fwtForever then
    { regVal := 0, step := .s64, mirror64 := 0, enabled := false }
  else
    let v := fwtEff p mode fwt
    let step := if timerSteps v 64 ≤ 0xFFFF then NrtStep.s64 else NrtStep.s4096
    let r := min 0xFFFF (timerSteps v step.cycles)
    { regVal := BitVec.ofNat 16 r, step, mirror64 := BitVec.ofNat 32 (r * (step.cycles / 64)),
      enabled := r != 0 }

/-- The GPT preload (41 R133). -/
def gptFor (p : Params) (mode : Mode) (fdtPoll : Word) : Half :=
  BitVec.ofNat 16 (min 0xFFFF (timerSteps (fdtPollEff p mode fdtPoll) p.gptUnit))

/-! ## Mode and bit rate (42_mode_bitrate.md) -/

/-- How SET_MODE answers a mode code (42 R142). -/
inductive ModeClass where
  | supported (mode : Mode)
  | notSupported
  | unknown
  deriving DecidableEq, Repr

/-- `class(mode)` (42 R142). -/
def modeClass (code : Byte) : ModeClass :=
  match Mode.ofCode code with
  | some .nfca => .supported .nfca
  | some .nfcaT1t => .supported .nfcaT1t
  | some .nfcb => .supported .nfcb
  | some .nfcbPrime => .supported .nfcbPrime
  | some .nfcbCts => .supported .nfcbCts
  | some .nfcv => .supported .nfcv
  | some .picopass => .supported .picopass
  | some .nfcf => .notSupported
  | some .activeP2p => .notSupported
  | some .listenNfca => .notSupported
  | some .listenNfcb => .notSupported
  | some .listenNfcf => .notSupported
  | some .listenActiveP2p => .notSupported
  | some .none => .unknown
  | none => .unknown

/-- The default of `MODE_DEFAULTS`, `(P, C)`: the table of 42 R144 for the supported modes. The rule gives
`C` "for every supported mode" only: `C` of any other mode is 0 here, DESIGN CHOICE (log 25); no exchange and no
SET_MODE that succeeds has such a mode. -/
def defaultModeBits : Mode → Bool × Bool
  | .nfca | .nfcaT1t => (true, true)
  | .nfcb | .nfcbPrime | .nfcbCts | .nfcv | .picopass => (false, true)
  | .none | .nfcf | .activeP2p | .listenNfca | .listenNfcb | .listenNfcf | .listenActiveP2p =>
      (false, false)

/-- `MODE_DEFAULTS(mode)` = `(P, C)` (42 R144). -/
def modeBits (p : Params) (mode : Mode) : Bool × Bool :=
  (p.modeDefaultTable.lookup mode).getD (defaultModeBits mode)

/-- `modeDefaults(mode)` (42 R144). -/
def modeDefaults (p : Params) (mode : Mode) : Cfg :=
  let (parity, crc) := modeBits p mode
  { txParity := parity, txCrc := crc, rxCrcCheck := crc, rxParityKeep := false, agc := true,
    nfcip1 := false, collDetect := false }

/-- `MODE_RX_HAS_CRC(mode) = C(mode)` (42 R144). -/
def modeRxHasCrc (p : Params) (mode : Mode) : Bool := (modeBits p mode).2

/-- `b ∈ SUPPORTED_BR` (42 R147). -/
def rateSupported (p : Params) (b : Byte) : Bool := p.supportedBr.contains b

/-! ## The rest of the parameters -/

/-- `size(region)` (20 R61), at most the range of a `ref` offset. log 9. -/
def regionSize (p : Params) (region : Byte) : Nat :=
  min ((p.regionSizes.lookup region).getD (2 ^ 32)) (2 ^ 32)

/-- `COLL_DECODE(r)` (46 R246): default `(r[7:3], r[2:0])`. -/
def collDecode (p : Params) (r : Byte) : Byte × Byte :=
  (p.collTable.lookup r).getD ((r.extractLsb' 3 5).setWidth 8, (r.extractLsb' 0 3).setWidth 8)

/-- `CHIP_ID_OK(id)` (47 R250). -/
def chipIdOk (p : Params) (id : Byte) : Bool := !p.rejectedIds.contains id

/-- The premises the spec puts on its parameters: 1 ≤ WL_CHUNK ≤ FIFO_DEPTH < 2·WL_CHUNK and FIFO_DEPTH ≤
511 (00 R8, R9), units and clock ratio positive (00 R10), interrupt positions all different (00 R8); and one of
the model's own, since 00 R8 puts no bound on ANTICOLL_FRAME_LEN: an anticollision frame whose capacity in bits
fits 16 bits (DESIGN CHOICE, log 29). -/
def paramsOk (p : Params) : Bool :=
  decide (1 ≤ p.wlChunk ∧ p.wlChunk ≤ p.fifoDepth ∧ p.fifoDepth < 2 * p.wlChunk ∧ p.fifoDepth ≤ 511
    ∧ 0 < p.fcPerMs ∧ 0 < p.gptUnit ∧ 8 * p.anticollFrameLen < 65536
    ∧ [p.irqPos.fwl, p.irqPos.txe, p.irqPos.rxs, p.irqPos.rxe, p.irqPos.nre, p.irqPos.gpe,
        p.irqPos.rxRest, p.irqPos.crc, p.irqPos.par, p.irqPos.errHard, p.irqPos.errSoft,
        p.irqPos.col].Nodup)

end Machine

end Sys2Proof
end

