-- ==== Sys2Proof/Machine/Flags.lean ====
section
/-! DEFINITION. The condition state of the block (10_state.md rule R42): interrupt masks, the exchange
flag bits, the FIFO status decode, the RF error classifier. -/

namespace Sys2Proof.Machine

open Sys2Proof.Config (Params)

/-! ## Interrupt masks (30 R84) -/

/-- `IRQ_POS(name)`. -/
def irqPos (p : Params) : Irq → Fin 32
  | .fwl => p.irqPos.fwl
  | .txe => p.irqPos.txe
  | .rxs => p.irqPos.rxs
  | .rxe => p.irqPos.rxe
  | .nre => p.irqPos.nre
  | .gpe => p.irqPos.gpe
  | .rxRest => p.irqPos.rxRest
  | .crc => p.irqPos.crc
  | .par => p.irqPos.par
  | .errHard => p.irqPos.errHard
  | .errSoft => p.irqPos.errSoft
  | .col => p.irqPos.col

/-- The mask with one interrupt's bit. -/
def irqBit (p : Params) (i : Irq) : Word := 1#32 <<< (irqPos p i).val

/-- `TX_IRQS`. -/
def txIrqs (p : Params) : Word := irqBit p .fwl ||| irqBit p .txe

/-- `RX_IRQS`. -/
def rxIrqs (p : Params) : Word :=
  irqBit p .rxs ||| irqBit p .rxe ||| irqBit p .nre ||| irqBit p .rxRest ||| irqBit p .fwl

/-- `ERR_IRQS`. -/
def errIrqs (p : Params) : Word :=
  irqBit p .crc ||| irqBit p .par ||| irqBit p .errHard ||| irqBit p .errSoft ||| irqBit p .col

/-- `EXCH_IRQS`. -/
def exchIrqs (p : Params) : Word := txIrqs p ||| rxIrqs p ||| errIrqs p

/-- The interrupt is in the mask. -/
def hasIrq (p : Params) (m : Word) (i : Irq) : Bool := m &&& irqBit p i != 0

/-- `raw` of one drain iteration (40 R103). -/
def rawStatus (b0 b1 b2 : Byte) : Word := (b2 ++ b1 ++ b0).setWidth 32

/-- `mk = ~enabled[8k+7:8k]` (40 R101). -/
def maskByte (enabled : Word) (k : Fin 3) : Byte := ~~~(enabled.extractLsb' (8 * k.val) 8)

/-- Bits 31:24 of a mask have no chip register (30 R84). -/
def chipIrqs : Word := 0x00FFFFFF

/-! ## Exchange flags (10 R29) -/

/-- The flag bits that are reserved: 31:7. -/
def flagsReserved (flags : Word) : Word := flags &&& 0xFFFFFF80

/-- `NO_TX_PAR`. -/
def flagNoTxPar (flags : Word) : Bool := flags.getLsbD 0

/-- `CRC_TX_MANUAL`. -/
def flagCrcTxManual (flags : Word) : Bool := flags.getLsbD 1

/-- `CRC_RX_KEEP`. -/
def flagCrcRxKeep (flags : Word) : Bool := flags.getLsbD 2

/-- `CRC_RX_MANUAL`. -/
def flagCrcRxManual (flags : Word) : Bool := flags.getLsbD 3

/-- `PAR_RX_KEEP`. -/
def flagParRxKeep (flags : Word) : Bool := flags.getLsbD 4

/-- `AGC_OFF`. -/
def flagAgcOff (flags : Word) : Bool := flags.getLsbD 5

/-- `NFCIP1`. -/
def flagNfcip1 (flags : Word) : Bool := flags.getLsbD 6

/-- `AC_FLAGS = CRC_TX_MANUAL | CRC_RX_KEEP | CRC_RX_MANUAL` (46 R240). -/
def acFlags : Word := 0x0000000E

/-- `flagCfg(mode, flags, cd)` (44 R186). -/
def flagCfg (p : Params) (mode : Mode) (flags : Word) (cd : Bool) : Cfg :=
  let d := modeDefaults p mode
  { txParity := d.txParity && !flagNoTxPar flags
    txCrc := d.txCrc && !flagCrcTxManual flags
    rxCrcCheck := d.rxCrcCheck && !flagCrcRxManual flags
    rxParityKeep := flagParRxKeep flags
    agc := d.agc && !flagAgcOff flags
    nfcip1 := flagNfcip1 flags
    collDetect := cd }

/-! ## FIFO status decode (43 R162) -/

/-- `numBytes`: 9 bits, the high one from status 2. -/
def numBytes (p : Params) (f : FifoStatus) : Nat :=
  f.st1.toNat + if f.st2.getLsbD p.fs2.b8.val then 256 else 0

/-- `incBits`: 3 bits of status 2. -/
def incBits (p : Params) (f : FifoStatus) : Nat := (f.st2.extractLsb' p.fs2.lbLo.val 3).toNat

/-- `missingPar`: 1 bit of status 2. -/
def missingPar (p : Params) (f : FifoStatus) : Bool := f.st2.getLsbD p.fs2.np.val

/-! ## The RF error classifier (45 R206) -/

/-- The error interrupts part of `classify`, in the order of 45 R206; `none` for a clean end of receive. -/
def classifyIrqs (p : Params) (errIrq : Word) : Option Status :=
  if hasIrq p errIrq .errHard then some .framing
  else if hasIrq p errIrq .errSoft then some .framing
  else if hasIrq p errIrq .par then some .parity
  else if hasIrq p errIrq .col then some .rfCollision
  else if hasIrq p errIrq .crc then some .crc
  else none

/-- The FIFO status part of `classify`: what a clean end of receive is reclassified as; `none` is
`CLEAN`. -/
def classifyFifo (p : Params) (f : FifoStatus) : Option Status :=
  if incBits p f ≠ 0 then some .incompleteByte
  else if missingPar p f then some .framing
  else none

/-- `EMD_ELIGIBLE` (45 R210). -/
def emdEligible (cfg : Cfg) : Status → Bool
  | .framing | .parity | .crc => true
  | .rfCollision => !cfg.collDetect
  | .none | .nomem | .busy | .io | .timeout | .system | .wrongState | .invalidParam
  | .notSupported | .notImplemented | .hwMismatch | .incompleteByte => false

/-- `strip` (45 R214), with `k` the incomplete bits of the final FIFO status. -/
def stripCrc (p : Params) (mode : Mode) (flags : Word) (k : Nat) : Bool :=
  modeRxHasCrc p mode && !flagCrcRxKeep flags && k == 0

end Sys2Proof.Machine
end

