-- ==== Sys2Proof/Machine/Update.lean ====
section
/-! DEFINITION. One named update per field of State. The rules' `s.f <- v` is written with these, so that
Laws/State.lean can say once what each leaves alone. -/

namespace Sys2Proof.Machine

/-- 10 R21. -/
def State.setLifecycle (s : State) (v : Lifecycle) : State := { s with lifecycle := v }

/-- 10 R22. -/
def State.setMode (s : State) (v : Mode) : State := { s with mode := v }

/-- 10 R22. -/
def State.setRates (s : State) (tx rx : Byte) : State := { s with txBR := tx, rxBR := rx }

/-- 10 R23. -/
def State.setFdtPoll (s : State) (v : Word) : State := { s with fdtPoll := v }

/-- 10 R23. -/
def State.setFdtListen (s : State) (v : Word) : State := { s with fdtListen := v }

/-- 10 R23. -/
def State.setGt (s : State) (v : Word) : State := { s with gt := v }

/-- 10 R24. -/
def State.setFieldOn (s : State) (v : Bool) : State := { s with fieldOn := v }

/-- 10 R25. -/
def State.setGtTimer (s : State) (v : GtTimer) : State := { s with gtTimer := v }

/-- 10 R26. -/
def State.setTxrx (s : State) (v : TxrxState) : State := { s with txrxState := v }

/-- 10 R27. -/
def State.setStatus (s : State) (v : Status) : State := { s with status := v }

/-- 10 R28. -/
def State.setCtx (s : State) (v : Ctx) : State := { s with ctx := v }

/-- 10 R30. -/
def State.setFifo (s : State) (total written : Nat) : State := { s with fifo := { bytesTotal := total, bytesWritten := written } }

/-- 10 R32. -/
def State.setFifoStatus (s : State) (v : FifoStatus) : State := { s with fifoStatus := v }

/-- 10 R33. -/
def State.setEnabled (s : State) (v : Word) : State := { s with irq := { s.irq with enabled := v } }

/-- 10 R33. -/
def State.setPending (s : State) (v : Word) : State := { s with irq := { s.irq with pending := v } }

/-- 10 R33. -/
def State.setIrqCallback (s : State) (v : Option Byte) : State := { s with irq := { s.irq with callback := v } }

/-- 10 R34. -/
def State.setHwMask (s : State) (v : HwMask) : State := { s with hwMask := v }

/-- 10 R35. -/
def State.setNrt (s : State) (v : Nrt) : State := { s with nrt := v }

/-- 10 R36. -/
def State.setGptPreload (s : State) (v : Half) : State := { s with gptPreload := v }

/-- 10 R37. -/
def State.setCfg (s : State) (v : Cfg) : State := { s with cfg := v }

/-- 10 R38. -/
def State.setObs (s : State) (v : Obs) : State := { s with obs := v }

/-- 10 R39. -/
def State.setCb (s : State) (v : Callbacks) : State := { s with cb := v }

/-- 10 R40. -/
def State.setEmd (s : State) (v : Emd) : State := { s with emd := v }

/-- 20 R60. -/
def State.setMem (s : State) (v : List Host.Cell) : State := { s with mem := v }

/-- 41 R124. -/
def State.setClock (s : State) (v : Nat) : State := { s with clockMs := v }

/-- 30 R80. -/
def State.setPort (s : State) (v : List (List Byte)) : State := { s with port := v }

/-- 30 R80. -/
def State.setResponse (s : State) (v : List Byte) : State := { s with response := v }

/-- the loop command in progress. -/
def State.setRunning (s : State) (v : Option Running) : State := { s with running := v }

/-- 20 R66, 00 R11: events are recorded in the order issued, the newest at the front. -/
def State.log (s : State) (e : Event) : State := { s with trace := e :: s.trace }

/-- the environment's coming answers. -/
def State.setEnv (s : State) (v : Env) : State := { s with env := v }

end Sys2Proof.Machine
end

