-- ==== Sys2Proof/Machine/Ops.lean ====
section
/-! DEFINITION. The shared operations of the block: draws, host memory, bus events, the drain and the ISR
agent, the aggregator's atomic steps, the FIFO status cache, the timers, and the terminal cleanup
`exchangeEnd` (the block has no trap: 60_exceptions.md rule R279 names it as the nearest analogue). -/

namespace Sys2Proof.Machine

open Sys2Proof.Config (Params)

/-- Why a rule does not run to its end: a model fault (60 R273), or a drain that never ends, with the
state it loops in (93 I50). -/
inductive Stop where
  | fault (f : Fault)
  | hang (s : State)
  deriving Repr

/-- A computation of the block that may stop. -/
abbrev Run (α : Type) := Except Stop α

/-- The command loops on: it has not returned, and no response is on the port. -/
def loopOn (r : Running) (s : State) : State := (s.setResponse []).setRunning (some r)

/-- The step's outcome of a whole command. A drain that never ends leaves the command in progress for
good. -/
def settle : Run State → Host.Outcome State Fault Refusal
  | .ok s => .next s
  | .error (.fault f) => .fault f
  | .error (.hang s) => .next (loopOn .hung s)

/-- The command's response: its status byte, then its result fields (30 R80); the command has returned. -/
def reply (st : Status) (results : List Byte) (s : State) : State :=
  (s.setResponse (st.code :: results)).setRunning none

/-! ## Draws (00 R7, R11) -/

/-- The front of a script, or the free value past its end. -/
def Env.takeReg (e : Env) : Byte × Env :=
  match e.regs with
  | b :: rest => (b, { e with regs := rest })
  | [] => (Config.freeByte e.draws, { e with draws := e.draws + 1 })

/-- One byte popped from the chip FIFO. -/
def Env.takeFifoByte (e : Env) : Byte × Env :=
  match e.fifo with
  | b :: rest => (b, { e with fifo := rest })
  | [] => (Config.freeByte e.draws, { e with draws := e.draws + 1 })

/-- `n` bytes popped from the chip FIFO, in first-in first-out order (20 R60). -/
def Env.takeFifo : Nat → Env → List Byte × Env
  | 0, e => ([], e)
  | n + 1, e =>
    let (b, e) := e.takeFifoByte
    let (bs, e) := Env.takeFifo n e
    (b :: bs, e)

/-- One status bit of the chip. -/
def Env.takeChipBit (e : Env) : Bool × Env :=
  match e.chipBits with
  | b :: rest => (b, { e with chipBits := rest })
  | [] => (Config.freeBit e.draws, { e with draws := e.draws + 1 })

/-- One answer of the sync gate. -/
def Env.takeSync (e : Env) : Bool × Env :=
  match e.sync with
  | b :: rest => (b, { e with sync := rest })
  | [] => (Config.freeBit e.draws, { e with draws := e.draws + 1 })

/-- The milliseconds the host clock has moved since its last reading: never negative, no rate. -/
def Env.takeElapsed (e : Env) : Nat × Env :=
  match e.clock with
  | n :: rest => (n, { e with clock := rest })
  | [] => (Config.freeElapsed e.draws, { e with draws := e.draws + 1 })

/-- `HostClockMs()` (41 R124), monotonic non-decreasing. -/
def readClock (s : State) : Nat × State :=
  let (n, e) := s.env.takeElapsed
  (s.clockMs + n, (s.setEnv e).setClock (s.clockMs + n))

/-- `ChipStatus(name)` (00 R11), a draw without side effect (20 R68). -/
def chipStatus (s : State) : Bool × State :=
  let (b, e) := s.env.takeChipBit
  (b, s.setEnv e)

/-- `SyncCallback` (44 R177). -/
def syncAnswer (s : State) : Bool × State :=
  let (b, e) := s.env.takeSync
  (b, s.setEnv e)

/-! ## Host memory (20_memory.md) -/

/-- What a byte nothing has written reads as. DESIGN CHOICE: 0 (log 9). -/
def Memory.unlisted : Byte := 0

/-- The byte at an address. -/
def Memory.load : List Host.Cell → Nat → Byte
  | [], _ => Memory.unlisted
  | (a, b) :: m, x => if x = a then b else Memory.load m x

/-- The memory with one byte written, in the canonical form. -/
def Memory.store (x : Nat) (v : Byte) : List Host.Cell → List Host.Cell
  | [] => if v = Memory.unlisted then [] else [(x, v)]
  | (a, b) :: m =>
    if x < a then (if v = Memory.unlisted then (a, b) :: m else (x, v) :: (a, b) :: m)
    else if x = a then (if v = Memory.unlisted then m else (x, v) :: m)
    else (a, b) :: Memory.store x v m

/-- Every address of the list is above `x`, strictly rising, and no entry reads as an unlisted one. -/
def Memory.above : List Host.Cell → Nat → Bool
  | [], _ => true
  | (a, b) :: m, x => decide (x < a) && b != Memory.unlisted && Memory.above m a

/-- The canonical form of host memory. -/
def Memory.wf : List Host.Cell → Bool
  | [] => true
  | (a, b) :: m => b != Memory.unlisted && Memory.above m a

/-- The address of byte `i` of a region (20 R61): regions do not overlap, since no region is larger than
the range of a `ref` offset. -/
def hostAddr (region : Byte) (i : Nat) : Nat := region.toNat * 2 ^ 32 + i

/-- Byte `i` of a buffer, whatever its region's size. -/
def bufByte (m : List Host.Cell) (b : BufRef) (i : Nat) : Byte :=
  Memory.load m (hostAddr b.region (b.offset + i))

/-- `n` bytes of a buffer from index `i`. -/
def bufBytes (m : List Host.Cell) (b : BufRef) (i : Nat) : Nat → List Byte
  | 0 => []
  | n + 1 => bufByte m b i :: bufBytes m b (i + 1) n

/-- The memory with a list of bytes written into a buffer from index `i`. -/
def storeBytes (b : BufRef) (i : Nat) : List Byte → List Host.Cell → List Host.Cell
  | [], m => m
  | v :: vs, m => storeBytes b (i + 1) vs (Memory.store (hostAddr b.region (b.offset + i)) v m)

/-- Bytes `i .. i+n−1` of the buffer lie in its region (20 R61, R62). -/
def inBounds (p : Params) (b : BufRef) (i n : Nat) : Bool :=
  decide (b.offset + i + n ≤ regionSize p b.region)

/-- `MemRead(buf, i, n)` (20 R62): an access outside the region, or through a null buffer, faults. No
byte is no access. -/
def memRead (buf : Option BufRef) (i n : Nat) (s : State) : Run (List Byte) :=
  if n = 0 then .ok []
  else match buf with
    | none => .error (.fault .bufferBounds)
    | some b => if inBounds s.params b i n then .ok (bufBytes s.mem b i n) else .error (.fault .bufferBounds)

/-- `MemWrite(buf, i, |bytes|, bytes)` (20 R62). -/
def memWrite (buf : Option BufRef) (i : Nat) (bytes : List Byte) (s : State) : Run State :=
  if bytes = [] then .ok s
  else match buf with
    | none => .error (.fault .bufferBounds)
    | some b =>
      if inBounds s.params b i bytes.length then .ok (s.setMem (storeBytes b i bytes s.mem))
      else .error (.fault .bufferBounds)

/-- `MemRead8(cell)`, `buf[i]` (46 R240). -/
def memRead8 (buf : Option BufRef) (i : Nat) (s : State) : Run Byte := do
  let bytes ← memRead buf i 1 s
  pure (bytes.headD Memory.unlisted)

/-- `MemWrite8(cell, v)`, `buf[i] <- v` (46 R245). -/
def memWrite8 (buf : Option BufRef) (i : Nat) (v : Byte) (s : State) : Run State :=
  memWrite buf i [v] s

/-- The two bytes of a 16-bit host cell, in the host's layout (20 R64, log 10). -/
def cellBytes (p : Params) (v : Half) : List Byte :=
  if p.cellLowFirst then [v.extractLsb' 0 8, v.extractLsb' 8 8]
  else [v.extractLsb' 8 8, v.extractLsb' 0 8]

/-- `MemWrite16(cell, v)` (20 R63): one value, and only where the cell is given. -/
def memWrite16 (cell : Option BufRef) (v : Half) (s : State) : Run State :=
  match cell with
  | none => .ok s
  | some _ => memWrite cell 0 (cellBytes s.params v) s

/-! ## Bus events (20 R66) -/

/-- `BusRegWrite(r, v)`. -/
def busWrite (r : Reg) (v : RegValue) (s : State) : State := s.log (.regWrite r v)

/-- `BusRegWrite16(r, v)`. -/
def busWrite16 (r : Reg) (v : Half) (s : State) : State := s.log (.regWrite16 r v)

/-- `BusCmd(c)`. -/
def busCmd (c : ChipCmd) (s : State) : State := s.log (.cmd c)

/-- The no-response timer is off: an exchange whose NRT was written 0 (41 R130, R131, 93 I34). There the Chip
raises no NRE (41 R131, 93 I33) and `nrtRunning` reads false (45 R204, 93 I53). log 12. -/
def nrtOff (s : State) : Bool := s.txrxState != .idle && s.nrt.regVal == 0

/-- The answer of a register, given the Chip's draw: an interrupt status register shows no NRE where the
Chip raises none; every other draw is the answer. -/
def chipAnswer (s : State) (r : Reg) (v : Byte) : Byte :=
  match r with
  | .irqStatus k => if nrtOff s then v &&& ~~~((irqBit s.params .nre).extractLsb' (8 * k.val) 8) else v
  | _ => v

/-- `BusRegRead(r)`: a Chip draw (20 R66). -/
def busRead (r : Reg) (s : State) : Byte × State :=
  let (v, e) := s.env.takeReg
  let v := chipAnswer s r v
  (v, (s.setEnv e).log (.regRead r v))

/-- `ChipStatus(nrtRunning)` (45 R204): the Chip's draw, but false where the NRT is off. 41 R131 and 93 I33 alone
would leave it free; 45 R204's corner, 70 R304 and 93 I53 fix it for FWT_FOREVER. log 12. -/
def nrtRunning (s : State) : Bool × State :=
  let (b, s) := chipStatus s
  (b && !nrtOff s, s)

/-- `FifoWrite(bytes)` (20 R66, R67): longer than the FIFO transfers nothing. -/
def fifoWrite (bytes : List Byte) (s : State) : Status × State :=
  if bytes.length ≤ s.params.fifoDepth then (.none, s.log (.fifoWrite bytes)) else (.invalidParam, s)

/-- `FifoRead(n)` (20 R66, R67, R68). -/
def fifoRead (n : Nat) (s : State) : Status × List Byte × State :=
  if n ≤ s.params.fifoDepth then
    let (bytes, e) := s.env.takeFifo n
    (.none, bytes, (s.setEnv e).log (.fifoRead bytes))
  else (.invalidParam, [], s)

/-- The `FRAME_CFG` write that records the whole `cfg` (42 R145). -/
def writeFrameCfg (s : State) : State := busWrite .frameCfg (.frameCfg s.cfg) s

/-- `s.cfg <- c` and its `FRAME_CFG` write. -/
def setFrameCfg (c : Cfg) (s : State) : State := writeFrameCfg (s.setCfg c)

/-! ## The aggregator's atomic steps (40_interrupt_aggregator.md) -/

/-- One drain iteration: the three status reads, then the OR of the enabled bits (40 R104). -/
def drainOnce (s : State) : State :=
  let (b0, s) := busRead (.irqStatus 0) s
  let (b1, s) := busRead (.irqStatus 1) s
  let (b2, s) := busRead (.irqStatus 2) s
  s.setPending (s.irq.pending ||| (rawStatus b0 b1 b2 &&& s.irq.enabled))

/-- The samples of the line not yet used. -/
def setLine (line : List Bool) (s : State) : State := s.setEnv { s.env with line }

/-- `while line = high`, the line sampled afresh each iteration (40 R104): the scripted samples, at most `n` of
them, then the level the line rests at, and a line that rests high never lets the drain end. `point` comes
before each iteration's read-and-OR, which is one atomic step (20 R70). -/
def drainLoop (point : State → Run State) : Nat → State → Run State
  | 0, s => if s.env.lineRest then .error (.hang s) else .ok s
  | n + 1, s =>
    match s.env.line with
    | [] => if s.env.lineRest then .error (.hang s) else .ok s
    | false :: rest => .ok (setLine rest s)
    | true :: rest => do
      let s ← point (setLine rest s)
      drainLoop point n (drainOnce s)

/-- A drain over all the samples of the script. -/
def drainWith (point : State → Run State) (s : State) : Run State :=
  drainLoop point s.env.line.length s

/-- The ISR agent's step: drain, then the registered callback (40 R107). It never runs inside another one, so
its own drain has no point. -/
def isrBody (s : State) : Run State := do
  let s ← drainWith .ok s
  match s.irq.callback with
  | none => pure s
  | some cb => pure (s.log (.irqCallback cb))

/-- The edges not yet used. -/
def setEdges (edges : List Bool) (s : State) : State := s.setEnv { s.env with edges }

/-- The ISR agent runs once for each edge of the script before the next `false`. -/
def isrLoop : List Bool → State → Run State
  | [], s => .ok (setEdges [] s)
  | false :: rest, s => .ok (setEdges rest s)
  | true :: rest, s => do
    let s ← isrBody s
    isrLoop rest s

/-- A point of a command where the ISR agent may run (20 R70): before an atomic aggregator step. In build
POLLED the ISR agent has no step (40 R107). log 6. -/
def isrPoint (s : State) : Run State :=
  match s.params.irqBuild with
  | .polled => .ok s
  | .isr => isrLoop s.env.edges s

/-- The drain of a Host command (40 R104): the ISR agent may run between any two of its iterations (00 R7,
20 R70). log 6. -/
def drain (s : State) : Run State := drainWith isrPoint s

/-- `get(mask)`, the consuming read: one atomic step (40 R105, 20 R73). -/
def getIrq (mask : Word) (s : State) : Word × State :=
  (s.irq.pending &&& mask, s.setPending (s.irq.pending &&& ~~~mask))

/-- The engine's `get(mask)`, with the point before it. -/
def engineGet (mask : Word) (s : State) : Run (Word × State) := do
  let s ← isrPoint s
  pure (getIrq mask s)

/-- Entry `k` of the mask record. -/
def HwMask.get (m : HwMask) (k : Fin 3) : Byte :=
  match k with
  | 0 => m.m0
  | 1 => m.m1
  | 2 => m.m2

/-- The mask record with entry `k` replaced. -/
def HwMask.set (m : HwMask) (k : Fin 3) (v : Byte) : HwMask :=
  match k with
  | 0 => { m with m0 := v }
  | 1 => { m with m1 := v }
  | 2 => { m with m2 := v }

/-- Write mask register `k` if its record differs (40 R101). -/
def syncMask (k : Fin 3) (mk : Byte) (s : State) : State :=
  if mk = s.hwMask.get k then s
  else (busWrite (.irqMask k) (.byte mk) s).setHwMask (s.hwMask.set k mk)

/-- The enable mask replaced, writing only the mask bytes that changed: one atomic step (40 R101, R102). -/
def setEnableMask (new : Word) (s : State) : State :=
  (syncMask 2 (maskByte new 2) (syncMask 1 (maskByte new 1) (syncMask 0 (maskByte new 0) s))).setEnabled new

/-- `IRQ_ENABLE(mask)` (40 R101). -/
def irqEnable (mask : Word) (s : State) : State := setEnableMask (s.irq.enabled ||| mask) s

/-- `IRQ_DISABLE(mask)` (40 R102). -/
def irqDisable (mask : Word) (s : State) : State := setEnableMask (s.irq.enabled &&& ~~~mask) s

/-- `IRQ_ENABLE(mask)` inside a command, with the point before it. -/
def engineEnable (mask : Word) (s : State) : Run State := do
  let s ← isrPoint s
  pure (irqEnable mask s)

/-- `IRQ_DISABLE(mask)` inside a command, with the point before it. -/
def engineDisable (mask : Word) (s : State) : Run State := do
  let s ← isrPoint s
  pure (irqDisable mask s)

/-! ## The FIFO status cache (43_fifo_status.md) -/

/-- Both status bytes fetched into the cache, status 1 first (43 R161). -/
def fetchFifoStatus (s : State) : State :=
  let (st1, s) := busRead .fifoStatus1 s
  let (st2, s) := busRead .fifoStatus2 s
  s.setFifoStatus { valid := true, st1, st2 }

/-- `fsClear()` (43 R163). -/
def fsClear (s : State) : State := s.setFifoStatus { s.fifoStatus with valid := false }

/-- `numBytes` of the cache. -/
def fifoCount (s : State) : Nat := numBytes s.params s.fifoStatus

/-- `incBits` of the cache. -/
def fifoIncBits (s : State) : Nat := incBits s.params s.fifoStatus

/-- `fsUpdate()` (43 R161): a fetch only where the cache is invalid. A count draw above FIFO_DEPTH faults,
whoever asks (20 R67, 43 R162, 93 I41). log 11. -/
def fsUpdate (s : State) : Run State :=
  if s.fifoStatus.valid then .ok s
  else
    let s := fetchFifoStatus s
    if fifoCount s ≤ s.params.fifoDepth then .ok s else .error (.fault .chipRange)

/-! ## Timers (41_timing.md) -/

/-- `gtStart(ms)` (41 R125). -/
def gtStart (ms : Nat) (s : State) : State :=
  let (t, s) := readClock s
  s.setGtTimer { armed := true, startMs := t, durMs := ms }

/-- `s.gtTimer.armed <- false`. -/
def gtDisarm (s : State) : State := s.setGtTimer { s.gtTimer with armed := false }

/-- `gtIsExpired()` (41 R126). -/
def gtIsExpired (s : State) : Bool × State :=
  let (t, s) := readClock s
  (decide (s.gtTimer.durMs ≤ t - s.gtTimer.startMs), s)

/-- NRT programming (41 R130). -/
def programNrt (s : State) : State :=
  let n := nrtFor s.params s.mode s.ctx.fwt
  if s.ctx.fwt = Config.fwtForever then (busWrite16 .nrt 0 s).setNrt n
  else
    let step : Byte := match n.step with
      | .s64 => 0
      | .s4096 => 1
    (busWrite16 .nrt n.regVal (busWrite .nrtStep (.byte step) s)).setNrt n

/-- GPT programming (41 R133). -/
def programGpt (s : State) : State :=
  let g := gptFor s.params s.mode s.fdtPoll
  busWrite16 .gpt g (s.setGptPreload g)

/-! ## The terminal cleanup (44 R197) -/

/-- Observation mode switched off where it is active. -/
def obsOff (s : State) : State :=
  if s.obs.active then (busCmd .obsOff s).setObs { s.obs with active := false } else s

/-- Emit a callback event if one is registered. -/
def emitCallback (cb : Option Byte) (mk : Byte → Event) (s : State) : State :=
  match cb with
  | none => s
  | some c => s.log (mk c)

/-- `exchangeEnd()` (44 R197, R198): the cleanup of every exchange exit, in the order of R197's pseudocode,
where 60 R279 lists the same changes in another order. log 27. It writes no status. -/
def exchangeEnd (s : State) : Run State := do
  let s := obsOff s
  let s := setFrameCfg { modeDefaults s.params s.mode with collDetect := s.cfg.collDetect } s
  let s ← engineDisable (exchIrqs s.params) s
  let s := emitCallback s.cb.post .postCallback s
  pure ((s.setTxrx .idle).setLifecycle .modeSet)

/-- A FAIL terminal "forces a system error if status wasn't already set" (44 R183, 45 R218). -/
def failStatus (s : State) : State := if s.status = .busy then s.setStatus .system else s

/-! ## Reset inside a run (70 R290) -/

/-- `RESET_STATE` keeping `(cb, irq.callback, obs.configured, emd)` (47 R250, R251). The chip, host
memory, the clock, the port and the trace are not part of the block state. -/
def resetKeeping (s : State) : State :=
  { State.reset with
    irq := { State.reset.irq with callback := s.irq.callback }
    obs := { configured := s.obs.configured, active := false }
    cb := s.cb
    emd := s.emd
    mem := s.mem
    clockMs := s.clockMs
    port := s.port
    response := s.response
    running := s.running
    trace := s.trace
    env := s.env
    params := s.params }

end Sys2Proof.Machine
end

