-- ==== Sys2Proof/Machine/Aggregator.lean ====
section
/-! DEFINITION. The interrupt aggregator's commands (40_interrupt_aggregator.md). -/

namespace Sys2Proof.Machine

/-- IRQ_ENABLE (40 R101). -/
def execIrqEnable (mask : Word) (s : State) : Host.Outcome State Fault Refusal :=
  .next (reply .none [] (irqEnable mask s))

/-- IRQ_DISABLE (40 R102): pending bits stay. -/
def execIrqDisable (mask : Word) (s : State) : Host.Outcome State Fault Refusal :=
  .next (reply .none [] (irqDisable mask s))

/-- IRQ_POLL (40 R104), with the points of the ISR agent inside its drain (20 R70, log 6). -/
def execIrqPoll (s : State) : Host.Outcome State Fault Refusal :=
  settle do
    let s ← drain s
    pure (reply .none [] s)

/-- IRQ_GET (40 R105). -/
def execIrqGet (mask : Word) (s : State) : Host.Outcome State Fault Refusal :=
  let (r, s) := getIrq mask s
  .next (reply .none (encU32 r) s)

/-- One iteration of IRQ_WAIT's loop (40 R106): drain, consume, look at the clock. A loop that has
neither matched nor timed out is still in progress. log 8. -/
def waitIteration (mask timeoutMs : Word) (t0 : Nat) (s : State) : Run State := do
  let s ← drain s
  let (r, s) ← engineGet mask s
  if r ≠ 0 then pure (reply .none (encU32 r) s)
  else if timeoutMs = 0 then pure (loopOn (.irqWait mask timeoutMs t0) s)
  else
    let (t, s) := readClock s
    if timeoutMs.toNat ≤ t - t0 then pure (reply .none (encU32 0) s)
    else pure (loopOn (.irqWait mask timeoutMs t0) s)

/-- IRQ_WAIT (40 R106): `t0`, then the loop's first iteration. -/
def execIrqWait (mask timeoutMs : Word) (s : State) : Host.Outcome State Fault Refusal :=
  let (t0, s) := readClock s
  settle (waitIteration mask timeoutMs t0 s)

/-- IRQ_ISR (40 R107), the ISR agent's step. In build POLLED that agent has no step. It answers nothing
on the host's port. log 7. -/
def execIrqIsr (s : State) : Host.Outcome State Fault Refusal :=
  match s.params.irqBuild with
  | .polled => .next s
  | .isr => settle (isrBody s)

/-- SET_IRQ_CB (40 R108). -/
def execSetIrqCb (cb : Option Byte) (s : State) : Host.Outcome State Fault Refusal :=
  .next (reply .none [] (s.setIrqCallback cb))

end Sys2Proof.Machine
end

