-- ==== Sys2Proof/Machine/TxEngine.lean ====
section
/-! DEFINITION. Starting an exchange and the TX states (44_transceive_tx.md). Each state's action is one
function; `.go` continues the tick in the state it has set, `.yield` ends it. -/

namespace Sys2Proof.Machine

/-- How a state's action ends (44 R171). -/
inductive Flow where
  /-- `goto`: the tick continues. `errIrq` is the tick-local value of 45 R203, 0 where it is not set. -/
  | go (errIrq : Word)
  /-- `yield`: the tick ends. -/
  | yield
  deriving DecidableEq, Repr

/-- `goto S`. -/
def goTo (next : TxrxState) (s : State) : Run (Flow × State) := .ok (.go 0, s.setTxrx next)

/-- `yield`, staying in the state as it is. -/
def yieldIn (s : State) : Run (Flow × State) := .ok (.yield, s)

/-- `exchangeEnd()`, which yields (44 R197). -/
def endExchange (s : State) : Run (Flow × State) := do
  let s ← exchangeEnd s
  yieldIn s

/-! ## Start (44 R170) -/

/-- The checks of START_TRANSCEIVE in their order; `none` is accepted. -/
def startCheck (c : Ctx) (s : State) : Option Status :=
  if s.lifecycle.rank < Lifecycle.modeSet.rank ∨ s.txrxState ≠ .idle then some .wrongState
  else if c.txBuf ≠ none ∧ s.fieldOn = false then some .wrongState
  else if flagsReserved c.flags ≠ 0 then some .invalidParam
  else if c.txBuf ≠ none ∧ (c.txBufLen = 0 ∨ s.params.maxTxBits < c.txBufLen.toNat) then
    some .invalidParam
  else if c.txBuf = none ∧ c.rxBuf = none then some .invalidParam
  else none

/-- The chip set up for the exchange: context, pre-callback, frame configuration, timers (44 R170). -/
def startProgram (c : Ctx) (s : State) : State :=
  let s := emitCallback s.cb.pre .preCallback (s.setCtx c)
  let s := setFrameCfg (flagCfg s.params s.mode c.flags s.cfg.collDetect) s
  programGpt (programNrt s)

/-- The accepted start (44 R170). `txrxState` and `lifecycle` are assigned before the aggregator steps,
so that the Chip already raises no NRE of an untimed exchange at the points between them; no rule reads
them there. log 24. -/
def startAccepted (c : Ctx) (s : State) : Run State := do
  let s := startProgram c s
  let s := (s.setTxrx (if c.txBuf ≠ none then .txIdle else .rxIdle)).setLifecycle .txrx
  let (_, s) ← engineGet (exchIrqs s.params) s
  let s ← engineEnable (exchIrqs s.params) s
  pure (s.setStatus .busy)

/-- START_TRANSCEIVE's body: its status and the state after it (44 R170). -/
def start (c : Ctx) (s : State) : Run (Status × State) :=
  match startCheck c s with
  | some st => .ok (st, s)
  | none => do
    let s ← startAccepted c s
    pure (.none, s)

/-! ## TX states -/

/-- TX_IDLE (44 R172). -/
def txIdle (s : State) : Run (Flow × State) := goTo .txWaitGt s

/-- TX_WAIT_GT (44 R173): the clock is read only while the stopwatch is armed. -/
def txWaitGt (s : State) : Run (Flow × State) :=
  if s.gtTimer.armed then
    let (expired, s) := gtIsExpired s
    if expired then goTo .txWaitFdt (gtDisarm s) else yieldIn s
  else goTo .txWaitFdt (gtDisarm s)

/-- TX_WAIT_FDT (44 R174): polls `gptRunning`. -/
def txWaitFdt (s : State) : Run (Flow × State) :=
  let (gptRunning, s) := chipStatus s
  if gptRunning then yieldIn s else goTo .txPrepTx s

/-- Observation mode switched on where it is configured (44 R176). -/
def obsOn (s : State) : State :=
  if s.obs.configured then (busCmd .obsOn s).setObs { s.obs with active := true } else s

/-- TX_PREP_TX (44 R176). -/
def txPrepTx (s : State) : Run (Flow × State) := do
  let s := busCmd .resetRxGain s
  let s := fsClear (s.setFifo s.ctx.txBytes 0)
  let s := fsClear (busCmd .clearFifo s)
  let s := busWrite16 .numTxBytes s.ctx.txBufLen s
  let n := min s.ctx.txBytes s.params.fifoDepth
  let bytes ← memRead s.ctx.txBuf 0 n s
  let s := fsClear (fifoWrite bytes s).2
  let s := s.setFifo s.fifo.bytesTotal n
  goTo .txTransmit (obsOn s)

/-- The transmit command and where the frame's rest goes (44 R177). -/
def transmit (s : State) : Run (Flow × State) :=
  let s := busCmd (if s.cfg.txCrc then .transmitWithCrc else .transmitWithoutCrc) s
  if s.fifo.bytesWritten < s.fifo.bytesTotal then goTo .txWaitWl s else goTo .txWaitTxe s

/-- TX_TRANSMIT (44 R177): the sync gate, then the transmit command. -/
def txTransmit (s : State) : Run (Flow × State) :=
  match s.cb.sync with
  | none => transmit s
  | some _ =>
    let (isOpen, s) := syncAnswer s
    if isOpen then transmit s else yieldIn s

/-- TX_WAIT_WL (44 R178). -/
def txWaitWl (s : State) : Run (Flow × State) := do
  let (irq, s) ← engineGet (irqBit s.params .fwl ||| irqBit s.params .txe) s
  if irq = 0 then yieldIn s
  else if irq = irqBit s.params .fwl then goTo .txReloadFifo s
  else goTo .txFail (s.setStatus .io)

/-- TX_RELOAD_FIFO (44 R180). -/
def txReloadFifo (s : State) : Run (Flow × State) := do
  let n := min s.params.wlChunk (s.fifo.bytesTotal - s.fifo.bytesWritten)
  let bytes ← memRead s.ctx.txBuf s.fifo.bytesWritten n s
  let s := fsClear (fifoWrite bytes s).2
  let s := s.setFifo s.fifo.bytesTotal (s.fifo.bytesWritten + n)
  if s.fifo.bytesWritten < s.fifo.bytesTotal then goTo .txWaitWl s else goTo .txWaitTxe s

/-- TX_WAIT_TXE (44 R181): a stray FWL is consumed and ignored. -/
def txWaitTxe (s : State) : Run (Flow × State) := do
  let (irq, s) ← engineGet (irqBit s.params .txe ||| irqBit s.params .fwl) s
  if hasIrq s.params irq .txe then goTo .txDone s else yieldIn s

/-- TX_DONE (44 R182). -/
def txDone (s : State) : Run (Flow × State) :=
  let s := obsOff s
  if s.ctx.rxBuf = none then endExchange (s.setStatus .none) else goTo .rxIdle s

/-- TX_FAIL (44 R183). -/
def txFail (s : State) : Run (Flow × State) := endExchange (failStatus (obsOff s))

end Sys2Proof.Machine
end

