-- ==== Sys2Proof/Machine/RxEngine.lean ====
section
/-! DEFINITION. The RX states, the error classification and the protocol error handling
(45_transceive_rx.md). -/

namespace Sys2Proof.Machine

/-- RX_IDLE (45 R200). -/
def rxIdle (s : State) : Run (Flow × State) := do
  let s := fsClear (s.setFifo 0 0)
  let s ← memWrite16 s.ctx.rxRcvdLen 0 s
  goTo .rxWaitRxs s

/-- RX_WAIT_RXS (45 R202): an NRE taken with RXS is discarded. -/
def rxWaitRxs (s : State) : Run (Flow × State) := do
  let (irq, s) ← engineGet (irqBit s.params .rxs ||| irqBit s.params .nre) s
  if irq = 0 then yieldIn s
  else if hasIrq s.params irq .rxs then goTo .rxWaitRxe s
  else goTo .rxFail (s.setStatus .timeout)

/-- Restart handling (45 R204): NRT expired or off is a timeout, always so where the NRT was written 0
(`nrtRunning`, log 12); else stale errors are discarded and the tick ends, in RX_WAIT_RXE while the receiver is
on, in RX_WAIT_RXS otherwise. -/
def rxRestart (s : State) : Run (Flow × State) := do
  let (nre, s) ← engineGet (irqBit s.params .nre) s
  if nre ≠ 0 then goTo .rxFail (s.setStatus .timeout)
  else
    let (running, s) := nrtRunning s
    if !running then goTo .rxFail (s.setStatus .timeout)
    else
      let (_, s) ← engineGet (errIrqs s.params) s
      let (rxOn, s) := chipStatus s
      if rxOn then yieldIn s else yieldIn (s.setTxrx .rxWaitRxs)

/-- RX_WAIT_RXE (45 R203). -/
def rxWaitRxe (s : State) : Run (Flow × State) := do
  let (irq, s) ← engineGet (irqBit s.params .rxe ||| irqBit s.params .fwl ||| irqBit s.params .rxRest) s
  if irq = 0 then yieldIn s
  else if hasIrq s.params irq .rxe then
    let (err, s) ← engineGet (errIrqs s.params) s
    pure (.go (irqBit s.params .rxe ||| err), s.setTxrx .rxErrCheck)
  else if hasIrq s.params irq .rxRest then rxRestart s
  else goTo .rxReadFifo s

/-- RX_READ_FIFO (45 R205): the overflow part is read and discarded. -/
def rxReadFifo (s : State) : Run (Flow × State) := do
  let (_, bytes, s) := fifoRead s.params.wlChunk s
  let s := fsClear s
  let c := min s.params.wlChunk (s.ctx.capBytes - s.fifo.bytesWritten)
  let s ← memWrite s.ctx.rxBuf s.fifo.bytesWritten (bytes.take c) s
  let s := s.setFifo (s.fifo.bytesTotal + s.params.wlChunk) (s.fifo.bytesWritten + c)
  yieldIn (s.setTxrx .rxWaitRxe)

/-- `classify(errIrq)` (45 R206); `none` is CLEAN. -/
def classify (errIrq : Word) (s : State) : Run (Option Status × State) :=
  match classifyIrqs s.params errIrq with
  | some e => .ok (some e, s)
  | none => do
    let s ← fsUpdate s
    pure (classifyFifo s.params s.fifoStatus, s)

/-- NFC-A short-frame reclassification (45 R208). -/
def nfcaReclassify (s : State) : Run State :=
  if s.mode = .nfca ∧ (s.status = .parity ∨ s.status = .crc) then do
    let s ← fsUpdate s
    if fifoIncBits s ≠ 0 ∧ fifoCount s = Config.incByteLen then pure (s.setStatus .incompleteByte)
    else pure s
  else .ok s

/-- The re-arm of a short malformed reception (45 R209). -/
def emdRearm (s : State) : Run (Flow × State) := do
  let s := fsClear (busCmd .unmaskReceive s)
  let (nre, s) ← engineGet (irqBit s.params .nre) s
  if nre ≠ 0 then goTo .rxFail (s.setStatus .timeout)
  else yieldIn (((s.setStatus .busy).setFifo 0 0).setTxrx .rxWaitRxs)

/-- EMD handling, and RX_READ_DATA where it does not apply (45 R207, R209). -/
def emdHandling (s : State) : Run (Flow × State) :=
  if s.emd.enabled ∧ emdEligible s.cfg s.status then do
    let s ← fsUpdate s
    if fifoCount s < s.emd.maxLen.toNat then emdRearm s else goTo .rxReadData s
  else goTo .rxReadData s

/-- RX_ERR_CHECK (45 R207). -/
def rxErrCheck (errIrq : Word) (s : State) : Run (Flow × State) := do
  let (e, s) ← classify errIrq s
  match e with
  | none => goTo .rxReadData s
  | some e =>
    let s ← nfcaReclassify (s.setStatus e)
    emdHandling s

/-- The bytes of the final read that count as data, and the running total after it (45 R213): the CRC is
stripped from this chunk, or from the total where the chunk is too small to hold it. -/
def countData (strip : Bool) (total n : Nat) : Nat × Nat :=
  if strip then
    if Config.crcLen ≤ n then (n - Config.crcLen, total + (n - Config.crcLen))
    else (0, total + n - Config.crcLen)
  else (n, total + n)

/-- The whole FIFO read out; no byte is no read (45 R213). -/
def readOut (n : Nat) (s : State) : List Byte × State :=
  if n = 0 then ([], s)
  else
    let (_, bytes, s) := fifoRead n s
    (bytes, fsClear s)

/-- The received length in bits (45 R213): whole bytes stored, adjusted for a trailing incomplete byte
where nothing overflowed. -/
def receivedBits (f : Fifo) (cap k : Nat) : Nat :=
  let rcvd := min f.bytesTotal f.bytesWritten
  if k ≠ 0 ∧ 0 < rcvd ∧ f.bytesTotal ≤ cap then 8 * rcvd - 8 + k else 8 * rcvd

/-- RX_READ_DATA (45 R213 to R216). -/
def rxReadData (s : State) : Run (Flow × State) := do
  let s ← fsUpdate s
  let n := fifoCount s
  let k := fifoIncBits s
  let (keep, total) := countData (stripCrc s.params s.mode s.ctx.flags k) s.fifo.bytesTotal n
  let (bytes, s) := readOut n s
  let c := min keep (s.ctx.capBytes - s.fifo.bytesWritten)
  let s ← memWrite s.ctx.rxBuf s.fifo.bytesWritten (bytes.take c) s
  let s := s.setFifo total (s.fifo.bytesWritten + c)
  let s := if s.ctx.capBytes < s.fifo.bytesTotal ∧ s.status = .busy then s.setStatus .nomem else s
  let s ← memWrite16 s.ctx.rxRcvdLen
    (BitVec.ofNat 16 (min (receivedBits s.fifo s.ctx.capBytes k) 0xFFFF)) s
  if s.status ≠ .busy then goTo .rxFail s else goTo .rxDone s

/-- RX_DONE (45 R217). -/
def rxDone (s : State) : Run (Flow × State) := endExchange (s.setStatus .none)

/-- RX_FAIL (45 R218). -/
def rxFail (s : State) : Run (Flow × State) := endExchange (failStatus s)

end Sys2Proof.Machine
end

