-- ==== Sys2Proof/Machine/Exchange.lean ====
section
/-! DEFINITION. The worker tick (44_transceive_tx.md rule R171) and the exchange commands. -/

namespace Sys2Proof.Machine

/-- The action of the rule for `s.txrxState` (44 R171). IDLE has none. -/
def stateAction (errIrq : Word) (s : State) : Run (Flow × State) :=
  match s.txrxState with
  | .idle => yieldIn s
  | .txIdle => txIdle s
  | .txWaitGt => txWaitGt s
  | .txWaitFdt => txWaitFdt s
  | .txPrepTx => txPrepTx s
  | .txTransmit => txTransmit s
  | .txWaitWl => txWaitWl s
  | .txReloadFifo => txReloadFifo s
  | .txWaitTxe => txWaitTxe s
  | .txDone => txDone s
  | .txFail => txFail s
  | .rxIdle => rxIdle s
  | .rxWaitRxs => rxWaitRxs s
  | .rxWaitRxe => rxWaitRxe s
  | .rxErrCheck => rxErrCheck errIrq s
  | .rxReadData => rxReadData s
  | .rxReadFifo => rxReadFifo s
  | .rxDone => rxDone s
  | .rxFail => rxFail s

/-- `repeat … until the action ends with yield` (44 R171), at most `n` actions. -/
def runActions : Nat → Word → State → Run State
  | 0, _, s => .ok s
  | n + 1, errIrq, s => do
    let (flow, s) ← stateAction errIrq s
    match flow with
    | .yield => pure s
    | .go errIrq => runActions n errIrq s

/-- More actions than any tick has (44 R185): the only loop, TX_WAIT_WL and TX_RELOAD_FIFO, needs a fresh
FWL each round, which inside a tick only an ISR edge of the script can bring. log 16. -/
def tickBound (s : State) : Nat := 2 * s.env.edges.length + 32

/-- One worker tick (44 R171): the POLLED build drains first (40 R109). -/
def tick (s : State) : Run State := do
  let s ← match s.params.irqBuild with
    | .polled => drain s
    | .isr => pure s
  runActions (tickBound s) 0 s

/-- START_TRANSCEIVE (44 R170). -/
def execStartTransceive (txBuf : Option Ref) (txBufLen : Half) (rxBuf : Option Ref) (rxBufLen : Half)
    (rxRcvdLen : Option Ref) (flags fwt : Word) (s : State) : Host.Outcome State Fault Refusal :=
  settle do
    let (st, s) ← start (exchangeCtx txBuf txBufLen rxBuf rxBufLen rxRcvdLen flags fwt) s
    pure (reply st [] s)

/-- WORKER (44 R171): the response's status is `s.status` after the tick. It has no lifecycle gate, as R171 gives
none, though 70 R290 does not list it among the ungated commands: at UNINIT it drains (POLLED) and answers
`s.status`. DESIGN CHOICE (log 26). -/
def execWorker (s : State) : Host.Outcome State Fault Refusal :=
  settle do
    let s ← tick s
    pure (reply s.status [] s)

/-- TRANSCEIVE_BLOCKING (47 R258): the start; the ticks follow one a step. log 8. -/
def execTransceiveBlocking (txBuf : Option Ref) (txBufLen : Half) (rxBuf : Option Ref)
    (rxBufLen : Half) (rxRcvdLen : Option Ref) (flags fwt : Word) (s : State) :
    Host.Outcome State Fault Refusal :=
  settle do
    let (st, s) ← start (exchangeCtx txBuf txBufLen rxBuf rxBufLen rxRcvdLen flags fwt) s
    if st ≠ .none then pure (reply st [] s) else pure (loopOn .blocking s)

/-- One `WORKER` of TRANSCEIVE_BLOCKING's loop (47 R258); the ISR agent may run before it. -/
def blockingIteration (s : State) : Run State := do
  let s ← isrPoint s
  let s ← tick s
  if s.txrxState = .idle then pure (reply s.status [] s) else pure (loopOn .blocking s)

/-- SET_OBS_MODE (44 R199). -/
def execSetObsMode (enable : Byte) (s : State) : Host.Outcome State Fault Refusal :=
  .next (reply .none [] (s.setObs { s.obs with configured := enable != 0 }))

/-- SET_EMD (45 R230). -/
def execSetEmd (enable : Byte) (maxLen : Half) (s : State) : Host.Outcome State Fault Refusal :=
  if s.txrxState ≠ .idle then .next (reply .wrongState [] s)
  else .next (reply .none [] (s.setEmd { enabled := enable != 0, maxLen }))

end Sys2Proof.Machine
end

