-- ==== Sys2Proof/Machine/Anticollision.lean ====
section
/-! DEFINITION. The ISO14443A anticollision helper and the refused helpers
(46_anticollision_helpers.md). -/

namespace Sys2Proof.Machine

/-- The mask `2^b − 1` of the valid low bits of a partial byte (46 R243). -/
def lowMask (b : Nat) : Byte := BitVec.ofNat 8 (2 ^ b - 1)

/-- The partial byte's upper bits cleared, and `save` (46 R243). -/
def clearPartial (buf : Option BufRef) (B b : Nat) (s : State) : Run (Byte × State) :=
  if b = 0 then .ok (0, s)
  else do
    let save ← memRead8 buf B s
    let s ← memWrite8 buf B (save &&& lowMask b) s
    pure (save, s)

/-- The partial byte's saved low bits put back under the received upper bits (46 R244). -/
def restorePartial (call : Anticoll) (s : State) : Run State :=
  if call.sentBits = 0 then .ok s
  else do
    let now ← memRead8 call.buf call.sentBytes s
    memWrite8 call.buf call.sentBytes
      ((now &&& ~~~(lowMask call.sentBits)) ||| (call.saved &&& lowMask call.sentBits)) s

/-- The collision position decoded into the host's two cells (46 R245). -/
def writeCollision (call : Anticoll) (s : State) : Run State := do
  let (r, s) := busRead .collPos s
  let (cb, cbit) := collDecode s.params r
  let s ← memWrite8 call.bytesToSend 0 cb s
  memWrite8 call.bitsToSend 0 cbit s

/-- Collision detection switched (46 R248). -/
def setCollDetect (on : Bool) (s : State) : State := setFrameCfg { s.cfg with collDetect := on } s

/-- The helper after its exchange returned `st` (46 R240). -/
def finishAnticoll (call : Anticoll) (st : Status) (s : State) : Run State := do
  let s ← restorePartial call s
  let s ← if st = .rfCollision then writeCollision call s else pure s
  pure (reply st [] (setCollDetect false s))

/-- The helper's capacity `8·(ANTICOLL_FRAME_LEN − B)` as the u16 operand of its exchange (46 R240): a free value
where it does not fit 16 bits, of which the spec states nothing. DESIGN CHOICE, log 29. -/
def anticollCapacity (p : Config.Params) (B : Nat) : Half :=
  let bits := 8 * (p.anticollFrameLen - B)
  if bits < 65536 then BitVec.ofNat 16 bits else Config.wideCapacity bits

/-- The operands the helper's blocking exchange takes (46 R240, R241). -/
def anticollCtx (p : Config.Params) (buf rxLength : Option BufRef) (B b : Nat) (fwt : Word) : Ctx :=
  { txBuf := buf, txBufLen := BitVec.ofNat 16 (8 * B + b)
    rxBuf := bufPlus buf B, rxBufLen := anticollCapacity p B
    rxRcvdLen := rxLength, flags := acFlags, fwt }

/-- The helper's operand checks on `B` and `b` (46 R240). -/
def anticollLengthsOk (p : Config.Params) (B b : Nat) : Bool :=
  decide (b ≤ 7 ∧ B + (if b ≠ 0 then 1 else 0) ≤ p.anticollFrameLen ∧ ¬(B = 0 ∧ b = 0))

/-- The helper from its checks to the start of its exchange (46 R240). -/
def beginAnticoll (buf bytesToSend bitsToSend rxLength : Option BufRef) (fwt : Word) (s : State) :
    Run State := do
  let B ← memRead8 bytesToSend 0 s
  let b ← memRead8 bitsToSend 0 s
  if anticollLengthsOk s.params B.toNat b.toNat = false then pure (reply .invalidParam [] s)
  else
    let s := setCollDetect true s
    let (saved, s) ← clearPartial buf B.toNat b.toNat s
    let call : Anticoll :=
      { buf, bytesToSend, bitsToSend, sentBytes := B.toNat, sentBits := b.toNat, saved }
    let (st, s) ← start (anticollCtx s.params buf rxLength B.toNat b.toNat fwt) s
    if st ≠ .none then finishAnticoll call st s else pure (loopOn (.anticoll call) s)

/-- ISO14443A_ANTICOLL_FRAME (46 R240): up to the start of its exchange; the ticks follow one a step.
log 8. -/
def execIso14443aAnticollFrame (buf bytesToSend bitsToSend rxLength : Option Ref) (fwt : Word)
    (s : State) : Host.Outcome State Fault Refusal :=
  if s.lifecycle.rank < Lifecycle.modeSet.rank ∨ s.txrxState ≠ .idle then .next (reply .wrongState [] s)
  else if s.mode ≠ .nfca then .next (reply .wrongState [] s)
  else settle (beginAnticoll (toBuf buf) (toBuf bytesToSend) (toBuf bitsToSend) (toBuf rxLength) fwt s)

/-- One `WORKER` of the helper's blocking exchange, and the helper's end where the exchange ends
(46 R240, 47 R258). -/
def anticollIteration (call : Anticoll) (s : State) : Run State := do
  let s ← isrPoint s
  let s ← tick s
  if s.txrxState = .idle then finishAnticoll call s.status s
  else pure (loopOn (.anticoll call) s)

/-- ISO14443A_SHORT_FRAME (46 R247): refused. -/
def execIso14443aShortFrame (_cmd : Byte) (_rxBuf : Option Ref) (_rxBufLen : Half)
    (_rxRcvdLen : Option Ref) (_fwt : Word) (_s : State) : Host.Outcome State Fault Refusal :=
  .refused (.refusedHelper 0x71)

/-- ISO15693_ANTICOLL_FRAME (46 R247): refused. -/
def execIso15693AnticollFrame (_txBuf : Option Ref) (_txBufLen : Half) (_rxBuf : Option Ref)
    (_rxBufLen : Half) (_rxRcvdLen : Option Ref) (_s : State) : Host.Outcome State Fault Refusal :=
  .refused (.refusedHelper 0x72)

/-- ISO15693_EOF (46 R247): refused. -/
def execIso15693Eof (_rxBuf : Option Ref) (_rxBufLen : Half) (_rxRcvdLen : Option Ref) (_s : State) :
    Host.Outcome State Fault Refusal :=
  .refused (.refusedHelper 0x73)

end Sys2Proof.Machine
end

