-- ==== Sys2Proof/Machine/Fetch.lean ====
section
/-! DEFINITION. How the machine takes its next command from the port, answers a byte string that is no
command, and goes on with a command that loops. -/

namespace Sys2Proof.Machine

/-- The next command's byte string and the state in which it runs, with the string off the port (30 R80). -/
def takeCommand (s : State) : Option (List Byte × State) :=
  match s.port with
  | [] => none
  | bytes :: rest => some (bytes, s.setPort rest)

/-- The status of a byte string that is no command (30 R82). -/
def decodeStatus : DecodeError → Status
  | .empty => .invalidParam
  | .unknownOpcode _ => .notImplemented
  | .wrongLength _ => .invalidParam

/-- The answer to a byte string that is no command: a status, and no state change (30 R82). log 14. -/
def rejectCommand (e : DecodeError) (s : State) : Host.Outcome State Fault Refusal :=
  .next (reply (decodeStatus e) [] s)

/-- The next iteration of the loop command in progress. -/
def resume (r : Running) (s : State) : Host.Outcome State Fault Refusal :=
  match r with
  | .hung => .next (drainOnce s)
  | .irqWait mask timeoutMs t0 => settle do
      let s ← isrPoint s
      waitIteration mask timeoutMs t0 s
  | .blocking => settle (blockingIteration s)
  | .anticoll call => settle (anticollIteration call s)

/-- A byte string put where the next step takes its command, with no command in progress. -/
def presentCommand (bytes : List Byte) (s : State) : State :=
  (s.setPort (bytes :: s.port)).setRunning none

end Sys2Proof.Machine
end

