-- ==== Sys2Proof/Machine/FifoCache.lean ====
section
/-! DEFINITION. The FIFO status cache's commands (43_fifo_status.md). A query decodes the cache; a count above
FIFO_DEPTH faults where it is fetched (20 R67; log 11). -/

namespace Sys2Proof.Machine

/-- A query of the cache: update it, then answer a field of the snapshot (43 R165 to R167). -/
def fifoQuery (field : State → List Byte) (s : State) : Host.Outcome State Fault Refusal :=
  settle do
    let s ← fsUpdate s
    pure (reply .none (field s) s)

/-- FIFO_STATUS_UPDATE (43 R161). -/
def execFifoStatusUpdate (s : State) : Host.Outcome State Fault Refusal :=
  fifoQuery (fun _ => []) s

/-- FIFO_STATUS_CLEAR (43 R163). -/
def execFifoStatusClear (s : State) : Host.Outcome State Fault Refusal :=
  .next (reply .none [] (fsClear s))

/-- FIFO_GET_NUM_BYTES (43 R165). -/
def execFifoGetNumBytes (s : State) : Host.Outcome State Fault Refusal :=
  fifoQuery (fun s => encU16 (BitVec.ofNat 16 (fifoCount s))) s

/-- FIFO_GET_INC_BITS (43 R166). -/
def execFifoGetIncBits (s : State) : Host.Outcome State Fault Refusal :=
  fifoQuery (fun s => [BitVec.ofNat 8 (fifoIncBits s)]) s

/-- FIFO_IS_MISSING_PAR (43 R167). -/
def execFifoIsMissingPar (s : State) : Host.Outcome State Fault Refusal :=
  fifoQuery (fun s => [if missingPar s.params s.fifoStatus then 1 else 0]) s

end Sys2Proof.Machine
end

