-- ==== Sys2Proof/Machine/ModeBitrate.lean ====
section
/-! DEFINITION. The mode and bit-rate commands (42_mode_bitrate.md). -/

namespace Sys2Proof.Machine

/-- The lifecycle gate `lifecycle ≥ INIT` (42 R140, 47 R252). -/
def belowInit (s : State) : Bool := decide (s.lifecycle.rank < Lifecycle.init.rank)

/-- An exchange is in progress. -/
def inExchange (s : State) : Bool := s.txrxState != .idle

/-- The bit-rate body of 42 R147: KEEP leaves a direction unchanged. -/
def applyRates (txBR rxBR : Byte) (s : State) : State :=
  let s := s.setRates (if txBR = Config.keep then s.txBR else txBR)
    (if rxBR = Config.keep then s.rxBR else rxBR)
  (busWrite .bitrateReg (.brCfg s.txBR s.rxBR) s).log (.presetApplied (.bitrate s.txBR s.rxBR))

/-- What a successful SET_MODE does (42 R141). -/
def applyMode (mode : Mode) (txBR rxBR : Byte) (s : State) : State :=
  let s := busWrite .modeReg (.modeCfg mode) s
  let s := setFrameCfg (modeDefaults s.params mode) s
  let s := (s.setMode mode).log (.presetApplied (.tech mode))
  let s := applyRates txBR rxBR s
  s.setLifecycle (s.lifecycle.max .modeSet)

/-- SET_MODE (42 R141). -/
def execSetMode (mode txBR rxBR : Byte) (s : State) : Host.Outcome State Fault Refusal :=
  if belowInit s || inExchange s then .next (reply .wrongState [] s)
  else if txBR = Config.keep ∨ rxBR = Config.keep then .next (reply .invalidParam [] s)
  else match modeClass mode with
    | .notSupported => .next (reply .notSupported [] s)
    | .unknown => .next (reply .notImplemented [] s)
    | .supported m =>
      if !rateSupported s.params txBR || !rateSupported s.params rxBR then
        .next (reply .invalidParam [] s)
      else .next (reply .none [] (applyMode m txBR rxBR s))

/-- GET_MODE (42 R148): the result byte is `s.mode` on WRONG_STATE too. -/
def execGetMode (s : State) : Host.Outcome State Fault Refusal :=
  .next (reply (if belowInit s then .wrongState else .none) [s.mode.code] s)

/-- `b = KEEP` or `b ∈ SUPPORTED_BR` (42 R147). -/
def rateOrKeep (s : State) (b : Byte) : Bool := b == Config.keep || rateSupported s.params b

/-- SET_BITRATE (42 R147). -/
def execSetBitrate (txBR rxBR : Byte) (s : State) : Host.Outcome State Fault Refusal :=
  if belowInit s || inExchange s then .next (reply .wrongState [] s)
  else if !rateOrKeep s txBR || !rateOrKeep s rxBR then .next (reply .invalidParam [] s)
  else .next (reply .none [] (applyRates txBR rxBR s))

/-- GET_BITRATE (42 R149). The rule states no result bytes for a refused query: they are free. log 13. -/
def execGetBitrate (s : State) : Host.Outcome State Fault Refusal :=
  if belowInit s then
    let r := Config.gatedRates s.txBR s.rxBR
    .next (reply .wrongState [r.1, r.2] s)
  else .next (reply .none [s.txBR, s.rxBR] s)

end Sys2Proof.Machine
end

