-- ==== Sys2Proof/Machine/Session.lean ====
section
/-! DEFINITION. Bring-up, the RF field, the queries and the callback registrations (47_session.md). -/

namespace Sys2Proof.Machine

/-- INIT's bring-up of the chip after the identity check (47 R250): all interrupts masked, stale status
read away, the field off. -/
def bringUp (s : State) : State :=
  let s := busWrite (.irqMask 0) (.byte 0xFF) s
  let s := busWrite (.irqMask 1) (.byte 0xFF) s
  let s := busWrite (.irqMask 2) (.byte 0xFF) s
  let (_, s) := busRead (.irqStatus 0) s
  let (_, s) := busRead (.irqStatus 1) s
  let (_, s) := busRead (.irqStatus 2) s
  (busCmd .fieldOff s).setLifecycle .init

/-- INIT (47 R250). -/
def execInit (s : State) : Host.Outcome State Fault Refusal :=
  if s.txrxState ≠ .idle then .next (reply .wrongState [] s)
  else
    let (id, s) := busRead .icIdentity (resetKeeping s)
    if chipIdOk s.params id then .next (reply .none [] (bringUp s))
    else .next (reply .hwMismatch [] s)

/-- FIELD_OFF's body after its gate (47 R254). -/
def fieldOffBody (s : State) : Run State := do
  let s ← if s.txrxState ≠ .idle then exchangeEnd (failStatus s) else pure s
  pure (gtDisarm ((busCmd .fieldOff s).setFieldOn false))

/-- DEINIT (47 R251). -/
def execDeinit (s : State) : Host.Outcome State Fault Refusal :=
  if s.lifecycle = .uninit then .next (reply .none [] s)
  else settle do
    let s ← if s.fieldOn ∨ s.txrxState ≠ .idle then fieldOffBody s else pure s
    let s ← engineDisable 0xFFFFFFFF s
    pure (reply .none [] (resetKeeping s))

/-- FIELD_ON (47 R253). -/
def execFieldOn (s : State) : Host.Outcome State Fault Refusal :=
  if belowInit s || inExchange s then .next (reply .wrongState [] s)
  else
    let s := (busCmd .fieldOn s).setFieldOn true
    let s := if s.gt ≠ 0 then gtStart (toMs s.params s.gt.toNat 1) s else gtDisarm s
    .next (reply .none [] s)

/-- FIELD_OFF (47 R254). -/
def execFieldOff (s : State) : Host.Outcome State Fault Refusal :=
  if belowInit s then .next (reply .wrongState [] s)
  else settle do
    let s ← fieldOffBody s
    pure (reply .none [] s)

/-- GET_TRANSCEIVE_STATUS (47 R256). -/
def execGetTransceiveStatus (s : State) : Host.Outcome State Fault Refusal :=
  .next (reply s.status [] s)

/-- GET_TRANSCEIVE_STATE (47 R257). -/
def execGetTransceiveState (s : State) : Host.Outcome State Fault Refusal :=
  .next (reply .none [s.txrxState.code] s)

/-- SET_PRE_CB (47 R259). -/
def execSetPreCb (cb : Option Byte) (s : State) : Host.Outcome State Fault Refusal :=
  .next (reply .none [] (s.setCb { s.cb with pre := cb }))

/-- SET_POST_CB (47 R259). -/
def execSetPostCb (cb : Option Byte) (s : State) : Host.Outcome State Fault Refusal :=
  .next (reply .none [] (s.setCb { s.cb with post := cb }))

/-- SET_SYNC_CB (47 R259). -/
def execSetSyncCb (cb : Option Byte) (s : State) : Host.Outcome State Fault Refusal :=
  .next (reply .none [] (s.setCb { s.cb with sync := cb }))

end Sys2Proof.Machine
end

