-- ==== Sys2Proof/Machine/Timing.lean ====
section
/-! DEFINITION. The timing setters (41_timing.md rule R128): they store and check nothing. -/

namespace Sys2Proof.Machine

/-- SET_FDT_POLL (41 R128). -/
def execSetFdtPoll (cycles : Word) (s : State) : Host.Outcome State Fault Refusal :=
  .next (reply .none [] (s.setFdtPoll cycles))

/-- SET_FDT_LISTEN (41 R128): stored, read by nothing in scope (10 R23). -/
def execSetFdtListen (cycles : Word) (s : State) : Host.Outcome State Fault Refusal :=
  .next (reply .none [] (s.setFdtListen cycles))

/-- SET_GT (41 R128). -/
def execSetGt (cycles : Word) (s : State) : Host.Outcome State Fault Refusal :=
  .next (reply .none [] (s.setGt cycles))

end Sys2Proof.Machine
end

