-- ==== Sys2Proof/Machine/Dispatch.lean ====
section
/-! DEFINITION. One arm per command (30 R90). -/

namespace Sys2Proof.Machine

def exec (i : Instr) (s : State) : Host.Outcome State Fault Refusal :=
  match i with
  | .init => Sys2Proof.Machine.execInit s
  | .deinit => Sys2Proof.Machine.execDeinit s
  | .setMode mode txBR rxBR => Sys2Proof.Machine.execSetMode mode txBR rxBR s
  | .getMode => Sys2Proof.Machine.execGetMode s
  | .setBitrate txBR rxBR => Sys2Proof.Machine.execSetBitrate txBR rxBR s
  | .getBitrate => Sys2Proof.Machine.execGetBitrate s
  | .setFdtPoll cycles => Sys2Proof.Machine.execSetFdtPoll cycles s
  | .setFdtListen cycles => Sys2Proof.Machine.execSetFdtListen cycles s
  | .setGt cycles => Sys2Proof.Machine.execSetGt cycles s
  | .fieldOn => Sys2Proof.Machine.execFieldOn s
  | .fieldOff => Sys2Proof.Machine.execFieldOff s
  | .startTransceive txBuf txBufLen rxBuf rxBufLen rxRcvdLen flags fwt => Sys2Proof.Machine.execStartTransceive txBuf txBufLen rxBuf rxBufLen rxRcvdLen flags fwt s
  | .worker => Sys2Proof.Machine.execWorker s
  | .getTransceiveStatus => Sys2Proof.Machine.execGetTransceiveStatus s
  | .getTransceiveState => Sys2Proof.Machine.execGetTransceiveState s
  | .transceiveBlocking txBuf txBufLen rxBuf rxBufLen rxRcvdLen flags fwt => Sys2Proof.Machine.execTransceiveBlocking txBuf txBufLen rxBuf rxBufLen rxRcvdLen flags fwt s
  | .setPreCb cb => Sys2Proof.Machine.execSetPreCb cb s
  | .setPostCb cb => Sys2Proof.Machine.execSetPostCb cb s
  | .setSyncCb cb => Sys2Proof.Machine.execSetSyncCb cb s
  | .setIrqCb cb => Sys2Proof.Machine.execSetIrqCb cb s
  | .irqEnable mask => Sys2Proof.Machine.execIrqEnable mask s
  | .irqDisable mask => Sys2Proof.Machine.execIrqDisable mask s
  | .irqPoll => Sys2Proof.Machine.execIrqPoll s
  | .irqGet mask => Sys2Proof.Machine.execIrqGet mask s
  | .irqWait mask timeoutMs => Sys2Proof.Machine.execIrqWait mask timeoutMs s
  | .irqIsr => Sys2Proof.Machine.execIrqIsr s
  | .fifoStatusUpdate => Sys2Proof.Machine.execFifoStatusUpdate s
  | .fifoStatusClear => Sys2Proof.Machine.execFifoStatusClear s
  | .fifoGetNumBytes => Sys2Proof.Machine.execFifoGetNumBytes s
  | .fifoGetIncBits => Sys2Proof.Machine.execFifoGetIncBits s
  | .fifoIsMissingPar => Sys2Proof.Machine.execFifoIsMissingPar s
  | .iso14443aAnticollFrame buf bytesToSend bitsToSend rxLength fwt => Sys2Proof.Machine.execIso14443aAnticollFrame buf bytesToSend bitsToSend rxLength fwt s
  | .iso14443aShortFrame cmd rxBuf rxBufLen rxRcvdLen fwt => Sys2Proof.Machine.execIso14443aShortFrame cmd rxBuf rxBufLen rxRcvdLen fwt s
  | .iso15693AnticollFrame txBuf txBufLen rxBuf rxBufLen rxRcvdLen => Sys2Proof.Machine.execIso15693AnticollFrame txBuf txBufLen rxBuf rxBufLen rxRcvdLen s
  | .iso15693Eof rxBuf rxBufLen rxRcvdLen => Sys2Proof.Machine.execIso15693Eof rxBuf rxBufLen rxRcvdLen s
  | .setEmd enable maxLen => Sys2Proof.Machine.execSetEmd enable maxLen s
  | .setObsMode enable => Sys2Proof.Machine.execSetObsMode enable s

end Sys2Proof.Machine
end

