-- ==== Sys2Proof/Machine/Step.lean ====
section
/-! DEFINITION. One step of the machine: the next iteration of the loop command in progress, or else the
next command of the port; with neither, the block waits and nothing changes. -/

namespace Sys2Proof.Machine

def step (s : State) : Host.Outcome State Fault Refusal :=
  match s.running with
  | some r => resume r s
  | none =>
    match takeCommand s with
    | none => .next s
    | some (bytes, s) =>
      match decode bytes with
      | .ok i => exec i s
      | .error e => rejectCommand e s

/-- `s` with the instruction given as one number presented on the command port, so that the very next
step takes and runs it. -/
def State.withFetchWord (s : State) (nbits w : Nat) : State := presentCommand (wordBytes nbits w) s

end Sys2Proof.Machine
end

