-- ==== Sys2Proof/Safety.lean ====
section
/-! DEFINITION. The terms in which the claims speak of safe runs: the invariant of the block state, the
sub-states a host can observe, the environments in which no event arrives, and what the engine never
writes. -/

namespace Sys2Proof.Machine

/-- A sub-state of the TX phase (10 R26). -/
def TxrxState.isTx : TxrxState → Bool
  | .txIdle | .txWaitGt | .txWaitFdt | .txPrepTx | .txTransmit | .txWaitWl | .txReloadFifo | .txWaitTxe
  | .txDone | .txFail => true
  | .idle | .rxIdle | .rxWaitRxs | .rxWaitRxe | .rxErrCheck | .rxReadData | .rxReadFifo | .rxDone
  | .rxFail => false

/-- A sub-state of the RX phase (10 R26). -/
def TxrxState.isRx (t : TxrxState) : Bool := t != .idle && !t.isTx

/-- A sub-state in which a tick can end (44 R184). -/
def TxrxState.tickEnd : TxrxState → Bool
  | .idle | .txWaitGt | .txWaitFdt | .txTransmit | .txWaitWl | .txWaitTxe | .rxWaitRxs | .rxWaitRxe => true
  | .txIdle | .txPrepTx | .txReloadFifo | .txDone | .txFail | .rxIdle | .rxErrCheck | .rxReadData
  | .rxReadFifo | .rxDone | .rxFail => false

/-- A sub-state the host can observe: a tick end, or TX_IDLE or RX_IDLE before the first tick (30 R88,
47 R257). -/
def TxrxState.observable (t : TxrxState) : Bool := t.tickEnd || t == .txIdle || t == .rxIdle

/-- The NRT record agrees with its register: the mirror is in 64/fc units, the timer is off exactly when
the register is 0 (10 R35, 41 R130). -/
def Nrt.consistent (n : Nrt) : Prop :=
  n.mirror64 = BitVec.ofNat 32 (n.regVal.toNat * (n.step.cycles / 64)) ∧ n.enabled = (n.regVal != 0)

/-- The invariant of the machine. -/
structure Inv (s : State) : Prop where
  /-- Host memory is in its canonical form. -/
  memory : Memory.wf s.mem = true
  /-- 10 R43: bits 31:24 of the accumulator are 0. -/
  pendingTop : s.irq.pending.extractLsb' 24 8 = 0
  /-- 10 R44: an exchange is in progress exactly in lifecycle TXRX. -/
  exchange : s.txrxState ≠ .idle ↔ s.lifecycle = .txrx
  /-- 10 R44: BUSY only during an exchange. -/
  busy : s.status = .busy → s.txrxState ≠ .idle
  /-- 10 R34: the mask record mirrors the enable mask. -/
  masks : ∀ k : Fin 3, s.hwMask.get k = maskByte s.irq.enabled k
  /-- 44 R197: observation mode is off outside an exchange. -/
  observation : s.obs.active = true → s.txrxState ≠ .idle
  /-- 44 R197: between exchanges the frame configuration is the mode's default, collision detection
  apart. -/
  defaults : s.lifecycle = .modeSet → s.cfg = { modeDefaults s.params s.mode with collDetect := s.cfg.collDetect }
  /-- 10 R35, 41 R130. -/
  timer : s.nrt.consistent
  /-- 41 R124, R125: the stopwatch was started at or before the last clock reading. -/
  stopwatch : s.gtTimer.startMs ≤ s.clockMs
  /-- 20 R67: a cached FIFO count is at most FIFO_DEPTH. -/
  fifoCount : s.fifoStatus.valid = true → numBytes s.params s.fifoStatus ≤ s.params.fifoDepth
  /-- 10 R29: the reserved flag bits are 0. -/
  flags : flagsReserved s.ctx.flags = 0
  /-- 44 R170, R182: a TX phase has a tx buffer, an RX phase an rx buffer. -/
  phaseBuffer : (s.txrxState.isTx = true → s.ctx.txBuf ≠ none) ∧ (s.txrxState.isRx = true → s.ctx.rxBuf ≠ none)

/-- No interrupt event arrives inside the next command: the line is low where the command samples it, and
no rising edge is delivered to the ISR agent. -/
def quiet (s : State) : Bool :=
  match s.params.irqBuild with
  | .polled => s.env.line == [] && !s.env.lineRest
  | .isr => s.env.edges == []

/-- Byte `i` of the buffer with `i < n` lies at this address. -/
def inExtent (b : Option BufRef) (n addr : Nat) : Prop :=
  ∃ r, b = some r ∧ ∃ i, i < n ∧ addr = hostAddr r.region (r.offset + i)

/-- The fields no tick, drain or ISR run writes. -/
structure EngineFrame (s t : State) : Prop where
  mode : t.mode = s.mode
  txBR : t.txBR = s.txBR
  rxBR : t.rxBR = s.rxBR
  fdtPoll : t.fdtPoll = s.fdtPoll
  fdtListen : t.fdtListen = s.fdtListen
  gt : t.gt = s.gt
  fieldOn : t.fieldOn = s.fieldOn
  ctx : t.ctx = s.ctx
  nrt : t.nrt = s.nrt
  gptPreload : t.gptPreload = s.gptPreload
  irqCallback : t.irq.callback = s.irq.callback
  collDetect : t.cfg.collDetect = s.cfg.collDetect
  obsConfigured : t.obs.configured = s.obs.configured
  cb : t.cb = s.cb
  emd : t.emd = s.emd
  port : t.port = s.port
  params : t.params = s.params

/-! ## Effects written as one record update, from the rules -/

/-- The ISR agent delivers no edge inside the next command (20 R70, 40 R107). -/
def noEdges (s : State) : Prop := s.params.irqBuild = .polled ∨ s.env.edges = []

/-- `t` is `s` but for what an ISR run may touch: the accumulator, the bus and the environment's answers
(20 R70). -/
def SameButIsr (s t : State) : Prop :=
  t = { s with irq := { s.irq with pending := t.irq.pending }, trace := t.trace, env := t.env }

/-- The modes that SET_MODE supports (42 R142). -/
def supportedModes : List Mode := [.nfca, .nfcaT1t, .nfcb, .nfcbPrime, .nfcbCts, .nfcv, .picopass]

/-- The mask record that mirrors an enable mask (10 R34). -/
def masksOf (enabled : Word) : HwMask :=
  { m0 := maskByte enabled 0, m1 := maskByte enabled 1, m2 := maskByte enabled 2 }

/-- One mask register write, where the record differs (40 R101). -/
def maskEvent (k : Fin 3) (old new : Byte) : List Event :=
  if new = old then [] else [.regWrite (.irqMask k) (.byte new)]

/-- The mask register writes of a new enable mask, the newest first: registers 0, 1, 2 in that order, and
only those whose byte differs from the record (40 R101). -/
def maskEvents (record : HwMask) (enabled : Word) : List Event :=
  maskEvent 2 record.m2 (maskByte enabled 2) ++ maskEvent 1 record.m1 (maskByte enabled 1)
    ++ maskEvent 0 record.m0 (maskByte enabled 0)

/-- The event of a callback, if one is registered. -/
def callbackEvents (cb : Option Byte) (mk : Byte → Event) : List Event := (cb.map mk).toList

/-- The terminal cleanup (44 R197) where no ISR edge comes. -/
def cleanedUp (s : State) : State :=
  let cfg := { modeDefaults s.params s.mode with collDetect := s.cfg.collDetect }
  let enabled := s.irq.enabled &&& ~~~(exchIrqs s.params)
  { s with
    obs := { s.obs with active := false }
    cfg
    irq := { s.irq with enabled }
    hwMask := masksOf enabled
    txrxState := .idle
    lifecycle := .modeSet
    trace := callbackEvents s.cb.post .postCallback ++ maskEvents s.hwMask enabled
      ++ [.regWrite .frameCfg (.frameCfg cfg)] ++ (if s.obs.active then [.cmd .obsOff] else []) ++ s.trace }

/-- The bus writes of NRT programming, the newest first (41 R130). -/
def nrtEvents (fwt : Word) (n : Nrt) : List Event :=
  if fwt = Config.fwtForever then [.regWrite16 .nrt 0]
  else [.regWrite16 .nrt n.regVal, .regWrite .nrtStep (.byte (if n.step = .s4096 then 1 else 0))]

/-- An accepted start (44 R170) where no ISR edge comes. -/
def started (c : Ctx) (s : State) : State :=
  let cfg := flagCfg s.params s.mode c.flags s.cfg.collDetect
  let nrt := nrtFor s.params s.mode c.fwt
  let gpt := gptFor s.params s.mode s.fdtPoll
  let enabled := s.irq.enabled ||| exchIrqs s.params
  { s with
    ctx := c
    cfg
    nrt
    gptPreload := gpt
    irq := { s.irq with enabled, pending := s.irq.pending &&& ~~~(exchIrqs s.params) }
    hwMask := masksOf enabled
    status := .busy
    lifecycle := .txrx
    txrxState := if c.txBuf ≠ none then .txIdle else .rxIdle
    trace := maskEvents s.hwMask enabled ++ [.regWrite16 .gpt gpt] ++ nrtEvents c.fwt nrt
      ++ [.regWrite .frameCfg (.frameCfg cfg)] ++ callbackEvents s.cb.pre .preCallback ++ s.trace }

/-- The bus events of drain iterations that read these bytes, the newest first (40 R104). -/
def drainEvents : List (Byte × Byte × Byte) → List Event
  | [] => []
  | (b0, b1, b2) :: rest =>
    drainEvents rest ++ [.regRead (.irqStatus 2) b2, .regRead (.irqStatus 1) b1, .regRead (.irqStatus 0) b0]

/-- The OR of what drain iterations read (40 R103, R104). -/
def drainBits : List (Byte × Byte × Byte) → Word
  | [] => 0
  | (b0, b1, b2) :: rest => (b2 ++ b1 ++ b0).setWidth 32 ||| drainBits rest

/-- The three status bytes that a read of the Chip's draw shows: the draw, but without NRE in an exchange whose NRT
was written 0 (41 R131). log 12. -/
def shown (s : State) (r : Byte × Byte × Byte) : Byte × Byte × Byte :=
  let nre := irqBit s.params .nre
  if s.txrxState ≠ .idle ∧ s.nrt.regVal = 0 then
    (r.1 &&& ~~~(nre.extractLsb' 0 8), r.2.1 &&& ~~~(nre.extractLsb' 8 8), r.2.2 &&& ~~~(nre.extractLsb' 16 8))
  else r

/-- The state after a drain whose iterations read these draws, the line then sampled low. -/
def drained (reads : List (Byte × Byte × Byte)) (line : List Bool) (regs : List Byte) (s : State) : State :=
  let reads := reads.map (shown s)
  { s with
    irq := { s.irq with pending := s.irq.pending ||| (drainBits reads &&& s.irq.enabled) }
    env := { s.env with line, regs }
    trace := drainEvents reads ++ s.trace }

/-- The Chip draws these bytes for the next drain, one triple an iteration, and then lets the line go low; `line`
and `regs` are what it draws later. -/
def drainScript (reads : List (Byte × Byte × Byte)) (line : List Bool) (regs : List Byte) (s : State) : Prop :=
  s.env.line = reads.map (fun _ => true) ++ false :: line ∧
    s.env.regs = reads.flatMap (fun r => [r.1, r.2.1, r.2.2]) ++ regs

/-- The result of a reception before its data is read out: the first matching error interrupt, the clean
end's reclassification, and the NFC-A short-frame rule (45 R206, R208); BUSY for a clean one. -/
def verdict (p : Config.Params) (mode : Mode) (errIrq : Word) (f : FifoStatus) : Status :=
  let short := mode = .nfca ∧ incBits p f ≠ 0 ∧ numBytes p f = 1
  if hasIrq p errIrq .errHard ∨ hasIrq p errIrq .errSoft then .framing
  else if hasIrq p errIrq .par then (if short then .incompleteByte else .parity)
  else if hasIrq p errIrq .col then .rfCollision
  else if hasIrq p errIrq .crc then (if short then .incompleteByte else .crc)
  else if incBits p f ≠ 0 then .incompleteByte
  else if missingPar p f then .framing
  else .busy

/-- What RX_READ_DATA leaves (45 R213): the running count of data bytes with the CRC taken off, the bytes
stored in this read, and the received length in bits. -/
structure ReadOut where
  total : Nat
  stored : Nat
  bits : Nat
  deriving DecidableEq, Repr

/-- The arithmetic of 45 R213 and R214 on `n` FIFO bytes with `k` incomplete bits. -/
def readOutOf (s : State) (n k : Nat) : ReadOut :=
  let crc := if modeRxHasCrc s.params s.mode ∧ flagCrcRxKeep s.ctx.flags = false ∧ k = 0 then 2 else 0
  let total := s.fifo.bytesTotal + n - crc
  let stored := min (n - crc) (s.ctx.capBytes - s.fifo.bytesWritten)
  let received := min total (s.fifo.bytesWritten + stored)
  { total, stored
    bits := if k ≠ 0 ∧ 0 < received ∧ total ≤ s.ctx.capBytes then 8 * received - 8 + k else 8 * received }

/-- The status an exchange ends with after its data is read out (45 R215 to R218). -/
def finalStatus (v : Status) (total cap : Nat) : Status :=
  if v ≠ .busy then v else if cap < total then .nomem else .none

/-- Every field of the block state at its reset value, but for the fields INIT and DEINIT keep (70 R290,
47 R250, R251); the block's surroundings as they were. -/
def resetFields (s : State) : State :=
  { s with
    lifecycle := .uninit, mode := .none, txBR := 0xFF, rxBR := 0xFF, fdtPoll := 0, fdtListen := 0, gt := 0
    fieldOn := false, gtTimer := { armed := false, startMs := 0, durMs := 0 }
    txrxState := .idle, status := .none
    ctx := { txBuf := none, txBufLen := 0, rxBuf := none, rxBufLen := 0, rxRcvdLen := none, flags := 0, fwt := 0 }
    fifo := { bytesTotal := 0, bytesWritten := 0 }, fifoStatus := { valid := false, st1 := 0, st2 := 0 }
    irq := { enabled := 0, pending := 0, callback := s.irq.callback }
    hwMask := { m0 := 0xFF, m1 := 0xFF, m2 := 0xFF }
    nrt := { regVal := 0, step := .s64, mirror64 := 0, enabled := false }, gptPreload := 0
    cfg := { txParity := false, txCrc := false, rxCrcCheck := false, rxParityKeep := false, agc := false,
             nfcip1 := false, collDetect := false }
    obs := { configured := s.obs.configured, active := false } }

/-- FIELD_OFF past its gate (47 R254) where no ISR edge comes. -/
def fieldSwitchedOff (s : State) : State :=
  let t := if s.txrxState ≠ .idle then cleanedUp { s with status := if s.status = .busy then .system else s.status }
    else s
  { t with fieldOn := false, gtTimer := { t.gtTimer with armed := false }, trace := .cmd .fieldOff :: t.trace }

/-- The FIFO status cache fetched where it is invalid, with the Chip's next two answers (43 R161). -/
def refreshed (s : State) : State :=
  if s.fifoStatus.valid then s
  else
    let d1 := s.env.takeReg
    let d2 := d1.2.takeReg
    { s with
      fifoStatus := { valid := true, st1 := d1.1, st2 := d2.1 }
      env := d2.2
      trace := [.regRead .fifoStatus2 d2.1, .regRead .fifoStatus1 d1.1] ++ s.trace }

/-- The FIFO status cache can be read: valid already, or fetched with a count that FIFO_DEPTH admits
(20 R67). -/
def fifoInRange (s : State) : Prop :=
  s.fifoStatus.valid = true ∨ numBytes s.params (refreshed s).fifoStatus ≤ s.params.fifoDepth

/-- Host memory with a 16-bit count written to the caller's cell, if one is given (20 R63). -/
def cellWritten (p : Config.Params) (cell : Option BufRef) (v : Half) (m : List Host.Cell) : List Host.Cell :=
  match cell with
  | none => m
  | some c => storeBytes c 0 (cellBytes p v) m

/-- The caller's cell, if one is given, lies in its region. -/
def cellOk (p : Config.Params) (cell : Option BufRef) : Prop := ∀ c, cell = some c → inBounds p c 0 2 = true

/-- One iteration of IRQ_WAIT past its drain (40 R106): the matched bits, or the timeout, or the wait still
in progress. -/
def waited (mask timeoutMs : Word) (t0 : Nat) (s : State) : State :=
  let u := { s with irq := { s.irq with pending := s.irq.pending &&& ~~~mask } }
  if s.irq.pending &&& mask ≠ 0 then
    { u with response := 0 :: encU32 (s.irq.pending &&& mask), running := none }
  else if timeoutMs = 0 then { u with response := [], running := some (.irqWait mask timeoutMs t0) }
  else
    let d := s.env.takeElapsed
    let v := { u with clockMs := s.clockMs + d.1, env := d.2 }
    if timeoutMs.toNat ≤ s.clockMs + d.1 - t0 then { v with response := [0, 0, 0, 0, 0], running := none }
    else { v with response := [], running := some (.irqWait mask timeoutMs t0) }

/-- A list of commands run one after the other, as long as each answers a next state. -/
def execAll : List Instr → State → Host.Outcome State Fault Refusal
  | [], s => .next s
  | i :: is, s =>
    match exec i s with
    | .next t => execAll is t
    | .fault f => .fault f
    | .refused r => .refused r

end Sys2Proof.Machine
end

