-- ==== Sys2Proof/Certificates/Slice0/Obligations.lean ====
section
/-! DEFINITION. The statements for the provers: what the rules of spec/ say the commands and the engine do.
Effects are written as record updates of the state before, so that everything an update does not name, every
byte of host memory included, is stated to be unchanged. -/

open Sys2Proof Sys2Proof.Machine

/-! ## Reset, the invariant, the port -/

/-- 70 R290: the value of every field of the block state after reset. -/
def Obligations.ResetState : Prop :=
  let s := State.reset
  s.lifecycle = .uninit ∧ s.mode = .none ∧ s.txBR = 0xFF ∧ s.rxBR = 0xFF ∧ s.fdtPoll = 0
    ∧ s.fdtListen = 0 ∧ s.gt = 0 ∧ s.fieldOn = false
    ∧ s.gtTimer = { armed := false, startMs := 0, durMs := 0 }
    ∧ s.txrxState = .idle ∧ s.status = .none
    ∧ s.ctx = { txBuf := none, txBufLen := 0, rxBuf := none, rxBufLen := 0, rxRcvdLen := none,
                flags := 0, fwt := 0 }
    ∧ s.fifo = { bytesTotal := 0, bytesWritten := 0 }
    ∧ s.fifoStatus = { valid := false, st1 := 0, st2 := 0 }
    ∧ s.irq = { enabled := 0, pending := 0, callback := none }
    ∧ s.hwMask = { m0 := 0xFF, m1 := 0xFF, m2 := 0xFF }
    ∧ s.nrt = { regVal := 0, step := .s64, mirror64 := 0, enabled := false } ∧ s.gptPreload = 0
    ∧ s.cfg = { txParity := false, txCrc := false, rxCrcCheck := false, rxParityKeep := false,
                agc := false, nfcip1 := false, collDetect := false }
    ∧ s.obs = { configured := false, active := false }
    ∧ s.cb = { pre := none, post := none, sync := none }
    ∧ s.emd = { enabled := false, maxLen := 0 }

/-- The machine's invariant holds at reset. -/
def Obligations.ResetHasInv : Prop := Inv State.reset

/-- Every step keeps the invariant: 10 R34, R35, R43, R44, 44 R197, R198 and the canonical form of host
memory. -/
def Obligations.StepKeepsInv : Prop := ∀ s t : State, Inv s → step s = .next t → Inv t

/-- When the byte string at the front of the port decodes to a command and no command is in progress, a step
takes the string off the port and runs that command (30 R80). -/
def Obligations.StepRunsDecodedCommand : Prop :=
  ∀ (s : State) (bytes : List Byte) (rest : List (List Byte)) (i : Instr),
    s.running = none → s.port = bytes :: rest → decode bytes = .ok i →
      step s = exec i { s with port := rest }

/-- 30 R82: a byte string that is no command is answered NOT_IMPLEMENTED for an opcode outside the map and
INVALID_PARAM for a wrong length, and changes no state. That the response is the status byte alone, whatever the
opcode's result list, and that the empty byte string is INVALID_PARAM, is the model's reading (log 14); that the
string goes off a port is the model's port (log 1). -/
def Obligations.MalformedCommands : Prop :=
  ∀ (s : State) (rest : List (List Byte)), s.running = none →
    (s.port = [] :: rest → step s = .next { s with port := rest, response := [7] }) ∧
    (∀ (op : Byte) (operands : List Byte), s.port = (op :: operands) :: rest →
      (commandLength op = none → step s = .next { s with port := rest, response := [9] }) ∧
      (∀ n, commandLength op = some n → operands.length + 1 ≠ n →
        step s = .next { s with port := rest, response := [7] }))

/-- The model's own port conventions (log 1, log 5): a command presented as one number is the very next one
run; with nothing on the port nothing changes; a drain that never ends stays in progress and changes only
the accumulator, the trace and the environment. -/
def Obligations.PortSteps : Prop :=
  (∀ (s : State) (nbits w : Nat) (i : Instr), decodeTableWord nbits w = some i →
    step (s.withFetchWord nbits w) = exec i { s with running := none }) ∧
  (∀ s : State, s.running = none → s.port = [] → step s = .next s) ∧
  (∀ s : State, s.running = some .hung → ∃ t, step s = .next t ∧ SameButIsr s t ∧
    t.irq.pending &&& ~~~(s.irq.pending ||| s.irq.enabled) = 0)

/-! ## Encoding -/

/-- Every well-formed command decodes, from its encoding, to itself. -/
def Obligations.DecodeEncode : Prop := ∀ i : Instr, i.wf = true → decode (encode i) = .ok i

/-- What the decoder accepts is well-formed, begins with its opcode and has the length of its encoding. -/
def Obligations.DecodedIsWellFormed : Prop :=
  ∀ (bytes : List Byte) (i : Instr), decode bytes = .ok i →
    i.wf = true ∧ bytes.head? = some (opcode i) ∧ bytes.length = (encode i).length

/-- 30 R80: a byte string is a command exactly when its opcode is in the map and its length is the one the
opcode alone determines. -/
def Obligations.LengthByOpcode : Prop :=
  ∀ (op : Byte) (operands : List Byte),
    (∃ i, decode (op :: operands) = .ok i) ↔ commandLength op = some (operands.length + 1)

/-- 30 R81: `u8` is one byte, `u16` and `u32` are little-endian, a `ref` is a region byte and a 32-bit offset
with region 0 meaning none whatever the offset, a `cb` is one byte with 0 meaning none. -/
def Obligations.OperandAssembly : Prop :=
  (∀ e l0 l1 : Byte, decode [0x80, e, l0, l1] = .ok (.setEmd e (l1 ++ l0))) ∧
  (∀ b0 b1 b2 b3 : Byte, decode [0x1A, b0, b1, b2, b3] = .ok (.setGt (b3 ++ b2 ++ b1 ++ b0))) ∧
  (∀ c : Byte, decode [0x40, c] = .ok (.setPreCb (if c = 0 then none else some c))) ∧
  (∀ r o0 o1 o2 o3 l0 l1 q p0 p1 p2 p3 : Byte,
    decode [0x73, r, o0, o1, o2, o3, l0, l1, q, p0, p1, p2, p3] =
      .ok (.iso15693Eof (if r = 0 then none else some { region := r, offset := o3 ++ o2 ++ o1 ++ o0 })
        (l1 ++ l0) (if q = 0 then none else some { region := q, offset := p3 ++ p2 ++ p1 ++ p0 })))

/-- A few byte strings written out from the opcode map decode to the commands they stand for (30 R90). -/
def Obligations.WrittenWordsDecode : Prop :=
  decode [0x10, 0x01, 0x00, 0x00] = .ok (.setMode 1 0 0) ∧
  decode [0x1A, 0x88, 0x13, 0x00, 0x00] = .ok (.setGt 5000) ∧
  decode [0x31] = .ok .worker ∧
  decode [0x54, 0x08, 0x00, 0x00, 0x00, 0x05, 0x00, 0x00, 0x00] = .ok (.irqWait 8 5) ∧
  decode [0x62] = .ok .fifoGetNumBytes ∧
  decode [0x80, 0x01, 0x04, 0x00] = .ok (.setEmd 1 4)

/-! ## Timing (41_timing.md) -/

/-- 41 R128: the timing setters store their operand, check nothing, touch no bus. -/
def Obligations.TimingSetters : Prop :=
  ∀ (c : Word) (s : State),
    exec (.setFdtPoll c) s = .next { s with fdtPoll := c, response := [0], running := none } ∧
    exec (.setFdtListen c) s = .next { s with fdtListen := c, response := [0], running := none } ∧
    exec (.setGt c) s = .next { s with gt := c, response := [0], running := none }

/-- 41 R121, R122: milliseconds of a count of units never last shorter than the count and are the least such;
0 gives 0; milliseconds convert back exactly. -/
def Obligations.UnitsRoundUp : Prop :=
  ∀ (p : Config.Params) (c u : Nat), 0 < p.fcPerMs →
    c * u ≤ toCycles p (toMs p c u) ∧ toCycles p (toMs p c u) < c * u + p.fcPerMs ∧
    (∀ ms, c * u ≤ ms * p.fcPerMs → toMs p c u ≤ ms) ∧ toMs p 0 u = 0 ∧
    (∀ ms, toCycles p ms = ms * p.fcPerMs)

/-- 41 R123, R130: the no-response timer of a timed exchange uses the step that fits 16 bits, is never
programmed shorter than asked unless the register saturates, and mirrors its register in 64/fc units; for FWT_FOREVER
the record is all off. -/
def Obligations.NrtNeverShorter : Prop :=
  (∀ (p : Config.Params) (mode : Mode),
    nrtFor p mode 0xFFFFFFFF = { regVal := 0, step := .s64, mirror64 := 0, enabled := false }) ∧
  ∀ (p : Config.Params) (mode : Mode) (fwt : Word), fwt ≠ 0xFFFFFFFF →
    let n := nrtFor p mode fwt
    let v := fwtEff p mode fwt
    (n.step = .s64 ↔ v ≤ 64 * 0xFFFF) ∧
    (v ≤ 4096 * 0xFFFF → v ≤ n.regVal.toNat * n.step.cycles ∧
      n.regVal.toNat * n.step.cycles < v + n.step.cycles) ∧
    (4096 * 0xFFFF < v → n.regVal = 0xFFFF) ∧
    n.mirror64.toNat * 64 = n.regVal.toNat * n.step.cycles ∧ (n.enabled = true ↔ v ≠ 0)

/-- 41 R127: after FIELD_ON with a guard time, no tick whose clock reading lies before the end of the guard time
leaves TX_WAIT_GT: it ends there, or hangs (log 5) in its drain before it gets there, and whatever happens in it, no
event but reads of the interrupt status registers is issued; and the guard time lasts at least the cycles asked
for. -/
def Obligations.GuardTimeHolds : Prop :=
  ∀ s t : State, s.lifecycle ≠ .uninit → s.txrxState = .idle → s.gt ≠ 0 → 0 < s.params.fcPerMs →
    exec .fieldOn s = .next t →
      s.gt.toNat ≤ toMs s.params s.gt.toNat 1 * s.params.fcPerMs ∧
      ∀ u v : State, u.gtTimer = t.gtTimer → (u.txrxState = .txIdle ∨ u.txrxState = .txWaitGt) →
        exec .worker u = .next v → v.clockMs - t.clockMs < toMs s.params s.gt.toNat 1 →
          (v.txrxState = .txWaitGt ∨ v.running = some .hung ∧ v.txrxState = u.txrxState) ∧
          v.gtTimer = t.gtTimer ∧
          ∃ new, v.trace = new ++ u.trace ∧ ∀ e ∈ new, ∃ k b, e = .regRead (.irqStatus k) b

/-! ## Session and field (47_session.md) -/

/-- 47 R253: FIELD_ON. -/
def Obligations.FieldOn : Prop :=
  ∀ s : State,
    (s.lifecycle = .uninit ∨ s.txrxState ≠ .idle →
      exec .fieldOn s = .next { s with response := [6], running := none }) ∧
    (s.lifecycle ≠ .uninit → s.txrxState = .idle → s.gt = 0 →
      exec .fieldOn s = .next { s with
        fieldOn := true, gtTimer := { s.gtTimer with armed := false }
        trace := .cmd .fieldOn :: s.trace, response := [0], running := none }) ∧
    (s.lifecycle ≠ .uninit → s.txrxState = .idle → s.gt ≠ 0 →
      exec .fieldOn s = .next { s with
        fieldOn := true
        gtTimer := { armed := true, startMs := s.clockMs + s.env.takeElapsed.1,
                     durMs := ceilDiv s.gt.toNat s.params.fcPerMs }
        clockMs := s.clockMs + s.env.takeElapsed.1, env := s.env.takeElapsed.2
        trace := .cmd .fieldOn :: s.trace, response := [0], running := none })

/-- 47 R254: FIELD_OFF, which ends an exchange in progress through the terminal cleanup. Where the ISR agent runs inside
it, the state is the same but for what that agent touches, or the command hangs in the agent's drain (log 5). -/
def Obligations.FieldOff : Prop :=
  ∀ s : State,
    (s.lifecycle = .uninit → exec .fieldOff s = .next { s with response := [6], running := none }) ∧
    (s.lifecycle ≠ .uninit → (s.txrxState = .idle ∨ noEdges s) →
      exec .fieldOff s = .next { fieldSwitchedOff s with response := [0], running := none }) ∧
    (s.lifecycle ≠ .uninit → ∃ t, exec .fieldOff s = .next t ∧
      (SameButIsr { fieldSwitchedOff s with response := [0], running := none } t ∨ t.running = some .hung))

/-- 47 R251: DEINIT ends an exchange and switches the field off where one of them is on, disables every
interrupt, and resets all but the host's registrations. Where the ISR agent runs inside it, the state is the same but
for the trace and the environment's answers, or the command hangs in the agent's drain (log 5). -/
def Obligations.Deinit : Prop :=
  ∀ s : State,
    (s.lifecycle = .uninit → exec .deinit s = .next { s with response := [0], running := none }) ∧
    (s.lifecycle ≠ .uninit →
      let u := if s.fieldOn = true ∨ s.txrxState ≠ .idle then fieldSwitchedOff s else s
      (noEdges s → exec .deinit s = .next { resetFields u with
        trace := maskEvents u.hwMask 0 ++ u.trace, response := [0], running := none }) ∧
      (∃ t, exec .deinit s = .next t ∧
        (t = { resetFields u with trace := t.trace, env := t.env, response := [0], running := none } ∨
          t.running = some .hung)))

/-- 47 R250: INIT resets all but the host's registrations, reads the identity, and brings the chip up. -/
def Obligations.Init : Prop :=
  ∀ s : State,
    (s.txrxState ≠ .idle → exec .init s = .next { s with response := [6], running := none }) ∧
    (s.txrxState = .idle →
      let id := s.env.takeReg
      let b0 := id.2.takeReg
      let b1 := b0.2.takeReg
      let b2 := b1.2.takeReg
      (chipIdOk s.params id.1 = false → exec .init s = .next { resetFields s with
        env := id.2, trace := .regRead .icIdentity id.1 :: s.trace, response := [10], running := none }) ∧
      (chipIdOk s.params id.1 = true → exec .init s = .next { resetFields s with
        lifecycle := .init, env := b2.2
        trace := [.cmd .fieldOff, .regRead (.irqStatus 2) b2.1, .regRead (.irqStatus 1) b1.1,
          .regRead (.irqStatus 0) b0.1, .regWrite (.irqMask 2) (.byte 0xFF),
          .regWrite (.irqMask 1) (.byte 0xFF), .regWrite (.irqMask 0) (.byte 0xFF),
          .regRead .icIdentity id.1] ++ s.trace
        response := [0], running := none }))

/-- 47 R256, R257, 30 R85, R88: the two exchange queries answer the status byte and the sub-state's code, and
do nothing else; the codes are those of the two tables. -/
def Obligations.TransceiveQueries : Prop :=
  ∀ s : State,
    exec .getTransceiveStatus s = .next { s with response := [s.status.code], running := none } ∧
    exec .getTransceiveState s = .next { s with response := [0, s.txrxState.code], running := none } ∧
    (s.status, s.status.code) ∈ [(Status.none, (0x00 : Byte)), (.nomem, 0x01), (.busy, 0x02), (.io, 0x03),
      (.timeout, 0x04), (.system, 0x05), (.wrongState, 0x06), (.invalidParam, 0x07), (.notSupported, 0x08),
      (.notImplemented, 0x09), (.hwMismatch, 0x0A), (.rfCollision, 0x0B), (.framing, 0x0C), (.parity, 0x0D),
      (.crc, 0x0E), (.incompleteByte, 0x0F)] ∧
    (s.txrxState, s.txrxState.code) ∈ [(TxrxState.idle, (0x00 : Byte)), (.txIdle, 0x11), (.txWaitGt, 0x12),
      (.txWaitFdt, 0x13), (.txPrepTx, 0x14), (.txTransmit, 0x15), (.txWaitWl, 0x16), (.txReloadFifo, 0x17),
      (.txWaitTxe, 0x18), (.txDone, 0x19), (.txFail, 0x1A), (.rxIdle, 0x51), (.rxWaitRxs, 0x52), (.rxWaitRxe, 0x53),
      (.rxErrCheck, 0x54), (.rxReadData, 0x55), (.rxReadFifo, 0x56), (.rxDone, 0x57), (.rxFail, 0x58)]

/-- 47 R259, 40 R108: a callback setter stores its operand, `none` for 0, and nothing else. -/
def Obligations.CallbackSetters : Prop :=
  ∀ (c : Option Byte) (s : State),
    exec (.setPreCb c) s = .next { s with cb := { s.cb with pre := c }, response := [0], running := none } ∧
    exec (.setPostCb c) s = .next { s with cb := { s.cb with post := c }, response := [0], running := none } ∧
    exec (.setSyncCb c) s = .next { s with cb := { s.cb with sync := c }, response := [0], running := none } ∧
    exec (.setIrqCb c) s =
      .next { s with irq := { s.irq with callback := c }, response := [0], running := none }

/-- 45 R230, 44 R199: SET_EMD stores its operands outside an exchange and is refused inside one; SET_OBS_MODE
stores its operand. -/
def Obligations.EmdAndObsSetters : Prop :=
  ∀ (enable : Byte) (maxLen : Half) (s : State),
    (s.txrxState ≠ .idle →
      exec (.setEmd enable maxLen) s = .next { s with response := [6], running := none }) ∧
    (s.txrxState = .idle →
      exec (.setEmd enable maxLen) s = .next { s with
        emd := { enabled := enable != 0, maxLen }, response := [0], running := none }) ∧
    exec (.setObsMode enable) s = .next { s with
      obs := { s.obs with configured := enable != 0 }, response := [0], running := none }

/-! ## Mode and bit rate (42_mode_bitrate.md) -/

/-- 42 R140, R148: below INIT the mode and bit-rate commands answer WRONG_STATE and change nothing, GET_MODE with
the mode as its result byte; in an exchange SET_MODE and SET_BITRATE do. That a refused GET_BITRATE has two result
bytes, of no stated value, is the model's choice (log 13). -/
def Obligations.ModeGate : Prop :=
  ∀ (m tx rx : Byte) (s : State),
    (s.lifecycle = .uninit ∨ s.txrxState ≠ .idle →
      exec (.setMode m tx rx) s = .next { s with response := [6], running := none } ∧
      exec (.setBitrate tx rx) s = .next { s with response := [6], running := none }) ∧
    (s.lifecycle = .uninit →
      exec .getMode s = .next { s with response := [6, s.mode.code], running := none } ∧
      ∃ a b, exec .getBitrate s = .next { s with response := [6, a, b], running := none })

/-- 42 R141, R142, R144, R146: SET_MODE past its gate, for every mode code and every pair of rates. The default
parity and CRC bits are those of the parameter table, or where it has none for the mode those of R144's table:
parity for NFCA and NFCA_T1T, CRC for every supported mode. -/
def Obligations.SetMode : Prop :=
  ∀ (code tx rx : Byte) (s : State), s.lifecycle ≠ .uninit → s.txrxState = .idle →
    (tx = 0xFF ∨ rx = 0xFF →
      exec (.setMode code tx rx) s = .next { s with response := [7], running := none }) ∧
    (tx ≠ 0xFF → rx ≠ 0xFF → code.toNat ∈ [6, 9, 10, 11, 12, 13] →
      exec (.setMode code tx rx) s = .next { s with response := [8], running := none }) ∧
    (tx ≠ 0xFF → rx ≠ 0xFF → code = 0 ∨ 14 ≤ code.toNat →
      exec (.setMode code tx rx) s = .next { s with response := [9], running := none }) ∧
    (tx ≠ 0xFF → rx ≠ 0xFF → ∀ m ∈ supportedModes, code = m.code →
      let bits := (s.params.modeDefaultTable.lookup m).getD (m == .nfca || m == .nfcaT1t, true)
      let cfg : Cfg := { txParity := bits.1, txCrc := bits.2, rxCrcCheck := bits.2, rxParityKeep := false
                         agc := true, nfcip1 := false, collDetect := false }
      (tx ∉ s.params.supportedBr ∨ rx ∉ s.params.supportedBr →
        exec (.setMode code tx rx) s = .next { s with response := [7], running := none }) ∧
      (tx ∈ s.params.supportedBr → rx ∈ s.params.supportedBr →
        exec (.setMode code tx rx) s = .next { s with
          mode := m, cfg, txBR := tx, rxBR := rx
          lifecycle := if s.lifecycle = .txrx then .txrx else .modeSet
          trace := [.presetApplied (.bitrate tx rx), .regWrite .bitrateReg (.brCfg tx rx),
            .presetApplied (.tech m), .regWrite .frameCfg (.frameCfg cfg), .regWrite .modeReg (.modeCfg m)]
            ++ s.trace
          response := [0], running := none }))

/-- 42 R147: SET_BITRATE past its gate; KEEP leaves a direction as it is. -/
def Obligations.SetBitrate : Prop :=
  ∀ (tx rx : Byte) (s : State), s.lifecycle ≠ .uninit → s.txrxState = .idle →
    ((tx ≠ 0xFF ∧ tx ∉ s.params.supportedBr) ∨ (rx ≠ 0xFF ∧ rx ∉ s.params.supportedBr) →
      exec (.setBitrate tx rx) s = .next { s with response := [7], running := none }) ∧
    (tx = 0xFF ∨ tx ∈ s.params.supportedBr → rx = 0xFF ∨ rx ∈ s.params.supportedBr →
      let newTx := if tx = 0xFF then s.txBR else tx
      let newRx := if rx = 0xFF then s.rxBR else rx
      exec (.setBitrate tx rx) s = .next { s with
        txBR := newTx, rxBR := newRx
        trace := [.presetApplied (.bitrate newTx newRx), .regWrite .bitrateReg (.brCfg newTx newRx)]
          ++ s.trace
        response := [0], running := none })

/-- 42 R148, R149, 30 R86: the queries answer the code of the stored mode, and the stored rates; after a SET_MODE that
succeeded, and after a SET_BITRATE that succeeded, GET_BITRATE answers exactly the rates that were set. -/
def Obligations.ModeQueries : Prop :=
  (∀ s : State, s.lifecycle ≠ .uninit →
    exec .getMode s = .next { s with response := [0, s.mode.code], running := none } ∧
    exec .getBitrate s = .next { s with response := [0, s.txBR, s.rxBR], running := none } ∧
    (s.mode, s.mode.code) ∈ [(Mode.none, (0x00 : Byte)), (.nfca, 0x01), (.nfcaT1t, 0x02), (.nfcb, 0x03),
      (.nfcbPrime, 0x04), (.nfcbCts, 0x05), (.nfcf, 0x06), (.nfcv, 0x07), (.picopass, 0x08), (.activeP2p, 0x09),
      (.listenNfca, 0x0A), (.listenNfcb, 0x0B), (.listenNfcf, 0x0C), (.listenActiveP2p, 0x0D)]) ∧
  (∀ (code tx rx : Byte) (s t : State), exec (.setMode code tx rx) s = .next t → t.response = [0] →
    2 ≤ t.lifecycle.rank ∧
    exec .getBitrate t = .next { t with response := [0, tx, rx], running := none }) ∧
  (∀ (tx rx : Byte) (s t : State), exec (.setBitrate tx rx) s = .next t → t.response = [0] →
    tx ≠ 0xFF → rx ≠ 0xFF →
    t.lifecycle = s.lifecycle ∧
    exec .getBitrate t = .next { t with response := [0, tx, rx], running := none })

/-! ## The interrupt aggregator (40_interrupt_aggregator.md) -/

/-- 40 R101, R102: enabling and disabling replace the enable mask, write exactly the mask registers whose byte
changed, and leave the accumulator alone; a mask that changes nothing issues no write. -/
def Obligations.IrqEnableDisable : Prop :=
  (∀ (mask new : Word) (s : State), new = s.irq.enabled ||| mask →
    exec (.irqEnable mask) s = .next { s with
      irq := { s.irq with enabled := new }, hwMask := masksOf new
      trace := maskEvents s.hwMask new ++ s.trace, response := [0], running := none }) ∧
  (∀ (mask new : Word) (s : State), new = s.irq.enabled &&& ~~~mask →
    exec (.irqDisable mask) s = .next { s with
      irq := { s.irq with enabled := new }, hwMask := masksOf new
      trace := maskEvents s.hwMask new ++ s.trace, response := [0], running := none }) ∧
  (∀ (mask : Word) (s : State), s.hwMask = masksOf s.irq.enabled →
    (mask &&& ~~~s.irq.enabled = 0 →
      exec (.irqEnable mask) s = .next { s with response := [0], running := none }) ∧
    (mask &&& s.irq.enabled = 0 →
      exec (.irqDisable mask) s = .next { s with response := [0], running := none }))

/-- 40 R105: the consuming read answers and clears the pending bits of the mask; a second one answers 0 and
changes nothing more. -/
def Obligations.IrqGet : Prop :=
  ∀ (mask : Word) (s : State), ∃ t,
    exec (.irqGet mask) s = .next t ∧
    t = { s with irq := { s.irq with pending := s.irq.pending &&& ~~~mask }
                 response := 0 :: encU32 (s.irq.pending &&& mask), running := none } ∧
    exec (.irqGet mask) t = .next { t with response := [0, 0, 0, 0, 0] }

/-- 40 R103, R104, 20 R70: the drain reads the three status registers once for each high sample of the line and ORs
the enabled bits of what it read into the accumulator; a line low on entry costs no bus access. Before each
iteration the ISR agent may run (log 6), and whatever it does, the command answers NONE, or drains without end
(log 5), and has only set enabled pending bits. In an exchange whose NRT was written 0 what is read shows no NRE, and
every other bit as drawn (log 12). -/
def Obligations.IrqPoll : Prop :=
  (∀ (reads : List (Byte × Byte × Byte)) (line : List Bool) (regs : List Byte) (s : State),
    noEdges s → drainScript reads line regs s →
      exec .irqPoll s = .next { drained reads line regs s with response := [0], running := none }) ∧
  (∀ (line : List Bool) (s u : State), s.env.line = true :: line →
    isrPoint { s with env := { s.env with line } } = .ok u →
      exec .irqPoll s = exec .irqPoll (drainOnce u)) ∧
  (∀ s : State, ∃ t, exec .irqPoll s = .next t ∧
    SameButIsr { s with response := t.response, running := t.running } t ∧
    (t.response = [0] ∧ t.running = none ∨ t.response = [] ∧ t.running = some .hung) ∧
    s.irq.pending ||| t.irq.pending = t.irq.pending ∧
    t.irq.pending &&& ~~~(s.irq.pending ||| s.irq.enabled) = 0)

/-- 41 R131: in an exchange whose NRT was written 0, nothing sets NRE: no command, no drain of WORKER, IRQ_POLL,
IRQ_WAIT or IRQ_ISR, no iteration of a loop command in progress, no ISR run inside them. How the model imposes the
constraint on the Chip is log 12. -/
def Obligations.NoNreInUntimedExchange : Prop :=
  ∀ s t : State, s.txrxState ≠ .idle → s.nrt.regVal = 0 → hasIrq s.params s.irq.pending .nre = false →
    ((∃ i : Instr, exec i s = .next t) ∨ step s = .next t) → hasIrq s.params t.irq.pending .nre = false

/-- 40 R106: IRQ_WAIT drains, consumes what matches, and looks at the clock: it answers the match, or 0 when
the timeout has passed, or is still waiting; the next step is the next iteration of the same wait (one iteration
a step is log 8). Whatever the ISR agent does meanwhile, the command has returned, or waits, or drains without
end (log 5). What its drain reads is as IrqPoll says, without NRE while the NRT is off (log 12). -/
def Obligations.IrqWait : Prop :=
  ∀ (mask timeoutMs : Word) (s : State),
    (∀ (reads : List (Byte × Byte × Byte)) (line : List Bool) (regs : List Byte),
      noEdges s → drainScript reads line regs s →
      (let d := s.env.takeElapsed
       let u := { s with clockMs := s.clockMs + d.1, env := d.2 }
       exec (.irqWait mask timeoutMs) s =
         .next (waited mask timeoutMs (s.clockMs + d.1) (drained reads line regs u))) ∧
      (∀ t0 : Nat, s.running = some (.irqWait mask timeoutMs t0) →
        step s = .next (waited mask timeoutMs t0 (drained reads line regs s)))) ∧
    (∃ t, exec (.irqWait mask timeoutMs) s = .next t ∧
      (t.running = none ∨ t.running = some .hung ∨ ∃ t0, t.running = some (.irqWait mask timeoutMs t0)))

/-- 40 R107: IRQ_ISR drains and emits the registered callback in build ISR, and has no step in build POLLED (log 7).
What its drain reads is as IrqPoll says, without NRE while the NRT is off (log 12). -/
def Obligations.IrqIsr : Prop :=
  (∀ s : State, s.params.irqBuild = .polled → exec .irqIsr s = .next s) ∧
  (∀ (reads : List (Byte × Byte × Byte)) (line : List Bool) (regs : List Byte) (s : State),
    s.params.irqBuild = .isr → drainScript reads line regs s →
      exec .irqIsr s = .next { drained reads line regs s with
        trace := callbackEvents s.irq.callback .irqCallback ++ (drained reads line regs s).trace })

/-! ## The FIFO status cache (43_fifo_status.md) -/

/-- 43 R161, R163, 20 R67: an update fetches both status bytes only where the cache is invalid, status 1 first, and
faults where the count it fetches is above FIFO_DEPTH (log 11); a clear only marks the cache invalid. -/
def Obligations.FifoUpdateAndClear : Prop :=
  ∀ s : State,
    (fifoInRange s → exec .fifoStatusUpdate s = .next { refreshed s with response := [0], running := none }) ∧
    (s.fifoStatus.valid = true → refreshed s = s) ∧
    (¬fifoInRange s → exec .fifoStatusUpdate s = .fault .chipRange) ∧
    exec .fifoStatusClear s = .next { s with
      fifoStatus := { s.fifoStatus with valid := false }, response := [0], running := none }

/-- 43 R162, R165, R166, R167, 20 R67: each query updates the cache and answers its field of the snapshot: the 9-bit
byte count, the 3-bit incomplete-bit count, the missing-parity bit; each faults where the count it fetches is above
FIFO_DEPTH (log 11). -/
def Obligations.FifoQueries : Prop :=
  ∀ s : State,
    let u := refreshed s
    let f := u.fifoStatus
    let l := s.params.fs2
    (fifoInRange s →
      exec .fifoGetNumBytes s = .next { u with
        response := [0, f.st1, if f.st2.getLsbD l.b8.val then 1 else 0], running := none } ∧
      exec .fifoGetIncBits s = .next { u with
        response := [0, (f.st2 >>> l.lbLo.val) &&& 7], running := none } ∧
      exec .fifoIsMissingPar s = .next { u with
        response := [0, if f.st2.getLsbD l.np.val then 1 else 0], running := none }) ∧
    (¬fifoInRange s → exec .fifoGetNumBytes s = .fault .chipRange ∧
      exec .fifoGetIncBits s = .fault .chipRange ∧ exec .fifoIsMissingPar s = .fault .chipRange)

/-- 43 R168: between invalidation points, any number of updates and queries costs exactly two bus reads, or
none where the cache was valid; with a count draw above FIFO_DEPTH (20 R67, log 11) the first of them faults. -/
def Obligations.FifoTraffic : Prop :=
  ∀ (cmds : List Instr) (s : State),
    (∀ i ∈ cmds, i = .fifoStatusUpdate ∨ i = .fifoGetNumBytes ∨ i = .fifoGetIncBits ∨
      i = .fifoIsMissingPar) →
    (cmds = [] ∨ fifoInRange s → ∃ t, execAll cmds s = .next t ∧
      (cmds = [] ∨ s.fifoStatus.valid = true → t.trace = s.trace ∧ t.fifoStatus = s.fifoStatus) ∧
      (cmds ≠ [] → s.fifoStatus.valid = false → ∃ a b,
        t.trace = .regRead .fifoStatus2 b :: .regRead .fifoStatus1 a :: s.trace ∧
        t.fifoStatus = { valid := true, st1 := a, st2 := b })) ∧
    (cmds ≠ [] → ¬fifoInRange s → execAll cmds s = .fault .chipRange)

/-! ## Starting an exchange (44_transceive_tx.md, 47_session.md) -/

/-- 44 R170, R186, 41 R133: START_TRANSCEIVE's refusals in their order, each changing nothing, and the accepted
start: the frame configuration that the mode's defaults and the flags give bit by bit, the GPT preload rounded up
and saturated. Where the ISR agent runs inside the start, the state is the same but for what that agent touches,
or the command hangs in the agent's drain (log 5). -/
def Obligations.StartTransceive : Prop :=
  ∀ (txBuf rxBuf rxRcvdLen : Option Ref) (txBufLen rxBufLen : Half) (flags fwt : Word) (s : State),
    let run := exec (.startTransceive txBuf txBufLen rxBuf rxBufLen rxRcvdLen flags fwt) s
    let notReady := s.lifecycle = .uninit ∨ s.lifecycle = .init ∨ s.txrxState ≠ .idle
    let noField := txBuf ≠ none ∧ s.fieldOn = false
    let badParam := flags.extractLsb' 7 25 ≠ 0 ∨
      (txBuf ≠ none ∧ (txBufLen = 0 ∨ s.params.maxTxBits < txBufLen.toNat)) ∨ (txBuf = none ∧ rxBuf = none)
    let c : Ctx := { txBuf := toBuf txBuf, txBufLen, rxBuf := toBuf rxBuf, rxBufLen,
                     rxRcvdLen := toBuf rxRcvdLen, flags, fwt }
    let bits := (s.params.modeDefaultTable.lookup s.mode).getD (s.mode == .nfca || s.mode == .nfcaT1t, true)
    let g := (s.params.fdtPollEffTable.lookup (s.mode, s.fdtPoll)).getD s.fdtPoll.toNat
    (notReady → run = .next { s with response := [6], running := none }) ∧
    (¬notReady → noField → run = .next { s with response := [6], running := none }) ∧
    (¬notReady → ¬noField → badParam → run = .next { s with response := [7], running := none }) ∧
    (¬notReady → ¬noField → ¬badParam →
      (noEdges s → run = .next { started c s with response := [0], running := none }) ∧
      (∃ t, run = .next t ∧
        (SameButIsr { started c s with response := [0], running := none } t ∨ t.running = some .hung))) ∧
    (s.mode ∈ supportedModes → (started c s).cfg =
      { txParity := bits.1 && !flags.getLsbD 0, txCrc := bits.2 && !flags.getLsbD 1
        rxCrcCheck := bits.2 && !flags.getLsbD 3, rxParityKeep := flags.getLsbD 4, agc := !flags.getLsbD 5
        nfcip1 := flags.getLsbD 6, collDetect := s.cfg.collDetect }) ∧
    (started c s).gptPreload = BitVec.ofNat 16 (min 0xFFFF (ceilDiv g s.params.gptUnit))

/-- 47 R258, 44 R170: TRANSCEIVE_BLOCKING refuses as START_TRANSCEIVE does, in an exchange too; accepted, it has
started the exchange and goes on with the loop of ticks, one a step (log 8). ISR runs inside the start as in
StartTransceive. -/
def Obligations.BlockingStarts : Prop :=
  ∀ (txBuf rxBuf rxRcvdLen : Option Ref) (txBufLen rxBufLen : Half) (flags fwt : Word) (s : State),
    let run := exec (.transceiveBlocking txBuf txBufLen rxBuf rxBufLen rxRcvdLen flags fwt) s
    let notReady := s.lifecycle = .uninit ∨ s.lifecycle = .init ∨ s.txrxState ≠ .idle
    let noField := txBuf ≠ none ∧ s.fieldOn = false
    let badParam := flags.extractLsb' 7 25 ≠ 0 ∨
      (txBuf ≠ none ∧ (txBufLen = 0 ∨ s.params.maxTxBits < txBufLen.toNat)) ∨ (txBuf = none ∧ rxBuf = none)
    let c : Ctx := { txBuf := toBuf txBuf, txBufLen, rxBuf := toBuf rxBuf, rxBufLen,
                     rxRcvdLen := toBuf rxRcvdLen, flags, fwt }
    (notReady ∨ noField → run = .next { s with response := [6], running := none }) ∧
    (¬notReady → ¬noField → badParam → run = .next { s with response := [7], running := none }) ∧
    (¬notReady → ¬noField → ¬badParam →
      (noEdges s → run = .next { started c s with response := [], running := some .blocking }) ∧
      (∃ t, run = .next t ∧
        (SameButIsr { started c s with response := [], running := some .blocking } t ∨ t.running = some .hung)))

/-- 47 R258: each step of TRANSCEIVE_BLOCKING's loop (log 8) is one WORKER, after whatever the ISR agent does before
it; the command returns the exchange's status when the exchange has ended, and never before. -/
def Obligations.BlockingLoop : Prop :=
  ∀ s u : State, s.running = some .blocking → isrPoint s = .ok u →
    (∀ t : State, exec .worker u = .next t →
      (t.running = none → t.txrxState = .idle → step s = .next t ∧ t.response = [t.status.code]) ∧
      (t.running = none → t.txrxState ≠ .idle →
        step s = .next { t with response := [], running := some .blocking }) ∧
      (t.running ≠ none → step s = .next t)) ∧
    (∀ f : Fault, exec .worker u = .fault f → step s = .fault f)

/-! ## The worker tick: TX (44_transceive_tx.md) -/

/-- 40 R109, 44 R171: in build POLLED a tick begins with one drain and is then the tick of the drained state,
in build ISR it samples no line; in IDLE a tick has no other effect and answers the status. That this is so before
INIT too, where R171 names no gate and a sentence under 70 R290 does not list WORKER as ungated, is the model's choice
(log 26). What the drain reads is as IrqPoll says, without NRE while the NRT is off (log 12). -/
def Obligations.TickDrainsFirst : Prop :=
  (∀ (reads : List (Byte × Byte × Byte)) (regs : List Byte) (s : State),
    s.params.irqBuild = .polled → s.env.lineRest = false → drainScript reads [] regs s →
      exec .worker s = exec .worker (drained reads [] regs s)) ∧
  (∀ s t : State, s.params.irqBuild = .isr → s.env.edges = [] → exec .worker s = .next t →
    t.env.line = s.env.line) ∧
  (∀ s : State, quiet s = true → s.txrxState = .idle →
    exec .worker s = .next { s with response := [s.status.code], running := none })

/-- 44 R172, R173, R174, 41 R126: the waits before a transmission: while the guard time runs the tick ends in
TX_WAIT_GT; once it is over or was never armed, the tick ends in TX_WAIT_FDT while the general-purpose timer
runs. -/
def Obligations.TxWaits : Prop :=
  ∀ (rest : List Bool) (s : State), quiet s = true →
    let d := s.env.takeElapsed
    let now := s.clockMs + d.1
    let before := s.txrxState = .txIdle ∨ s.txrxState = .txWaitGt
    (before → s.gtTimer.armed = true → now - s.gtTimer.startMs < s.gtTimer.durMs →
      exec .worker s = .next { s with
        txrxState := .txWaitGt, clockMs := now, env := d.2, response := [s.status.code], running := none }) ∧
    (before → s.gtTimer.armed = true → s.gtTimer.durMs ≤ now - s.gtTimer.startMs →
      s.env.chipBits = true :: rest →
      exec .worker s = .next { s with
        txrxState := .txWaitFdt, gtTimer := { s.gtTimer with armed := false }, clockMs := now
        env := { d.2 with chipBits := rest }, response := [s.status.code], running := none }) ∧
    ((before ∧ s.gtTimer.armed = false) ∨ s.txrxState = .txWaitFdt → s.env.chipBits = true :: rest →
      exec .worker s = .next { s with
        txrxState := .txWaitFdt, env := { s.env with chipBits := rest }
        response := [s.status.code], running := none })

/-- 44 R173, R174, R175, R176, R177: with the guard time over or never armed and the general-purpose timer stopped,
one tick prepares the frame, loads up to one FIFO depth of it, and asks the sync gate: closed, the tick ends in
TX_TRANSMIT; open, or with no sync callback, it issues the transmit command and goes on in the wait for the water level
where bytes are left, for the end of transmission otherwise. That the tick goes on from a sub-state is said by an
equation with the tick from there, whatever interrupt is pending (R171). -/
def Obligations.TxLoadsAndTransmits : Prop :=
  ∀ (b : BufRef) (rest : List Bool) (s : State), quiet s = true →
    let d := s.env.takeElapsed
    let now := s.clockMs + d.1
    let before := s.txrxState = .txIdle ∨ s.txrxState = .txWaitGt
    let timed := before ∧ s.gtTimer.armed = true
    let total := ceilDiv s.ctx.txBufLen.toNat 8
    let n := min total s.params.fifoDepth
    let env := { (if timed then d.2 else s.env) with chipBits := rest }
    let prepared := { s with
      gtTimer := { s.gtTimer with armed := if timed then false else s.gtTimer.armed }
      clockMs := if timed then now else s.clockMs
      fifo := { bytesTotal := total, bytesWritten := n }
      fifoStatus := { s.fifoStatus with valid := false }
      obs := { s.obs with active := s.obs.active || s.obs.configured }
      txrxState := .txTransmit
      env
      trace := (if s.obs.configured then [.cmd .obsOn] else [])
        ++ [.fifoWrite (bufBytes s.mem b 0 n), .regWrite16 .numTxBytes s.ctx.txBufLen, .cmd .clearFifo,
          .cmd .resetRxGain] ++ s.trace }
    let transmitted := { prepared with
      txrxState := if n < total then .txWaitWl else .txWaitTxe
      trace := .cmd (if s.cfg.txCrc then .transmitWithCrc else .transmitWithoutCrc) :: prepared.trace }
    (before ∨ s.txrxState = .txWaitFdt) → (timed → s.gtTimer.durMs ≤ now - s.gtTimer.startMs) →
    s.env.chipBits = false :: rest → s.ctx.txBuf = some b → inBounds s.params b 0 n = true →
      exec .worker s = exec .worker prepared ∧
      (s.cb.sync = none → exec .worker s = exec .worker transmitted ∧
        (s.irq.pending &&& txIrqs s.params = 0 →
          exec .worker s = .next { transmitted with response := [s.status.code], running := none })) ∧
      (∀ (c : Byte) (more : List Bool), s.cb.sync = some c →
        (s.env.sync = false :: more → exec .worker s = .next { prepared with
          env := { env with sync := more }, response := [s.status.code], running := none }) ∧
        (s.env.sync = true :: more → exec .worker s = exec .worker { transmitted with
          env := { env with sync := more } }))

/-- 44 R177: the sync gate: closed, the tick ends in TX_TRANSMIT and nothing is transmitted; open, the transmit
command is issued, and the tick goes on in the wait that follows, whatever interrupt is pending (R171). -/
def Obligations.SyncGate : Prop :=
  ∀ (c : Byte) (rest : List Bool) (s : State), quiet s = true → s.txrxState = .txTransmit →
    s.cb.sync = some c →
    (s.env.sync = false :: rest → exec .worker s = .next { s with
      env := { s.env with sync := rest }, response := [s.status.code], running := none }) ∧
    (s.env.sync = true :: rest →
      let transmitted := { s with
        env := { s.env with sync := rest }
        txrxState := if s.fifo.bytesWritten < s.fifo.bytesTotal then .txWaitWl else .txWaitTxe
        trace := .cmd (if s.cfg.txCrc then .transmitWithCrc else .transmitWithoutCrc) :: s.trace }
      exec .worker s = exec .worker transmitted ∧
      (s.irq.pending &&& txIrqs s.params = 0 →
        exec .worker s = .next { transmitted with response := [s.status.code], running := none }))

/-- 44 R178, R180: in TX_WAIT_WL nothing pending ends the tick; the water level alone loads the next chunk;
an end of transmission there is an I/O failure, which ends the exchange through the cleanup. -/
def Obligations.WaterLevelReloads : Prop :=
  ∀ (b : BufRef) (s : State), quiet s = true → s.txrxState = .txWaitWl → s.ctx.txBuf = some b →
    let irq := s.irq.pending &&& txIrqs s.params
    let consumed := { s with irq := { s.irq with pending := s.irq.pending &&& ~~~(txIrqs s.params) } }
    let n := min s.params.wlChunk (s.fifo.bytesTotal - s.fifo.bytesWritten)
    (irq = 0 → exec .worker s = .next { s with response := [s.status.code], running := none }) ∧
    (irq = irqBit s.params .fwl → n ≤ s.params.fifoDepth →
      inBounds s.params b s.fifo.bytesWritten n = true →
      exec .worker s = .next { consumed with
        fifo := { s.fifo with bytesWritten := s.fifo.bytesWritten + n }
        fifoStatus := { s.fifoStatus with valid := false }
        txrxState := if s.fifo.bytesWritten + n < s.fifo.bytesTotal then .txWaitWl else .txWaitTxe
        trace := .fifoWrite (bufBytes s.mem b s.fifo.bytesWritten n) :: s.trace
        response := [s.status.code], running := none }) ∧
    (irq ≠ 0 → irq ≠ irqBit s.params .fwl →
      exec .worker s = .next { cleanedUp { consumed with status := .io } with
        response := [3], running := none })

/-- 44 R181, R182, 45 R200: in TX_WAIT_TXE a stray water level is consumed and ignored; the end of transmission
ends an exchange without rx buffer with NONE, and otherwise goes on in RX_IDLE in the same tick, whatever interrupt is
pending (R171), which opens the reception. -/
def Obligations.EndOfTransmission : Prop :=
  ∀ s : State, quiet s = true → s.txrxState = .txWaitTxe →
    let consumed := { s with irq := { s.irq with pending := s.irq.pending &&& ~~~(txIrqs s.params) } }
    let txe := s.irq.pending &&& irqBit s.params .txe ≠ 0
    (¬txe → exec .worker s = .next { consumed with response := [s.status.code], running := none }) ∧
    (txe → s.ctx.rxBuf = none →
      exec .worker s = .next { cleanedUp { consumed with status := .none } with
        response := [0], running := none }) ∧
    (txe → s.ctx.rxBuf ≠ none → exec .worker s = exec .worker { consumed with
      obs := { s.obs with active := false }
      txrxState := .rxIdle
      trace := (if s.obs.active then [.cmd .obsOff] else []) ++ s.trace }) ∧
    (txe → s.ctx.rxBuf ≠ none → cellOk s.params s.ctx.rxRcvdLen →
      consumed.irq.pending &&& (irqBit s.params .rxs ||| irqBit s.params .nre) = 0 →
      exec .worker s = .next { consumed with
        fifo := { bytesTotal := 0, bytesWritten := 0 }
        fifoStatus := { s.fifoStatus with valid := false }
        obs := { s.obs with active := false }
        mem := cellWritten s.params s.ctx.rxRcvdLen 0 s.mem
        txrxState := .rxWaitRxs
        trace := (if s.obs.active then [.cmd .obsOff] else []) ++ s.trace
        response := [s.status.code], running := none })

/-! ## The worker tick: RX (45_transceive_rx.md) -/

/-- 45 R200, R202: RX_IDLE zeroes the counters and the caller's length; in RX_WAIT_RXS nothing pending ends the
tick, NRE alone is a timeout, and RXS goes on to RX_WAIT_RXE with an NRE taken with it discarded. Both go on in the same
tick, whatever interrupt is pending: they are the tick from the next sub-state (44 R171). -/
def Obligations.ReceptionStart : Prop :=
  ∀ s : State, quiet s = true →
    let mask := irqBit s.params .rxs ||| irqBit s.params .nre
    let irq := s.irq.pending &&& mask
    let consumed := { s with irq := { s.irq with pending := s.irq.pending &&& ~~~mask } }
    let opened := { s with
      fifo := { bytesTotal := 0, bytesWritten := 0 }
      fifoStatus := { s.fifoStatus with valid := false }
      mem := cellWritten s.params s.ctx.rxRcvdLen 0 s.mem
      txrxState := .rxWaitRxs }
    (s.txrxState = .rxIdle → cellOk s.params s.ctx.rxRcvdLen →
      exec .worker s = exec .worker opened ∧
      (irq = 0 → exec .worker s = .next { opened with response := [s.status.code], running := none })) ∧
    (s.txrxState = .rxWaitRxs → irq = 0 →
      exec .worker s = .next { s with response := [s.status.code], running := none }) ∧
    (s.txrxState = .rxWaitRxs → irq ≠ 0 → irq &&& irqBit s.params .rxs = 0 →
      exec .worker s = .next { cleanedUp { consumed with status := .timeout } with
        response := [4], running := none }) ∧
    (s.txrxState = .rxWaitRxs → irq &&& irqBit s.params .rxs ≠ 0 →
      exec .worker s = exec .worker { consumed with txrxState := .rxWaitRxe } ∧
      (consumed.irq.pending &&&
          (irqBit s.params .rxe ||| irqBit s.params .fwl ||| irqBit s.params .rxRest) = 0 →
        exec .worker s = .next { consumed with
          txrxState := .rxWaitRxe, response := [s.status.code], running := none }))

/-- 45 R203, R204, 70 R304: an automatic restart without an end of receive: a pending NRE, or the NRT not running, is
a timeout, and the NRT never runs where it was written 0, whatever the Chip draws (log 12: by the rule for
FWT_FOREVER, by inference for a waiting time of 0); otherwise the error interrupts are discarded and the tick ends, in
RX_WAIT_RXE with the receiver on and in RX_WAIT_RXS with it off. -/
def Obligations.RestartHandling : Prop :=
  ∀ (rest : List Bool) (s : State), quiet s = true → s.txrxState = .rxWaitRxe →
    let mask := irqBit s.params .rxe ||| irqBit s.params .fwl ||| irqBit s.params .rxRest
    let irq := s.irq.pending &&& mask
    let left := s.irq.pending &&& ~~~mask &&& ~~~(irqBit s.params .nre)
    let nre := s.irq.pending &&& ~~~mask &&& irqBit s.params .nre
    irq &&& irqBit s.params .rxe = 0 → irq &&& irqBit s.params .rxRest ≠ 0 →
    (nre ≠ 0 → exec .worker s = .next {
      cleanedUp { s with irq := { s.irq with pending := left }, status := .timeout } with
        response := [4], running := none }) ∧
    (∀ drawn : Bool, nre = 0 → s.env.chipBits = drawn :: rest → drawn = false ∨ s.nrt.regVal = 0 →
      exec .worker s = .next {
        cleanedUp { s with irq := { s.irq with pending := left }, status := .timeout
                           env := { s.env with chipBits := rest } } with
          response := [4], running := none }) ∧
    (nre = 0 → s.nrt.regVal = 0 → ∃ t, exec .worker s = .next t ∧ t.status = .timeout ∧ t.response = [4] ∧
      t.txrxState = .idle) ∧
    (∀ rxOn : Bool, nre = 0 → s.nrt.regVal ≠ 0 → s.env.chipBits = true :: rxOn :: rest →
      exec .worker s = .next { s with
        irq := { s.irq with pending := left &&& ~~~(errIrqs s.params) }
        env := { s.env with chipBits := rest }
        txrxState := if rxOn then .rxWaitRxe else .rxWaitRxs
        response := [s.status.code], running := none })

/-- 45 R203, R205: nothing pending ends the tick in RX_WAIT_RXE; a water level without an end of receive drains
exactly one chunk, stores as much of it as the caller's buffer still takes, and discards the rest. -/
def Obligations.MidStreamDrain : Prop :=
  ∀ (b : BufRef) (s : State), quiet s = true → s.txrxState = .rxWaitRxe → s.ctx.rxBuf = some b →
    let mask := irqBit s.params .rxe ||| irqBit s.params .fwl ||| irqBit s.params .rxRest
    let irq := s.irq.pending &&& mask
    (irq = 0 → exec .worker s = .next { s with response := [s.status.code], running := none }) ∧
    (irq ≠ 0 → irq &&& irqBit s.params .rxe = 0 → irq &&& irqBit s.params .rxRest = 0 →
      s.params.wlChunk ≤ s.params.fifoDepth →
      let d := s.env.takeFifo s.params.wlChunk
      let c := min s.params.wlChunk (ceilDiv s.ctx.rxBufLen.toNat 8 - s.fifo.bytesWritten)
      (c = 0 ∨ inBounds s.params b s.fifo.bytesWritten c = true) →
      exec .worker s = .next { s with
        irq := { s.irq with pending := s.irq.pending &&& ~~~mask }
        fifo := { bytesTotal := s.fifo.bytesTotal + s.params.wlChunk
                  bytesWritten := s.fifo.bytesWritten + c }
        fifoStatus := { s.fifoStatus with valid := false }
        mem := storeBytes b s.fifo.bytesWritten (d.1.take c) s.mem
        env := d.2
        trace := .fifoRead d.1 :: s.trace
        response := [s.status.code], running := none })

/-- 45 R203, R206, R207, R208, R213 to R218: an end of receive, in one tick: the errors are classified by
precedence, the whole FIFO is read out, the data is stored up to the caller's capacity and its length
reported, and the exchange ends through the cleanup with the first error, or NOMEM on overflow, or NONE. -/
def Obligations.ReceptionReadOut : Prop :=
  ∀ (b : BufRef) (s : State), quiet s = true → s.txrxState = .rxWaitRxe → s.status = .busy →
    s.irq.pending &&& irqBit s.params .rxe ≠ 0 → s.ctx.rxBuf = some b →
    let mask := irqBit s.params .rxe ||| irqBit s.params .fwl ||| irqBit s.params .rxRest
    let left := s.irq.pending &&& ~~~mask
    let err := irqBit s.params .rxe ||| (left &&& errIrqs s.params)
    let u := refreshed s
    let f := u.fifoStatus
    let n := numBytes s.params f
    let k := incBits s.params f
    let v := verdict s.params s.mode err f
    let r := readOutOf s n k
    let d := u.env.takeFifo n
    let final := finalStatus v r.total s.ctx.capBytes
    n ≤ s.params.fifoDepth →
    ¬(s.emd.enabled = true ∧ n < s.emd.maxLen.toNat ∧
      (v = .framing ∨ v = .parity ∨ v = .crc ∨ v = .rfCollision ∧ s.cfg.collDetect = false)) →
    (r.stored = 0 ∨ inBounds s.params b s.fifo.bytesWritten r.stored = true) →
    cellOk s.params s.ctx.rxRcvdLen →
      exec .worker s = .next { cleanedUp { u with
          irq := { s.irq with pending := left &&& ~~~(errIrqs s.params) }
          status := final
          fifo := { bytesTotal := r.total, bytesWritten := s.fifo.bytesWritten + r.stored }
          fifoStatus := { f with valid := decide (n = 0) }
          mem := cellWritten s.params s.ctx.rxRcvdLen (BitVec.ofNat 16 (min r.bits 0xFFFF))
            (storeBytes b s.fifo.bytesWritten (d.1.take r.stored) s.mem)
          env := d.2
          trace := (if n = 0 then [] else [.fifoRead d.1]) ++ u.trace } with
        response := [final.code], running := none }

/-- 45 R209, R210: with EMD on, an eligible error shorter than the threshold re-arms the receiver and waits for
a fresh reception, with the status BUSY and the counters zeroed; an NRE pending then is a timeout. Eligible are
framing, parity and CRC errors, and a collision with collision detection off; an incomplete byte is not, and is read
out as ReceptionReadOut says. -/
def Obligations.EmdRearm : Prop :=
  ∀ s : State, quiet s = true → s.txrxState = .rxWaitRxe → s.status = .busy →
    s.irq.pending &&& irqBit s.params .rxe ≠ 0 →
    let mask := irqBit s.params .rxe ||| irqBit s.params .fwl ||| irqBit s.params .rxRest
    let taken := s.irq.pending &&& ~~~mask
    let err := irqBit s.params .rxe ||| (taken &&& errIrqs s.params)
    let u := refreshed s
    let n := numBytes s.params u.fifoStatus
    let v := verdict s.params s.mode err u.fifoStatus
    let left := taken &&& ~~~(errIrqs s.params)
    let rearmed := { u with
      irq := { s.irq with pending := left &&& ~~~(irqBit s.params .nre) }
      fifoStatus := { u.fifoStatus with valid := false }
      trace := .cmd .unmaskReceive :: u.trace }
    n ≤ s.params.fifoDepth → s.emd.enabled = true → n < s.emd.maxLen.toNat →
    (v = .framing ∨ v = .parity ∨ v = .crc ∨ v = .rfCollision ∧ s.cfg.collDetect = false) →
    (left &&& irqBit s.params .nre = 0 → exec .worker s = .next { rearmed with
      fifo := { bytesTotal := 0, bytesWritten := 0 }, txrxState := .rxWaitRxs
      response := [2], running := none }) ∧
    (left &&& irqBit s.params .nre ≠ 0 → exec .worker s = .next {
      cleanedUp { rearmed with status := .timeout } with response := [4], running := none })

/-! ## Whole-machine rules -/

/-- 44 R184, R185: a tick ends in a tick-end state, unless a drain in it never ends (how the model goes on then is
log 5; that its fuel never ends a tick is log 16); and a tick that begins in IDLE ends there. -/
def Obligations.TickEnds : Prop :=
  ∀ s t : State, exec .worker s = .next t →
    t.running = some .hung ∨
      (t.running = none ∧ t.txrxState.tickEnd = true ∧ (s.txrxState = .idle → t.txrxState = .idle))

/-- 44 R197, R198, 45 R217, R218: however a tick ends an exchange, the cleanup has been made in full: observation
off, the mode's frame defaults, the exchange interrupts disabled, lifecycle MODE_SET, a status other than
BUSY, and the post callback the last thing done. -/
def Obligations.TerminalCleansUp : Prop :=
  ∀ s t : State, exec .worker s = .next t → s.txrxState ≠ .idle → t.txrxState = .idle →
    t.lifecycle = .modeSet ∧ t.obs.active = false ∧
    t.cfg = { modeDefaults s.params s.mode with collDetect := s.cfg.collDetect } ∧
    t.irq.enabled = s.irq.enabled &&& ~~~(exchIrqs s.params) ∧ t.hwMask = masksOf t.irq.enabled ∧
    t.status ≠ .busy ∧
    (∀ cb, s.cb.post = some cb → ∃ earlier, t.trace = .postCallback cb :: earlier)

/-- 45 R201, 20 R62, R63: a tick changes no byte of host memory but those of the caller's receive buffer below
its capacity and of its received-length cell. -/
def Obligations.TickWritesOnlyReceiveMemory : Prop :=
  ∀ s t : State, exec .worker s = .next t → ∀ a : Nat,
    Memory.load t.mem a ≠ Memory.load s.mem a →
      inExtent s.ctx.rxBuf s.ctx.capBytes a ∨ inExtent s.ctx.rxRcvdLen 2 a

/-- The frame of a tick and of the aggregator's reads: mode, rates, durations, field, operands, programmed
timers, registrations, EMD, the port and the parameters stay as they are (10 R22 to R24, R28, 41 R128,
R132, 47 R255, R259). -/
def Obligations.TickFrame : Prop :=
  ∀ (i : Instr) (s t : State),
    (i = .worker ∨ i = .irqPoll ∨ i = .irqIsr ∨ (∃ m, i = .irqGet m) ∨ (∃ m w, i = .irqWait m w)) →
    exec i s = .next t → EngineFrame s t

/-- Each setting is written by its own commands alone: 10 R22, R23, R24, R28, R39, R40. -/
def Obligations.SettingsHaveTheirWriters : Prop :=
  ∀ (i : Instr) (s t : State), exec i s = .next t →
    (t.cb = s.cb ∨ (∃ c, i = .setPreCb c) ∨ (∃ c, i = .setPostCb c) ∨ ∃ c, i = .setSyncCb c) ∧
    (t.irq.callback = s.irq.callback ∨ ∃ c, i = .setIrqCb c) ∧
    (t.emd = s.emd ∨ ∃ e l, i = .setEmd e l) ∧
    (t.obs.configured = s.obs.configured ∨ ∃ e, i = .setObsMode e) ∧
    (t.params = s.params ∧ t.port = s.port ∧ s.clockMs ≤ t.clockMs ∧ s.trace <:+ t.trace) ∧
    (i ≠ .init → i ≠ .deinit →
      (t.mode = s.mode ∨ ∃ m a b, i = .setMode m a b) ∧
      (t.txBR = s.txBR ∧ t.rxBR = s.rxBR ∨ (∃ m a b, i = .setMode m a b) ∨ ∃ a b, i = .setBitrate a b) ∧
      (t.fdtPoll = s.fdtPoll ∨ ∃ c, i = .setFdtPoll c) ∧
      (t.fdtListen = s.fdtListen ∨ ∃ c, i = .setFdtListen c) ∧
      (t.gt = s.gt ∨ ∃ c, i = .setGt c) ∧
      (t.fieldOn = s.fieldOn ∨ i = .fieldOn ∨ i = .fieldOff) ∧
      (t.ctx = s.ctx ∧ t.nrt = s.nrt ∧ t.gptPreload = s.gptPreload ∨ opcode i = 0x30 ∨ opcode i = 0x34 ∨
        opcode i = 0x70))

/-- 70 R294: during an exchange, the commands that would start, configure or re-initialise are refused and
change nothing. -/
def Obligations.OneExchangeAtATime : Prop :=
  ∀ (i : Instr) (s : State), s.txrxState ≠ .idle →
    opcode i ∈ [(0x30 : Byte), 0x10, 0x12, 0x80, 0x20, 0x01] →
      exec i s = .next { s with response := [6], running := none }

/-- 46 R247, 60 R273: the three helpers without behaviour are refused, always and alone; and of the commands
only a tick, the anticollision helper, and those that fetch the FIFO status can stop with a model fault. (The ticks of
TRANSCEIVE_BLOCKING are steps of their own, log 8, and fault as BlockingLoop says.) -/
def Obligations.StopsByName : Prop :=
  (∀ (cmd : Byte) (rxBuf rxRcvdLen : Option Ref) (rxBufLen : Half) (fwt : Word) (s : State),
    exec (.iso14443aShortFrame cmd rxBuf rxBufLen rxRcvdLen fwt) s = .refused (.refusedHelper 0x71)) ∧
  (∀ (txBuf rxBuf rxRcvdLen : Option Ref) (txBufLen rxBufLen : Half) (s : State),
    exec (.iso15693AnticollFrame txBuf txBufLen rxBuf rxBufLen rxRcvdLen) s =
      .refused (.refusedHelper 0x72)) ∧
  (∀ (rxBuf rxRcvdLen : Option Ref) (rxBufLen : Half) (s : State),
    exec (.iso15693Eof rxBuf rxBufLen rxRcvdLen) s = .refused (.refusedHelper 0x73)) ∧
  (∀ (i : Instr) (s : State) (r : Refusal), exec i s = .refused r →
    opcode i ∈ [(0x71 : Byte), 0x72, 0x73] ∧ r = .refusedHelper (opcode i)) ∧
  (∀ (i : Instr) (s : State) (f : Fault), exec i s = .fault f →
    opcode i ∈ [(0x31 : Byte), 0x70] ∨ opcode i ∈ [(0x60 : Byte), 0x62, 0x63, 0x64] ∧ f = .chipRange)

/-- 20 R62, R67: the model faults of a tick. FAULT_BUFFER_BOUNDS: a first load or a reload from outside the tx
buffer's region, a store of received bytes outside the rx buffer's region in the middle of a reception or at its end,
a length cell outside its region at the start of a reception or at its end. FAULT_CHIP_RANGE: an end of reception
that fetches a FIFO count above the FIFO depth. That an access through a null buffer faults alike is the model's
inference (log 18). -/
def Obligations.EngineFaults : Prop :=
  ∀ s : State, quiet s = true →
    let outside := fun (b : Option BufRef) (i n : Nat) => 0 < n ∧ ∀ r, b = some r → inBounds s.params r i n = false
    let cellOutside := ∃ r, s.ctx.rxRcvdLen = some r ∧ inBounds s.params r 0 2 = false
    let chunk := min s.params.wlChunk (s.fifo.bytesTotal - s.fifo.bytesWritten)
    let irq := s.irq.pending &&& (irqBit s.params .rxe ||| irqBit s.params .fwl ||| irqBit s.params .rxRest)
    let room := s.ctx.capBytes - s.fifo.bytesWritten
    let u := refreshed s
    let n := numBytes s.params u.fifoStatus
    let k := incBits s.params u.fifoStatus
    (∀ rest, s.txrxState = .txWaitFdt → s.env.chipBits = false :: rest →
      outside s.ctx.txBuf 0 (min s.ctx.txBytes s.params.fifoDepth) → exec .worker s = .fault .bufferBounds) ∧
    (s.txrxState = .txWaitWl → s.irq.pending &&& txIrqs s.params = irqBit s.params .fwl →
      outside s.ctx.txBuf s.fifo.bytesWritten chunk → exec .worker s = .fault .bufferBounds) ∧
    (s.txrxState = .rxIdle → cellOutside → exec .worker s = .fault .bufferBounds) ∧
    (s.txrxState = .txWaitTxe → s.irq.pending &&& irqBit s.params .txe ≠ 0 → s.ctx.rxBuf ≠ none → cellOutside →
      exec .worker s = .fault .bufferBounds) ∧
    (s.txrxState = .rxWaitRxe → irq ≠ 0 → irq &&& irqBit s.params .rxe = 0 → irq &&& irqBit s.params .rxRest = 0 →
      s.params.wlChunk ≤ s.params.fifoDepth →
      outside s.ctx.rxBuf s.fifo.bytesWritten (min s.params.wlChunk room) → exec .worker s = .fault .bufferBounds) ∧
    (s.txrxState = .rxWaitRxe → s.irq.pending &&& irqBit s.params .rxe ≠ 0 → n ≤ s.params.fifoDepth →
      (s.emd.enabled = false ∨ s.emd.maxLen.toNat ≤ n) →
      outside s.ctx.rxBuf s.fifo.bytesWritten (readOutOf s n k).stored ∨
        ((readOutOf s n k).stored = 0 ∨ ∃ r, s.ctx.rxBuf = some r ∧
          inBounds s.params r s.fifo.bytesWritten (readOutOf s n k).stored = true) ∧ cellOutside →
      exec .worker s = .fault .bufferBounds) ∧
    (s.txrxState = .rxWaitRxe → s.irq.pending &&& irqBit s.params .rxe ≠ 0 → s.fifoStatus.valid = false →
      s.params.fifoDepth < n → exec .worker s = .fault .chipRange)

/-! ## The anticollision helper (46_anticollision_helpers.md) -/

/-- 46 R240, R241, R243, R248: the helper's refusals, each changing nothing; its start: the partial byte's upper bits
cleared, collision detection on, and an exchange that receives at the partial byte, whose ticks are steps of their
own, so that the command has answered nothing yet and stands in its loop (log 8); and a call whose inner start is
refused (the field off, a frame above MAX_TX_BITS, no buffer at all): the partial byte is merged back, collision
detection goes off again, and the refusal's status is returned. ISR runs inside the start as in StartTransceive. That
a null buffer is refused so, with INVALID_PARAM, is the model's choice (log 28); the capacity is a free value where it
does not fit 16 bits (log 29). -/
def Obligations.AnticollStarts : Prop :=
  ∀ (buf bytesToSend bitsToSend rxLength : Option Ref) (fwt : Word) (s : State),
    let run := exec (.iso14443aAnticollFrame buf bytesToSend bitsToSend rxLength fwt) s
    (s.lifecycle = .uninit ∨ s.lifecycle = .init ∨ s.txrxState ≠ .idle ∨ s.mode ≠ .nfca →
      run = .next { s with response := [6], running := none }) ∧
    (∀ cellB cellb : BufRef, (s.lifecycle = .modeSet ∨ s.lifecycle = .txrx) → s.txrxState = .idle →
      s.mode = .nfca →
      toBuf bytesToSend = some cellB → inBounds s.params cellB 0 1 = true →
      toBuf bitsToSend = some cellb → inBounds s.params cellb 0 1 = true →
      let B := (bufByte s.mem cellB 0).toNat
      let b := (bufByte s.mem cellb 0).toNat
      let len := s.params.anticollFrameLen
      let on := { s.cfg with collDetect := true }
      let off := { s.cfg with collDetect := false }
      (7 < b ∨ len < B + (if b ≠ 0 then 1 else 0) ∨ (B = 0 ∧ b = 0) →
        run = .next { s with response := [7], running := none }) ∧
      (b ≤ 7 → B + (if b ≠ 0 then 1 else 0) ≤ len → ¬(B = 0 ∧ b = 0) →
        (∀ r : BufRef, toBuf buf = some r → (b ≠ 0 → inBounds s.params r B 1 = true) →
          let a := hostAddr r.region (r.offset + B)
          let low := BitVec.ofNat 8 (2 ^ b - 1)
          let save := bufByte s.mem r B
          let cleared := if b = 0 then s.mem else Memory.store a (save &&& low) s.mem
          let merged := if b = 0 then s.mem
            else Memory.store a ((Memory.load cleared a &&& ~~~low) ||| (save &&& low)) cleared
          let s1 := { s with cfg := on, trace := .regWrite .frameCfg (.frameCfg on) :: s.trace, mem := cleared }
          let refused := { s with
            cfg := off, mem := merged
            trace := .regWrite .frameCfg (.frameCfg off) :: .regWrite .frameCfg (.frameCfg on) :: s.trace
            running := none }
          let c : Ctx := { txBuf := some r, txBufLen := BitVec.ofNat 16 (8 * B + b)
                           rxBuf := some { r with offset := r.offset + B }
                           rxBufLen := if 8 * (len - B) < 65536 then BitVec.ofNat 16 (8 * (len - B))
                             else Config.wideCapacity (8 * (len - B))
                           rxRcvdLen := toBuf rxLength
                           flags := 0x0E, fwt }
          let call : Anticoll := { buf := some r, bytesToSend := some cellB, bitsToSend := some cellb
                                   sentBytes := B, sentBits := b, saved := if b = 0 then 0 else save }
          let inLoop := { started c s1 with response := [], running := some (.anticoll call) }
          (s.fieldOn = false → run = .next { refused with response := [6] }) ∧
          (s.fieldOn = true → s.params.maxTxBits < 8 * B + b → run = .next { refused with response := [7] }) ∧
          (s.fieldOn = true → 8 * B + b ≤ s.params.maxTxBits →
            (noEdges s → run = .next inLoop) ∧
            (∃ t, run = .next t ∧ (SameButIsr inLoop t ∨ t.running = some .hung)))) ∧
        (toBuf buf = none → b = 0 → run = .next { s with
          cfg := off
          trace := .regWrite .frameCfg (.frameCfg off) :: .regWrite .frameCfg (.frameCfg on) :: s.trace
          response := [7], running := none })))

/-- 46 R240, R244, R245, R248: each further step of the helper (log 8) is one WORKER, after whatever the ISR agent does
before it; when the exchange has ended the sent low bits of the partial byte are put back under the received upper
bits, a collision's position is decoded into the two cells, collision detection goes off, and the exchange's status is
returned. Where that WORKER faults, the step faults alike. -/
def Obligations.AnticollEnds : Prop :=
  ∀ (call : Anticoll) (s u : State), s.running = some (.anticoll call) → isrPoint s = .ok u →
    (∀ t : State, exec .worker u = .next t →
      (t.running ≠ none → step s = .next t) ∧
      (t.running = none → t.txrxState ≠ .idle →
        step s = .next { t with response := [], running := some (.anticoll call) }) ∧
      (∀ r : BufRef, t.running = none → t.txrxState = .idle → call.buf = some r →
        (call.sentBits ≠ 0 → inBounds s.params r call.sentBytes 1 = true) →
        let a := hostAddr r.region (r.offset + call.sentBytes)
        let low := BitVec.ofNat 8 (2 ^ call.sentBits - 1)
        let mem := if call.sentBits = 0 then t.mem
          else Memory.store a ((Memory.load t.mem a &&& ~~~low) ||| (call.saved &&& low)) t.mem
        let cfg := { t.cfg with collDetect := false }
        (t.status ≠ .rfCollision → step s = .next { t with
          mem, cfg, trace := .regWrite .frameCfg (.frameCfg cfg) :: t.trace
          response := [t.status.code], running := none }) ∧
        (∀ cellB cellb : BufRef, t.status = .rfCollision →
          call.bytesToSend = some cellB → inBounds s.params cellB 0 1 = true →
          call.bitsToSend = some cellb → inBounds s.params cellb 0 1 = true →
          let d := t.env.takeReg
          let pos := collDecode s.params d.1
          step s = .next { t with
            mem := Memory.store (hostAddr cellb.region cellb.offset) pos.2
              (Memory.store (hostAddr cellB.region cellB.offset) pos.1 mem)
            cfg, env := d.2
            trace := .regWrite .frameCfg (.frameCfg cfg) :: .regRead .collPos d.1 :: t.trace
            response := [11], running := none }))) ∧
    (∀ f : Fault, exec .worker u = .fault f → step s = .fault f)

/-- 20 R62, 46 R240, R244, R245: the helper stops with FAULT_BUFFER_BOUNDS where it would read one of its two cells, or
the partial byte, outside the region, and where it would write them so at its end. That a null reference faults alike
is the model's inference (log 18). -/
def Obligations.AnticollFaults : Prop :=
  (∀ (buf bytesToSend bitsToSend rxLength : Option Ref) (fwt : Word) (s : State),
    (s.lifecycle = .modeSet ∨ s.lifecycle = .txrx) → s.txrxState = .idle → s.mode = .nfca →
    let run := exec (.iso14443aAnticollFrame buf bytesToSend bitsToSend rxLength fwt) s
    let outside := fun (b : Option BufRef) (i : Nat) => ∀ r, b = some r → inBounds s.params r i 1 = false
    (outside (toBuf bytesToSend) 0 → run = .fault .bufferBounds) ∧
    (outside (toBuf bitsToSend) 0 → run = .fault .bufferBounds) ∧
    (∀ cellB cellb : BufRef,
      toBuf bytesToSend = some cellB → inBounds s.params cellB 0 1 = true →
      toBuf bitsToSend = some cellb → inBounds s.params cellb 0 1 = true →
      let B := (bufByte s.mem cellB 0).toNat
      let b := (bufByte s.mem cellb 0).toNat
      1 ≤ b → b ≤ 7 → B + 1 ≤ s.params.anticollFrameLen → outside (toBuf buf) B →
        run = .fault .bufferBounds)) ∧
  (∀ (call : Anticoll) (s u t : State), s.running = some (.anticoll call) → isrPoint s = .ok u →
    exec .worker u = .next t → t.running = none → t.txrxState = .idle →
    let outside := fun (b : Option BufRef) (i : Nat) => ∀ r, b = some r → inBounds s.params r i 1 = false
    (call.sentBits ≠ 0 ∧ outside call.buf call.sentBytes ∨
      t.status = .rfCollision ∧ (outside call.bytesToSend 0 ∨ outside call.bitsToSend 0)) →
      step s = .fault .bufferBounds)
end

