-- ==== Sys2Proof/Laws/State.lean ====
section
/-! SUPPORT. What each named update of State does to each field: one lemma per field per update. -/

namespace Sys2Proof.Machine

variable (s : State)

@[simp] theorem State.setLifecycle_lifecycle (v : Lifecycle) : (s.setLifecycle v).lifecycle = v := rfl
@[simp] theorem State.setLifecycle_mode (v : Lifecycle) : (s.setLifecycle v).mode = s.mode := rfl
@[simp] theorem State.setLifecycle_txBR (v : Lifecycle) : (s.setLifecycle v).txBR = s.txBR := rfl
@[simp] theorem State.setLifecycle_rxBR (v : Lifecycle) : (s.setLifecycle v).rxBR = s.rxBR := rfl
@[simp] theorem State.setLifecycle_fdtPoll (v : Lifecycle) : (s.setLifecycle v).fdtPoll = s.fdtPoll := rfl
@[simp] theorem State.setLifecycle_fdtListen (v : Lifecycle) : (s.setLifecycle v).fdtListen = s.fdtListen := rfl
@[simp] theorem State.setLifecycle_gt (v : Lifecycle) : (s.setLifecycle v).gt = s.gt := rfl
@[simp] theorem State.setLifecycle_fieldOn (v : Lifecycle) : (s.setLifecycle v).fieldOn = s.fieldOn := rfl
@[simp] theorem State.setLifecycle_gtTimer (v : Lifecycle) : (s.setLifecycle v).gtTimer = s.gtTimer := rfl
@[simp] theorem State.setLifecycle_txrxState (v : Lifecycle) : (s.setLifecycle v).txrxState = s.txrxState := rfl
@[simp] theorem State.setLifecycle_status (v : Lifecycle) : (s.setLifecycle v).status = s.status := rfl
@[simp] theorem State.setLifecycle_ctx (v : Lifecycle) : (s.setLifecycle v).ctx = s.ctx := rfl
@[simp] theorem State.setLifecycle_fifo (v : Lifecycle) : (s.setLifecycle v).fifo = s.fifo := rfl
@[simp] theorem State.setLifecycle_fifoStatus (v : Lifecycle) : (s.setLifecycle v).fifoStatus = s.fifoStatus := rfl
@[simp] theorem State.setLifecycle_irq (v : Lifecycle) : (s.setLifecycle v).irq = s.irq := rfl
@[simp] theorem State.setLifecycle_hwMask (v : Lifecycle) : (s.setLifecycle v).hwMask = s.hwMask := rfl
@[simp] theorem State.setLifecycle_nrt (v : Lifecycle) : (s.setLifecycle v).nrt = s.nrt := rfl
@[simp] theorem State.setLifecycle_gptPreload (v : Lifecycle) : (s.setLifecycle v).gptPreload = s.gptPreload := rfl
@[simp] theorem State.setLifecycle_cfg (v : Lifecycle) : (s.setLifecycle v).cfg = s.cfg := rfl
@[simp] theorem State.setLifecycle_obs (v : Lifecycle) : (s.setLifecycle v).obs = s.obs := rfl
@[simp] theorem State.setLifecycle_cb (v : Lifecycle) : (s.setLifecycle v).cb = s.cb := rfl
@[simp] theorem State.setLifecycle_emd (v : Lifecycle) : (s.setLifecycle v).emd = s.emd := rfl
@[simp] theorem State.setLifecycle_mem (v : Lifecycle) : (s.setLifecycle v).mem = s.mem := rfl
@[simp] theorem State.setLifecycle_clockMs (v : Lifecycle) : (s.setLifecycle v).clockMs = s.clockMs := rfl
@[simp] theorem State.setLifecycle_port (v : Lifecycle) : (s.setLifecycle v).port = s.port := rfl
@[simp] theorem State.setLifecycle_response (v : Lifecycle) : (s.setLifecycle v).response = s.response := rfl
@[simp] theorem State.setLifecycle_running (v : Lifecycle) : (s.setLifecycle v).running = s.running := rfl
@[simp] theorem State.setLifecycle_trace (v : Lifecycle) : (s.setLifecycle v).trace = s.trace := rfl
@[simp] theorem State.setLifecycle_env (v : Lifecycle) : (s.setLifecycle v).env = s.env := rfl
@[simp] theorem State.setLifecycle_params (v : Lifecycle) : (s.setLifecycle v).params = s.params := rfl

@[simp] theorem State.setMode_lifecycle (v : Mode) : (s.setMode v).lifecycle = s.lifecycle := rfl
@[simp] theorem State.setMode_mode (v : Mode) : (s.setMode v).mode = v := rfl
@[simp] theorem State.setMode_txBR (v : Mode) : (s.setMode v).txBR = s.txBR := rfl
@[simp] theorem State.setMode_rxBR (v : Mode) : (s.setMode v).rxBR = s.rxBR := rfl
@[simp] theorem State.setMode_fdtPoll (v : Mode) : (s.setMode v).fdtPoll = s.fdtPoll := rfl
@[simp] theorem State.setMode_fdtListen (v : Mode) : (s.setMode v).fdtListen = s.fdtListen := rfl
@[simp] theorem State.setMode_gt (v : Mode) : (s.setMode v).gt = s.gt := rfl
@[simp] theorem State.setMode_fieldOn (v : Mode) : (s.setMode v).fieldOn = s.fieldOn := rfl
@[simp] theorem State.setMode_gtTimer (v : Mode) : (s.setMode v).gtTimer = s.gtTimer := rfl
@[simp] theorem State.setMode_txrxState (v : Mode) : (s.setMode v).txrxState = s.txrxState := rfl
@[simp] theorem State.setMode_status (v : Mode) : (s.setMode v).status = s.status := rfl
@[simp] theorem State.setMode_ctx (v : Mode) : (s.setMode v).ctx = s.ctx := rfl
@[simp] theorem State.setMode_fifo (v : Mode) : (s.setMode v).fifo = s.fifo := rfl
@[simp] theorem State.setMode_fifoStatus (v : Mode) : (s.setMode v).fifoStatus = s.fifoStatus := rfl
@[simp] theorem State.setMode_irq (v : Mode) : (s.setMode v).irq = s.irq := rfl
@[simp] theorem State.setMode_hwMask (v : Mode) : (s.setMode v).hwMask = s.hwMask := rfl
@[simp] theorem State.setMode_nrt (v : Mode) : (s.setMode v).nrt = s.nrt := rfl
@[simp] theorem State.setMode_gptPreload (v : Mode) : (s.setMode v).gptPreload = s.gptPreload := rfl
@[simp] theorem State.setMode_cfg (v : Mode) : (s.setMode v).cfg = s.cfg := rfl
@[simp] theorem State.setMode_obs (v : Mode) : (s.setMode v).obs = s.obs := rfl
@[simp] theorem State.setMode_cb (v : Mode) : (s.setMode v).cb = s.cb := rfl
@[simp] theorem State.setMode_emd (v : Mode) : (s.setMode v).emd = s.emd := rfl
@[simp] theorem State.setMode_mem (v : Mode) : (s.setMode v).mem = s.mem := rfl
@[simp] theorem State.setMode_clockMs (v : Mode) : (s.setMode v).clockMs = s.clockMs := rfl
@[simp] theorem State.setMode_port (v : Mode) : (s.setMode v).port = s.port := rfl
@[simp] theorem State.setMode_response (v : Mode) : (s.setMode v).response = s.response := rfl
@[simp] theorem State.setMode_running (v : Mode) : (s.setMode v).running = s.running := rfl
@[simp] theorem State.setMode_trace (v : Mode) : (s.setMode v).trace = s.trace := rfl
@[simp] theorem State.setMode_env (v : Mode) : (s.setMode v).env = s.env := rfl
@[simp] theorem State.setMode_params (v : Mode) : (s.setMode v).params = s.params := rfl

@[simp] theorem State.setRates_lifecycle (tx rx : Byte) : (s.setRates tx rx).lifecycle = s.lifecycle := rfl
@[simp] theorem State.setRates_mode (tx rx : Byte) : (s.setRates tx rx).mode = s.mode := rfl
@[simp] theorem State.setRates_txBR (tx rx : Byte) : (s.setRates tx rx).txBR = tx := rfl
@[simp] theorem State.setRates_rxBR (tx rx : Byte) : (s.setRates tx rx).rxBR = rx := rfl
@[simp] theorem State.setRates_fdtPoll (tx rx : Byte) : (s.setRates tx rx).fdtPoll = s.fdtPoll := rfl
@[simp] theorem State.setRates_fdtListen (tx rx : Byte) : (s.setRates tx rx).fdtListen = s.fdtListen := rfl
@[simp] theorem State.setRates_gt (tx rx : Byte) : (s.setRates tx rx).gt = s.gt := rfl
@[simp] theorem State.setRates_fieldOn (tx rx : Byte) : (s.setRates tx rx).fieldOn = s.fieldOn := rfl
@[simp] theorem State.setRates_gtTimer (tx rx : Byte) : (s.setRates tx rx).gtTimer = s.gtTimer := rfl
@[simp] theorem State.setRates_txrxState (tx rx : Byte) : (s.setRates tx rx).txrxState = s.txrxState := rfl
@[simp] theorem State.setRates_status (tx rx : Byte) : (s.setRates tx rx).status = s.status := rfl
@[simp] theorem State.setRates_ctx (tx rx : Byte) : (s.setRates tx rx).ctx = s.ctx := rfl
@[simp] theorem State.setRates_fifo (tx rx : Byte) : (s.setRates tx rx).fifo = s.fifo := rfl
@[simp] theorem State.setRates_fifoStatus (tx rx : Byte) : (s.setRates tx rx).fifoStatus = s.fifoStatus := rfl
@[simp] theorem State.setRates_irq (tx rx : Byte) : (s.setRates tx rx).irq = s.irq := rfl
@[simp] theorem State.setRates_hwMask (tx rx : Byte) : (s.setRates tx rx).hwMask = s.hwMask := rfl
@[simp] theorem State.setRates_nrt (tx rx : Byte) : (s.setRates tx rx).nrt = s.nrt := rfl
@[simp] theorem State.setRates_gptPreload (tx rx : Byte) : (s.setRates tx rx).gptPreload = s.gptPreload := rfl
@[simp] theorem State.setRates_cfg (tx rx : Byte) : (s.setRates tx rx).cfg = s.cfg := rfl
@[simp] theorem State.setRates_obs (tx rx : Byte) : (s.setRates tx rx).obs = s.obs := rfl
@[simp] theorem State.setRates_cb (tx rx : Byte) : (s.setRates tx rx).cb = s.cb := rfl
@[simp] theorem State.setRates_emd (tx rx : Byte) : (s.setRates tx rx).emd = s.emd := rfl
@[simp] theorem State.setRates_mem (tx rx : Byte) : (s.setRates tx rx).mem = s.mem := rfl
@[simp] theorem State.setRates_clockMs (tx rx : Byte) : (s.setRates tx rx).clockMs = s.clockMs := rfl
@[simp] theorem State.setRates_port (tx rx : Byte) : (s.setRates tx rx).port = s.port := rfl
@[simp] theorem State.setRates_response (tx rx : Byte) : (s.setRates tx rx).response = s.response := rfl
@[simp] theorem State.setRates_running (tx rx : Byte) : (s.setRates tx rx).running = s.running := rfl
@[simp] theorem State.setRates_trace (tx rx : Byte) : (s.setRates tx rx).trace = s.trace := rfl
@[simp] theorem State.setRates_env (tx rx : Byte) : (s.setRates tx rx).env = s.env := rfl
@[simp] theorem State.setRates_params (tx rx : Byte) : (s.setRates tx rx).params = s.params := rfl

@[simp] theorem State.setFdtPoll_lifecycle (v : Word) : (s.setFdtPoll v).lifecycle = s.lifecycle := rfl
@[simp] theorem State.setFdtPoll_mode (v : Word) : (s.setFdtPoll v).mode = s.mode := rfl
@[simp] theorem State.setFdtPoll_txBR (v : Word) : (s.setFdtPoll v).txBR = s.txBR := rfl
@[simp] theorem State.setFdtPoll_rxBR (v : Word) : (s.setFdtPoll v).rxBR = s.rxBR := rfl
@[simp] theorem State.setFdtPoll_fdtPoll (v : Word) : (s.setFdtPoll v).fdtPoll = v := rfl
@[simp] theorem State.setFdtPoll_fdtListen (v : Word) : (s.setFdtPoll v).fdtListen = s.fdtListen := rfl
@[simp] theorem State.setFdtPoll_gt (v : Word) : (s.setFdtPoll v).gt = s.gt := rfl
@[simp] theorem State.setFdtPoll_fieldOn (v : Word) : (s.setFdtPoll v).fieldOn = s.fieldOn := rfl
@[simp] theorem State.setFdtPoll_gtTimer (v : Word) : (s.setFdtPoll v).gtTimer = s.gtTimer := rfl
@[simp] theorem State.setFdtPoll_txrxState (v : Word) : (s.setFdtPoll v).txrxState = s.txrxState := rfl
@[simp] theorem State.setFdtPoll_status (v : Word) : (s.setFdtPoll v).status = s.status := rfl
@[simp] theorem State.setFdtPoll_ctx (v : Word) : (s.setFdtPoll v).ctx = s.ctx := rfl
@[simp] theorem State.setFdtPoll_fifo (v : Word) : (s.setFdtPoll v).fifo = s.fifo := rfl
@[simp] theorem State.setFdtPoll_fifoStatus (v : Word) : (s.setFdtPoll v).fifoStatus = s.fifoStatus := rfl
@[simp] theorem State.setFdtPoll_irq (v : Word) : (s.setFdtPoll v).irq = s.irq := rfl
@[simp] theorem State.setFdtPoll_hwMask (v : Word) : (s.setFdtPoll v).hwMask = s.hwMask := rfl
@[simp] theorem State.setFdtPoll_nrt (v : Word) : (s.setFdtPoll v).nrt = s.nrt := rfl
@[simp] theorem State.setFdtPoll_gptPreload (v : Word) : (s.setFdtPoll v).gptPreload = s.gptPreload := rfl
@[simp] theorem State.setFdtPoll_cfg (v : Word) : (s.setFdtPoll v).cfg = s.cfg := rfl
@[simp] theorem State.setFdtPoll_obs (v : Word) : (s.setFdtPoll v).obs = s.obs := rfl
@[simp] theorem State.setFdtPoll_cb (v : Word) : (s.setFdtPoll v).cb = s.cb := rfl
@[simp] theorem State.setFdtPoll_emd (v : Word) : (s.setFdtPoll v).emd = s.emd := rfl
@[simp] theorem State.setFdtPoll_mem (v : Word) : (s.setFdtPoll v).mem = s.mem := rfl
@[simp] theorem State.setFdtPoll_clockMs (v : Word) : (s.setFdtPoll v).clockMs = s.clockMs := rfl
@[simp] theorem State.setFdtPoll_port (v : Word) : (s.setFdtPoll v).port = s.port := rfl
@[simp] theorem State.setFdtPoll_response (v : Word) : (s.setFdtPoll v).response = s.response := rfl
@[simp] theorem State.setFdtPoll_running (v : Word) : (s.setFdtPoll v).running = s.running := rfl
@[simp] theorem State.setFdtPoll_trace (v : Word) : (s.setFdtPoll v).trace = s.trace := rfl
@[simp] theorem State.setFdtPoll_env (v : Word) : (s.setFdtPoll v).env = s.env := rfl
@[simp] theorem State.setFdtPoll_params (v : Word) : (s.setFdtPoll v).params = s.params := rfl

@[simp] theorem State.setFdtListen_lifecycle (v : Word) : (s.setFdtListen v).lifecycle = s.lifecycle := rfl
@[simp] theorem State.setFdtListen_mode (v : Word) : (s.setFdtListen v).mode = s.mode := rfl
@[simp] theorem State.setFdtListen_txBR (v : Word) : (s.setFdtListen v).txBR = s.txBR := rfl
@[simp] theorem State.setFdtListen_rxBR (v : Word) : (s.setFdtListen v).rxBR = s.rxBR := rfl
@[simp] theorem State.setFdtListen_fdtPoll (v : Word) : (s.setFdtListen v).fdtPoll = s.fdtPoll := rfl
@[simp] theorem State.setFdtListen_fdtListen (v : Word) : (s.setFdtListen v).fdtListen = v := rfl
@[simp] theorem State.setFdtListen_gt (v : Word) : (s.setFdtListen v).gt = s.gt := rfl
@[simp] theorem State.setFdtListen_fieldOn (v : Word) : (s.setFdtListen v).fieldOn = s.fieldOn := rfl
@[simp] theorem State.setFdtListen_gtTimer (v : Word) : (s.setFdtListen v).gtTimer = s.gtTimer := rfl
@[simp] theorem State.setFdtListen_txrxState (v : Word) : (s.setFdtListen v).txrxState = s.txrxState := rfl
@[simp] theorem State.setFdtListen_status (v : Word) : (s.setFdtListen v).status = s.status := rfl
@[simp] theorem State.setFdtListen_ctx (v : Word) : (s.setFdtListen v).ctx = s.ctx := rfl
@[simp] theorem State.setFdtListen_fifo (v : Word) : (s.setFdtListen v).fifo = s.fifo := rfl
@[simp] theorem State.setFdtListen_fifoStatus (v : Word) : (s.setFdtListen v).fifoStatus = s.fifoStatus := rfl
@[simp] theorem State.setFdtListen_irq (v : Word) : (s.setFdtListen v).irq = s.irq := rfl
@[simp] theorem State.setFdtListen_hwMask (v : Word) : (s.setFdtListen v).hwMask = s.hwMask := rfl
@[simp] theorem State.setFdtListen_nrt (v : Word) : (s.setFdtListen v).nrt = s.nrt := rfl
@[simp] theorem State.setFdtListen_gptPreload (v : Word) : (s.setFdtListen v).gptPreload = s.gptPreload := rfl
@[simp] theorem State.setFdtListen_cfg (v : Word) : (s.setFdtListen v).cfg = s.cfg := rfl
@[simp] theorem State.setFdtListen_obs (v : Word) : (s.setFdtListen v).obs = s.obs := rfl
@[simp] theorem State.setFdtListen_cb (v : Word) : (s.setFdtListen v).cb = s.cb := rfl
@[simp] theorem State.setFdtListen_emd (v : Word) : (s.setFdtListen v).emd = s.emd := rfl
@[simp] theorem State.setFdtListen_mem (v : Word) : (s.setFdtListen v).mem = s.mem := rfl
@[simp] theorem State.setFdtListen_clockMs (v : Word) : (s.setFdtListen v).clockMs = s.clockMs := rfl
@[simp] theorem State.setFdtListen_port (v : Word) : (s.setFdtListen v).port = s.port := rfl
@[simp] theorem State.setFdtListen_response (v : Word) : (s.setFdtListen v).response = s.response := rfl
@[simp] theorem State.setFdtListen_running (v : Word) : (s.setFdtListen v).running = s.running := rfl
@[simp] theorem State.setFdtListen_trace (v : Word) : (s.setFdtListen v).trace = s.trace := rfl
@[simp] theorem State.setFdtListen_env (v : Word) : (s.setFdtListen v).env = s.env := rfl
@[simp] theorem State.setFdtListen_params (v : Word) : (s.setFdtListen v).params = s.params := rfl

@[simp] theorem State.setGt_lifecycle (v : Word) : (s.setGt v).lifecycle = s.lifecycle := rfl
@[simp] theorem State.setGt_mode (v : Word) : (s.setGt v).mode = s.mode := rfl
@[simp] theorem State.setGt_txBR (v : Word) : (s.setGt v).txBR = s.txBR := rfl
@[simp] theorem State.setGt_rxBR (v : Word) : (s.setGt v).rxBR = s.rxBR := rfl
@[simp] theorem State.setGt_fdtPoll (v : Word) : (s.setGt v).fdtPoll = s.fdtPoll := rfl
@[simp] theorem State.setGt_fdtListen (v : Word) : (s.setGt v).fdtListen = s.fdtListen := rfl
@[simp] theorem State.setGt_gt (v : Word) : (s.setGt v).gt = v := rfl
@[simp] theorem State.setGt_fieldOn (v : Word) : (s.setGt v).fieldOn = s.fieldOn := rfl
@[simp] theorem State.setGt_gtTimer (v : Word) : (s.setGt v).gtTimer = s.gtTimer := rfl
@[simp] theorem State.setGt_txrxState (v : Word) : (s.setGt v).txrxState = s.txrxState := rfl
@[simp] theorem State.setGt_status (v : Word) : (s.setGt v).status = s.status := rfl
@[simp] theorem State.setGt_ctx (v : Word) : (s.setGt v).ctx = s.ctx := rfl
@[simp] theorem State.setGt_fifo (v : Word) : (s.setGt v).fifo = s.fifo := rfl
@[simp] theorem State.setGt_fifoStatus (v : Word) : (s.setGt v).fifoStatus = s.fifoStatus := rfl
@[simp] theorem State.setGt_irq (v : Word) : (s.setGt v).irq = s.irq := rfl
@[simp] theorem State.setGt_hwMask (v : Word) : (s.setGt v).hwMask = s.hwMask := rfl
@[simp] theorem State.setGt_nrt (v : Word) : (s.setGt v).nrt = s.nrt := rfl
@[simp] theorem State.setGt_gptPreload (v : Word) : (s.setGt v).gptPreload = s.gptPreload := rfl
@[simp] theorem State.setGt_cfg (v : Word) : (s.setGt v).cfg = s.cfg := rfl
@[simp] theorem State.setGt_obs (v : Word) : (s.setGt v).obs = s.obs := rfl
@[simp] theorem State.setGt_cb (v : Word) : (s.setGt v).cb = s.cb := rfl
@[simp] theorem State.setGt_emd (v : Word) : (s.setGt v).emd = s.emd := rfl
@[simp] theorem State.setGt_mem (v : Word) : (s.setGt v).mem = s.mem := rfl
@[simp] theorem State.setGt_clockMs (v : Word) : (s.setGt v).clockMs = s.clockMs := rfl
@[simp] theorem State.setGt_port (v : Word) : (s.setGt v).port = s.port := rfl
@[simp] theorem State.setGt_response (v : Word) : (s.setGt v).response = s.response := rfl
@[simp] theorem State.setGt_running (v : Word) : (s.setGt v).running = s.running := rfl
@[simp] theorem State.setGt_trace (v : Word) : (s.setGt v).trace = s.trace := rfl
@[simp] theorem State.setGt_env (v : Word) : (s.setGt v).env = s.env := rfl
@[simp] theorem State.setGt_params (v : Word) : (s.setGt v).params = s.params := rfl

@[simp] theorem State.setFieldOn_lifecycle (v : Bool) : (s.setFieldOn v).lifecycle = s.lifecycle := rfl
@[simp] theorem State.setFieldOn_mode (v : Bool) : (s.setFieldOn v).mode = s.mode := rfl
@[simp] theorem State.setFieldOn_txBR (v : Bool) : (s.setFieldOn v).txBR = s.txBR := rfl
@[simp] theorem State.setFieldOn_rxBR (v : Bool) : (s.setFieldOn v).rxBR = s.rxBR := rfl
@[simp] theorem State.setFieldOn_fdtPoll (v : Bool) : (s.setFieldOn v).fdtPoll = s.fdtPoll := rfl
@[simp] theorem State.setFieldOn_fdtListen (v : Bool) : (s.setFieldOn v).fdtListen = s.fdtListen := rfl
@[simp] theorem State.setFieldOn_gt (v : Bool) : (s.setFieldOn v).gt = s.gt := rfl
@[simp] theorem State.setFieldOn_fieldOn (v : Bool) : (s.setFieldOn v).fieldOn = v := rfl
@[simp] theorem State.setFieldOn_gtTimer (v : Bool) : (s.setFieldOn v).gtTimer = s.gtTimer := rfl
@[simp] theorem State.setFieldOn_txrxState (v : Bool) : (s.setFieldOn v).txrxState = s.txrxState := rfl
@[simp] theorem State.setFieldOn_status (v : Bool) : (s.setFieldOn v).status = s.status := rfl
@[simp] theorem State.setFieldOn_ctx (v : Bool) : (s.setFieldOn v).ctx = s.ctx := rfl
@[simp] theorem State.setFieldOn_fifo (v : Bool) : (s.setFieldOn v).fifo = s.fifo := rfl
@[simp] theorem State.setFieldOn_fifoStatus (v : Bool) : (s.setFieldOn v).fifoStatus = s.fifoStatus := rfl
@[simp] theorem State.setFieldOn_irq (v : Bool) : (s.setFieldOn v).irq = s.irq := rfl
@[simp] theorem State.setFieldOn_hwMask (v : Bool) : (s.setFieldOn v).hwMask = s.hwMask := rfl
@[simp] theorem State.setFieldOn_nrt (v : Bool) : (s.setFieldOn v).nrt = s.nrt := rfl
@[simp] theorem State.setFieldOn_gptPreload (v : Bool) : (s.setFieldOn v).gptPreload = s.gptPreload := rfl
@[simp] theorem State.setFieldOn_cfg (v : Bool) : (s.setFieldOn v).cfg = s.cfg := rfl
@[simp] theorem State.setFieldOn_obs (v : Bool) : (s.setFieldOn v).obs = s.obs := rfl
@[simp] theorem State.setFieldOn_cb (v : Bool) : (s.setFieldOn v).cb = s.cb := rfl
@[simp] theorem State.setFieldOn_emd (v : Bool) : (s.setFieldOn v).emd = s.emd := rfl
@[simp] theorem State.setFieldOn_mem (v : Bool) : (s.setFieldOn v).mem = s.mem := rfl
@[simp] theorem State.setFieldOn_clockMs (v : Bool) : (s.setFieldOn v).clockMs = s.clockMs := rfl
@[simp] theorem State.setFieldOn_port (v : Bool) : (s.setFieldOn v).port = s.port := rfl
@[simp] theorem State.setFieldOn_response (v : Bool) : (s.setFieldOn v).response = s.response := rfl
@[simp] theorem State.setFieldOn_running (v : Bool) : (s.setFieldOn v).running = s.running := rfl
@[simp] theorem State.setFieldOn_trace (v : Bool) : (s.setFieldOn v).trace = s.trace := rfl
@[simp] theorem State.setFieldOn_env (v : Bool) : (s.setFieldOn v).env = s.env := rfl
@[simp] theorem State.setFieldOn_params (v : Bool) : (s.setFieldOn v).params = s.params := rfl

@[simp] theorem State.setGtTimer_lifecycle (v : GtTimer) : (s.setGtTimer v).lifecycle = s.lifecycle := rfl
@[simp] theorem State.setGtTimer_mode (v : GtTimer) : (s.setGtTimer v).mode = s.mode := rfl
@[simp] theorem State.setGtTimer_txBR (v : GtTimer) : (s.setGtTimer v).txBR = s.txBR := rfl
@[simp] theorem State.setGtTimer_rxBR (v : GtTimer) : (s.setGtTimer v).rxBR = s.rxBR := rfl
@[simp] theorem State.setGtTimer_fdtPoll (v : GtTimer) : (s.setGtTimer v).fdtPoll = s.fdtPoll := rfl
@[simp] theorem State.setGtTimer_fdtListen (v : GtTimer) : (s.setGtTimer v).fdtListen = s.fdtListen := rfl
@[simp] theorem State.setGtTimer_gt (v : GtTimer) : (s.setGtTimer v).gt = s.gt := rfl
@[simp] theorem State.setGtTimer_fieldOn (v : GtTimer) : (s.setGtTimer v).fieldOn = s.fieldOn := rfl
@[simp] theorem State.setGtTimer_gtTimer (v : GtTimer) : (s.setGtTimer v).gtTimer = v := rfl
@[simp] theorem State.setGtTimer_txrxState (v : GtTimer) : (s.setGtTimer v).txrxState = s.txrxState := rfl
@[simp] theorem State.setGtTimer_status (v : GtTimer) : (s.setGtTimer v).status = s.status := rfl
@[simp] theorem State.setGtTimer_ctx (v : GtTimer) : (s.setGtTimer v).ctx = s.ctx := rfl
@[simp] theorem State.setGtTimer_fifo (v : GtTimer) : (s.setGtTimer v).fifo = s.fifo := rfl
@[simp] theorem State.setGtTimer_fifoStatus (v : GtTimer) : (s.setGtTimer v).fifoStatus = s.fifoStatus := rfl
@[simp] theorem State.setGtTimer_irq (v : GtTimer) : (s.setGtTimer v).irq = s.irq := rfl
@[simp] theorem State.setGtTimer_hwMask (v : GtTimer) : (s.setGtTimer v).hwMask = s.hwMask := rfl
@[simp] theorem State.setGtTimer_nrt (v : GtTimer) : (s.setGtTimer v).nrt = s.nrt := rfl
@[simp] theorem State.setGtTimer_gptPreload (v : GtTimer) : (s.setGtTimer v).gptPreload = s.gptPreload := rfl
@[simp] theorem State.setGtTimer_cfg (v : GtTimer) : (s.setGtTimer v).cfg = s.cfg := rfl
@[simp] theorem State.setGtTimer_obs (v : GtTimer) : (s.setGtTimer v).obs = s.obs := rfl
@[simp] theorem State.setGtTimer_cb (v : GtTimer) : (s.setGtTimer v).cb = s.cb := rfl
@[simp] theorem State.setGtTimer_emd (v : GtTimer) : (s.setGtTimer v).emd = s.emd := rfl
@[simp] theorem State.setGtTimer_mem (v : GtTimer) : (s.setGtTimer v).mem = s.mem := rfl
@[simp] theorem State.setGtTimer_clockMs (v : GtTimer) : (s.setGtTimer v).clockMs = s.clockMs := rfl
@[simp] theorem State.setGtTimer_port (v : GtTimer) : (s.setGtTimer v).port = s.port := rfl
@[simp] theorem State.setGtTimer_response (v : GtTimer) : (s.setGtTimer v).response = s.response := rfl
@[simp] theorem State.setGtTimer_running (v : GtTimer) : (s.setGtTimer v).running = s.running := rfl
@[simp] theorem State.setGtTimer_trace (v : GtTimer) : (s.setGtTimer v).trace = s.trace := rfl
@[simp] theorem State.setGtTimer_env (v : GtTimer) : (s.setGtTimer v).env = s.env := rfl
@[simp] theorem State.setGtTimer_params (v : GtTimer) : (s.setGtTimer v).params = s.params := rfl

@[simp] theorem State.setTxrx_lifecycle (v : TxrxState) : (s.setTxrx v).lifecycle = s.lifecycle := rfl
@[simp] theorem State.setTxrx_mode (v : TxrxState) : (s.setTxrx v).mode = s.mode := rfl
@[simp] theorem State.setTxrx_txBR (v : TxrxState) : (s.setTxrx v).txBR = s.txBR := rfl
@[simp] theorem State.setTxrx_rxBR (v : TxrxState) : (s.setTxrx v).rxBR = s.rxBR := rfl
@[simp] theorem State.setTxrx_fdtPoll (v : TxrxState) : (s.setTxrx v).fdtPoll = s.fdtPoll := rfl
@[simp] theorem State.setTxrx_fdtListen (v : TxrxState) : (s.setTxrx v).fdtListen = s.fdtListen := rfl
@[simp] theorem State.setTxrx_gt (v : TxrxState) : (s.setTxrx v).gt = s.gt := rfl
@[simp] theorem State.setTxrx_fieldOn (v : TxrxState) : (s.setTxrx v).fieldOn = s.fieldOn := rfl
@[simp] theorem State.setTxrx_gtTimer (v : TxrxState) : (s.setTxrx v).gtTimer = s.gtTimer := rfl
@[simp] theorem State.setTxrx_txrxState (v : TxrxState) : (s.setTxrx v).txrxState = v := rfl
@[simp] theorem State.setTxrx_status (v : TxrxState) : (s.setTxrx v).status = s.status := rfl
@[simp] theorem State.setTxrx_ctx (v : TxrxState) : (s.setTxrx v).ctx = s.ctx := rfl
@[simp] theorem State.setTxrx_fifo (v : TxrxState) : (s.setTxrx v).fifo = s.fifo := rfl
@[simp] theorem State.setTxrx_fifoStatus (v : TxrxState) : (s.setTxrx v).fifoStatus = s.fifoStatus := rfl
@[simp] theorem State.setTxrx_irq (v : TxrxState) : (s.setTxrx v).irq = s.irq := rfl
@[simp] theorem State.setTxrx_hwMask (v : TxrxState) : (s.setTxrx v).hwMask = s.hwMask := rfl
@[simp] theorem State.setTxrx_nrt (v : TxrxState) : (s.setTxrx v).nrt = s.nrt := rfl
@[simp] theorem State.setTxrx_gptPreload (v : TxrxState) : (s.setTxrx v).gptPreload = s.gptPreload := rfl
@[simp] theorem State.setTxrx_cfg (v : TxrxState) : (s.setTxrx v).cfg = s.cfg := rfl
@[simp] theorem State.setTxrx_obs (v : TxrxState) : (s.setTxrx v).obs = s.obs := rfl
@[simp] theorem State.setTxrx_cb (v : TxrxState) : (s.setTxrx v).cb = s.cb := rfl
@[simp] theorem State.setTxrx_emd (v : TxrxState) : (s.setTxrx v).emd = s.emd := rfl
@[simp] theorem State.setTxrx_mem (v : TxrxState) : (s.setTxrx v).mem = s.mem := rfl
@[simp] theorem State.setTxrx_clockMs (v : TxrxState) : (s.setTxrx v).clockMs = s.clockMs := rfl
@[simp] theorem State.setTxrx_port (v : TxrxState) : (s.setTxrx v).port = s.port := rfl
@[simp] theorem State.setTxrx_response (v : TxrxState) : (s.setTxrx v).response = s.response := rfl
@[simp] theorem State.setTxrx_running (v : TxrxState) : (s.setTxrx v).running = s.running := rfl
@[simp] theorem State.setTxrx_trace (v : TxrxState) : (s.setTxrx v).trace = s.trace := rfl
@[simp] theorem State.setTxrx_env (v : TxrxState) : (s.setTxrx v).env = s.env := rfl
@[simp] theorem State.setTxrx_params (v : TxrxState) : (s.setTxrx v).params = s.params := rfl

@[simp] theorem State.setStatus_lifecycle (v : Status) : (s.setStatus v).lifecycle = s.lifecycle := rfl
@[simp] theorem State.setStatus_mode (v : Status) : (s.setStatus v).mode = s.mode := rfl
@[simp] theorem State.setStatus_txBR (v : Status) : (s.setStatus v).txBR = s.txBR := rfl
@[simp] theorem State.setStatus_rxBR (v : Status) : (s.setStatus v).rxBR = s.rxBR := rfl
@[simp] theorem State.setStatus_fdtPoll (v : Status) : (s.setStatus v).fdtPoll = s.fdtPoll := rfl
@[simp] theorem State.setStatus_fdtListen (v : Status) : (s.setStatus v).fdtListen = s.fdtListen := rfl
@[simp] theorem State.setStatus_gt (v : Status) : (s.setStatus v).gt = s.gt := rfl
@[simp] theorem State.setStatus_fieldOn (v : Status) : (s.setStatus v).fieldOn = s.fieldOn := rfl
@[simp] theorem State.setStatus_gtTimer (v : Status) : (s.setStatus v).gtTimer = s.gtTimer := rfl
@[simp] theorem State.setStatus_txrxState (v : Status) : (s.setStatus v).txrxState = s.txrxState := rfl
@[simp] theorem State.setStatus_status (v : Status) : (s.setStatus v).status = v := rfl
@[simp] theorem State.setStatus_ctx (v : Status) : (s.setStatus v).ctx = s.ctx := rfl
@[simp] theorem State.setStatus_fifo (v : Status) : (s.setStatus v).fifo = s.fifo := rfl
@[simp] theorem State.setStatus_fifoStatus (v : Status) : (s.setStatus v).fifoStatus = s.fifoStatus := rfl
@[simp] theorem State.setStatus_irq (v : Status) : (s.setStatus v).irq = s.irq := rfl
@[simp] theorem State.setStatus_hwMask (v : Status) : (s.setStatus v).hwMask = s.hwMask := rfl
@[simp] theorem State.setStatus_nrt (v : Status) : (s.setStatus v).nrt = s.nrt := rfl
@[simp] theorem State.setStatus_gptPreload (v : Status) : (s.setStatus v).gptPreload = s.gptPreload := rfl
@[simp] theorem State.setStatus_cfg (v : Status) : (s.setStatus v).cfg = s.cfg := rfl
@[simp] theorem State.setStatus_obs (v : Status) : (s.setStatus v).obs = s.obs := rfl
@[simp] theorem State.setStatus_cb (v : Status) : (s.setStatus v).cb = s.cb := rfl
@[simp] theorem State.setStatus_emd (v : Status) : (s.setStatus v).emd = s.emd := rfl
@[simp] theorem State.setStatus_mem (v : Status) : (s.setStatus v).mem = s.mem := rfl
@[simp] theorem State.setStatus_clockMs (v : Status) : (s.setStatus v).clockMs = s.clockMs := rfl
@[simp] theorem State.setStatus_port (v : Status) : (s.setStatus v).port = s.port := rfl
@[simp] theorem State.setStatus_response (v : Status) : (s.setStatus v).response = s.response := rfl
@[simp] theorem State.setStatus_running (v : Status) : (s.setStatus v).running = s.running := rfl
@[simp] theorem State.setStatus_trace (v : Status) : (s.setStatus v).trace = s.trace := rfl
@[simp] theorem State.setStatus_env (v : Status) : (s.setStatus v).env = s.env := rfl
@[simp] theorem State.setStatus_params (v : Status) : (s.setStatus v).params = s.params := rfl

@[simp] theorem State.setCtx_lifecycle (v : Ctx) : (s.setCtx v).lifecycle = s.lifecycle := rfl
@[simp] theorem State.setCtx_mode (v : Ctx) : (s.setCtx v).mode = s.mode := rfl
@[simp] theorem State.setCtx_txBR (v : Ctx) : (s.setCtx v).txBR = s.txBR := rfl
@[simp] theorem State.setCtx_rxBR (v : Ctx) : (s.setCtx v).rxBR = s.rxBR := rfl
@[simp] theorem State.setCtx_fdtPoll (v : Ctx) : (s.setCtx v).fdtPoll = s.fdtPoll := rfl
@[simp] theorem State.setCtx_fdtListen (v : Ctx) : (s.setCtx v).fdtListen = s.fdtListen := rfl
@[simp] theorem State.setCtx_gt (v : Ctx) : (s.setCtx v).gt = s.gt := rfl
@[simp] theorem State.setCtx_fieldOn (v : Ctx) : (s.setCtx v).fieldOn = s.fieldOn := rfl
@[simp] theorem State.setCtx_gtTimer (v : Ctx) : (s.setCtx v).gtTimer = s.gtTimer := rfl
@[simp] theorem State.setCtx_txrxState (v : Ctx) : (s.setCtx v).txrxState = s.txrxState := rfl
@[simp] theorem State.setCtx_status (v : Ctx) : (s.setCtx v).status = s.status := rfl
@[simp] theorem State.setCtx_ctx (v : Ctx) : (s.setCtx v).ctx = v := rfl
@[simp] theorem State.setCtx_fifo (v : Ctx) : (s.setCtx v).fifo = s.fifo := rfl
@[simp] theorem State.setCtx_fifoStatus (v : Ctx) : (s.setCtx v).fifoStatus = s.fifoStatus := rfl
@[simp] theorem State.setCtx_irq (v : Ctx) : (s.setCtx v).irq = s.irq := rfl
@[simp] theorem State.setCtx_hwMask (v : Ctx) : (s.setCtx v).hwMask = s.hwMask := rfl
@[simp] theorem State.setCtx_nrt (v : Ctx) : (s.setCtx v).nrt = s.nrt := rfl
@[simp] theorem State.setCtx_gptPreload (v : Ctx) : (s.setCtx v).gptPreload = s.gptPreload := rfl
@[simp] theorem State.setCtx_cfg (v : Ctx) : (s.setCtx v).cfg = s.cfg := rfl
@[simp] theorem State.setCtx_obs (v : Ctx) : (s.setCtx v).obs = s.obs := rfl
@[simp] theorem State.setCtx_cb (v : Ctx) : (s.setCtx v).cb = s.cb := rfl
@[simp] theorem State.setCtx_emd (v : Ctx) : (s.setCtx v).emd = s.emd := rfl
@[simp] theorem State.setCtx_mem (v : Ctx) : (s.setCtx v).mem = s.mem := rfl
@[simp] theorem State.setCtx_clockMs (v : Ctx) : (s.setCtx v).clockMs = s.clockMs := rfl
@[simp] theorem State.setCtx_port (v : Ctx) : (s.setCtx v).port = s.port := rfl
@[simp] theorem State.setCtx_response (v : Ctx) : (s.setCtx v).response = s.response := rfl
@[simp] theorem State.setCtx_running (v : Ctx) : (s.setCtx v).running = s.running := rfl
@[simp] theorem State.setCtx_trace (v : Ctx) : (s.setCtx v).trace = s.trace := rfl
@[simp] theorem State.setCtx_env (v : Ctx) : (s.setCtx v).env = s.env := rfl
@[simp] theorem State.setCtx_params (v : Ctx) : (s.setCtx v).params = s.params := rfl

@[simp] theorem State.setFifo_lifecycle (total written : Nat) : (s.setFifo total written).lifecycle = s.lifecycle := rfl
@[simp] theorem State.setFifo_mode (total written : Nat) : (s.setFifo total written).mode = s.mode := rfl
@[simp] theorem State.setFifo_txBR (total written : Nat) : (s.setFifo total written).txBR = s.txBR := rfl
@[simp] theorem State.setFifo_rxBR (total written : Nat) : (s.setFifo total written).rxBR = s.rxBR := rfl
@[simp] theorem State.setFifo_fdtPoll (total written : Nat) : (s.setFifo total written).fdtPoll = s.fdtPoll := rfl
@[simp] theorem State.setFifo_fdtListen (total written : Nat) : (s.setFifo total written).fdtListen = s.fdtListen := rfl
@[simp] theorem State.setFifo_gt (total written : Nat) : (s.setFifo total written).gt = s.gt := rfl
@[simp] theorem State.setFifo_fieldOn (total written : Nat) : (s.setFifo total written).fieldOn = s.fieldOn := rfl
@[simp] theorem State.setFifo_gtTimer (total written : Nat) : (s.setFifo total written).gtTimer = s.gtTimer := rfl
@[simp] theorem State.setFifo_txrxState (total written : Nat) : (s.setFifo total written).txrxState = s.txrxState := rfl
@[simp] theorem State.setFifo_status (total written : Nat) : (s.setFifo total written).status = s.status := rfl
@[simp] theorem State.setFifo_ctx (total written : Nat) : (s.setFifo total written).ctx = s.ctx := rfl
@[simp] theorem State.setFifo_fifo (total written : Nat) : (s.setFifo total written).fifo = { bytesTotal := total, bytesWritten := written } := rfl
@[simp] theorem State.setFifo_fifoStatus (total written : Nat) : (s.setFifo total written).fifoStatus = s.fifoStatus := rfl
@[simp] theorem State.setFifo_irq (total written : Nat) : (s.setFifo total written).irq = s.irq := rfl
@[simp] theorem State.setFifo_hwMask (total written : Nat) : (s.setFifo total written).hwMask = s.hwMask := rfl
@[simp] theorem State.setFifo_nrt (total written : Nat) : (s.setFifo total written).nrt = s.nrt := rfl
@[simp] theorem State.setFifo_gptPreload (total written : Nat) : (s.setFifo total written).gptPreload = s.gptPreload := rfl
@[simp] theorem State.setFifo_cfg (total written : Nat) : (s.setFifo total written).cfg = s.cfg := rfl
@[simp] theorem State.setFifo_obs (total written : Nat) : (s.setFifo total written).obs = s.obs := rfl
@[simp] theorem State.setFifo_cb (total written : Nat) : (s.setFifo total written).cb = s.cb := rfl
@[simp] theorem State.setFifo_emd (total written : Nat) : (s.setFifo total written).emd = s.emd := rfl
@[simp] theorem State.setFifo_mem (total written : Nat) : (s.setFifo total written).mem = s.mem := rfl
@[simp] theorem State.setFifo_clockMs (total written : Nat) : (s.setFifo total written).clockMs = s.clockMs := rfl
@[simp] theorem State.setFifo_port (total written : Nat) : (s.setFifo total written).port = s.port := rfl
@[simp] theorem State.setFifo_response (total written : Nat) : (s.setFifo total written).response = s.response := rfl
@[simp] theorem State.setFifo_running (total written : Nat) : (s.setFifo total written).running = s.running := rfl
@[simp] theorem State.setFifo_trace (total written : Nat) : (s.setFifo total written).trace = s.trace := rfl
@[simp] theorem State.setFifo_env (total written : Nat) : (s.setFifo total written).env = s.env := rfl
@[simp] theorem State.setFifo_params (total written : Nat) : (s.setFifo total written).params = s.params := rfl

@[simp] theorem State.setFifoStatus_lifecycle (v : FifoStatus) : (s.setFifoStatus v).lifecycle = s.lifecycle := rfl
@[simp] theorem State.setFifoStatus_mode (v : FifoStatus) : (s.setFifoStatus v).mode = s.mode := rfl
@[simp] theorem State.setFifoStatus_txBR (v : FifoStatus) : (s.setFifoStatus v).txBR = s.txBR := rfl
@[simp] theorem State.setFifoStatus_rxBR (v : FifoStatus) : (s.setFifoStatus v).rxBR = s.rxBR := rfl
@[simp] theorem State.setFifoStatus_fdtPoll (v : FifoStatus) : (s.setFifoStatus v).fdtPoll = s.fdtPoll := rfl
@[simp] theorem State.setFifoStatus_fdtListen (v : FifoStatus) : (s.setFifoStatus v).fdtListen = s.fdtListen := rfl
@[simp] theorem State.setFifoStatus_gt (v : FifoStatus) : (s.setFifoStatus v).gt = s.gt := rfl
@[simp] theorem State.setFifoStatus_fieldOn (v : FifoStatus) : (s.setFifoStatus v).fieldOn = s.fieldOn := rfl
@[simp] theorem State.setFifoStatus_gtTimer (v : FifoStatus) : (s.setFifoStatus v).gtTimer = s.gtTimer := rfl
@[simp] theorem State.setFifoStatus_txrxState (v : FifoStatus) : (s.setFifoStatus v).txrxState = s.txrxState := rfl
@[simp] theorem State.setFifoStatus_status (v : FifoStatus) : (s.setFifoStatus v).status = s.status := rfl
@[simp] theorem State.setFifoStatus_ctx (v : FifoStatus) : (s.setFifoStatus v).ctx = s.ctx := rfl
@[simp] theorem State.setFifoStatus_fifo (v : FifoStatus) : (s.setFifoStatus v).fifo = s.fifo := rfl
@[simp] theorem State.setFifoStatus_fifoStatus (v : FifoStatus) : (s.setFifoStatus v).fifoStatus = v := rfl
@[simp] theorem State.setFifoStatus_irq (v : FifoStatus) : (s.setFifoStatus v).irq = s.irq := rfl
@[simp] theorem State.setFifoStatus_hwMask (v : FifoStatus) : (s.setFifoStatus v).hwMask = s.hwMask := rfl
@[simp] theorem State.setFifoStatus_nrt (v : FifoStatus) : (s.setFifoStatus v).nrt = s.nrt := rfl
@[simp] theorem State.setFifoStatus_gptPreload (v : FifoStatus) : (s.setFifoStatus v).gptPreload = s.gptPreload := rfl
@[simp] theorem State.setFifoStatus_cfg (v : FifoStatus) : (s.setFifoStatus v).cfg = s.cfg := rfl
@[simp] theorem State.setFifoStatus_obs (v : FifoStatus) : (s.setFifoStatus v).obs = s.obs := rfl
@[simp] theorem State.setFifoStatus_cb (v : FifoStatus) : (s.setFifoStatus v).cb = s.cb := rfl
@[simp] theorem State.setFifoStatus_emd (v : FifoStatus) : (s.setFifoStatus v).emd = s.emd := rfl
@[simp] theorem State.setFifoStatus_mem (v : FifoStatus) : (s.setFifoStatus v).mem = s.mem := rfl
@[simp] theorem State.setFifoStatus_clockMs (v : FifoStatus) : (s.setFifoStatus v).clockMs = s.clockMs := rfl
@[simp] theorem State.setFifoStatus_port (v : FifoStatus) : (s.setFifoStatus v).port = s.port := rfl
@[simp] theorem State.setFifoStatus_response (v : FifoStatus) : (s.setFifoStatus v).response = s.response := rfl
@[simp] theorem State.setFifoStatus_running (v : FifoStatus) : (s.setFifoStatus v).running = s.running := rfl
@[simp] theorem State.setFifoStatus_trace (v : FifoStatus) : (s.setFifoStatus v).trace = s.trace := rfl
@[simp] theorem State.setFifoStatus_env (v : FifoStatus) : (s.setFifoStatus v).env = s.env := rfl
@[simp] theorem State.setFifoStatus_params (v : FifoStatus) : (s.setFifoStatus v).params = s.params := rfl

@[simp] theorem State.setEnabled_lifecycle (v : Word) : (s.setEnabled v).lifecycle = s.lifecycle := rfl
@[simp] theorem State.setEnabled_mode (v : Word) : (s.setEnabled v).mode = s.mode := rfl
@[simp] theorem State.setEnabled_txBR (v : Word) : (s.setEnabled v).txBR = s.txBR := rfl
@[simp] theorem State.setEnabled_rxBR (v : Word) : (s.setEnabled v).rxBR = s.rxBR := rfl
@[simp] theorem State.setEnabled_fdtPoll (v : Word) : (s.setEnabled v).fdtPoll = s.fdtPoll := rfl
@[simp] theorem State.setEnabled_fdtListen (v : Word) : (s.setEnabled v).fdtListen = s.fdtListen := rfl
@[simp] theorem State.setEnabled_gt (v : Word) : (s.setEnabled v).gt = s.gt := rfl
@[simp] theorem State.setEnabled_fieldOn (v : Word) : (s.setEnabled v).fieldOn = s.fieldOn := rfl
@[simp] theorem State.setEnabled_gtTimer (v : Word) : (s.setEnabled v).gtTimer = s.gtTimer := rfl
@[simp] theorem State.setEnabled_txrxState (v : Word) : (s.setEnabled v).txrxState = s.txrxState := rfl
@[simp] theorem State.setEnabled_status (v : Word) : (s.setEnabled v).status = s.status := rfl
@[simp] theorem State.setEnabled_ctx (v : Word) : (s.setEnabled v).ctx = s.ctx := rfl
@[simp] theorem State.setEnabled_fifo (v : Word) : (s.setEnabled v).fifo = s.fifo := rfl
@[simp] theorem State.setEnabled_fifoStatus (v : Word) : (s.setEnabled v).fifoStatus = s.fifoStatus := rfl
@[simp] theorem State.setEnabled_irq (v : Word) : (s.setEnabled v).irq = { s.irq with enabled := v } := rfl
@[simp] theorem State.setEnabled_hwMask (v : Word) : (s.setEnabled v).hwMask = s.hwMask := rfl
@[simp] theorem State.setEnabled_nrt (v : Word) : (s.setEnabled v).nrt = s.nrt := rfl
@[simp] theorem State.setEnabled_gptPreload (v : Word) : (s.setEnabled v).gptPreload = s.gptPreload := rfl
@[simp] theorem State.setEnabled_cfg (v : Word) : (s.setEnabled v).cfg = s.cfg := rfl
@[simp] theorem State.setEnabled_obs (v : Word) : (s.setEnabled v).obs = s.obs := rfl
@[simp] theorem State.setEnabled_cb (v : Word) : (s.setEnabled v).cb = s.cb := rfl
@[simp] theorem State.setEnabled_emd (v : Word) : (s.setEnabled v).emd = s.emd := rfl
@[simp] theorem State.setEnabled_mem (v : Word) : (s.setEnabled v).mem = s.mem := rfl
@[simp] theorem State.setEnabled_clockMs (v : Word) : (s.setEnabled v).clockMs = s.clockMs := rfl
@[simp] theorem State.setEnabled_port (v : Word) : (s.setEnabled v).port = s.port := rfl
@[simp] theorem State.setEnabled_response (v : Word) : (s.setEnabled v).response = s.response := rfl
@[simp] theorem State.setEnabled_running (v : Word) : (s.setEnabled v).running = s.running := rfl
@[simp] theorem State.setEnabled_trace (v : Word) : (s.setEnabled v).trace = s.trace := rfl
@[simp] theorem State.setEnabled_env (v : Word) : (s.setEnabled v).env = s.env := rfl
@[simp] theorem State.setEnabled_params (v : Word) : (s.setEnabled v).params = s.params := rfl

@[simp] theorem State.setPending_lifecycle (v : Word) : (s.setPending v).lifecycle = s.lifecycle := rfl
@[simp] theorem State.setPending_mode (v : Word) : (s.setPending v).mode = s.mode := rfl
@[simp] theorem State.setPending_txBR (v : Word) : (s.setPending v).txBR = s.txBR := rfl
@[simp] theorem State.setPending_rxBR (v : Word) : (s.setPending v).rxBR = s.rxBR := rfl
@[simp] theorem State.setPending_fdtPoll (v : Word) : (s.setPending v).fdtPoll = s.fdtPoll := rfl
@[simp] theorem State.setPending_fdtListen (v : Word) : (s.setPending v).fdtListen = s.fdtListen := rfl
@[simp] theorem State.setPending_gt (v : Word) : (s.setPending v).gt = s.gt := rfl
@[simp] theorem State.setPending_fieldOn (v : Word) : (s.setPending v).fieldOn = s.fieldOn := rfl
@[simp] theorem State.setPending_gtTimer (v : Word) : (s.setPending v).gtTimer = s.gtTimer := rfl
@[simp] theorem State.setPending_txrxState (v : Word) : (s.setPending v).txrxState = s.txrxState := rfl
@[simp] theorem State.setPending_status (v : Word) : (s.setPending v).status = s.status := rfl
@[simp] theorem State.setPending_ctx (v : Word) : (s.setPending v).ctx = s.ctx := rfl
@[simp] theorem State.setPending_fifo (v : Word) : (s.setPending v).fifo = s.fifo := rfl
@[simp] theorem State.setPending_fifoStatus (v : Word) : (s.setPending v).fifoStatus = s.fifoStatus := rfl
@[simp] theorem State.setPending_irq (v : Word) : (s.setPending v).irq = { s.irq with pending := v } := rfl
@[simp] theorem State.setPending_hwMask (v : Word) : (s.setPending v).hwMask = s.hwMask := rfl
@[simp] theorem State.setPending_nrt (v : Word) : (s.setPending v).nrt = s.nrt := rfl
@[simp] theorem State.setPending_gptPreload (v : Word) : (s.setPending v).gptPreload = s.gptPreload := rfl
@[simp] theorem State.setPending_cfg (v : Word) : (s.setPending v).cfg = s.cfg := rfl
@[simp] theorem State.setPending_obs (v : Word) : (s.setPending v).obs = s.obs := rfl
@[simp] theorem State.setPending_cb (v : Word) : (s.setPending v).cb = s.cb := rfl
@[simp] theorem State.setPending_emd (v : Word) : (s.setPending v).emd = s.emd := rfl
@[simp] theorem State.setPending_mem (v : Word) : (s.setPending v).mem = s.mem := rfl
@[simp] theorem State.setPending_clockMs (v : Word) : (s.setPending v).clockMs = s.clockMs := rfl
@[simp] theorem State.setPending_port (v : Word) : (s.setPending v).port = s.port := rfl
@[simp] theorem State.setPending_response (v : Word) : (s.setPending v).response = s.response := rfl
@[simp] theorem State.setPending_running (v : Word) : (s.setPending v).running = s.running := rfl
@[simp] theorem State.setPending_trace (v : Word) : (s.setPending v).trace = s.trace := rfl
@[simp] theorem State.setPending_env (v : Word) : (s.setPending v).env = s.env := rfl
@[simp] theorem State.setPending_params (v : Word) : (s.setPending v).params = s.params := rfl

@[simp] theorem State.setIrqCallback_lifecycle (v : Option Byte) : (s.setIrqCallback v).lifecycle = s.lifecycle := rfl
@[simp] theorem State.setIrqCallback_mode (v : Option Byte) : (s.setIrqCallback v).mode = s.mode := rfl
@[simp] theorem State.setIrqCallback_txBR (v : Option Byte) : (s.setIrqCallback v).txBR = s.txBR := rfl
@[simp] theorem State.setIrqCallback_rxBR (v : Option Byte) : (s.setIrqCallback v).rxBR = s.rxBR := rfl
@[simp] theorem State.setIrqCallback_fdtPoll (v : Option Byte) : (s.setIrqCallback v).fdtPoll = s.fdtPoll := rfl
@[simp] theorem State.setIrqCallback_fdtListen (v : Option Byte) : (s.setIrqCallback v).fdtListen = s.fdtListen := rfl
@[simp] theorem State.setIrqCallback_gt (v : Option Byte) : (s.setIrqCallback v).gt = s.gt := rfl
@[simp] theorem State.setIrqCallback_fieldOn (v : Option Byte) : (s.setIrqCallback v).fieldOn = s.fieldOn := rfl
@[simp] theorem State.setIrqCallback_gtTimer (v : Option Byte) : (s.setIrqCallback v).gtTimer = s.gtTimer := rfl
@[simp] theorem State.setIrqCallback_txrxState (v : Option Byte) : (s.setIrqCallback v).txrxState = s.txrxState := rfl
@[simp] theorem State.setIrqCallback_status (v : Option Byte) : (s.setIrqCallback v).status = s.status := rfl
@[simp] theorem State.setIrqCallback_ctx (v : Option Byte) : (s.setIrqCallback v).ctx = s.ctx := rfl
@[simp] theorem State.setIrqCallback_fifo (v : Option Byte) : (s.setIrqCallback v).fifo = s.fifo := rfl
@[simp] theorem State.setIrqCallback_fifoStatus (v : Option Byte) : (s.setIrqCallback v).fifoStatus = s.fifoStatus := rfl
@[simp] theorem State.setIrqCallback_irq (v : Option Byte) : (s.setIrqCallback v).irq = { s.irq with callback := v } := rfl
@[simp] theorem State.setIrqCallback_hwMask (v : Option Byte) : (s.setIrqCallback v).hwMask = s.hwMask := rfl
@[simp] theorem State.setIrqCallback_nrt (v : Option Byte) : (s.setIrqCallback v).nrt = s.nrt := rfl
@[simp] theorem State.setIrqCallback_gptPreload (v : Option Byte) : (s.setIrqCallback v).gptPreload = s.gptPreload := rfl
@[simp] theorem State.setIrqCallback_cfg (v : Option Byte) : (s.setIrqCallback v).cfg = s.cfg := rfl
@[simp] theorem State.setIrqCallback_obs (v : Option Byte) : (s.setIrqCallback v).obs = s.obs := rfl
@[simp] theorem State.setIrqCallback_cb (v : Option Byte) : (s.setIrqCallback v).cb = s.cb := rfl
@[simp] theorem State.setIrqCallback_emd (v : Option Byte) : (s.setIrqCallback v).emd = s.emd := rfl
@[simp] theorem State.setIrqCallback_mem (v : Option Byte) : (s.setIrqCallback v).mem = s.mem := rfl
@[simp] theorem State.setIrqCallback_clockMs (v : Option Byte) : (s.setIrqCallback v).clockMs = s.clockMs := rfl
@[simp] theorem State.setIrqCallback_port (v : Option Byte) : (s.setIrqCallback v).port = s.port := rfl
@[simp] theorem State.setIrqCallback_response (v : Option Byte) : (s.setIrqCallback v).response = s.response := rfl
@[simp] theorem State.setIrqCallback_running (v : Option Byte) : (s.setIrqCallback v).running = s.running := rfl
@[simp] theorem State.setIrqCallback_trace (v : Option Byte) : (s.setIrqCallback v).trace = s.trace := rfl
@[simp] theorem State.setIrqCallback_env (v : Option Byte) : (s.setIrqCallback v).env = s.env := rfl
@[simp] theorem State.setIrqCallback_params (v : Option Byte) : (s.setIrqCallback v).params = s.params := rfl

@[simp] theorem State.setHwMask_lifecycle (v : HwMask) : (s.setHwMask v).lifecycle = s.lifecycle := rfl
@[simp] theorem State.setHwMask_mode (v : HwMask) : (s.setHwMask v).mode = s.mode := rfl
@[simp] theorem State.setHwMask_txBR (v : HwMask) : (s.setHwMask v).txBR = s.txBR := rfl
@[simp] theorem State.setHwMask_rxBR (v : HwMask) : (s.setHwMask v).rxBR = s.rxBR := rfl
@[simp] theorem State.setHwMask_fdtPoll (v : HwMask) : (s.setHwMask v).fdtPoll = s.fdtPoll := rfl
@[simp] theorem State.setHwMask_fdtListen (v : HwMask) : (s.setHwMask v).fdtListen = s.fdtListen := rfl
@[simp] theorem State.setHwMask_gt (v : HwMask) : (s.setHwMask v).gt = s.gt := rfl
@[simp] theorem State.setHwMask_fieldOn (v : HwMask) : (s.setHwMask v).fieldOn = s.fieldOn := rfl
@[simp] theorem State.setHwMask_gtTimer (v : HwMask) : (s.setHwMask v).gtTimer = s.gtTimer := rfl
@[simp] theorem State.setHwMask_txrxState (v : HwMask) : (s.setHwMask v).txrxState = s.txrxState := rfl
@[simp] theorem State.setHwMask_status (v : HwMask) : (s.setHwMask v).status = s.status := rfl
@[simp] theorem State.setHwMask_ctx (v : HwMask) : (s.setHwMask v).ctx = s.ctx := rfl
@[simp] theorem State.setHwMask_fifo (v : HwMask) : (s.setHwMask v).fifo = s.fifo := rfl
@[simp] theorem State.setHwMask_fifoStatus (v : HwMask) : (s.setHwMask v).fifoStatus = s.fifoStatus := rfl
@[simp] theorem State.setHwMask_irq (v : HwMask) : (s.setHwMask v).irq = s.irq := rfl
@[simp] theorem State.setHwMask_hwMask (v : HwMask) : (s.setHwMask v).hwMask = v := rfl
@[simp] theorem State.setHwMask_nrt (v : HwMask) : (s.setHwMask v).nrt = s.nrt := rfl
@[simp] theorem State.setHwMask_gptPreload (v : HwMask) : (s.setHwMask v).gptPreload = s.gptPreload := rfl
@[simp] theorem State.setHwMask_cfg (v : HwMask) : (s.setHwMask v).cfg = s.cfg := rfl
@[simp] theorem State.setHwMask_obs (v : HwMask) : (s.setHwMask v).obs = s.obs := rfl
@[simp] theorem State.setHwMask_cb (v : HwMask) : (s.setHwMask v).cb = s.cb := rfl
@[simp] theorem State.setHwMask_emd (v : HwMask) : (s.setHwMask v).emd = s.emd := rfl
@[simp] theorem State.setHwMask_mem (v : HwMask) : (s.setHwMask v).mem = s.mem := rfl
@[simp] theorem State.setHwMask_clockMs (v : HwMask) : (s.setHwMask v).clockMs = s.clockMs := rfl
@[simp] theorem State.setHwMask_port (v : HwMask) : (s.setHwMask v).port = s.port := rfl
@[simp] theorem State.setHwMask_response (v : HwMask) : (s.setHwMask v).response = s.response := rfl
@[simp] theorem State.setHwMask_running (v : HwMask) : (s.setHwMask v).running = s.running := rfl
@[simp] theorem State.setHwMask_trace (v : HwMask) : (s.setHwMask v).trace = s.trace := rfl
@[simp] theorem State.setHwMask_env (v : HwMask) : (s.setHwMask v).env = s.env := rfl
@[simp] theorem State.setHwMask_params (v : HwMask) : (s.setHwMask v).params = s.params := rfl

@[simp] theorem State.setNrt_lifecycle (v : Nrt) : (s.setNrt v).lifecycle = s.lifecycle := rfl
@[simp] theorem State.setNrt_mode (v : Nrt) : (s.setNrt v).mode = s.mode := rfl
@[simp] theorem State.setNrt_txBR (v : Nrt) : (s.setNrt v).txBR = s.txBR := rfl
@[simp] theorem State.setNrt_rxBR (v : Nrt) : (s.setNrt v).rxBR = s.rxBR := rfl
@[simp] theorem State.setNrt_fdtPoll (v : Nrt) : (s.setNrt v).fdtPoll = s.fdtPoll := rfl
@[simp] theorem State.setNrt_fdtListen (v : Nrt) : (s.setNrt v).fdtListen = s.fdtListen := rfl
@[simp] theorem State.setNrt_gt (v : Nrt) : (s.setNrt v).gt = s.gt := rfl
@[simp] theorem State.setNrt_fieldOn (v : Nrt) : (s.setNrt v).fieldOn = s.fieldOn := rfl
@[simp] theorem State.setNrt_gtTimer (v : Nrt) : (s.setNrt v).gtTimer = s.gtTimer := rfl
@[simp] theorem State.setNrt_txrxState (v : Nrt) : (s.setNrt v).txrxState = s.txrxState := rfl
@[simp] theorem State.setNrt_status (v : Nrt) : (s.setNrt v).status = s.status := rfl
@[simp] theorem State.setNrt_ctx (v : Nrt) : (s.setNrt v).ctx = s.ctx := rfl
@[simp] theorem State.setNrt_fifo (v : Nrt) : (s.setNrt v).fifo = s.fifo := rfl
@[simp] theorem State.setNrt_fifoStatus (v : Nrt) : (s.setNrt v).fifoStatus = s.fifoStatus := rfl
@[simp] theorem State.setNrt_irq (v : Nrt) : (s.setNrt v).irq = s.irq := rfl
@[simp] theorem State.setNrt_hwMask (v : Nrt) : (s.setNrt v).hwMask = s.hwMask := rfl
@[simp] theorem State.setNrt_nrt (v : Nrt) : (s.setNrt v).nrt = v := rfl
@[simp] theorem State.setNrt_gptPreload (v : Nrt) : (s.setNrt v).gptPreload = s.gptPreload := rfl
@[simp] theorem State.setNrt_cfg (v : Nrt) : (s.setNrt v).cfg = s.cfg := rfl
@[simp] theorem State.setNrt_obs (v : Nrt) : (s.setNrt v).obs = s.obs := rfl
@[simp] theorem State.setNrt_cb (v : Nrt) : (s.setNrt v).cb = s.cb := rfl
@[simp] theorem State.setNrt_emd (v : Nrt) : (s.setNrt v).emd = s.emd := rfl
@[simp] theorem State.setNrt_mem (v : Nrt) : (s.setNrt v).mem = s.mem := rfl
@[simp] theorem State.setNrt_clockMs (v : Nrt) : (s.setNrt v).clockMs = s.clockMs := rfl
@[simp] theorem State.setNrt_port (v : Nrt) : (s.setNrt v).port = s.port := rfl
@[simp] theorem State.setNrt_response (v : Nrt) : (s.setNrt v).response = s.response := rfl
@[simp] theorem State.setNrt_running (v : Nrt) : (s.setNrt v).running = s.running := rfl
@[simp] theorem State.setNrt_trace (v : Nrt) : (s.setNrt v).trace = s.trace := rfl
@[simp] theorem State.setNrt_env (v : Nrt) : (s.setNrt v).env = s.env := rfl
@[simp] theorem State.setNrt_params (v : Nrt) : (s.setNrt v).params = s.params := rfl

@[simp] theorem State.setGptPreload_lifecycle (v : Half) : (s.setGptPreload v).lifecycle = s.lifecycle := rfl
@[simp] theorem State.setGptPreload_mode (v : Half) : (s.setGptPreload v).mode = s.mode := rfl
@[simp] theorem State.setGptPreload_txBR (v : Half) : (s.setGptPreload v).txBR = s.txBR := rfl
@[simp] theorem State.setGptPreload_rxBR (v : Half) : (s.setGptPreload v).rxBR = s.rxBR := rfl
@[simp] theorem State.setGptPreload_fdtPoll (v : Half) : (s.setGptPreload v).fdtPoll = s.fdtPoll := rfl
@[simp] theorem State.setGptPreload_fdtListen (v : Half) : (s.setGptPreload v).fdtListen = s.fdtListen := rfl
@[simp] theorem State.setGptPreload_gt (v : Half) : (s.setGptPreload v).gt = s.gt := rfl
@[simp] theorem State.setGptPreload_fieldOn (v : Half) : (s.setGptPreload v).fieldOn = s.fieldOn := rfl
@[simp] theorem State.setGptPreload_gtTimer (v : Half) : (s.setGptPreload v).gtTimer = s.gtTimer := rfl
@[simp] theorem State.setGptPreload_txrxState (v : Half) : (s.setGptPreload v).txrxState = s.txrxState := rfl
@[simp] theorem State.setGptPreload_status (v : Half) : (s.setGptPreload v).status = s.status := rfl
@[simp] theorem State.setGptPreload_ctx (v : Half) : (s.setGptPreload v).ctx = s.ctx := rfl
@[simp] theorem State.setGptPreload_fifo (v : Half) : (s.setGptPreload v).fifo = s.fifo := rfl
@[simp] theorem State.setGptPreload_fifoStatus (v : Half) : (s.setGptPreload v).fifoStatus = s.fifoStatus := rfl
@[simp] theorem State.setGptPreload_irq (v : Half) : (s.setGptPreload v).irq = s.irq := rfl
@[simp] theorem State.setGptPreload_hwMask (v : Half) : (s.setGptPreload v).hwMask = s.hwMask := rfl
@[simp] theorem State.setGptPreload_nrt (v : Half) : (s.setGptPreload v).nrt = s.nrt := rfl
@[simp] theorem State.setGptPreload_gptPreload (v : Half) : (s.setGptPreload v).gptPreload = v := rfl
@[simp] theorem State.setGptPreload_cfg (v : Half) : (s.setGptPreload v).cfg = s.cfg := rfl
@[simp] theorem State.setGptPreload_obs (v : Half) : (s.setGptPreload v).obs = s.obs := rfl
@[simp] theorem State.setGptPreload_cb (v : Half) : (s.setGptPreload v).cb = s.cb := rfl
@[simp] theorem State.setGptPreload_emd (v : Half) : (s.setGptPreload v).emd = s.emd := rfl
@[simp] theorem State.setGptPreload_mem (v : Half) : (s.setGptPreload v).mem = s.mem := rfl
@[simp] theorem State.setGptPreload_clockMs (v : Half) : (s.setGptPreload v).clockMs = s.clockMs := rfl
@[simp] theorem State.setGptPreload_port (v : Half) : (s.setGptPreload v).port = s.port := rfl
@[simp] theorem State.setGptPreload_response (v : Half) : (s.setGptPreload v).response = s.response := rfl
@[simp] theorem State.setGptPreload_running (v : Half) : (s.setGptPreload v).running = s.running := rfl
@[simp] theorem State.setGptPreload_trace (v : Half) : (s.setGptPreload v).trace = s.trace := rfl
@[simp] theorem State.setGptPreload_env (v : Half) : (s.setGptPreload v).env = s.env := rfl
@[simp] theorem State.setGptPreload_params (v : Half) : (s.setGptPreload v).params = s.params := rfl

@[simp] theorem State.setCfg_lifecycle (v : Cfg) : (s.setCfg v).lifecycle = s.lifecycle := rfl
@[simp] theorem State.setCfg_mode (v : Cfg) : (s.setCfg v).mode = s.mode := rfl
@[simp] theorem State.setCfg_txBR (v : Cfg) : (s.setCfg v).txBR = s.txBR := rfl
@[simp] theorem State.setCfg_rxBR (v : Cfg) : (s.setCfg v).rxBR = s.rxBR := rfl
@[simp] theorem State.setCfg_fdtPoll (v : Cfg) : (s.setCfg v).fdtPoll = s.fdtPoll := rfl
@[simp] theorem State.setCfg_fdtListen (v : Cfg) : (s.setCfg v).fdtListen = s.fdtListen := rfl
@[simp] theorem State.setCfg_gt (v : Cfg) : (s.setCfg v).gt = s.gt := rfl
@[simp] theorem State.setCfg_fieldOn (v : Cfg) : (s.setCfg v).fieldOn = s.fieldOn := rfl
@[simp] theorem State.setCfg_gtTimer (v : Cfg) : (s.setCfg v).gtTimer = s.gtTimer := rfl
@[simp] theorem State.setCfg_txrxState (v : Cfg) : (s.setCfg v).txrxState = s.txrxState := rfl
@[simp] theorem State.setCfg_status (v : Cfg) : (s.setCfg v).status = s.status := rfl
@[simp] theorem State.setCfg_ctx (v : Cfg) : (s.setCfg v).ctx = s.ctx := rfl
@[simp] theorem State.setCfg_fifo (v : Cfg) : (s.setCfg v).fifo = s.fifo := rfl
@[simp] theorem State.setCfg_fifoStatus (v : Cfg) : (s.setCfg v).fifoStatus = s.fifoStatus := rfl
@[simp] theorem State.setCfg_irq (v : Cfg) : (s.setCfg v).irq = s.irq := rfl
@[simp] theorem State.setCfg_hwMask (v : Cfg) : (s.setCfg v).hwMask = s.hwMask := rfl
@[simp] theorem State.setCfg_nrt (v : Cfg) : (s.setCfg v).nrt = s.nrt := rfl
@[simp] theorem State.setCfg_gptPreload (v : Cfg) : (s.setCfg v).gptPreload = s.gptPreload := rfl
@[simp] theorem State.setCfg_cfg (v : Cfg) : (s.setCfg v).cfg = v := rfl
@[simp] theorem State.setCfg_obs (v : Cfg) : (s.setCfg v).obs = s.obs := rfl
@[simp] theorem State.setCfg_cb (v : Cfg) : (s.setCfg v).cb = s.cb := rfl
@[simp] theorem State.setCfg_emd (v : Cfg) : (s.setCfg v).emd = s.emd := rfl
@[simp] theorem State.setCfg_mem (v : Cfg) : (s.setCfg v).mem = s.mem := rfl
@[simp] theorem State.setCfg_clockMs (v : Cfg) : (s.setCfg v).clockMs = s.clockMs := rfl
@[simp] theorem State.setCfg_port (v : Cfg) : (s.setCfg v).port = s.port := rfl
@[simp] theorem State.setCfg_response (v : Cfg) : (s.setCfg v).response = s.response := rfl
@[simp] theorem State.setCfg_running (v : Cfg) : (s.setCfg v).running = s.running := rfl
@[simp] theorem State.setCfg_trace (v : Cfg) : (s.setCfg v).trace = s.trace := rfl
@[simp] theorem State.setCfg_env (v : Cfg) : (s.setCfg v).env = s.env := rfl
@[simp] theorem State.setCfg_params (v : Cfg) : (s.setCfg v).params = s.params := rfl

@[simp] theorem State.setObs_lifecycle (v : Obs) : (s.setObs v).lifecycle = s.lifecycle := rfl
@[simp] theorem State.setObs_mode (v : Obs) : (s.setObs v).mode = s.mode := rfl
@[simp] theorem State.setObs_txBR (v : Obs) : (s.setObs v).txBR = s.txBR := rfl
@[simp] theorem State.setObs_rxBR (v : Obs) : (s.setObs v).rxBR = s.rxBR := rfl
@[simp] theorem State.setObs_fdtPoll (v : Obs) : (s.setObs v).fdtPoll = s.fdtPoll := rfl
@[simp] theorem State.setObs_fdtListen (v : Obs) : (s.setObs v).fdtListen = s.fdtListen := rfl
@[simp] theorem State.setObs_gt (v : Obs) : (s.setObs v).gt = s.gt := rfl
@[simp] theorem State.setObs_fieldOn (v : Obs) : (s.setObs v).fieldOn = s.fieldOn := rfl
@[simp] theorem State.setObs_gtTimer (v : Obs) : (s.setObs v).gtTimer = s.gtTimer := rfl
@[simp] theorem State.setObs_txrxState (v : Obs) : (s.setObs v).txrxState = s.txrxState := rfl
@[simp] theorem State.setObs_status (v : Obs) : (s.setObs v).status = s.status := rfl
@[simp] theorem State.setObs_ctx (v : Obs) : (s.setObs v).ctx = s.ctx := rfl
@[simp] theorem State.setObs_fifo (v : Obs) : (s.setObs v).fifo = s.fifo := rfl
@[simp] theorem State.setObs_fifoStatus (v : Obs) : (s.setObs v).fifoStatus = s.fifoStatus := rfl
@[simp] theorem State.setObs_irq (v : Obs) : (s.setObs v).irq = s.irq := rfl
@[simp] theorem State.setObs_hwMask (v : Obs) : (s.setObs v).hwMask = s.hwMask := rfl
@[simp] theorem State.setObs_nrt (v : Obs) : (s.setObs v).nrt = s.nrt := rfl
@[simp] theorem State.setObs_gptPreload (v : Obs) : (s.setObs v).gptPreload = s.gptPreload := rfl
@[simp] theorem State.setObs_cfg (v : Obs) : (s.setObs v).cfg = s.cfg := rfl
@[simp] theorem State.setObs_obs (v : Obs) : (s.setObs v).obs = v := rfl
@[simp] theorem State.setObs_cb (v : Obs) : (s.setObs v).cb = s.cb := rfl
@[simp] theorem State.setObs_emd (v : Obs) : (s.setObs v).emd = s.emd := rfl
@[simp] theorem State.setObs_mem (v : Obs) : (s.setObs v).mem = s.mem := rfl
@[simp] theorem State.setObs_clockMs (v : Obs) : (s.setObs v).clockMs = s.clockMs := rfl
@[simp] theorem State.setObs_port (v : Obs) : (s.setObs v).port = s.port := rfl
@[simp] theorem State.setObs_response (v : Obs) : (s.setObs v).response = s.response := rfl
@[simp] theorem State.setObs_running (v : Obs) : (s.setObs v).running = s.running := rfl
@[simp] theorem State.setObs_trace (v : Obs) : (s.setObs v).trace = s.trace := rfl
@[simp] theorem State.setObs_env (v : Obs) : (s.setObs v).env = s.env := rfl
@[simp] theorem State.setObs_params (v : Obs) : (s.setObs v).params = s.params := rfl

@[simp] theorem State.setCb_lifecycle (v : Callbacks) : (s.setCb v).lifecycle = s.lifecycle := rfl
@[simp] theorem State.setCb_mode (v : Callbacks) : (s.setCb v).mode = s.mode := rfl
@[simp] theorem State.setCb_txBR (v : Callbacks) : (s.setCb v).txBR = s.txBR := rfl
@[simp] theorem State.setCb_rxBR (v : Callbacks) : (s.setCb v).rxBR = s.rxBR := rfl
@[simp] theorem State.setCb_fdtPoll (v : Callbacks) : (s.setCb v).fdtPoll = s.fdtPoll := rfl
@[simp] theorem State.setCb_fdtListen (v : Callbacks) : (s.setCb v).fdtListen = s.fdtListen := rfl
@[simp] theorem State.setCb_gt (v : Callbacks) : (s.setCb v).gt = s.gt := rfl
@[simp] theorem State.setCb_fieldOn (v : Callbacks) : (s.setCb v).fieldOn = s.fieldOn := rfl
@[simp] theorem State.setCb_gtTimer (v : Callbacks) : (s.setCb v).gtTimer = s.gtTimer := rfl
@[simp] theorem State.setCb_txrxState (v : Callbacks) : (s.setCb v).txrxState = s.txrxState := rfl
@[simp] theorem State.setCb_status (v : Callbacks) : (s.setCb v).status = s.status := rfl
@[simp] theorem State.setCb_ctx (v : Callbacks) : (s.setCb v).ctx = s.ctx := rfl
@[simp] theorem State.setCb_fifo (v : Callbacks) : (s.setCb v).fifo = s.fifo := rfl
@[simp] theorem State.setCb_fifoStatus (v : Callbacks) : (s.setCb v).fifoStatus = s.fifoStatus := rfl
@[simp] theorem State.setCb_irq (v : Callbacks) : (s.setCb v).irq = s.irq := rfl
@[simp] theorem State.setCb_hwMask (v : Callbacks) : (s.setCb v).hwMask = s.hwMask := rfl
@[simp] theorem State.setCb_nrt (v : Callbacks) : (s.setCb v).nrt = s.nrt := rfl
@[simp] theorem State.setCb_gptPreload (v : Callbacks) : (s.setCb v).gptPreload = s.gptPreload := rfl
@[simp] theorem State.setCb_cfg (v : Callbacks) : (s.setCb v).cfg = s.cfg := rfl
@[simp] theorem State.setCb_obs (v : Callbacks) : (s.setCb v).obs = s.obs := rfl
@[simp] theorem State.setCb_cb (v : Callbacks) : (s.setCb v).cb = v := rfl
@[simp] theorem State.setCb_emd (v : Callbacks) : (s.setCb v).emd = s.emd := rfl
@[simp] theorem State.setCb_mem (v : Callbacks) : (s.setCb v).mem = s.mem := rfl
@[simp] theorem State.setCb_clockMs (v : Callbacks) : (s.setCb v).clockMs = s.clockMs := rfl
@[simp] theorem State.setCb_port (v : Callbacks) : (s.setCb v).port = s.port := rfl
@[simp] theorem State.setCb_response (v : Callbacks) : (s.setCb v).response = s.response := rfl
@[simp] theorem State.setCb_running (v : Callbacks) : (s.setCb v).running = s.running := rfl
@[simp] theorem State.setCb_trace (v : Callbacks) : (s.setCb v).trace = s.trace := rfl
@[simp] theorem State.setCb_env (v : Callbacks) : (s.setCb v).env = s.env := rfl
@[simp] theorem State.setCb_params (v : Callbacks) : (s.setCb v).params = s.params := rfl

@[simp] theorem State.setEmd_lifecycle (v : Emd) : (s.setEmd v).lifecycle = s.lifecycle := rfl
@[simp] theorem State.setEmd_mode (v : Emd) : (s.setEmd v).mode = s.mode := rfl
@[simp] theorem State.setEmd_txBR (v : Emd) : (s.setEmd v).txBR = s.txBR := rfl
@[simp] theorem State.setEmd_rxBR (v : Emd) : (s.setEmd v).rxBR = s.rxBR := rfl
@[simp] theorem State.setEmd_fdtPoll (v : Emd) : (s.setEmd v).fdtPoll = s.fdtPoll := rfl
@[simp] theorem State.setEmd_fdtListen (v : Emd) : (s.setEmd v).fdtListen = s.fdtListen := rfl
@[simp] theorem State.setEmd_gt (v : Emd) : (s.setEmd v).gt = s.gt := rfl
@[simp] theorem State.setEmd_fieldOn (v : Emd) : (s.setEmd v).fieldOn = s.fieldOn := rfl
@[simp] theorem State.setEmd_gtTimer (v : Emd) : (s.setEmd v).gtTimer = s.gtTimer := rfl
@[simp] theorem State.setEmd_txrxState (v : Emd) : (s.setEmd v).txrxState = s.txrxState := rfl
@[simp] theorem State.setEmd_status (v : Emd) : (s.setEmd v).status = s.status := rfl
@[simp] theorem State.setEmd_ctx (v : Emd) : (s.setEmd v).ctx = s.ctx := rfl
@[simp] theorem State.setEmd_fifo (v : Emd) : (s.setEmd v).fifo = s.fifo := rfl
@[simp] theorem State.setEmd_fifoStatus (v : Emd) : (s.setEmd v).fifoStatus = s.fifoStatus := rfl
@[simp] theorem State.setEmd_irq (v : Emd) : (s.setEmd v).irq = s.irq := rfl
@[simp] theorem State.setEmd_hwMask (v : Emd) : (s.setEmd v).hwMask = s.hwMask := rfl
@[simp] theorem State.setEmd_nrt (v : Emd) : (s.setEmd v).nrt = s.nrt := rfl
@[simp] theorem State.setEmd_gptPreload (v : Emd) : (s.setEmd v).gptPreload = s.gptPreload := rfl
@[simp] theorem State.setEmd_cfg (v : Emd) : (s.setEmd v).cfg = s.cfg := rfl
@[simp] theorem State.setEmd_obs (v : Emd) : (s.setEmd v).obs = s.obs := rfl
@[simp] theorem State.setEmd_cb (v : Emd) : (s.setEmd v).cb = s.cb := rfl
@[simp] theorem State.setEmd_emd (v : Emd) : (s.setEmd v).emd = v := rfl
@[simp] theorem State.setEmd_mem (v : Emd) : (s.setEmd v).mem = s.mem := rfl
@[simp] theorem State.setEmd_clockMs (v : Emd) : (s.setEmd v).clockMs = s.clockMs := rfl
@[simp] theorem State.setEmd_port (v : Emd) : (s.setEmd v).port = s.port := rfl
@[simp] theorem State.setEmd_response (v : Emd) : (s.setEmd v).response = s.response := rfl
@[simp] theorem State.setEmd_running (v : Emd) : (s.setEmd v).running = s.running := rfl
@[simp] theorem State.setEmd_trace (v : Emd) : (s.setEmd v).trace = s.trace := rfl
@[simp] theorem State.setEmd_env (v : Emd) : (s.setEmd v).env = s.env := rfl
@[simp] theorem State.setEmd_params (v : Emd) : (s.setEmd v).params = s.params := rfl

@[simp] theorem State.setMem_lifecycle (v : List Host.Cell) : (s.setMem v).lifecycle = s.lifecycle := rfl
@[simp] theorem State.setMem_mode (v : List Host.Cell) : (s.setMem v).mode = s.mode := rfl
@[simp] theorem State.setMem_txBR (v : List Host.Cell) : (s.setMem v).txBR = s.txBR := rfl
@[simp] theorem State.setMem_rxBR (v : List Host.Cell) : (s.setMem v).rxBR = s.rxBR := rfl
@[simp] theorem State.setMem_fdtPoll (v : List Host.Cell) : (s.setMem v).fdtPoll = s.fdtPoll := rfl
@[simp] theorem State.setMem_fdtListen (v : List Host.Cell) : (s.setMem v).fdtListen = s.fdtListen := rfl
@[simp] theorem State.setMem_gt (v : List Host.Cell) : (s.setMem v).gt = s.gt := rfl
@[simp] theorem State.setMem_fieldOn (v : List Host.Cell) : (s.setMem v).fieldOn = s.fieldOn := rfl
@[simp] theorem State.setMem_gtTimer (v : List Host.Cell) : (s.setMem v).gtTimer = s.gtTimer := rfl
@[simp] theorem State.setMem_txrxState (v : List Host.Cell) : (s.setMem v).txrxState = s.txrxState := rfl
@[simp] theorem State.setMem_status (v : List Host.Cell) : (s.setMem v).status = s.status := rfl
@[simp] theorem State.setMem_ctx (v : List Host.Cell) : (s.setMem v).ctx = s.ctx := rfl
@[simp] theorem State.setMem_fifo (v : List Host.Cell) : (s.setMem v).fifo = s.fifo := rfl
@[simp] theorem State.setMem_fifoStatus (v : List Host.Cell) : (s.setMem v).fifoStatus = s.fifoStatus := rfl
@[simp] theorem State.setMem_irq (v : List Host.Cell) : (s.setMem v).irq = s.irq := rfl
@[simp] theorem State.setMem_hwMask (v : List Host.Cell) : (s.setMem v).hwMask = s.hwMask := rfl
@[simp] theorem State.setMem_nrt (v : List Host.Cell) : (s.setMem v).nrt = s.nrt := rfl
@[simp] theorem State.setMem_gptPreload (v : List Host.Cell) : (s.setMem v).gptPreload = s.gptPreload := rfl
@[simp] theorem State.setMem_cfg (v : List Host.Cell) : (s.setMem v).cfg = s.cfg := rfl
@[simp] theorem State.setMem_obs (v : List Host.Cell) : (s.setMem v).obs = s.obs := rfl
@[simp] theorem State.setMem_cb (v : List Host.Cell) : (s.setMem v).cb = s.cb := rfl
@[simp] theorem State.setMem_emd (v : List Host.Cell) : (s.setMem v).emd = s.emd := rfl
@[simp] theorem State.setMem_mem (v : List Host.Cell) : (s.setMem v).mem = v := rfl
@[simp] theorem State.setMem_clockMs (v : List Host.Cell) : (s.setMem v).clockMs = s.clockMs := rfl
@[simp] theorem State.setMem_port (v : List Host.Cell) : (s.setMem v).port = s.port := rfl
@[simp] theorem State.setMem_response (v : List Host.Cell) : (s.setMem v).response = s.response := rfl
@[simp] theorem State.setMem_running (v : List Host.Cell) : (s.setMem v).running = s.running := rfl
@[simp] theorem State.setMem_trace (v : List Host.Cell) : (s.setMem v).trace = s.trace := rfl
@[simp] theorem State.setMem_env (v : List Host.Cell) : (s.setMem v).env = s.env := rfl
@[simp] theorem State.setMem_params (v : List Host.Cell) : (s.setMem v).params = s.params := rfl

@[simp] theorem State.setClock_lifecycle (v : Nat) : (s.setClock v).lifecycle = s.lifecycle := rfl
@[simp] theorem State.setClock_mode (v : Nat) : (s.setClock v).mode = s.mode := rfl
@[simp] theorem State.setClock_txBR (v : Nat) : (s.setClock v).txBR = s.txBR := rfl
@[simp] theorem State.setClock_rxBR (v : Nat) : (s.setClock v).rxBR = s.rxBR := rfl
@[simp] theorem State.setClock_fdtPoll (v : Nat) : (s.setClock v).fdtPoll = s.fdtPoll := rfl
@[simp] theorem State.setClock_fdtListen (v : Nat) : (s.setClock v).fdtListen = s.fdtListen := rfl
@[simp] theorem State.setClock_gt (v : Nat) : (s.setClock v).gt = s.gt := rfl
@[simp] theorem State.setClock_fieldOn (v : Nat) : (s.setClock v).fieldOn = s.fieldOn := rfl
@[simp] theorem State.setClock_gtTimer (v : Nat) : (s.setClock v).gtTimer = s.gtTimer := rfl
@[simp] theorem State.setClock_txrxState (v : Nat) : (s.setClock v).txrxState = s.txrxState := rfl
@[simp] theorem State.setClock_status (v : Nat) : (s.setClock v).status = s.status := rfl
@[simp] theorem State.setClock_ctx (v : Nat) : (s.setClock v).ctx = s.ctx := rfl
@[simp] theorem State.setClock_fifo (v : Nat) : (s.setClock v).fifo = s.fifo := rfl
@[simp] theorem State.setClock_fifoStatus (v : Nat) : (s.setClock v).fifoStatus = s.fifoStatus := rfl
@[simp] theorem State.setClock_irq (v : Nat) : (s.setClock v).irq = s.irq := rfl
@[simp] theorem State.setClock_hwMask (v : Nat) : (s.setClock v).hwMask = s.hwMask := rfl
@[simp] theorem State.setClock_nrt (v : Nat) : (s.setClock v).nrt = s.nrt := rfl
@[simp] theorem State.setClock_gptPreload (v : Nat) : (s.setClock v).gptPreload = s.gptPreload := rfl
@[simp] theorem State.setClock_cfg (v : Nat) : (s.setClock v).cfg = s.cfg := rfl
@[simp] theorem State.setClock_obs (v : Nat) : (s.setClock v).obs = s.obs := rfl
@[simp] theorem State.setClock_cb (v : Nat) : (s.setClock v).cb = s.cb := rfl
@[simp] theorem State.setClock_emd (v : Nat) : (s.setClock v).emd = s.emd := rfl
@[simp] theorem State.setClock_mem (v : Nat) : (s.setClock v).mem = s.mem := rfl
@[simp] theorem State.setClock_clockMs (v : Nat) : (s.setClock v).clockMs = v := rfl
@[simp] theorem State.setClock_port (v : Nat) : (s.setClock v).port = s.port := rfl
@[simp] theorem State.setClock_response (v : Nat) : (s.setClock v).response = s.response := rfl
@[simp] theorem State.setClock_running (v : Nat) : (s.setClock v).running = s.running := rfl
@[simp] theorem State.setClock_trace (v : Nat) : (s.setClock v).trace = s.trace := rfl
@[simp] theorem State.setClock_env (v : Nat) : (s.setClock v).env = s.env := rfl
@[simp] theorem State.setClock_params (v : Nat) : (s.setClock v).params = s.params := rfl

@[simp] theorem State.setPort_lifecycle (v : List (List Byte)) : (s.setPort v).lifecycle = s.lifecycle := rfl
@[simp] theorem State.setPort_mode (v : List (List Byte)) : (s.setPort v).mode = s.mode := rfl
@[simp] theorem State.setPort_txBR (v : List (List Byte)) : (s.setPort v).txBR = s.txBR := rfl
@[simp] theorem State.setPort_rxBR (v : List (List Byte)) : (s.setPort v).rxBR = s.rxBR := rfl
@[simp] theorem State.setPort_fdtPoll (v : List (List Byte)) : (s.setPort v).fdtPoll = s.fdtPoll := rfl
@[simp] theorem State.setPort_fdtListen (v : List (List Byte)) : (s.setPort v).fdtListen = s.fdtListen := rfl
@[simp] theorem State.setPort_gt (v : List (List Byte)) : (s.setPort v).gt = s.gt := rfl
@[simp] theorem State.setPort_fieldOn (v : List (List Byte)) : (s.setPort v).fieldOn = s.fieldOn := rfl
@[simp] theorem State.setPort_gtTimer (v : List (List Byte)) : (s.setPort v).gtTimer = s.gtTimer := rfl
@[simp] theorem State.setPort_txrxState (v : List (List Byte)) : (s.setPort v).txrxState = s.txrxState := rfl
@[simp] theorem State.setPort_status (v : List (List Byte)) : (s.setPort v).status = s.status := rfl
@[simp] theorem State.setPort_ctx (v : List (List Byte)) : (s.setPort v).ctx = s.ctx := rfl
@[simp] theorem State.setPort_fifo (v : List (List Byte)) : (s.setPort v).fifo = s.fifo := rfl
@[simp] theorem State.setPort_fifoStatus (v : List (List Byte)) : (s.setPort v).fifoStatus = s.fifoStatus := rfl
@[simp] theorem State.setPort_irq (v : List (List Byte)) : (s.setPort v).irq = s.irq := rfl
@[simp] theorem State.setPort_hwMask (v : List (List Byte)) : (s.setPort v).hwMask = s.hwMask := rfl
@[simp] theorem State.setPort_nrt (v : List (List Byte)) : (s.setPort v).nrt = s.nrt := rfl
@[simp] theorem State.setPort_gptPreload (v : List (List Byte)) : (s.setPort v).gptPreload = s.gptPreload := rfl
@[simp] theorem State.setPort_cfg (v : List (List Byte)) : (s.setPort v).cfg = s.cfg := rfl
@[simp] theorem State.setPort_obs (v : List (List Byte)) : (s.setPort v).obs = s.obs := rfl
@[simp] theorem State.setPort_cb (v : List (List Byte)) : (s.setPort v).cb = s.cb := rfl
@[simp] theorem State.setPort_emd (v : List (List Byte)) : (s.setPort v).emd = s.emd := rfl
@[simp] theorem State.setPort_mem (v : List (List Byte)) : (s.setPort v).mem = s.mem := rfl
@[simp] theorem State.setPort_clockMs (v : List (List Byte)) : (s.setPort v).clockMs = s.clockMs := rfl
@[simp] theorem State.setPort_port (v : List (List Byte)) : (s.setPort v).port = v := rfl
@[simp] theorem State.setPort_response (v : List (List Byte)) : (s.setPort v).response = s.response := rfl
@[simp] theorem State.setPort_running (v : List (List Byte)) : (s.setPort v).running = s.running := rfl
@[simp] theorem State.setPort_trace (v : List (List Byte)) : (s.setPort v).trace = s.trace := rfl
@[simp] theorem State.setPort_env (v : List (List Byte)) : (s.setPort v).env = s.env := rfl
@[simp] theorem State.setPort_params (v : List (List Byte)) : (s.setPort v).params = s.params := rfl

@[simp] theorem State.setResponse_lifecycle (v : List Byte) : (s.setResponse v).lifecycle = s.lifecycle := rfl
@[simp] theorem State.setResponse_mode (v : List Byte) : (s.setResponse v).mode = s.mode := rfl
@[simp] theorem State.setResponse_txBR (v : List Byte) : (s.setResponse v).txBR = s.txBR := rfl
@[simp] theorem State.setResponse_rxBR (v : List Byte) : (s.setResponse v).rxBR = s.rxBR := rfl
@[simp] theorem State.setResponse_fdtPoll (v : List Byte) : (s.setResponse v).fdtPoll = s.fdtPoll := rfl
@[simp] theorem State.setResponse_fdtListen (v : List Byte) : (s.setResponse v).fdtListen = s.fdtListen := rfl
@[simp] theorem State.setResponse_gt (v : List Byte) : (s.setResponse v).gt = s.gt := rfl
@[simp] theorem State.setResponse_fieldOn (v : List Byte) : (s.setResponse v).fieldOn = s.fieldOn := rfl
@[simp] theorem State.setResponse_gtTimer (v : List Byte) : (s.setResponse v).gtTimer = s.gtTimer := rfl
@[simp] theorem State.setResponse_txrxState (v : List Byte) : (s.setResponse v).txrxState = s.txrxState := rfl
@[simp] theorem State.setResponse_status (v : List Byte) : (s.setResponse v).status = s.status := rfl
@[simp] theorem State.setResponse_ctx (v : List Byte) : (s.setResponse v).ctx = s.ctx := rfl
@[simp] theorem State.setResponse_fifo (v : List Byte) : (s.setResponse v).fifo = s.fifo := rfl
@[simp] theorem State.setResponse_fifoStatus (v : List Byte) : (s.setResponse v).fifoStatus = s.fifoStatus := rfl
@[simp] theorem State.setResponse_irq (v : List Byte) : (s.setResponse v).irq = s.irq := rfl
@[simp] theorem State.setResponse_hwMask (v : List Byte) : (s.setResponse v).hwMask = s.hwMask := rfl
@[simp] theorem State.setResponse_nrt (v : List Byte) : (s.setResponse v).nrt = s.nrt := rfl
@[simp] theorem State.setResponse_gptPreload (v : List Byte) : (s.setResponse v).gptPreload = s.gptPreload := rfl
@[simp] theorem State.setResponse_cfg (v : List Byte) : (s.setResponse v).cfg = s.cfg := rfl
@[simp] theorem State.setResponse_obs (v : List Byte) : (s.setResponse v).obs = s.obs := rfl
@[simp] theorem State.setResponse_cb (v : List Byte) : (s.setResponse v).cb = s.cb := rfl
@[simp] theorem State.setResponse_emd (v : List Byte) : (s.setResponse v).emd = s.emd := rfl
@[simp] theorem State.setResponse_mem (v : List Byte) : (s.setResponse v).mem = s.mem := rfl
@[simp] theorem State.setResponse_clockMs (v : List Byte) : (s.setResponse v).clockMs = s.clockMs := rfl
@[simp] theorem State.setResponse_port (v : List Byte) : (s.setResponse v).port = s.port := rfl
@[simp] theorem State.setResponse_response (v : List Byte) : (s.setResponse v).response = v := rfl
@[simp] theorem State.setResponse_running (v : List Byte) : (s.setResponse v).running = s.running := rfl
@[simp] theorem State.setResponse_trace (v : List Byte) : (s.setResponse v).trace = s.trace := rfl
@[simp] theorem State.setResponse_env (v : List Byte) : (s.setResponse v).env = s.env := rfl
@[simp] theorem State.setResponse_params (v : List Byte) : (s.setResponse v).params = s.params := rfl

@[simp] theorem State.setRunning_lifecycle (v : Option Running) : (s.setRunning v).lifecycle = s.lifecycle := rfl
@[simp] theorem State.setRunning_mode (v : Option Running) : (s.setRunning v).mode = s.mode := rfl
@[simp] theorem State.setRunning_txBR (v : Option Running) : (s.setRunning v).txBR = s.txBR := rfl
@[simp] theorem State.setRunning_rxBR (v : Option Running) : (s.setRunning v).rxBR = s.rxBR := rfl
@[simp] theorem State.setRunning_fdtPoll (v : Option Running) : (s.setRunning v).fdtPoll = s.fdtPoll := rfl
@[simp] theorem State.setRunning_fdtListen (v : Option Running) : (s.setRunning v).fdtListen = s.fdtListen := rfl
@[simp] theorem State.setRunning_gt (v : Option Running) : (s.setRunning v).gt = s.gt := rfl
@[simp] theorem State.setRunning_fieldOn (v : Option Running) : (s.setRunning v).fieldOn = s.fieldOn := rfl
@[simp] theorem State.setRunning_gtTimer (v : Option Running) : (s.setRunning v).gtTimer = s.gtTimer := rfl
@[simp] theorem State.setRunning_txrxState (v : Option Running) : (s.setRunning v).txrxState = s.txrxState := rfl
@[simp] theorem State.setRunning_status (v : Option Running) : (s.setRunning v).status = s.status := rfl
@[simp] theorem State.setRunning_ctx (v : Option Running) : (s.setRunning v).ctx = s.ctx := rfl
@[simp] theorem State.setRunning_fifo (v : Option Running) : (s.setRunning v).fifo = s.fifo := rfl
@[simp] theorem State.setRunning_fifoStatus (v : Option Running) : (s.setRunning v).fifoStatus = s.fifoStatus := rfl
@[simp] theorem State.setRunning_irq (v : Option Running) : (s.setRunning v).irq = s.irq := rfl
@[simp] theorem State.setRunning_hwMask (v : Option Running) : (s.setRunning v).hwMask = s.hwMask := rfl
@[simp] theorem State.setRunning_nrt (v : Option Running) : (s.setRunning v).nrt = s.nrt := rfl
@[simp] theorem State.setRunning_gptPreload (v : Option Running) : (s.setRunning v).gptPreload = s.gptPreload := rfl
@[simp] theorem State.setRunning_cfg (v : Option Running) : (s.setRunning v).cfg = s.cfg := rfl
@[simp] theorem State.setRunning_obs (v : Option Running) : (s.setRunning v).obs = s.obs := rfl
@[simp] theorem State.setRunning_cb (v : Option Running) : (s.setRunning v).cb = s.cb := rfl
@[simp] theorem State.setRunning_emd (v : Option Running) : (s.setRunning v).emd = s.emd := rfl
@[simp] theorem State.setRunning_mem (v : Option Running) : (s.setRunning v).mem = s.mem := rfl
@[simp] theorem State.setRunning_clockMs (v : Option Running) : (s.setRunning v).clockMs = s.clockMs := rfl
@[simp] theorem State.setRunning_port (v : Option Running) : (s.setRunning v).port = s.port := rfl
@[simp] theorem State.setRunning_response (v : Option Running) : (s.setRunning v).response = s.response := rfl
@[simp] theorem State.setRunning_running (v : Option Running) : (s.setRunning v).running = v := rfl
@[simp] theorem State.setRunning_trace (v : Option Running) : (s.setRunning v).trace = s.trace := rfl
@[simp] theorem State.setRunning_env (v : Option Running) : (s.setRunning v).env = s.env := rfl
@[simp] theorem State.setRunning_params (v : Option Running) : (s.setRunning v).params = s.params := rfl

@[simp] theorem State.log_lifecycle (e : Event) : (s.log e).lifecycle = s.lifecycle := rfl
@[simp] theorem State.log_mode (e : Event) : (s.log e).mode = s.mode := rfl
@[simp] theorem State.log_txBR (e : Event) : (s.log e).txBR = s.txBR := rfl
@[simp] theorem State.log_rxBR (e : Event) : (s.log e).rxBR = s.rxBR := rfl
@[simp] theorem State.log_fdtPoll (e : Event) : (s.log e).fdtPoll = s.fdtPoll := rfl
@[simp] theorem State.log_fdtListen (e : Event) : (s.log e).fdtListen = s.fdtListen := rfl
@[simp] theorem State.log_gt (e : Event) : (s.log e).gt = s.gt := rfl
@[simp] theorem State.log_fieldOn (e : Event) : (s.log e).fieldOn = s.fieldOn := rfl
@[simp] theorem State.log_gtTimer (e : Event) : (s.log e).gtTimer = s.gtTimer := rfl
@[simp] theorem State.log_txrxState (e : Event) : (s.log e).txrxState = s.txrxState := rfl
@[simp] theorem State.log_status (e : Event) : (s.log e).status = s.status := rfl
@[simp] theorem State.log_ctx (e : Event) : (s.log e).ctx = s.ctx := rfl
@[simp] theorem State.log_fifo (e : Event) : (s.log e).fifo = s.fifo := rfl
@[simp] theorem State.log_fifoStatus (e : Event) : (s.log e).fifoStatus = s.fifoStatus := rfl
@[simp] theorem State.log_irq (e : Event) : (s.log e).irq = s.irq := rfl
@[simp] theorem State.log_hwMask (e : Event) : (s.log e).hwMask = s.hwMask := rfl
@[simp] theorem State.log_nrt (e : Event) : (s.log e).nrt = s.nrt := rfl
@[simp] theorem State.log_gptPreload (e : Event) : (s.log e).gptPreload = s.gptPreload := rfl
@[simp] theorem State.log_cfg (e : Event) : (s.log e).cfg = s.cfg := rfl
@[simp] theorem State.log_obs (e : Event) : (s.log e).obs = s.obs := rfl
@[simp] theorem State.log_cb (e : Event) : (s.log e).cb = s.cb := rfl
@[simp] theorem State.log_emd (e : Event) : (s.log e).emd = s.emd := rfl
@[simp] theorem State.log_mem (e : Event) : (s.log e).mem = s.mem := rfl
@[simp] theorem State.log_clockMs (e : Event) : (s.log e).clockMs = s.clockMs := rfl
@[simp] theorem State.log_port (e : Event) : (s.log e).port = s.port := rfl
@[simp] theorem State.log_response (e : Event) : (s.log e).response = s.response := rfl
@[simp] theorem State.log_running (e : Event) : (s.log e).running = s.running := rfl
@[simp] theorem State.log_trace (e : Event) : (s.log e).trace = e :: s.trace := rfl
@[simp] theorem State.log_env (e : Event) : (s.log e).env = s.env := rfl
@[simp] theorem State.log_params (e : Event) : (s.log e).params = s.params := rfl

@[simp] theorem State.setEnv_lifecycle (v : Env) : (s.setEnv v).lifecycle = s.lifecycle := rfl
@[simp] theorem State.setEnv_mode (v : Env) : (s.setEnv v).mode = s.mode := rfl
@[simp] theorem State.setEnv_txBR (v : Env) : (s.setEnv v).txBR = s.txBR := rfl
@[simp] theorem State.setEnv_rxBR (v : Env) : (s.setEnv v).rxBR = s.rxBR := rfl
@[simp] theorem State.setEnv_fdtPoll (v : Env) : (s.setEnv v).fdtPoll = s.fdtPoll := rfl
@[simp] theorem State.setEnv_fdtListen (v : Env) : (s.setEnv v).fdtListen = s.fdtListen := rfl
@[simp] theorem State.setEnv_gt (v : Env) : (s.setEnv v).gt = s.gt := rfl
@[simp] theorem State.setEnv_fieldOn (v : Env) : (s.setEnv v).fieldOn = s.fieldOn := rfl
@[simp] theorem State.setEnv_gtTimer (v : Env) : (s.setEnv v).gtTimer = s.gtTimer := rfl
@[simp] theorem State.setEnv_txrxState (v : Env) : (s.setEnv v).txrxState = s.txrxState := rfl
@[simp] theorem State.setEnv_status (v : Env) : (s.setEnv v).status = s.status := rfl
@[simp] theorem State.setEnv_ctx (v : Env) : (s.setEnv v).ctx = s.ctx := rfl
@[simp] theorem State.setEnv_fifo (v : Env) : (s.setEnv v).fifo = s.fifo := rfl
@[simp] theorem State.setEnv_fifoStatus (v : Env) : (s.setEnv v).fifoStatus = s.fifoStatus := rfl
@[simp] theorem State.setEnv_irq (v : Env) : (s.setEnv v).irq = s.irq := rfl
@[simp] theorem State.setEnv_hwMask (v : Env) : (s.setEnv v).hwMask = s.hwMask := rfl
@[simp] theorem State.setEnv_nrt (v : Env) : (s.setEnv v).nrt = s.nrt := rfl
@[simp] theorem State.setEnv_gptPreload (v : Env) : (s.setEnv v).gptPreload = s.gptPreload := rfl
@[simp] theorem State.setEnv_cfg (v : Env) : (s.setEnv v).cfg = s.cfg := rfl
@[simp] theorem State.setEnv_obs (v : Env) : (s.setEnv v).obs = s.obs := rfl
@[simp] theorem State.setEnv_cb (v : Env) : (s.setEnv v).cb = s.cb := rfl
@[simp] theorem State.setEnv_emd (v : Env) : (s.setEnv v).emd = s.emd := rfl
@[simp] theorem State.setEnv_mem (v : Env) : (s.setEnv v).mem = s.mem := rfl
@[simp] theorem State.setEnv_clockMs (v : Env) : (s.setEnv v).clockMs = s.clockMs := rfl
@[simp] theorem State.setEnv_port (v : Env) : (s.setEnv v).port = s.port := rfl
@[simp] theorem State.setEnv_response (v : Env) : (s.setEnv v).response = s.response := rfl
@[simp] theorem State.setEnv_running (v : Env) : (s.setEnv v).running = s.running := rfl
@[simp] theorem State.setEnv_trace (v : Env) : (s.setEnv v).trace = s.trace := rfl
@[simp] theorem State.setEnv_env (v : Env) : (s.setEnv v).env = v := rfl
@[simp] theorem State.setEnv_params (v : Env) : (s.setEnv v).params = s.params := rfl

end Sys2Proof.Machine
end

