-- ==== Sys2Proof/Laws/Run.lean ====
section
/-! SUPPORT. Running computations that may stop: what `do` blocks reduce to, and a weakest-precondition
form (`Run.post`) in which a property is carried through a computation, its hangs included. -/

namespace Sys2Proof.Machine

@[simp] theorem Run.ok_bind {α β : Type} (a : α) (f : α → Run β) : (Except.ok a >>= f) = f a := rfl

@[simp] theorem Run.error_bind {α β : Type} (e : Stop) (f : α → Run β) :
    ((Except.error e : Run α) >>= f) = Except.error e := rfl

@[simp] theorem Run.pure_eq {α : Type} (a : α) : (pure a : Run α) = .ok a := rfl

/-- Every value the computation answers satisfies `Q`, and every state it hangs in satisfies `H`. -/
def Run.post {α : Type} (r : Run α) (Q : α → Prop) (H : State → Prop) : Prop :=
  match r with
  | .ok a => Q a
  | .error (.hang s) => H s
  | .error (.fault _) => True

@[simp] theorem Run.post_ok {α : Type} (a : α) (Q : α → Prop) (H : State → Prop) :
    Run.post (.ok a) Q H ↔ Q a := Iff.rfl

@[simp] theorem Run.post_hang {α : Type} (s : State) (Q : α → Prop) (H : State → Prop) :
    Run.post (.error (.hang s) : Run α) Q H ↔ H s := Iff.rfl

@[simp] theorem Run.post_fault {α : Type} (f : Fault) (Q : α → Prop) (H : State → Prop) :
    Run.post (.error (.fault f) : Run α) Q H ↔ True := Iff.rfl

/-- A bind satisfies `Q` when its first part leads to states from which its second part does. -/
@[simp] theorem Run.post_bind {α β : Type} (r : Run α) (f : α → Run β) (Q : β → Prop) (H : State → Prop) :
    Run.post (r >>= f) Q H ↔ Run.post r (fun a => Run.post (f a) Q H) H := by
  match r with
  | .ok a => exact Iff.rfl
  | .error (.hang s) => exact Iff.rfl
  | .error (.fault e) => exact Iff.rfl

theorem Run.post_mono {α : Type} {r : Run α} {Q Q' : α → Prop} {H H' : State → Prop}
    (h : Run.post r Q H) (hq : ∀ a, Q a → Q' a) (hh : ∀ s, H s → H' s) : Run.post r Q' H' := by
  match r with
  | .ok a => exact hq a h
  | .error (.hang s) => exact hh s h
  | .error (.fault _) => exact trivial

/-- What `settle` answers as a next state: the computation's value, or the state it hangs in. -/
theorem settle_next {r : Run State} {t : State} (h : settle r = .next t) :
    r = .ok t ∨ ∃ s, r = .error (.hang s) ∧ t = loopOn .hung s := by
  match r with
  | .ok s => exact .inl (by simpa [settle] using h)
  | .error (.hang s) => exact .inr ⟨s, rfl, by simpa [settle] using h.symm⟩
  | .error (.fault f) => simp [settle] at h

/-- A property of every value and, under `loopOn .hung`, of every hang holds of the next state. -/
theorem settle_post {r : Run State} {t : State} {P : State → Prop} (h : settle r = .next t)
    (hp : Run.post r P (fun s => P (loopOn .hung s))) : P t := by
  obtain rfl | ⟨s, rfl, rfl⟩ := settle_next h <;> exact hp

@[simp] theorem settle_ok (s : State) : settle (.ok s) = .next s := rfl

@[simp] theorem settle_fault (f : Fault) : settle (.error (.fault f)) = .fault f := rfl

@[simp] theorem settle_hang (s : State) : settle (.error (.hang s)) = .next (loopOn .hung s) := rfl

end Sys2Proof.Machine
end

