-- ==== Sys2Proof/Laws/Memory.lean ====
section
/-! SUPPORT. Host memory: a byte read back is the byte written, other bytes are left alone, and every
write keeps the canonical form. -/

namespace Sys2Proof.Machine

theorem Memory.load_store_same (m : List Host.Cell) (x : Nat) (v : Byte) (h : Memory.wf m = true) :
    Memory.load (Memory.store x v m) x = v := by
  have absent : ∀ (m : List Host.Cell) (y : Nat), Memory.above m y = true → ∀ z, z ≤ y →
      Memory.load m z = Memory.unlisted := by
    intro m
    induction m with
    | nil => intros; rfl
    | cons c m ih =>
      obtain ⟨a, b⟩ := c
      intro y hy z hz
      simp only [Memory.above, Bool.and_eq_true, decide_eq_true_eq] at hy
      have : z ≠ a := by omega
      simp only [Memory.load, this, if_false]
      exact ih a hy.2 z (by omega)
  induction m with
  | nil =>
    simp only [Memory.store]
    split
    · simp [Memory.load, *]
    · simp [Memory.load]
  | cons c m ih =>
    obtain ⟨a, b⟩ := c
    simp only [Memory.wf, Bool.and_eq_true] at h
    have hm : Memory.wf m = true := by
      cases m with
      | nil => rfl
      | cons c m =>
        obtain ⟨a', b'⟩ := c
        have h2 := h.2
        simp only [Memory.above, Bool.and_eq_true, decide_eq_true_eq] at h2
        simp only [Memory.wf, Bool.and_eq_true]
        exact ⟨h2.1.2, h2.2⟩
    simp only [Memory.store]
    split
    · rename_i hlt
      split
      · rename_i hv
        have : x ≠ a := by omega
        simp only [Memory.load, this, if_false]
        rw [absent m a h.2 x (by omega), hv]
      · simp [Memory.load]
    · split
      · rename_i hxa
        split
        · rename_i hv
          rw [absent m a h.2 x (by omega), hv]
        · simp [Memory.load]
      · rename_i hxa
        simp only [Memory.load, hxa, if_false]
        exact ih hm

theorem Memory.load_store_other (m : List Host.Cell) (x y : Nat) (v : Byte) (hne : y ≠ x) :
    Memory.load (Memory.store x v m) y = Memory.load m y := by
  induction m with
  | nil =>
    simp only [Memory.store]
    split <;> simp [Memory.load, hne]
  | cons c m ih =>
    obtain ⟨a, b⟩ := c
    simp only [Memory.store]
    split
    · split <;> simp [Memory.load, hne]
    · split
      · rename_i hxa
        subst hxa
        split <;> simp [Memory.load, hne]
      · simp only [Memory.load, ih]

theorem Memory.above_store (m : List Host.Cell) (x y : Nat) (v : Byte) (h : Memory.above m y = true)
    (hy : y < x) : Memory.above (Memory.store x v m) y = true := by
  induction m generalizing y with
  | nil =>
    simp only [Memory.store]
    split <;> simp_all [Memory.above]
  | cons c m ih =>
    obtain ⟨a, b⟩ := c
    simp only [Memory.above, Bool.and_eq_true, decide_eq_true_eq] at h
    simp only [Memory.store]
    split
    · split <;> simp_all [Memory.above]
    · split
      · rename_i hxa
        subst hxa
        split
        · cases m with
          | nil => rfl
          | cons c m =>
            obtain ⟨a', b'⟩ := c
            have h2 := h.2
            simp only [Memory.above, Bool.and_eq_true, decide_eq_true_eq] at h2 ⊢
            exact ⟨⟨by omega, h2.1.2⟩, h2.2⟩
        · simp_all [Memory.above]
      · simp only [Memory.above, Bool.and_eq_true, decide_eq_true_eq]
        exact ⟨h.1, ih a h.2 (by omega)⟩

/-- A store keeps the canonical form. -/
theorem Memory.wf_store (m : List Host.Cell) (x : Nat) (v : Byte) (h : Memory.wf m = true) :
    Memory.wf (Memory.store x v m) = true := by
  cases m with
  | nil =>
    simp only [Memory.store]
    split <;> simp_all [Memory.wf, Memory.above]
  | cons c m =>
    obtain ⟨a, b⟩ := c
    simp only [Memory.wf, Bool.and_eq_true] at h
    simp only [Memory.store]
    split
    · split <;> simp_all [Memory.wf, Memory.above]
    · split
      · rename_i hxa
        subst hxa
        split
        · cases m with
          | nil => rfl
          | cons c m =>
            obtain ⟨a', b'⟩ := c
            have h2 := h.2
            simp only [Memory.above, Bool.and_eq_true, decide_eq_true_eq] at h2
            simp only [Memory.wf, Bool.and_eq_true]
            exact ⟨h2.1.2, h2.2⟩
        · simp_all [Memory.wf]
      · simp only [Memory.wf, Bool.and_eq_true]
        exact ⟨h.1, Memory.above_store m x a v h.2 (by omega)⟩

/-- Writing bytes into a buffer keeps the canonical form. -/
theorem storeBytes_wf (b : BufRef) (i : Nat) (bytes : List Byte) (m : List Host.Cell)
    (h : Memory.wf m = true) : Memory.wf (storeBytes b i bytes m) = true := by
  induction bytes generalizing i m with
  | nil => exact h
  | cons v vs ih => exact ih _ _ (Memory.wf_store m _ v h)

/-- Writing bytes into a buffer changes no address outside them. -/
theorem storeBytes_other (b : BufRef) (i : Nat) (bytes : List Byte) (m : List Host.Cell) (a : Nat)
    (h : ∀ j, i ≤ j → j < i + bytes.length → a ≠ hostAddr b.region (b.offset + j)) :
    Memory.load (storeBytes b i bytes m) a = Memory.load m a := by
  induction bytes generalizing i m with
  | nil => rfl
  | cons v vs ih =>
    simp only [storeBytes, List.length_cons] at *
    rw [ih (i + 1) _ (fun j h1 h2 => h j (by omega) (by omega))]
    exact Memory.load_store_other m _ _ v (h i (by omega) (by omega))

/-- All `memWrite` can do: nothing for no byte, the bytes stored where they lie in the buffer's region,
`bufferBounds` otherwise. -/
theorem memWrite_cases (buf : Option BufRef) (i : Nat) (bytes : List Byte) (s : State) :
    (bytes = [] ∧ memWrite buf i bytes s = .ok s) ∨
    (bytes ≠ [] ∧ ∃ b, buf = some b ∧ inBounds s.params b i bytes.length = true ∧
      memWrite buf i bytes s = .ok (s.setMem (storeBytes b i bytes s.mem))) ∨
    (bytes ≠ [] ∧ (∀ b, buf = some b → inBounds s.params b i bytes.length = false) ∧
      memWrite buf i bytes s = .error (.fault .bufferBounds)) := by
  unfold memWrite
  by_cases hb : bytes = []
  · simp [hb]
  · cases buf with
    | none => simp [hb]
    | some b =>
      cases hi : inBounds s.params b i bytes.length <;> simp [hb, hi]

/-- All `memRead` can do. -/
theorem memRead_cases (buf : Option BufRef) (i n : Nat) (s : State) :
    (n = 0 ∧ memRead buf i n s = .ok []) ∨
    (n ≠ 0 ∧ ∃ b, buf = some b ∧ inBounds s.params b i n = true ∧
      memRead buf i n s = .ok (bufBytes s.mem b i n)) ∨
    (n ≠ 0 ∧ (∀ b, buf = some b → inBounds s.params b i n = false) ∧
      memRead buf i n s = .error (.fault .bufferBounds)) := by
  unfold memRead
  by_cases hn : n = 0
  · simp [hn]
  · cases buf with
    | none => simp [hn]
    | some b =>
      cases hi : inBounds s.params b i n <;> simp [hn, hi]

@[simp] theorem bufBytes_length (m : List Host.Cell) (b : BufRef) (i n : Nat) :
    (bufBytes m b i n).length = n := by
  induction n generalizing i with
  | zero => rfl
  | succ n ih => simp [bufBytes, ih]

/-- A write changes memory only, keeps it canonical, and leaves every byte outside `bytes.length` bytes
from index `i` alone. -/
theorem memWrite_post (buf : Option BufRef) (i : Nat) (bytes : List Byte) (s : State) (H : State → Prop) :
    Run.post (memWrite buf i bytes s)
      (fun t => ∃ m, t = s.setMem m ∧ (Memory.wf s.mem = true → Memory.wf m = true) ∧
        ∀ a, (∀ b j, buf = some b → i ≤ j → j < i + bytes.length → a ≠ hostAddr b.region (b.offset + j)) →
          Memory.load m a = Memory.load s.mem a) H := by
  obtain ⟨_, h⟩ | ⟨_, b, rfl, _, h⟩ | ⟨_, _, h⟩ := memWrite_cases buf i bytes s <;> rw [h]
  · exact ⟨s.mem, rfl, id, fun _ _ => rfl⟩
  · exact ⟨_, rfl, storeBytes_wf b i bytes s.mem,
      fun a ha => storeBytes_other b i bytes s.mem a (fun j h1 h2 => ha b j rfl h1 h2)⟩
  · exact trivial

@[simp] theorem cellBytes_length (p : Config.Params) (v : Half) : (cellBytes p v).length = 2 := by
  unfold cellBytes; split <;> rfl

/-- A 16-bit cell write changes the cell's two bytes at most. -/
theorem memWrite16_post (cell : Option BufRef) (v : Half) (s : State) (H : State → Prop) :
    Run.post (memWrite16 cell v s)
      (fun t => ∃ m, t = s.setMem m ∧ (Memory.wf s.mem = true → Memory.wf m = true) ∧
        ∀ a, (∀ b j, cell = some b → j < 2 → a ≠ hostAddr b.region (b.offset + j)) →
          Memory.load m a = Memory.load s.mem a) H := by
  unfold memWrite16
  cases cell with
  | none => exact ⟨s.mem, rfl, id, fun _ _ => rfl⟩
  | some c =>
    refine Run.post_mono (memWrite_post (some c) 0 (cellBytes s.params v) s H) ?_ (fun _ h => h)
    rintro t ⟨m, rfl, hw, hm⟩
    exact ⟨m, rfl, hw, fun a ha => hm a (fun b j hb _ hj => ha b j hb (by simpa using hj))⟩

end Sys2Proof.Machine
end

