-- ==== Sys2Proof/Laws/Ops.lean ====
section
/-! SUPPORT. What each shared operation can do, said once: draws and bus reads change only the environment
and the trace; drains and ISR runs also set enabled pending bits; the engine's aggregator steps are those
with an atomic step at the end. -/

namespace Sys2Proof.Machine

/-! ## Draws and bus reads -/

/-- From `s` to `t` only answers were taken and events recorded. -/
def DrawStep (s t : State) : Prop :=
  ∃ new e, t = { s with trace := new ++ s.trace, env := e } ∧ e.line = s.env.line ∧
    e.lineRest = s.env.lineRest ∧ e.edges = s.env.edges

theorem Env.takeReg_keeps (e : Env) :
    e.takeReg.2.line = e.line ∧ e.takeReg.2.lineRest = e.lineRest ∧ e.takeReg.2.edges = e.edges := by
  unfold Env.takeReg; split <;> exact ⟨rfl, rfl, rfl⟩

theorem Env.takeFifo_keeps (n : Nat) (e : Env) :
    (Env.takeFifo n e).2.line = e.line ∧ (Env.takeFifo n e).2.lineRest = e.lineRest ∧
      (Env.takeFifo n e).2.edges = e.edges ∧ (Env.takeFifo n e).1.length = n := by
  induction n generalizing e with
  | zero => exact ⟨rfl, rfl, rfl, rfl⟩
  | succ n ih =>
    have hb : e.takeFifoByte.2.line = e.line ∧ e.takeFifoByte.2.lineRest = e.lineRest ∧
        e.takeFifoByte.2.edges = e.edges := by
      unfold Env.takeFifoByte; split <;> exact ⟨rfl, rfl, rfl⟩
    obtain ⟨h1, h2, h3, h4⟩ := ih e.takeFifoByte.2
    exact ⟨h1.trans hb.1, h2.trans hb.2.1, h3.trans hb.2.2, by simp [Env.takeFifo, h4]⟩

/-- A register read records the answer and takes it from the environment. -/
theorem busRead_eq (r : Reg) (s : State) :
    busRead r s = (chipAnswer s r s.env.takeReg.1,
      (s.setEnv s.env.takeReg.2).log (.regRead r (chipAnswer s r s.env.takeReg.1))) := rfl

theorem busRead_draw (r : Reg) (s : State) : DrawStep s (busRead r s).2 :=
  ⟨[.regRead r (chipAnswer s r s.env.takeReg.1)], s.env.takeReg.2, rfl, Env.takeReg_keeps s.env⟩

theorem DrawStep.refl (s : State) : DrawStep s s := ⟨[], s.env, rfl, rfl, rfl, rfl⟩

theorem DrawStep.trans {s t u : State} (h : DrawStep s t) (h' : DrawStep t u) : DrawStep s u := by
  obtain ⟨n, e, rfl, a, b, c⟩ := h
  obtain ⟨n', e', rfl, a', b', c'⟩ := h'
  exact ⟨n' ++ n, e', by simp, a'.trans a, b'.trans b, c'.trans c⟩

theorem chipStatus_draw (s : State) : DrawStep s (chipStatus s).2 := by
  refine ⟨[], s.env.takeChipBit.2, rfl, ?_⟩
  unfold Env.takeChipBit; split <;> exact ⟨rfl, rfl, rfl⟩

theorem syncAnswer_draw (s : State) : DrawStep s (syncAnswer s).2 := by
  refine ⟨[], s.env.takeSync.2, rfl, ?_⟩
  unfold Env.takeSync; split <;> exact ⟨rfl, rfl, rfl⟩

/-- A clock reading never goes back and changes the environment and the clock only. -/
theorem readClock_eq (s : State) :
    ∃ n e, readClock s = (s.clockMs + n, (s.setEnv e).setClock (s.clockMs + n)) ∧
      e.line = s.env.line ∧ e.lineRest = s.env.lineRest ∧ e.edges = s.env.edges := by
  refine ⟨s.env.takeElapsed.1, s.env.takeElapsed.2, rfl, ?_⟩
  unfold Env.takeElapsed; split <;> exact ⟨rfl, rfl, rfl⟩

/-- A FIFO read within the depth pops `n` bytes; a longer one does nothing (20 R67). -/
theorem fifoRead_cases (n : Nat) (s : State) :
    (n ≤ s.params.fifoDepth ∧ ∃ bytes, bytes.length = n ∧ DrawStep s (fifoRead n s).2.2 ∧
      (fifoRead n s).1 = .none ∧ (fifoRead n s).2.1 = bytes) ∨
    (s.params.fifoDepth < n ∧ fifoRead n s = (.invalidParam, [], s)) := by
  by_cases h : n ≤ s.params.fifoDepth
  · obtain ⟨a, b, c, d⟩ := Env.takeFifo_keeps n s.env
    exact .inl ⟨h, _, d, by
      simp only [fifoRead, h, if_true]
      exact ⟨[.fifoRead (Env.takeFifo n s.env).1], _, rfl, a, b, c⟩, by simp [fifoRead, h], by simp [fifoRead, h]⟩
  · exact .inr ⟨by omega, by simp [fifoRead, h]⟩

theorem fifoRead_draw (n : Nat) (s : State) : DrawStep s (fifoRead n s).2.2 := by
  obtain ⟨_, _, _, h, _⟩ | ⟨_, h⟩ := fifoRead_cases n s
  · exact h
  · rw [h]; exact DrawStep.refl s

theorem fifoWrite_draw (bytes : List Byte) (s : State) : DrawStep s (fifoWrite bytes s).2 := by
  unfold fifoWrite
  split
  · exact ⟨[.fifoWrite bytes], s.env, rfl, rfl, rfl, rfl⟩
  · exact DrawStep.refl s

/-- A fetch takes two answers and leaves the cache valid. -/
theorem fetchFifoStatus_spec (s : State) :
    ∃ u f, DrawStep s u ∧ f.valid = true ∧ fetchFifoStatus s = u.setFifoStatus f :=
  ⟨(busRead .fifoStatus2 (busRead .fifoStatus1 s).2).2,
    ⟨true, (busRead .fifoStatus1 s).1, (busRead .fifoStatus2 (busRead .fifoStatus1 s).2).1⟩,
    (busRead_draw _ _).trans (busRead_draw _ _), rfl, by unfold fetchFifoStatus; rfl⟩

@[simp] theorem fetchFifoStatus_params (s : State) : (fetchFifoStatus s).params = s.params := by
  obtain ⟨u, f, ⟨n, e, rfl, _⟩, _, h⟩ := fetchFifoStatus_spec s
  rw [h]; rfl

theorem fsUpdate_valid (s : State) (h : s.fifoStatus.valid = true) : fsUpdate s = .ok s := by
  simp [fsUpdate, h]

/-- The FIFO status update does nothing where the cache is valid; otherwise it fetches both bytes, and stops with
the model fault where the count is above FIFO_DEPTH (20 R67). -/
theorem fsUpdate_cases (s : State) :
    (s.fifoStatus.valid = true ∧ fsUpdate s = .ok s) ∨
    (s.fifoStatus.valid = false ∧ fifoCount (fetchFifoStatus s) ≤ s.params.fifoDepth ∧
      fsUpdate s = .ok (fetchFifoStatus s)) ∨
    (s.fifoStatus.valid = false ∧ s.params.fifoDepth < fifoCount (fetchFifoStatus s) ∧
      fsUpdate s = .error (.fault .chipRange)) := by
  cases h : s.fifoStatus.valid
  · by_cases hc : fifoCount (fetchFifoStatus s) ≤ s.params.fifoDepth
    · exact .inr (.inl ⟨rfl, hc, by simp only [fsUpdate, h, fetchFifoStatus_params, hc]; rfl⟩)
    · exact .inr (.inr ⟨rfl, by omega, by simp only [fsUpdate, h, fetchFifoStatus_params, hc]; rfl⟩)
  · exact .inl ⟨rfl, fsUpdate_valid s h⟩

/-! ## Drains and the ISR agent -/

/-- From `s` to `t` only drains and ISR runs happened (20 R70): the accumulator gained enabled bits of the
three chip registers, answers were taken, events recorded. -/
structure AggStep (s t : State) : Prop where
  rest : ∃ p new e, t = { s with irq := { s.irq with pending := p }, trace := new ++ s.trace, env := e } ∧
    e.lineRest = s.env.lineRest ∧ e.edges.length ≤ s.env.edges.length
  grows : s.irq.pending ||| t.irq.pending = t.irq.pending
  enabled : t.irq.pending &&& ~~~(s.irq.pending ||| s.irq.enabled) = 0
  top : t.irq.pending.extractLsb' 24 8 = s.irq.pending.extractLsb' 24 8

theorem AggStep.of_draw {s t : State} (h : DrawStep s t) : AggStep s t := by
  obtain ⟨n, e, rfl, _, b, c⟩ := h
  refine ⟨⟨s.irq.pending, n, e, rfl, b, by rw [c]⟩, ?_, ?_, rfl⟩
  · ext i; simp
  · ext i hi
    simp only [BitVec.getElem_and, BitVec.getElem_not, BitVec.getElem_or]
    cases s.irq.pending[i] <;> simp

theorem AggStep.refl (s : State) : AggStep s s := .of_draw (DrawStep.refl s)

theorem AggStep.trans {s t u : State} (h : AggStep s t) (h' : AggStep t u) : AggStep s u := by
  obtain ⟨⟨p, n, e, rfl, a, b⟩, g, en, tp⟩ := h
  obtain ⟨⟨p', n', e', rfl, a', b'⟩, g', en', tp'⟩ := h'
  refine ⟨⟨p', n' ++ n, e', by simp, a'.trans a, b'.trans b⟩, ?_, ?_, tp'.trans tp⟩
  · simp only at *
    rw [← g', ← g, ← BitVec.or_assoc, ← BitVec.or_assoc, BitVec.or_self]
  · simp only at *
    ext i hi
    have e1 := congrArg (fun w : Word => w[i]) en
    have e2 := congrArg (fun w : Word => w[i]) en'
    simp only [BitVec.getElem_and, BitVec.getElem_not, BitVec.getElem_or] at *
    revert e1 e2
    cases s.irq.pending[i] <;> cases p[i] <;> cases p'[i] <;> cases s.irq.enabled[i] <;> simp

theorem rawStatus_top (b0 b1 b2 : Byte) : (rawStatus b0 b1 b2).extractLsb' 24 8 = 0 := by
  ext i hi
  simp only [rawStatus, BitVec.getElem_extractLsb', BitVec.getLsbD_setWidth]
  rw [BitVec.getLsbD_of_ge _ _ (by omega)]; simp

theorem drainOnce_step (s : State) : AggStep s (drainOnce s) := by
  have d : DrawStep s (busRead (.irqStatus 2) (busRead (.irqStatus 1) (busRead (.irqStatus 0) s).2).2).2 :=
    ((busRead_draw _ _).trans (busRead_draw _ _)).trans (busRead_draw _ _)
  obtain ⟨n, e, hu, _, b, c⟩ := d
  have hd : drainOnce s = { s with
      irq := { s.irq with pending := s.irq.pending ||| (rawStatus (busRead (.irqStatus 0) s).1
        (busRead (.irqStatus 1) (busRead (.irqStatus 0) s).2).1
        (busRead (.irqStatus 2) (busRead (.irqStatus 1) (busRead (.irqStatus 0) s).2).2).1 &&& s.irq.enabled) }
      trace := n ++ s.trace, env := e } := by
    unfold drainOnce
    simp only [hu, State.setPending]
  rw [hd]
  refine ⟨⟨_, n, e, rfl, b, by rw [c]⟩, ?_, ?_, ?_⟩
  · ext i hi
    simp only [BitVec.getElem_or, BitVec.getElem_and]
    cases s.irq.pending[i] <;> simp
  · ext i hi
    simp only [BitVec.getElem_or, BitVec.getElem_and, BitVec.getElem_not]
    cases s.irq.pending[i] <;> cases s.irq.enabled[i] <;> simp
  · generalize busRead (.irqStatus 0) s = r0
    generalize (busRead (.irqStatus 1) r0.2) = r1
    generalize (busRead (.irqStatus 2) r1.2).1 = v2
    ext i hi
    have ht := congrArg (fun w : Byte => w[i]) (rawStatus_top r0.1 r1.1 v2)
    simp only [BitVec.getElem_extractLsb', BitVec.getLsbD_or, BitVec.getLsbD_and] at *
    rw [ht]; simp

theorem setLine_step (l : List Bool) (s : State) : AggStep s (setLine l s) := by
  refine ⟨⟨s.irq.pending, [], { s.env with line := l }, rfl, rfl, le_refl _⟩, ?_, ?_, rfl⟩
  · ext i hi; simp [setLine]
  · ext i hi
    simp only [setLine, State.setEnv_irq, BitVec.getElem_and, BitVec.getElem_not, BitVec.getElem_or]
    cases s.irq.pending[i] <;> simp

/-- A drain does what its iterations and its points do. -/
theorem drainLoop_post {point : State → Run State} (hp : ∀ t, Run.post (point t) (AggStep t) (AggStep t))
    (n : Nat) (s : State) : Run.post (drainLoop point n s) (AggStep s) (AggStep s) := by
  induction n generalizing s with
  | zero => unfold drainLoop; split <;> exact AggStep.refl s
  | succ n ih =>
    unfold drainLoop
    split
    · split <;> exact AggStep.refl s
    · exact setLine_step _ s
    · rename_i rest _
      rw [Run.post_bind]
      have hl := setLine_step rest s
      refine Run.post_mono (hp (setLine rest s)) (fun t h => ?_) (fun _ h => hl.trans h)
      have hd := (hl.trans h).trans (drainOnce_step t)
      exact Run.post_mono (ih (drainOnce t)) (fun _ h => hd.trans h) (fun _ h => hd.trans h)

theorem isrBody_post (s : State) : Run.post (isrBody s) (AggStep s) (AggStep s) := by
  unfold isrBody
  rw [Run.post_bind]
  refine Run.post_mono (drainLoop_post (point := .ok) (fun t => AggStep.refl t) _ s) (fun t h => ?_) (fun _ h => h)
  split
  · exact h
  · exact h.trans (.of_draw ⟨[.irqCallback _], t.env, rfl, rfl, rfl, rfl⟩)

theorem drainOnce_edges (s : State) : (drainOnce s).env.edges = s.env.edges := by
  obtain ⟨n, e, hu, _, b, c⟩ :=
    ((busRead_draw (.irqStatus 0) s).trans (busRead_draw (.irqStatus 1) _)).trans (busRead_draw (.irqStatus 2) _)
  unfold drainOnce
  simp only [State.setPending_env, hu, c]

/-- The ISR agent's own drain uses no edge. -/
theorem drainLoop_edges (n : Nat) (s : State) :
    Run.post (drainLoop .ok n s) (fun t => t.env.edges = s.env.edges) (fun t => t.env.edges = s.env.edges) := by
  induction n generalizing s with
  | zero => unfold drainLoop; split <;> rfl
  | succ n ih =>
    unfold drainLoop
    split
    · split <;> rfl
    · rfl
    · rename_i rest _
      have hd : (drainOnce (setLine rest s)).env.edges = s.env.edges := drainOnce_edges _
      exact Run.post_mono (ih (drainOnce (setLine rest s))) (fun _ h => h.trans hd) (fun _ h => h.trans hd)

theorem isrBody_edges (s : State) :
    Run.post (isrBody s) (fun t => t.env.edges = s.env.edges) (fun t => t.env.edges = s.env.edges) := by
  unfold isrBody
  rw [Run.post_bind]
  refine Run.post_mono (drainLoop_edges _ s) (fun t h => ?_) (fun _ h => h)
  split <;> exact h

theorem isrLoop_post (l : List Bool) (s : State) (hl : l.length ≤ s.env.edges.length) :
    Run.post (isrLoop l s) (AggStep s) (AggStep s) := by
  have one : ∀ (r : List Bool) (s : State), r.length ≤ s.env.edges.length → AggStep s (setEdges r s) := by
    intro r s hr
    refine ⟨⟨s.irq.pending, [], { s.env with edges := r }, rfl, rfl, hr⟩, ?_, ?_, rfl⟩
    · ext i hi; simp [setEdges]
    · ext i hi
      simp only [setEdges, State.setEnv_irq, BitVec.getElem_and, BitVec.getElem_not, BitVec.getElem_or]
      cases s.irq.pending[i] <;> simp
  induction l generalizing s with
  | nil => exact one [] s (Nat.zero_le _)
  | cons b l ih =>
    simp only [List.length_cons] at hl
    cases b with
    | false => exact one l s (by omega)
    | true =>
      unfold isrLoop
      rw [Run.post_bind]
      match hb : isrBody s with
      | .ok t =>
        have h := isrBody_post s
        have he := isrBody_edges s
        rw [hb] at h he
        simp only [Run.post_ok] at h he ⊢
        exact Run.post_mono (ih t (by rw [he]; omega)) (fun _ h' => h.trans h') (fun _ h' => h.trans h')
      | .error (.hang t) =>
        have h := isrBody_post s
        rw [hb] at h
        exact h
      | .error (.fault f) => exact trivial

/-- All an ISR point can do (20 R70). -/
theorem isrPoint_post (s : State) : Run.post (isrPoint s) (AggStep s) (AggStep s) := by
  unfold isrPoint
  split
  · exact AggStep.refl s
  · exact isrLoop_post _ s (le_refl _)

/-- All a drain of a Host command can do, whether or not it ends, the ISR runs inside it included. -/
theorem drain_post (s : State) : Run.post (drain s) (AggStep s) (AggStep s) := drainLoop_post isrPoint_post _ s

/-- In build POLLED, and with no edge to deliver, an ISR point does nothing. -/
theorem isrPoint_quiet (s : State) (h : s.params.irqBuild = .polled ∨ s.env.edges = []) :
    isrPoint s = .ok s := by
  unfold isrPoint
  split
  · rfl
  · rename_i hb
    obtain h | h := h
    · rw [hb] at h; cases h
    · rw [h]; simp only [isrLoop, setEdges, ← h]; rfl

/-- The engine's consuming read: an ISR point, then one atomic fetch-and-clear. -/
theorem engineGet_post (mask : Word) (s : State) :
    Run.post (engineGet mask s) (fun r => ∃ t, AggStep s t ∧ r = getIrq mask t) (AggStep s) := by
  unfold engineGet
  rw [Run.post_bind]
  exact Run.post_mono (isrPoint_post s) (fun t h => ⟨t, h, rfl⟩) (fun _ h => h)

theorem engineGet_quiet (mask : Word) (s : State) (h : s.params.irqBuild = .polled ∨ s.env.edges = []) :
    engineGet mask s = .ok (getIrq mask s) := by
  simp [engineGet, isrPoint_quiet s h]

theorem engineEnable_post (mask : Word) (s : State) :
    Run.post (engineEnable mask s) (fun r => ∃ t, AggStep s t ∧ r = irqEnable mask t) (AggStep s) := by
  unfold engineEnable
  rw [Run.post_bind]
  exact Run.post_mono (isrPoint_post s) (fun t h => ⟨t, h, rfl⟩) (fun _ h => h)

theorem engineDisable_post (mask : Word) (s : State) :
    Run.post (engineDisable mask s) (fun r => ∃ t, AggStep s t ∧ r = irqDisable mask t) (AggStep s) := by
  unfold engineDisable
  rw [Run.post_bind]
  exact Run.post_mono (isrPoint_post s) (fun t h => ⟨t, h, rfl⟩) (fun _ h => h)

/-! ## Mask registers -/

theorem HwMask.get_set (m : HwMask) (k j : Fin 3) (v : Byte) :
    (m.set k v).get j = if j = k then v else m.get j := by
  fin_cases k <;> fin_cases j <;> rfl

/-- A mask register write changes the record of that register and the trace, and nothing where the record
already has the value (40 R101). -/
theorem syncMask_cases (k : Fin 3) (mk : Byte) (s : State) :
    (mk = s.hwMask.get k ∧ syncMask k mk s = s) ∨
    (mk ≠ s.hwMask.get k ∧ syncMask k mk s =
      { s with hwMask := s.hwMask.set k mk, trace := .regWrite (.irqMask k) (.byte mk) :: s.trace }) := by
  by_cases h : mk = s.hwMask.get k
  · exact .inl ⟨h, by simp [syncMask, h]⟩
  · exact .inr ⟨h, by simp [syncMask, h, busWrite, State.log, State.setHwMask]⟩

/-- The enable mask replaced: the record mirrors it, and only `enabled`, the record and the trace change. -/
theorem setEnableMask_spec (new : Word) (s : State) :
    ∃ m ev, setEnableMask new s =
      { s with irq := { s.irq with enabled := new }, hwMask := m, trace := ev ++ s.trace } ∧
      ∀ k : Fin 3, m.get k = maskByte new k := by
  have one : ∀ (k : Fin 3) (mk : Byte) (s : State), ∃ m ev,
      syncMask k mk s = { s with hwMask := m, trace := ev ++ s.trace } ∧ m.get k = mk ∧
        ∀ j, j ≠ k → m.get j = s.hwMask.get j := by
    intro k mk s
    obtain ⟨h, e⟩ | ⟨h, e⟩ := syncMask_cases k mk s
    · exact ⟨s.hwMask, [], by rw [e]; rfl, h.symm, fun _ _ => rfl⟩
    · exact ⟨_, [.regWrite (.irqMask k) (.byte mk)], by rw [e]; rfl, by simp [HwMask.get_set],
        fun j hj => by simp [HwMask.get_set, hj]⟩
  obtain ⟨m0, e0, h0, a0, b0⟩ := one 0 (maskByte new 0) s
  obtain ⟨m1, e1, h1, a1, b1⟩ := one 1 (maskByte new 1) (syncMask 0 (maskByte new 0) s)
  obtain ⟨m2, e2, h2, a2, b2⟩ := one 2 (maskByte new 2) (syncMask 1 (maskByte new 1) (syncMask 0 (maskByte new 0) s))
  refine ⟨m2, e2 ++ (e1 ++ e0), ?_, ?_⟩
  · unfold setEnableMask
    rw [h2, h1, h0]
    simp [State.setEnabled]
  · intro k
    fin_cases k
    · show m2.get 0 = maskByte new 0
      rw [b2 0 (by decide), h1]
      show m1.get 0 = _
      rw [b1 0 (by decide), h0]
      exact a0
    · show m2.get 1 = maskByte new 1
      rw [b2 1 (by decide), h1]
      exact a1
    · exact a2

end Sys2Proof.Machine
end

