-- ==== Sys2Proof/Laws/Effects.lean ====
section
/-! SUPPORT. The shared operations as the record updates of Safety.lean: the enable mask, the terminal
cleanup, an accepted start, a drain that ends, the FIFO status cache. -/

namespace Sys2Proof.Machine

/-! ## The enable mask -/

/-- Replacing the enable mask leaves the record mirroring it and writes the changed bytes, 0 first. -/
theorem setEnableMask_eq (new : Word) (s : State) :
    setEnableMask new s = { s with
      irq := { s.irq with enabled := new }, hwMask := masksOf new
      trace := maskEvents s.hwMask new ++ s.trace } := by
  by_cases h0 : maskByte new 0 = s.hwMask.m0 <;> by_cases h1 : maskByte new 1 = s.hwMask.m1 <;>
    by_cases h2 : maskByte new 2 = s.hwMask.m2 <;>
    simp [setEnableMask, syncMask, HwMask.get, HwMask.set, maskEvents, maskEvent, masksOf, busWrite,
      State.log, State.setHwMask, State.setEnabled, h0, h1, h2]

/-- A mask that changes no byte writes nothing. -/
theorem maskEvents_masksOf (new : Word) : maskEvents (masksOf new) new = [] := by
  simp [maskEvents, maskEvent, masksOf]

theorem masksOf_get (w : Word) (k : Fin 3) : (masksOf w).get k = maskByte w k := by
  fin_cases k <;> rfl

/-! ## Points of the ISR agent without an edge -/

theorem isrPoint_noEdges {s : State} (h : noEdges s) : isrPoint s = .ok s := isrPoint_quiet s h

@[simp] theorem engineGet_noEdges {s : State} (mask : Word) (h : noEdges s) :
    engineGet mask s = .ok (getIrq mask s) := engineGet_quiet mask s h

@[simp] theorem engineEnable_noEdges {s : State} (mask : Word) (h : noEdges s) :
    engineEnable mask s = .ok (irqEnable mask s) := by
  simp [engineEnable, isrPoint_noEdges h]

@[simp] theorem engineDisable_noEdges {s : State} (mask : Word) (h : noEdges s) :
    engineDisable mask s = .ok (irqDisable mask s) := by
  simp [engineDisable, isrPoint_noEdges h]

/-- `noEdges` looks at the build and the edge script alone. -/
theorem noEdges_congr {s t : State} (h : noEdges s) (hp : t.params = s.params)
    (he : t.env.edges = s.env.edges) : noEdges t := by
  unfold noEdges at *; rw [hp, he]; exact h

theorem quiet_noEdges {s : State} (h : quiet s = true) : noEdges s := by
  unfold quiet at h
  unfold noEdges
  cases hb : s.params.irqBuild
  · rw [hb] at h; exact .inr (by simpa using h)
  · exact .inl rfl

/-! ## Cleanup and start -/

@[simp] theorem obsOff_params (s : State) : (obsOff s).params = s.params := by unfold obsOff; split <;> rfl
@[simp] theorem obsOff_env (s : State) : (obsOff s).env = s.env := by unfold obsOff; split <;> rfl
@[simp] theorem setFrameCfg_params (c : Cfg) (s : State) : (setFrameCfg c s).params = s.params := rfl
@[simp] theorem setFrameCfg_env (c : Cfg) (s : State) : (setFrameCfg c s).env = s.env := rfl

/-- 44 R197 with no ISR edge. -/
theorem exchangeEnd_noEdges {s : State} (h : noEdges s) : exchangeEnd s = .ok (cleanedUp s) := by
  have hq : ∀ t : State, t.params = s.params → t.env = s.env → noEdges t := fun t a b =>
    noEdges_congr h a (by rw [b])
  dsimp only [exchangeEnd]
  rw [engineDisable_noEdges _ (hq _ (by simp) (by simp))]
  have ho : obsOff s = { s with
      obs := { s.obs with active := false }
      trace := (if s.obs.active then [.cmd .obsOff] else []) ++ s.trace } := by
    obtain ⟨lifecycle, mode, txBR, rxBR, fdtPoll, fdtListen, gt, fieldOn, gtTimer, txrxState, status, ctx, fifo,
      fifoStatus, irq, hwMask, nrt, gptPreload, cfg, ⟨configured, active⟩, cb, emd, mem, clockMs, port,
      response, running, trace, env, params⟩ := s
    cases active <;> rfl
  cases hp : s.cb.post <;>
    simp [ho, hp, irqDisable, setEnableMask_eq, setFrameCfg, writeFrameCfg, busWrite,
      State.log, State.setCfg, State.setTxrx, State.setLifecycle, emitCallback, cleanedUp, callbackEvents]

theorem emitCallback_eq (cb : Option Byte) (mk : Byte → Event) (s : State) :
    emitCallback cb mk s = { s with trace := callbackEvents cb mk ++ s.trace } := by
  cases cb <;> rfl

/-- 41 R130 as one update. -/
theorem programNrt_eq (s : State) :
    programNrt s = { s with
      nrt := nrtFor s.params s.mode s.ctx.fwt
      trace := nrtEvents s.ctx.fwt (nrtFor s.params s.mode s.ctx.fwt) ++ s.trace } := by
  dsimp only [programNrt, nrtEvents]
  split
  · rfl
  · cases hs : (nrtFor s.params s.mode s.ctx.fwt).step <;>
      simp [busWrite16, busWrite, State.log, State.setNrt]

/-- 44 R170 past its checks, with no ISR edge. -/
theorem startAccepted_noEdges (c : Ctx) {s : State} (h : noEdges s) :
    startAccepted c s = .ok (started c s) := by
  have hq : ∀ t : State, t.params = s.params → t.env = s.env → noEdges t := fun t a b =>
    noEdges_congr h a (by rw [b])
  have hp : startProgram c s = { s with
      ctx := c, cfg := flagCfg s.params s.mode c.flags s.cfg.collDetect
      nrt := nrtFor s.params s.mode c.fwt, gptPreload := gptFor s.params s.mode s.fdtPoll
      trace := [.regWrite16 .gpt (gptFor s.params s.mode s.fdtPoll)]
        ++ nrtEvents c.fwt (nrtFor s.params s.mode c.fwt)
        ++ [.regWrite .frameCfg (.frameCfg (flagCfg s.params s.mode c.flags s.cfg.collDetect))]
        ++ callbackEvents s.cb.pre .preCallback ++ s.trace } := by
    dsimp only [startProgram]
    rw [emitCallback_eq, programNrt_eq]
    simp [programGpt, busWrite16, busWrite, State.log, State.setGptPreload, setFrameCfg, writeFrameCfg,
      State.setCfg, State.setCtx]
  dsimp only [startAccepted]
  rw [engineGet_noEdges _ (hq _ (by rw [hp]; rfl) (by rw [hp]; rfl))]
  dsimp only [Run.ok_bind, getIrq]
  rw [engineEnable_noEdges _ (hq _ (by rw [hp]; rfl) (by rw [hp]; rfl))]
  simp [hp, irqEnable, setEnableMask_eq, started, State.setTxrx, State.setLifecycle, State.setStatus,
    State.setPending]

/-! ## The drain -/

theorem setLine_setLine (a b : List Bool) (s : State) : setLine a (setLine b s) = setLine a s := rfl

theorem drainBits_cons (r : Byte × Byte × Byte) (l : List (Byte × Byte × Byte)) :
    drainBits (r :: l) = drainBits [r] ||| drainBits l := by simp [drainBits]

theorem drainEvents_cons (r : Byte × Byte × Byte) (l : List (Byte × Byte × Byte)) :
    drainEvents (r :: l) = drainEvents l ++ drainEvents [r] := rfl

/-- One drain iteration with scripted draws (40 R103, R104, 41 R131). -/
theorem drainOnce_script {b0 b1 b2 : Byte} {regs : List Byte} {s : State}
    (hr : s.env.regs = b0 :: b1 :: b2 :: regs) :
    drainOnce s = { s with
      irq := { s.irq with pending := s.irq.pending ||| (drainBits [shown s (b0, b1, b2)] &&& s.irq.enabled) }
      env := { s.env with regs }
      trace := drainEvents [shown s (b0, b1, b2)] ++ s.trace } := by
  have read : ∀ (k : Fin 3) (b : Byte) (regs : List Byte) (t : State), t.env.regs = b :: regs →
      chipAnswer t = chipAnswer s →
      busRead (.irqStatus k) t = (chipAnswer s (.irqStatus k) b,
        { t with env := { t.env with regs }
                 trace := .regRead (.irqStatus k) (chipAnswer s (.irqStatus k) b) :: t.trace }) := by
    intro k b regs t h h'
    simp [busRead, Env.takeReg, h, h', State.setEnv, State.log]
  have hs : shown s (b0, b1, b2) = (chipAnswer s (.irqStatus 0) b0, chipAnswer s (.irqStatus 1) b1,
      chipAnswer s (.irqStatus 2) b2) := by
    unfold shown
    simp only [chipAnswer, nrtOff, bne_iff_ne, ne_eq, Bool.and_eq_true, beq_iff_eq]
    split <;> rfl
  dsimp only [drainOnce]
  rw [read 0 b0 _ s hr rfl]
  dsimp only
  rw [read 1 b1 (b2 :: regs) _ (by exact rfl) (by exact rfl)]
  dsimp only
  rw [read 2 b2 regs _ (by exact rfl) (by exact rfl), hs]
  simp [drainBits, drainEvents, rawStatus, State.setPending]

/-- A drain whose points do nothing here, over scripted samples and answers. -/
theorem drainLoop_script (point : State → Run State) (line : List Bool) (regs : List Byte) (n : Nat) :
    ∀ (reads : List (Byte × Byte × Byte)) (s : State), drainScript reads line regs s →
      (∀ t : State, t.params = s.params → t.env.edges = s.env.edges → point t = .ok t) →
      drainLoop point (reads.length + 1 + n) s = .ok (drained reads line regs s) := by
  intro reads
  induction reads with
  | nil =>
    rintro s ⟨hl, hr⟩ _
    simp only [List.flatMap_nil, List.nil_append, List.map_nil] at hr hl
    rw [show ([] : List (Byte × Byte × Byte)).length + 1 + n = n + 1 by simp; omega]
    simp [drainLoop, hl, setLine, drained, drainBits, drainEvents, State.setEnv, ← hr]
  | cons r reads ih =>
    obtain ⟨b0, b1, b2⟩ := r
    rintro s ⟨hl, hr⟩ hp
    simp only [List.flatMap_cons, List.cons_append, List.nil_append, List.map_cons] at hr hl
    rw [show ((b0, b1, b2) :: reads).length + 1 + n = (reads.length + 1 + n) + 1 by simp; omega]
    simp only [drainLoop, hl]
    rw [hp (setLine (reads.map (fun _ => true) ++ false :: line) s) rfl rfl]
    simp only [Run.ok_bind]
    have hr' : (setLine (reads.map (fun _ => true) ++ false :: line) s).env.regs = _ := hr
    rw [drainOnce_script hr']
    refine (ih _ (by exact ⟨rfl, rfl⟩) (by exact fun t a b => hp t a b)).trans ?_
    have hw : ∀ r q : Word, s.irq.pending ||| (r &&& s.irq.enabled) ||| (q &&& s.irq.enabled)
        = s.irq.pending ||| ((r ||| q) &&& s.irq.enabled) := by
      intro r q
      ext i hi
      simp only [BitVec.getElem_or, BitVec.getElem_and]
      cases s.irq.pending[i] <;> cases s.irq.enabled[i] <;> simp
    simp only [setLine, State.setEnv, drained, List.map_cons, hw]
    rw [drainBits_cons (shown s (b0, b1, b2)), drainEvents_cons (shown s (b0, b1, b2)), List.append_assoc]
    rfl

/-- A drain whose samples and answers are scripted, and whose line then reads low (40 R104). -/
theorem drainWith_script {point : State → Run State} {reads : List (Byte × Byte × Byte)} {line : List Bool}
    {regs : List Byte} {s : State} (h : drainScript reads line regs s)
    (hp : ∀ t : State, t.params = s.params → t.env.edges = s.env.edges → point t = .ok t) :
    drainWith point s = .ok (drained reads line regs s) := by
  have hl : s.env.line.length = reads.length + 1 + line.length := by
    rw [h.1]; simp; omega
  unfold drainWith
  rw [hl]
  exact drainLoop_script point line regs line.length reads s h hp

/-- A Host command's drain, with no ISR edge. -/
theorem drain_script {reads : List (Byte × Byte × Byte)} {line : List Bool} {regs : List Byte} {s : State}
    (h : drainScript reads line regs s) (hq : noEdges s) : drain s = .ok (drained reads line regs s) :=
  drainWith_script h (fun _ a b => isrPoint_noEdges (noEdges_congr hq a b))

/-- The ISR agent's drain, whatever edges are scripted. -/
theorem isrDrain_script {reads : List (Byte × Byte × Byte)} {line : List Bool} {regs : List Byte} {s : State}
    (h : drainScript reads line regs s) : drainWith .ok s = .ok (drained reads line regs s) :=
  drainWith_script h (fun _ _ _ => rfl)

/-! ## The FIFO status cache -/

/-- A cache just fetched is not fetched again. -/
theorem refreshed_valid (t : State) : (refreshed t).fifoStatus.valid = true := by
  unfold refreshed; split
  · assumption
  · rfl

theorem refreshed_of_valid {t : State} (h : t.fifoStatus.valid = true) : refreshed t = t := by
  simp [refreshed, h]

theorem refreshed_params (t : State) : (refreshed t).params = t.params := by unfold refreshed; split <;> rfl

/-- 43 R161: the fetch of an invalid cache. -/
theorem fetchFifoStatus_eq {s : State} (h : s.fifoStatus.valid = false) : fetchFifoStatus s = refreshed s := by
  simp [fetchFifoStatus, refreshed, h, busRead, chipAnswer, State.setEnv, State.log, State.setFifoStatus]

/-- 43 R161, where the count is in range. -/
theorem fsUpdate_inRange {s : State} (h : fifoInRange s) : fsUpdate s = .ok (refreshed s) := by
  obtain ⟨hv, e⟩ | ⟨hv, _, e⟩ | ⟨hv, hc, e⟩ := fsUpdate_cases s
  · rw [e, refreshed_of_valid hv]
  · rw [e, fetchFifoStatus_eq hv]
  · obtain h | h := h
    · rw [h] at hv; cases hv
    · rw [fetchFifoStatus_eq hv] at hc
      unfold fifoCount at hc
      rw [refreshed_params] at hc
      omega

/-- 20 R67: a count draw above FIFO_DEPTH. -/
theorem fsUpdate_faults {s : State} (hv : s.fifoStatus.valid = false)
    (hc : s.params.fifoDepth < numBytes s.params (refreshed s).fifoStatus) :
    fsUpdate s = .error (.fault .chipRange) := by
  obtain ⟨h, _⟩ | ⟨_, h, _⟩ | ⟨_, _, e⟩ := fsUpdate_cases s
  · rw [h] at hv; cases hv
  · rw [fetchFifoStatus_eq hv] at h
    unfold fifoCount at h
    rw [refreshed_params] at h
    omega
  · exact e

end Sys2Proof.Machine
end

