-- ==== Sys2Proof/Laws/Engine.lean ====
section
/-! SUPPORT. What the state actions of a tick can do, said once: `EngineStep` holds from the state before any
action, of any tick, to every state it can reach, a drain that never ends included. -/

namespace Sys2Proof.Machine

/-- What any part of a tick does to the state: the engine's frame, a longer trace, a clock that does not go
back, receive memory alone written and kept canonical, no new ISR edge. -/
structure EngineStep (s t : State) : Prop where
  frame : EngineFrame s t
  trace : s.trace <:+ t.trace
  clock : s.clockMs ≤ t.clockMs
  extent : ∀ a, Memory.load t.mem a ≠ Memory.load s.mem a →
    inExtent s.ctx.rxBuf s.ctx.capBytes a ∨ inExtent s.ctx.rxRcvdLen 2 a
  wf : Memory.wf s.mem = true → Memory.wf t.mem = true
  edges : t.env.edges.length ≤ s.env.edges.length

theorem EngineFrame.refl (s : State) : EngineFrame s s := by constructor <;> rfl

theorem EngineFrame.trans {s t u : State} (h : EngineFrame s t) (h' : EngineFrame t u) : EngineFrame s u := by
  constructor
  · exact h'.mode.trans h.mode
  · exact h'.txBR.trans h.txBR
  · exact h'.rxBR.trans h.rxBR
  · exact h'.fdtPoll.trans h.fdtPoll
  · exact h'.fdtListen.trans h.fdtListen
  · exact h'.gt.trans h.gt
  · exact h'.fieldOn.trans h.fieldOn
  · exact h'.ctx.trans h.ctx
  · exact h'.nrt.trans h.nrt
  · exact h'.gptPreload.trans h.gptPreload
  · exact h'.irqCallback.trans h.irqCallback
  · exact h'.collDetect.trans h.collDetect
  · exact h'.obsConfigured.trans h.obsConfigured
  · exact h'.cb.trans h.cb
  · exact h'.emd.trans h.emd
  · exact h'.port.trans h.port
  · exact h'.params.trans h.params

namespace EngineStep

theorem refl (s : State) : EngineStep s s :=
  ⟨.refl s, List.suffix_refl _, le_refl _, fun _ h => absurd rfl h, id, le_refl _⟩

theorem trans {s t u : State} (h : EngineStep s t) (h' : EngineStep t u) : EngineStep s u where
  frame := h.frame.trans h'.frame
  trace := h.trace.trans h'.trace
  clock := h.clock.trans h'.clock
  extent a ha := by
    by_cases e : Memory.load t.mem a = Memory.load s.mem a
    · have := h'.extent a (by rw [e]; exact ha)
      rw [h.frame.ctx] at this
      exact this
    · exact h.extent a e
  wf hm := h'.wf (h.wf hm)
  edges := h'.edges.trans h.edges

/-- A change of the fields a tick may write, memory apart. -/
theorem light {s t : State} (hf : EngineFrame s t) (hm : t.mem = s.mem) (ht : s.trace <:+ t.trace)
    (hc : s.clockMs ≤ t.clockMs) (he : t.env.edges.length ≤ s.env.edges.length) : EngineStep s t :=
  ⟨hf, ht, hc, fun a h => absurd (by rw [hm]) h, fun h => by rw [hm]; exact h, he⟩

/-- A change of the fields a tick may write that leaves memory, trace, clock and environment alone. -/
theorem plain {s t : State} (hf : EngineFrame s t) (hm : t.mem = s.mem) (ht : t.trace = s.trace)
    (hc : t.clockMs = s.clockMs) (he : t.env = s.env) : EngineStep s t :=
  light hf hm (by rw [ht]) (by rw [hc]) (by rw [he])

theorem of_agg {s t : State} (h : AggStep s t) : EngineStep s t := by
  obtain ⟨⟨p, n, e, rfl, _, he⟩, _, _, _⟩ := h
  exact light (by constructor <;> rfl) rfl (List.suffix_append _ _) (le_refl _) he

theorem of_draw {s t : State} (h : DrawStep s t) : EngineStep s t := of_agg (.of_draw h)

variable (s : State)

theorem setTxrx (v : TxrxState) : EngineStep s (s.setTxrx v) := plain (by constructor <;> rfl) rfl rfl rfl rfl
theorem setStatus (v : Status) : EngineStep s (s.setStatus v) := plain (by constructor <;> rfl) rfl rfl rfl rfl
theorem setLifecycle (v : Lifecycle) : EngineStep s (s.setLifecycle v) :=
  plain (by constructor <;> rfl) rfl rfl rfl rfl
theorem setFifo (a b : Nat) : EngineStep s (s.setFifo a b) := plain (by constructor <;> rfl) rfl rfl rfl rfl
theorem setFifoStatus (v : FifoStatus) : EngineStep s (s.setFifoStatus v) :=
  plain (by constructor <;> rfl) rfl rfl rfl rfl
theorem setPending (v : Word) : EngineStep s (s.setPending v) := plain (by constructor <;> rfl) rfl rfl rfl rfl
theorem setGtTimer (v : GtTimer) : EngineStep s (s.setGtTimer v) :=
  plain (by constructor <;> rfl) rfl rfl rfl rfl
theorem fsClear : EngineStep s (fsClear s) := setFifoStatus s _
theorem gtDisarm : EngineStep s (gtDisarm s) := setGtTimer s _
theorem log (e : Event) : EngineStep s (s.log e) :=
  light (by constructor <;> rfl) rfl (List.suffix_cons _ _) (le_refl _) (le_refl _)

theorem getIrq (mask : Word) : EngineStep s (getIrq mask s).2 := setPending s _

theorem setFrameCfg (c : Cfg) (h : c.collDetect = s.cfg.collDetect) : EngineStep s (setFrameCfg c s) :=
  light (by constructor <;> first | rfl | exact h) rfl (List.suffix_cons _ _) (le_refl _) (le_refl _)

theorem obsOff : EngineStep s (obsOff s) := by
  unfold Machine.obsOff
  split
  · exact light (by constructor <;> rfl) rfl (List.suffix_cons _ _) (le_refl _) (le_refl _)
  · exact refl s

theorem obsOn : EngineStep s (obsOn s) := by
  unfold Machine.obsOn
  split
  · exact light (by constructor <;> rfl) rfl (List.suffix_cons _ _) (le_refl _) (le_refl _)
  · exact refl s

theorem setEnableMask (w : Word) : EngineStep s (setEnableMask w s) := by
  rw [setEnableMask_eq]
  exact light (by constructor <;> rfl) rfl (List.suffix_append _ _) (le_refl _) (le_refl _)

theorem emitCallback (cb : Option Byte) (mk : Byte → Event) : EngineStep s (emitCallback cb mk s) := by
  rw [emitCallback_eq]
  exact light (by constructor <;> rfl) rfl (List.suffix_append _ _) (le_refl _) (le_refl _)

theorem failStatus : EngineStep s (failStatus s) := by
  unfold Machine.failStatus
  split
  · exact setStatus s _
  · exact refl s

theorem readClock : EngineStep s (readClock s).2 := by
  obtain ⟨n, e, h, _, _, he⟩ := readClock_eq s
  rw [h]
  exact light (by constructor <;> rfl) rfl (List.suffix_refl _) (Nat.le_add_right _ _)
    (by show e.edges.length ≤ _; rw [he])

theorem fetchFifoStatus : EngineStep s (fetchFifoStatus s) := by
  obtain ⟨u, f, hd, _, h⟩ := fetchFifoStatus_spec s
  rw [h]; exact (of_draw hd).trans (setFifoStatus u f)

theorem fifoWrite (bytes : List Byte) : EngineStep s (fifoWrite bytes s).2 := by
  unfold Machine.fifoWrite
  split
  · exact log s _
  · exact refl s

theorem fifoRead (n : Nat) : EngineStep s (fifoRead n s).2.2 := by
  obtain ⟨_, _, _, h, _⟩ | ⟨_, h⟩ := fifoRead_cases n s
  · exact of_draw h
  · rw [h]; exact refl s

end EngineStep

/-! ## Post-conditions of the parts of a tick -/

/-- From `s`, the computation reaches only states an `EngineStep` away. -/
abbrev EnginePost (s : State) (r : Run State) : Prop := Run.post r (EngineStep s) (EngineStep s)

/-- The same for an action, whose value is a flow and a state. -/
abbrev ActionPost (s : State) (r : Run (Flow × State)) : Prop :=
  Run.post r (fun p => EngineStep s p.2) (EngineStep s)

theorem EnginePost.from {s t : State} {r : Run State} (h : EngineStep s t) (hr : EnginePost t r) :
    EnginePost s r := Run.post_mono hr (fun _ => h.trans) (fun _ => h.trans)

theorem ActionPost.from {s t : State} {r : Run (Flow × State)} (h : EngineStep s t) (hr : ActionPost t r) :
    ActionPost s r := Run.post_mono hr (fun _ => h.trans) (fun _ => h.trans)

/-- An action that first runs `m`: what follows is judged from the states `m` reaches. -/
theorem ActionPost.bind {s : State} {α : Type} {m : Run α} {f : α → Run (Flow × State)} {st : α → State}
    (hm : Run.post m (fun a => EngineStep s (st a)) (EngineStep s)) (hf : ∀ a, ActionPost (st a) (f a)) :
    ActionPost s (m >>= f) := by
  show Run.post _ _ _
  rw [Run.post_bind]
  exact Run.post_mono hm (fun a h => ActionPost.from h (hf a)) (fun _ h => h)

theorem EnginePost.bind {s : State} {α : Type} {m : Run α} {f : α → Run State} {st : α → State}
    (hm : Run.post m (fun a => EngineStep s (st a)) (EngineStep s)) (hf : ∀ a, EnginePost (st a) (f a)) :
    EnginePost s (m >>= f) := by
  show Run.post _ _ _
  rw [Run.post_bind]
  exact Run.post_mono hm (fun a h => EnginePost.from h (hf a)) (fun _ h => h)

theorem engineGet_engine (mask : Word) (s : State) :
    Run.post (engineGet mask s) (fun r => EngineStep s r.2) (EngineStep s) :=
  Run.post_mono (engineGet_post mask s)
    (fun _ ⟨t, h, hr⟩ => hr ▸ (EngineStep.of_agg h).trans (EngineStep.getIrq t mask))
    (fun _ => EngineStep.of_agg)

theorem engineDisable_engine (mask : Word) (s : State) : EnginePost s (engineDisable mask s) :=
  Run.post_mono (engineDisable_post mask s)
    (fun _ ⟨t, h, hr⟩ => hr ▸ (EngineStep.of_agg h).trans (EngineStep.setEnableMask t _))
    (fun _ => EngineStep.of_agg)

theorem fsUpdate_engine (s : State) : EnginePost s (fsUpdate s) := by
  obtain ⟨_, h⟩ | ⟨_, _, h⟩ | ⟨_, _, h⟩ := fsUpdate_cases s <;> rw [h]
  · exact EngineStep.refl s
  · exact EngineStep.fetchFifoStatus s
  · exact trivial

theorem memRead_engine (b : Option BufRef) (i n : Nat) (s : State) :
    Run.post (memRead b i n s) (fun _ => EngineStep s s) (EngineStep s) := by
  obtain ⟨_, h⟩ | ⟨_, _, _, _, h⟩ | ⟨_, _, h⟩ := memRead_cases b i n s <;> rw [h]
  · exact EngineStep.refl s
  · exact EngineStep.refl s
  · exact trivial

/-- A write into the receive buffer that stays below its capacity. -/
theorem memWrite_engine (i : Nat) (bytes : List Byte) (s : State)
    (hi : bytes = [] ∨ i + bytes.length ≤ s.ctx.capBytes) :
    EnginePost s (memWrite s.ctx.rxBuf i bytes s) := by
  refine Run.post_mono (memWrite_post s.ctx.rxBuf i bytes s (EngineStep s)) ?_ (fun _ h => h)
  rintro t ⟨m, rfl, hw, hm⟩
  refine ⟨by constructor <;> rfl, List.suffix_refl _, le_refl _, fun a ha => ?_, hw, le_refl _⟩
  by_contra hc
  refine ha (hm a (fun b j hb h1 h2 he => hc (.inl ⟨b, hb, j, ?_, he⟩)))
  obtain rfl | hi := hi
  · simp at h2; omega
  · omega

theorem memWrite16_engine (v : Half) (s : State) : EnginePost s (memWrite16 s.ctx.rxRcvdLen v s) := by
  refine Run.post_mono (memWrite16_post s.ctx.rxRcvdLen v s (EngineStep s)) ?_ (fun _ h => h)
  rintro t ⟨m, rfl, hw, hm⟩
  refine ⟨by constructor <;> rfl, List.suffix_refl _, le_refl _, fun a ha => ?_, hw, le_refl _⟩
  by_contra hc
  exact ha (hm a (fun b j hb hj he => hc (.inr ⟨b, hb, j, hj, he⟩)))

theorem exchangeEnd_engine (s : State) : EnginePost s (exchangeEnd s) := by
  have h := (EngineStep.obsOff s).trans (EngineStep.setFrameCfg (obsOff s)
    { modeDefaults (obsOff s).params (obsOff s).mode with collDetect := (obsOff s).cfg.collDetect } rfl)
  refine EnginePost.bind (st := id) (EnginePost.from h (engineDisable_engine _ _)) (fun t => ?_)
  exact ((EngineStep.emitCallback t _ _).trans (EngineStep.setTxrx _ _)).trans (EngineStep.setLifecycle _ _)

theorem goTo_engine (n : TxrxState) (s : State) : ActionPost s (goTo n s) := EngineStep.setTxrx s n

theorem yieldIn_engine (s : State) : ActionPost s (yieldIn s) := EngineStep.refl s

theorem endExchange_engine (s : State) : ActionPost s (endExchange s) :=
  ActionPost.bind (st := id) (exchangeEnd_engine s) (fun t => yieldIn_engine t)

/-! ## The actions -/

theorem txWaitGt_engine (s : State) : ActionPost s (txWaitGt s) := by
  unfold txWaitGt
  have hd : ∀ t, EngineStep s t → ActionPost s (goTo .txWaitFdt (gtDisarm t)) := fun t h =>
    ActionPost.from (h.trans (EngineStep.gtDisarm t)) (goTo_engine _ _)
  split
  · dsimp only [gtIsExpired]
    split
    · exact hd _ (EngineStep.readClock s)
    · exact ActionPost.from (EngineStep.readClock s) (yieldIn_engine _)
  · exact hd _ (EngineStep.refl s)

theorem txWaitFdt_engine (s : State) : ActionPost s (txWaitFdt s) := by
  dsimp only [txWaitFdt]
  split
  · exact ActionPost.from (.of_draw (chipStatus_draw s)) (yieldIn_engine _)
  · exact ActionPost.from (.of_draw (chipStatus_draw s)) (goTo_engine _ _)

theorem txPrepTx_engine (s : State) : ActionPost s (txPrepTx s) := by
  dsimp only [txPrepTx, busCmd, busWrite16]
  have h0 := EngineStep.log s (.cmd .resetRxGain)
  have h1 := h0.trans (EngineStep.setFifo _ s.ctx.txBytes 0)
  have h2 := (h1.trans (EngineStep.fsClear _)).trans (EngineStep.log _ (.cmd .clearFifo))
  have h3 := (h2.trans (EngineStep.fsClear _)).trans (EngineStep.log _ (.regWrite16 .numTxBytes s.ctx.txBufLen))
  refine ActionPost.from h3 (ActionPost.bind (st := fun _ => _) (memRead_engine _ _ _ _) (fun bytes => ?_))
  refine ActionPost.from ((EngineStep.fifoWrite _ bytes).trans (EngineStep.fsClear _)) ?_
  exact ActionPost.from ((EngineStep.setFifo _ _ _).trans (EngineStep.obsOn _)) (goTo_engine _ _)

theorem transmit_engine (s : State) : ActionPost s (transmit s) := by
  have h := EngineStep.log s (.cmd (if s.cfg.txCrc then .transmitWithCrc else .transmitWithoutCrc))
  refine ActionPost.from h ?_
  dsimp only [transmit, busCmd]
  by_cases hb : s.fifo.bytesWritten < s.fifo.bytesTotal
  · simp only [State.log_fifo, hb, if_true]
    exact goTo_engine _ _
  · simp only [State.log_fifo, hb, if_false]
    exact goTo_engine _ _

theorem txTransmit_engine (s : State) : ActionPost s (txTransmit s) := by
  unfold txTransmit
  split
  · exact transmit_engine s
  · dsimp only
    split
    · exact ActionPost.from (.of_draw (syncAnswer_draw s)) (transmit_engine _)
    · exact ActionPost.from (.of_draw (syncAnswer_draw s)) (yieldIn_engine _)

theorem txWaitWl_engine (s : State) : ActionPost s (txWaitWl s) := by
  refine ActionPost.bind (st := Prod.snd) (engineGet_engine _ s) (fun ⟨irq, t⟩ => ?_)
  dsimp only
  split
  · exact yieldIn_engine t
  · split
    · exact goTo_engine _ t
    · exact ActionPost.from (EngineStep.setStatus t _) (goTo_engine _ _)

theorem txReloadFifo_engine (s : State) : ActionPost s (txReloadFifo s) := by
  refine ActionPost.bind (st := fun _ => s) (memRead_engine _ _ _ s) (fun bytes => ?_)
  dsimp only
  have h := (((EngineStep.fifoWrite s bytes).trans (EngineStep.fsClear _)).trans (EngineStep.setFifo _
    (fsClear (fifoWrite bytes s).2).fifo.bytesTotal ((fsClear (fifoWrite bytes s).2).fifo.bytesWritten +
      min s.params.wlChunk (s.fifo.bytesTotal - s.fifo.bytesWritten))))
  split
  · exact ActionPost.from h (goTo_engine _ _)
  · exact ActionPost.from h (goTo_engine _ _)

theorem txWaitTxe_engine (s : State) : ActionPost s (txWaitTxe s) := by
  refine ActionPost.bind (st := Prod.snd) (engineGet_engine _ s) (fun ⟨irq, t⟩ => ?_)
  dsimp only
  split
  · exact goTo_engine _ t
  · exact yieldIn_engine t

theorem txDone_engine (s : State) : ActionPost s (txDone s) := by
  dsimp only [txDone]
  split
  · exact ActionPost.from ((EngineStep.obsOff s).trans (EngineStep.setStatus _ _)) (endExchange_engine _)
  · exact ActionPost.from (EngineStep.obsOff s) (goTo_engine _ _)

theorem txFail_engine (s : State) : ActionPost s (txFail s) :=
  ActionPost.from ((EngineStep.obsOff s).trans (EngineStep.failStatus _)) (endExchange_engine _)

theorem rxIdle_engine (s : State) : ActionPost s (rxIdle s) := by
  refine ActionPost.from ((EngineStep.setFifo s 0 0).trans (EngineStep.fsClear _)) ?_
  exact ActionPost.bind (st := id) (memWrite16_engine 0 _) (fun t => goTo_engine _ t)

theorem rxWaitRxs_engine (s : State) : ActionPost s (rxWaitRxs s) := by
  refine ActionPost.bind (st := Prod.snd) (engineGet_engine _ s) (fun ⟨irq, t⟩ => ?_)
  dsimp only
  split
  · exact yieldIn_engine t
  · split
    · exact goTo_engine _ t
    · exact ActionPost.from (EngineStep.setStatus t _) (goTo_engine _ _)

theorem rxRestart_engine (s : State) : ActionPost s (rxRestart s) := by
  refine ActionPost.bind (st := Prod.snd) (engineGet_engine _ s) (fun ⟨nre, t⟩ => ?_)
  dsimp only
  split
  · exact ActionPost.from (EngineStep.setStatus t _) (goTo_engine _ _)
  · refine ActionPost.from (.of_draw (chipStatus_draw t)) ?_
    show ActionPost _ (if _ then _ else _)
    split
    · exact ActionPost.from (EngineStep.setStatus _ _) (goTo_engine _ _)
    · refine ActionPost.bind (st := Prod.snd) (engineGet_engine _ _) (fun ⟨_, u⟩ => ?_)
      dsimp only
      refine ActionPost.from (.of_draw (chipStatus_draw u)) ?_
      split
      · exact yieldIn_engine _
      · exact ActionPost.from (EngineStep.setTxrx _ _) (yieldIn_engine _)

theorem rxWaitRxe_engine (s : State) : ActionPost s (rxWaitRxe s) := by
  refine ActionPost.bind (st := Prod.snd) (engineGet_engine _ s) (fun ⟨irq, t⟩ => ?_)
  dsimp only
  split
  · exact yieldIn_engine t
  · split
    · refine ActionPost.bind (st := Prod.snd) (engineGet_engine _ t) (fun ⟨_, u⟩ => ?_)
      exact EngineStep.setTxrx u _
    · split
      · exact rxRestart_engine t
      · exact goTo_engine _ t

/-- The first `c` bytes of a read, with `c` at most the room left, stay within the capacity. -/
theorem take_within (bytes : List Byte) (c cap i w : Nat) (h : c ≤ cap - w) (hi : i = w := by rfl) :
    bytes.take c = [] ∨ i + (bytes.take c).length ≤ cap := by
  subst hi
  by_cases h0 : c = 0
  · exact .inl (by simp [h0])
  · exact .inr (by rw [List.length_take]; omega)

theorem rxReadFifo_engine (s : State) : ActionPost s (rxReadFifo s) := by
  dsimp only [rxReadFifo]
  have h := (EngineStep.fifoRead s s.params.wlChunk).trans (EngineStep.fsClear _)
  refine ActionPost.from h ?_
  refine ActionPost.bind (st := id) (memWrite_engine _ _ _ ?_) (fun t => ?_)
  · exact take_within _ _ _ _ _ (Nat.min_le_right _ _)
  · exact (EngineStep.setFifo t _ _).trans (EngineStep.setTxrx _ _)

theorem classify_engine (errIrq : Word) (s : State) :
    Run.post (classify errIrq s) (fun r => EngineStep s r.2) (EngineStep s) := by
  unfold classify
  split
  · exact EngineStep.refl s
  · rw [Run.post_bind]
    exact Run.post_mono (fsUpdate_engine s) (fun _ h => h) (fun _ h => h)

theorem nfcaReclassify_engine (s : State) : EnginePost s (nfcaReclassify s) := by
  unfold nfcaReclassify
  split
  · refine EnginePost.bind (st := id) (fsUpdate_engine s) (fun t => ?_)
    split
    · exact EngineStep.setStatus t _
    · exact EngineStep.refl t
  · exact EngineStep.refl s

theorem emdRearm_engine (s : State) : ActionPost s (emdRearm s) := by
  refine ActionPost.from ((EngineStep.log s (.cmd .unmaskReceive)).trans (EngineStep.fsClear _)) ?_
  refine ActionPost.bind (st := Prod.snd) (engineGet_engine _ _) (fun ⟨nre, t⟩ => ?_)
  dsimp only
  split
  · exact ActionPost.from (EngineStep.setStatus t _) (goTo_engine _ _)
  · exact ((EngineStep.setStatus t _).trans (EngineStep.setFifo _ _ _)).trans (EngineStep.setTxrx _ _)

theorem emdHandling_engine (s : State) : ActionPost s (emdHandling s) := by
  unfold emdHandling
  split
  · refine ActionPost.bind (st := id) (fsUpdate_engine s) (fun t => ?_)
    dsimp only [id]
    split
    · exact emdRearm_engine t
    · exact goTo_engine _ t
  · exact goTo_engine _ s

theorem rxErrCheck_engine (errIrq : Word) (s : State) : ActionPost s (rxErrCheck errIrq s) := by
  refine ActionPost.bind (st := Prod.snd) (classify_engine errIrq s) (fun ⟨e, t⟩ => ?_)
  cases e with
  | none => exact goTo_engine _ t
  | some e =>
    refine ActionPost.from (EngineStep.setStatus t e) ?_
    exact ActionPost.bind (st := id) (nfcaReclassify_engine _) (fun u => emdHandling_engine u)

theorem readOut_engine (n : Nat) (s : State) : EngineStep s (readOut n s).2 := by
  unfold readOut
  split
  · exact EngineStep.refl s
  · exact (EngineStep.fifoRead s n).trans (EngineStep.fsClear _)

theorem rxReadData_engine (s : State) : ActionPost s (rxReadData s) := by
  refine ActionPost.bind (st := id) (fsUpdate_engine s) (fun t => ?_)
  dsimp only [id]
  refine ActionPost.from (readOut_engine (fifoCount t) t) ?_
  refine ActionPost.bind (st := id) (memWrite_engine _ _ _ ?_) (fun u => ?_)
  · exact take_within _ _ _ _ _ (Nat.min_le_right _ _)
  · dsimp only [id]
    generalize (countData _ _ _).2 = total
    generalize u.fifo.bytesWritten + _ = written
    refine ActionPost.from (EngineStep.setFifo u total written) ?_
    generalize u.setFifo total written = v
    by_cases hn : v.ctx.capBytes < v.fifo.bytesTotal ∧ v.status = .busy
    · simp only [hn, and_self, if_true]
      refine ActionPost.from (EngineStep.setStatus v .nomem) ?_
      refine ActionPost.bind (st := id) (memWrite16_engine _ _) (fun w => ?_)
      dsimp only [id]
      split <;> exact goTo_engine _ w
    · simp only [hn, if_false]
      refine ActionPost.bind (st := id) (memWrite16_engine _ _) (fun w => ?_)
      dsimp only [id]
      split <;> exact goTo_engine _ w

theorem rxDone_engine (s : State) : ActionPost s (rxDone s) :=
  ActionPost.from (EngineStep.setStatus s _) (endExchange_engine _)

theorem rxFail_engine (s : State) : ActionPost s (rxFail s) :=
  ActionPost.from (EngineStep.failStatus s) (endExchange_engine _)

theorem stateAction_engine (errIrq : Word) (s : State) : ActionPost s (stateAction errIrq s) := by
  unfold stateAction
  split
  · exact yieldIn_engine s
  · exact goTo_engine _ s
  · exact txWaitGt_engine s
  · exact txWaitFdt_engine s
  · exact txPrepTx_engine s
  · exact txTransmit_engine s
  · exact txWaitWl_engine s
  · exact txReloadFifo_engine s
  · exact txWaitTxe_engine s
  · exact txDone_engine s
  · exact txFail_engine s
  · exact rxIdle_engine s
  · exact rxWaitRxs_engine s
  · exact rxWaitRxe_engine s
  · exact rxErrCheck_engine errIrq s
  · exact rxReadData_engine s
  · exact rxReadFifo_engine s
  · exact rxDone_engine s
  · exact rxFail_engine s

theorem runActions_engine (n : Nat) (errIrq : Word) (s : State) : EnginePost s (runActions n errIrq s) := by
  induction n generalizing errIrq s with
  | zero => exact EngineStep.refl s
  | succ n ih =>
    refine EnginePost.bind (st := Prod.snd) (stateAction_engine errIrq s) (fun ⟨flow, t⟩ => ?_)
    cases flow with
    | yield => exact EngineStep.refl t
    | go e => exact ih e t

/-- All a tick does to the state, whether or not it ends. -/
theorem tick_engine (s : State) : EnginePost s (tick s) := by
  unfold tick
  dsimp only
  split
  · refine EnginePost.bind (st := id) ?_ (fun t => runActions_engine _ _ t)
    exact Run.post_mono (drain_post s) (fun _ => EngineStep.of_agg) (fun _ => EngineStep.of_agg)
  · exact runActions_engine _ _ s

/-- In a quiet environment a tick is its actions alone. -/
theorem tick_quiet {s : State} (h : quiet s = true) : tick s = runActions (tickBound s) 0 s := by
  unfold tick quiet at *
  cases hb : s.params.irqBuild
  · rfl
  · rw [hb] at h
    simp only [Bool.and_eq_true, beq_iff_eq, Bool.not_eq_true'] at h
    have : drain s = .ok s := by
      obtain ⟨h1, h2⟩ := h
      simp [drain, drainWith, drainLoop, h1, h2]
    rw [this]; rfl

/-- One action that continues the tick. -/
theorem runActions_go {n : Nat} {e e' : Word} {s t : State} (h : stateAction e s = .ok (.go e', t)) :
    runActions (n + 1) e s = runActions n e' t := by
  simp [runActions, h]

/-- One action that ends the tick. -/
theorem runActions_yield {n : Nat} {e : Word} {s t : State} (h : stateAction e s = .ok (.yield, t)) :
    runActions (n + 1) e s = .ok t := by
  simp [runActions, h]

/-- In a quiet environment WORKER is its actions, at least 32 of them if so many are needed. -/
theorem execWorker_quiet {s : State} (h : quiet s = true) :
    ∃ k, execWorker s = settle (runActions (k + 32) 0 s >>= fun t => .ok (reply t.status [] t)) :=
  ⟨2 * s.env.edges.length, by simp [execWorker, tick_quiet h, tickBound]⟩

end Sys2Proof.Machine
end

