-- ==== Sys2Proof/Laws/Actions.lean ====
section
/-! SUPPORT. Each state action of a tick as one record update, where no ISR edge comes: 44_transceive_tx.md
and 45_transceive_rx.md, state by state. A tick is read off by chaining them with `runActions_go` and
`runActions_yield`. -/

namespace Sys2Proof.Machine

variable {e : Word} {s : State}

/-! ## TX -/

theorem act_idle (h : s.txrxState = .idle) : stateAction e s = .ok (.yield, s) := by
  unfold stateAction; rw [h]; rfl

theorem act_txIdle (h : s.txrxState = .txIdle) :
    stateAction e s = .ok (.go 0, { s with txrxState := .txWaitGt }) := by
  unfold stateAction; rw [h]; rfl

theorem act_txWaitGt_waits (h : s.txrxState = .txWaitGt) (ha : s.gtTimer.armed = true)
    (ht : s.clockMs + s.env.takeElapsed.1 - s.gtTimer.startMs < s.gtTimer.durMs) :
    stateAction e s = .ok (.yield, { s with
      clockMs := s.clockMs + s.env.takeElapsed.1, env := s.env.takeElapsed.2 }) := by
  have : ¬ s.gtTimer.durMs ≤ s.clockMs + s.env.takeElapsed.1 - s.gtTimer.startMs := by omega
  rw [show stateAction e s = txWaitGt s by unfold stateAction; rw [h]]
  simp [txWaitGt, ha, gtIsExpired, readClock, State.setEnv, State.setClock, this, yieldIn, h]

theorem act_txWaitGt_expired (h : s.txrxState = .txWaitGt) (ha : s.gtTimer.armed = true)
    (ht : s.gtTimer.durMs ≤ s.clockMs + s.env.takeElapsed.1 - s.gtTimer.startMs) :
    stateAction e s = .ok (.go 0, { s with
      gtTimer := { s.gtTimer with armed := false }, txrxState := .txWaitFdt
      clockMs := s.clockMs + s.env.takeElapsed.1, env := s.env.takeElapsed.2 }) := by
  rw [show stateAction e s = txWaitGt s by unfold stateAction; rw [h]]
  simp [txWaitGt, ha, gtIsExpired, readClock, State.setEnv, State.setClock, ht, goTo, gtDisarm,
    State.setGtTimer, State.setTxrx]

theorem act_txWaitGt_clear (h : s.txrxState = .txWaitGt) (ha : s.gtTimer.armed = false) :
    stateAction e s = .ok (.go 0, { s with txrxState := .txWaitFdt }) := by
  have hg : { s.gtTimer with armed := false } = s.gtTimer := by
    cases hs : s.gtTimer; rw [hs] at ha; cases ha; rfl
  rw [show stateAction e s = txWaitGt s by unfold stateAction; rw [h]]
  simp [txWaitGt, ha, goTo, gtDisarm, State.setGtTimer, State.setTxrx, hg]

theorem act_txWaitFdt {b : Bool} {rest : List Bool} (h : s.txrxState = .txWaitFdt)
    (hc : s.env.chipBits = b :: rest) :
    stateAction e s = .ok (if b then .yield else .go 0, { s with
      txrxState := if b then .txWaitFdt else .txPrepTx, env := { s.env with chipBits := rest } }) := by
  rw [show stateAction e s = txWaitFdt s by unfold stateAction; rw [h]]
  cases b <;> simp [txWaitFdt, chipStatus, Env.takeChipBit, hc, State.setEnv, yieldIn, goTo, State.setTxrx, h]

theorem act_txPrepTx {b : BufRef} (h : s.txrxState = .txPrepTx) (hb : s.ctx.txBuf = some b)
    (hn : inBounds s.params b 0 (min s.ctx.txBytes s.params.fifoDepth) = true) :
    stateAction e s = .ok (.go 0, { s with
      fifo := { bytesTotal := s.ctx.txBytes, bytesWritten := min s.ctx.txBytes s.params.fifoDepth }
      fifoStatus := { s.fifoStatus with valid := false }
      obs := { s.obs with active := s.obs.active || s.obs.configured }
      txrxState := .txTransmit
      trace := (if s.obs.configured then [.cmd .obsOn] else [])
        ++ [.fifoWrite (bufBytes s.mem b 0 (min s.ctx.txBytes s.params.fifoDepth)),
          .regWrite16 .numTxBytes s.ctx.txBufLen, .cmd .clearFifo, .cmd .resetRxGain] ++ s.trace }) := by
  have hr : ∀ t : State, t.mem = s.mem → t.params = s.params →
      memRead (some b) 0 (min s.ctx.txBytes s.params.fifoDepth) t
        = .ok (bufBytes s.mem b 0 (min s.ctx.txBytes s.params.fifoDepth)) := by
    intro t h1 h2
    unfold memRead
    split
    · rename_i h0; rw [h0]; rfl
    · simp [h1, h2, hn]
  have ho : obsOn = fun t : State => { t with
      obs := { t.obs with active := t.obs.active || t.obs.configured }
      trace := (if t.obs.configured then [.cmd .obsOn] else []) ++ t.trace } := by
    funext t
    obtain ⟨_, _, _, _, _, _, _, _, _, _, _, _, _, _, _, _, _, _, _, ⟨configured, active⟩, _, _, _, _, _, _, _, _,
      _, _⟩ := t
    cases configured <;> cases active <;> rfl
  rw [show stateAction e s = txPrepTx s by unfold stateAction; rw [h]]
  dsimp only [txPrepTx, busCmd, busWrite16, fsClear, State.setFifo, State.log, State.setFifoStatus]
  rw [hb, hr]
  all_goals try rfl
  simp only [Run.ok_bind, ho, fifoWrite, bufBytes_length, Nat.min_le_right, if_true, goTo, State.setTxrx,
    State.log]
  simp

theorem act_txTransmit_closed {c : Byte} {rest : List Bool} (h : s.txrxState = .txTransmit)
    (hc : s.cb.sync = some c) (hs : s.env.sync = false :: rest) :
    stateAction e s = .ok (.yield, { s with env := { s.env with sync := rest } }) := by
  rw [show stateAction e s = txTransmit s by unfold stateAction; rw [h]]
  simp [txTransmit, hc, syncAnswer, Env.takeSync, hs, State.setEnv, yieldIn]

theorem transmit_eq (s : State) :
    transmit s = .ok (.go 0, { s with
      txrxState := if s.fifo.bytesWritten < s.fifo.bytesTotal then .txWaitWl else .txWaitTxe
      trace := .cmd (if s.cfg.txCrc then .transmitWithCrc else .transmitWithoutCrc) :: s.trace }) := by
  by_cases hb : s.fifo.bytesWritten < s.fifo.bytesTotal <;>
    simp [transmit, busCmd, State.log, hb, goTo, State.setTxrx]

theorem act_txTransmit (h : s.txrxState = .txTransmit) (hc : s.cb.sync = none) :
    stateAction e s = .ok (.go 0, { s with
      txrxState := if s.fifo.bytesWritten < s.fifo.bytesTotal then .txWaitWl else .txWaitTxe
      trace := .cmd (if s.cfg.txCrc then .transmitWithCrc else .transmitWithoutCrc) :: s.trace }) := by
  rw [show stateAction e s = txTransmit s by unfold stateAction; rw [h]]
  simp [txTransmit, hc, transmit_eq]

theorem act_txTransmit_open {c : Byte} {rest : List Bool} (h : s.txrxState = .txTransmit)
    (hc : s.cb.sync = some c) (hs : s.env.sync = true :: rest) :
    stateAction e s = .ok (.go 0, { s with
      env := { s.env with sync := rest }
      txrxState := if s.fifo.bytesWritten < s.fifo.bytesTotal then .txWaitWl else .txWaitTxe
      trace := .cmd (if s.cfg.txCrc then .transmitWithCrc else .transmitWithoutCrc) :: s.trace }) := by
  rw [show stateAction e s = txTransmit s by unfold stateAction; rw [h]]
  simp [txTransmit, hc, syncAnswer, Env.takeSync, hs, State.setEnv, transmit_eq]

/-- The consuming read of a wait state. -/
theorem getIrq_eq (mask : Word) (s : State) :
    getIrq mask s = (s.irq.pending &&& mask,
      { s with irq := { s.irq with pending := s.irq.pending &&& ~~~mask } }) := rfl

/-- Consuming bits none of which is pending changes nothing. -/
theorem and_not_of_and_eq_zero {a m : Word} (h : a &&& m = 0) : a &&& ~~~m = a := by
  ext i hi
  have := congrArg (fun w : Word => w[i]) h
  simp only [BitVec.getElem_and, BitVec.getElem_not] at this ⊢
  revert this
  cases a[i] <;> cases m[i] <;> simp

theorem consumed_nothing {mask : Word} (h : s.irq.pending &&& mask = 0) :
    { s with irq := { s.irq with pending := s.irq.pending &&& ~~~mask } } = s := by
  rw [and_not_of_and_eq_zero h]

theorem act_txWaitWl (h : s.txrxState = .txWaitWl) (hq : noEdges s) :
    stateAction e s =
      if s.irq.pending &&& txIrqs s.params = 0 then .ok (.yield, s)
      else if s.irq.pending &&& txIrqs s.params = irqBit s.params .fwl then
        .ok (.go 0, { s with
          irq := { s.irq with pending := s.irq.pending &&& ~~~(txIrqs s.params) }
          txrxState := .txReloadFifo })
      else .ok (.go 0, { s with
          irq := { s.irq with pending := s.irq.pending &&& ~~~(txIrqs s.params) }
          status := .io, txrxState := .txFail }) := by
  rw [show stateAction e s = txWaitWl s by unfold stateAction; rw [h]]
  simp only [txWaitWl, engineGet_noEdges _ hq, Run.ok_bind]
  show (if s.irq.pending &&& txIrqs s.params = 0 then _ else _) = _
  split
  · rename_i h0
    show Except.ok (Flow.yield, { s with irq := { s.irq with pending := s.irq.pending &&& ~~~(txIrqs s.params) } }) = _
    rw [consumed_nothing h0]
  · show (if s.irq.pending &&& txIrqs s.params = irqBit s.params .fwl then _ else _) = _
    split <;> rfl

theorem act_txReloadFifo {b : BufRef} (h : s.txrxState = .txReloadFifo) (hb : s.ctx.txBuf = some b)
    (hd : min s.params.wlChunk (s.fifo.bytesTotal - s.fifo.bytesWritten) ≤ s.params.fifoDepth)
    (hn : inBounds s.params b s.fifo.bytesWritten
      (min s.params.wlChunk (s.fifo.bytesTotal - s.fifo.bytesWritten)) = true) :
    stateAction e s = .ok (.go 0, { s with
      fifo := { s.fifo with bytesWritten :=
        s.fifo.bytesWritten + min s.params.wlChunk (s.fifo.bytesTotal - s.fifo.bytesWritten) }
      fifoStatus := { s.fifoStatus with valid := false }
      txrxState :=
        if s.fifo.bytesWritten + min s.params.wlChunk (s.fifo.bytesTotal - s.fifo.bytesWritten)
          < s.fifo.bytesTotal then .txWaitWl else .txWaitTxe
      trace := .fifoWrite (bufBytes s.mem b s.fifo.bytesWritten
        (min s.params.wlChunk (s.fifo.bytesTotal - s.fifo.bytesWritten))) :: s.trace }) := by
  rw [show stateAction e s = txReloadFifo s by unfold stateAction; rw [h]]
  dsimp only [txReloadFifo]
  generalize hm : min s.params.wlChunk (s.fifo.bytesTotal - s.fifo.bytesWritten) = n at *
  have hr : memRead s.ctx.txBuf s.fifo.bytesWritten n s = .ok (bufBytes s.mem b s.fifo.bytesWritten n) := by
    unfold memRead
    split
    · rename_i h0; rw [h0]; rfl
    · simp [hb, hn]
  rw [hr]
  by_cases hl : s.fifo.bytesWritten + n < s.fifo.bytesTotal <;>
    simp [fifoWrite, hd, fsClear, State.log, State.setFifoStatus, State.setFifo, hl, goTo, State.setTxrx]

theorem act_txWaitTxe (h : s.txrxState = .txWaitTxe) (hq : noEdges s) :
    stateAction e s =
      .ok (if s.irq.pending &&& irqBit s.params .txe ≠ 0 then .go 0 else .yield, { s with
        irq := { s.irq with pending := s.irq.pending &&& ~~~(txIrqs s.params) }
        txrxState := if s.irq.pending &&& irqBit s.params .txe ≠ 0 then .txDone else .txWaitTxe }) := by
  have hm : irqBit s.params .txe ||| irqBit s.params .fwl = txIrqs s.params := BitVec.or_comm _ _
  have hx : (s.irq.pending &&& txIrqs s.params) &&& irqBit s.params .txe = s.irq.pending &&& irqBit s.params .txe := by
    unfold txIrqs
    ext i hi
    simp only [BitVec.getElem_and, BitVec.getElem_or]
    cases (irqBit s.params .txe)[i] <;> simp
  rw [show stateAction e s = txWaitTxe s by unfold stateAction; rw [h]]
  simp only [txWaitTxe, hm, engineGet_noEdges _ hq, Run.ok_bind, getIrq_eq, hasIrq, hx]
  by_cases hb : s.irq.pending &&& irqBit s.params .txe = 0
  · simp [hb, yieldIn, h]
  · have hb' : ((s.irq.pending &&& irqBit s.params .txe) != 0) = true := by simpa using hb
    simp only [hb', if_true, ne_eq, hb, not_false_eq_true]
    rfl

/-- Observation mode switched off, as one update. -/
theorem obsOff_eq (s : State) : obsOff s = { s with
    obs := { s.obs with active := false }
    trace := (if s.obs.active then [.cmd .obsOff] else []) ++ s.trace } := by
  obtain ⟨_, _, _, _, _, _, _, _, _, _, _, _, _, _, _, _, _, _, _, ⟨configured, active⟩, _, _, _, _, _, _, _, _,
    _, _⟩ := s
  cases active <;> rfl

/-- Observation mode is off already where the cleanup follows a switch-off. -/
theorem cleanedUp_obsOff (st : Status) (s : State) :
    cleanedUp { obsOff s with status := st } = cleanedUp { s with status := st } := by
  rw [obsOff_eq]
  simp [cleanedUp]

theorem endExchange_noEdges (h : noEdges s) : endExchange s = .ok (.yield, cleanedUp s) := by
  unfold endExchange
  rw [exchangeEnd_noEdges h]; rfl

theorem act_txDone_ends (h : s.txrxState = .txDone) (hq : noEdges s) (hb : s.ctx.rxBuf = none) :
    stateAction e s = .ok (.yield, cleanedUp { s with status := .none }) := by
  have hx : (obsOff s).ctx = s.ctx := by rw [obsOff_eq]
  rw [show stateAction e s = txDone s by unfold stateAction; rw [h]]
  simp only [txDone, hx, hb, if_true]
  rw [endExchange_noEdges (noEdges_congr hq (by exact obsOff_params s) (by exact congrArg Env.edges (obsOff_env s)))]
  show Except.ok (Flow.yield, cleanedUp { obsOff s with status := .none }) = _
  rw [cleanedUp_obsOff]

theorem act_txDone_receives (h : s.txrxState = .txDone) (hb : s.ctx.rxBuf ≠ none) :
    stateAction e s = .ok (.go 0, { s with
      obs := { s.obs with active := false }, txrxState := .rxIdle
      trace := (if s.obs.active then [.cmd .obsOff] else []) ++ s.trace }) := by
  rw [show stateAction e s = txDone s by unfold stateAction; rw [h]]
  simp [txDone, obsOff_eq, hb, goTo, State.setTxrx]

theorem act_txFail (h : s.txrxState = .txFail) (hq : noEdges s) :
    stateAction e s = .ok (.yield, cleanedUp { s with
      status := if s.status = .busy then .system else s.status }) := by
  have hf : failStatus (obsOff s) = { obsOff s with status := if s.status = .busy then .system else s.status } := by
    have : (obsOff s).status = s.status := by rw [obsOff_eq]
    unfold failStatus
    rw [this]
    split
    · rfl
    · rw [← this]
  rw [show stateAction e s = txFail s by unfold stateAction; rw [h]]
  simp only [txFail, hf]
  rw [endExchange_noEdges (noEdges_congr hq (by exact obsOff_params s) (by exact congrArg Env.edges (obsOff_env s))), cleanedUp_obsOff]

/-! ## RX -/

theorem memWrite16_ok {cell : Option BufRef} {v : Half} {t : State} (h : cellOk t.params cell) :
    memWrite16 cell v t = .ok { t with mem := cellWritten t.params cell v t.mem } := by
  cases cell with
  | none => rfl
  | some c =>
    have hne : cellBytes t.params v ≠ [] := by
      intro h0; have := cellBytes_length t.params v; rw [h0] at this; simp at this
    simp [memWrite16, memWrite, hne, h c rfl, State.setMem, cellWritten]

theorem act_rxIdle (h : s.txrxState = .rxIdle) (hc : cellOk s.params s.ctx.rxRcvdLen) :
    stateAction e s = .ok (.go 0, { s with
      fifo := { bytesTotal := 0, bytesWritten := 0 }
      fifoStatus := { s.fifoStatus with valid := false }
      mem := cellWritten s.params s.ctx.rxRcvdLen 0 s.mem
      txrxState := .rxWaitRxs }) := by
  rw [show stateAction e s = rxIdle s by unfold stateAction; rw [h]]
  simp only [rxIdle]
  rw [show (fsClear (s.setFifo 0 0)).ctx.rxRcvdLen = s.ctx.rxRcvdLen by rfl, memWrite16_ok (by exact hc)]
  rfl

/-- The interrupts RX_WAIT_RXS consumes. -/
abbrev rxsMask (p : Config.Params) : Word := irqBit p .rxs ||| irqBit p .nre

/-- The interrupts RX_WAIT_RXE consumes. -/
abbrev rxeMask (p : Config.Params) : Word := irqBit p .rxe ||| irqBit p .fwl ||| irqBit p .rxRest

theorem act_rxWaitRxs (h : s.txrxState = .rxWaitRxs) (hq : noEdges s) :
    stateAction e s =
      if s.irq.pending &&& rxsMask s.params = 0 then .ok (.yield, s)
      else if s.irq.pending &&& rxsMask s.params &&& irqBit s.params .rxs ≠ 0 then
        .ok (.go 0, { s with
          irq := { s.irq with pending := s.irq.pending &&& ~~~(rxsMask s.params) }
          txrxState := .rxWaitRxe })
      else .ok (.go 0, { s with
          irq := { s.irq with pending := s.irq.pending &&& ~~~(rxsMask s.params) }
          status := .timeout, txrxState := .rxFail }) := by
  rw [show stateAction e s = rxWaitRxs s by unfold stateAction; rw [h]]
  simp only [rxWaitRxs, engineGet_noEdges _ hq, Run.ok_bind, getIrq_eq, hasIrq]
  split
  · rename_i h0
    show Except.ok (Flow.yield, _) = _
    rw [consumed_nothing h0]
  · simp only [bne_iff_ne]
    split <;> rfl

theorem act_rxFail (h : s.txrxState = .rxFail) (hq : noEdges s) :
    stateAction e s = .ok (.yield, cleanedUp { s with
      status := if s.status = .busy then .system else s.status }) := by
  have hf : failStatus s = { s with status := if s.status = .busy then .system else s.status } := by
    unfold failStatus
    split <;> rfl
  rw [show stateAction e s = rxFail s by unfold stateAction; rw [h]]
  simp only [rxFail, hf]
  rw [endExchange_noEdges (by exact hq)]

theorem act_rxDone (h : s.txrxState = .rxDone) (hq : noEdges s) :
    stateAction e s = .ok (.yield, cleanedUp { s with status := .none }) := by
  rw [show stateAction e s = rxDone s by unfold stateAction; rw [h]]
  simp only [rxDone]
  rw [endExchange_noEdges (by exact hq)]
  rfl

theorem act_rxWaitRxe_waits (h : s.txrxState = .rxWaitRxe) (hq : noEdges s)
    (h0 : s.irq.pending &&& rxeMask s.params = 0) : stateAction e s = .ok (.yield, s) := by
  rw [show stateAction e s = rxWaitRxe s by unfold stateAction; rw [h]]
  simp only [rxWaitRxe, engineGet_noEdges _ hq, Run.ok_bind, getIrq_eq, h0, if_true, yieldIn]
  rw [consumed_nothing h0]

/-- The end of receive among what RX_WAIT_RXE consumes is the pending one. -/
theorem rxeMask_rxe (p : Config.Params) (w : Word) : w &&& rxeMask p &&& irqBit p .rxe = w &&& irqBit p .rxe := by
  unfold rxeMask
  ext i hi
  simp only [BitVec.getElem_and, BitVec.getElem_or]
  cases (irqBit p .rxe)[i] <;> simp

theorem and_ne_zero_of_sub {w m : Word} {b : Word} (h : w &&& m &&& b ≠ 0) : w &&& m ≠ 0 := by
  intro h0; rw [h0] at h; simp at h

theorem act_rxWaitRxe_end (h : s.txrxState = .rxWaitRxe) (hq : noEdges s)
    (hx : s.irq.pending &&& irqBit s.params .rxe ≠ 0) :
    stateAction e s = .ok
      (.go (irqBit s.params .rxe ||| (s.irq.pending &&& ~~~(rxeMask s.params) &&& errIrqs s.params)), { s with
        irq := { s.irq with pending := s.irq.pending &&& ~~~(rxeMask s.params) &&& ~~~(errIrqs s.params) }
        txrxState := .rxErrCheck }) := by
  have hx' := hx
  rw [← rxeMask_rxe] at hx'
  rw [show stateAction e s = rxWaitRxe s by unfold stateAction; rw [h]]
  simp only [rxWaitRxe, engineGet_noEdges _ hq, Run.ok_bind, getIrq_eq, and_ne_zero_of_sub hx', if_false,
    hasIrq, rxeMask_rxe, bne_iff_ne, ne_eq, hx, not_false_eq_true, if_true]
  rw [engineGet_noEdges _ (by exact hq)]
  rfl

theorem act_rxWaitRxe_drain (h : s.txrxState = .rxWaitRxe) (hq : noEdges s)
    (h0 : s.irq.pending &&& rxeMask s.params ≠ 0)
    (h1 : s.irq.pending &&& rxeMask s.params &&& irqBit s.params .rxe = 0)
    (h2 : s.irq.pending &&& rxeMask s.params &&& irqBit s.params .rxRest = 0) :
    stateAction e s = .ok (.go 0, { s with
      irq := { s.irq with pending := s.irq.pending &&& ~~~(rxeMask s.params) }
      txrxState := .rxReadFifo }) := by
  rw [show stateAction e s = rxWaitRxe s by unfold stateAction; rw [h]]
  simp only [rxWaitRxe, engineGet_noEdges _ hq, Run.ok_bind, getIrq_eq, h0, if_false, hasIrq, h1, h2]
  rfl

theorem act_rxWaitRxe_restart (h : s.txrxState = .rxWaitRxe) (hq : noEdges s)
    (h1 : s.irq.pending &&& rxeMask s.params &&& irqBit s.params .rxe = 0)
    (h2 : s.irq.pending &&& rxeMask s.params &&& irqBit s.params .rxRest ≠ 0) :
    stateAction e s = rxRestart { s with
      irq := { s.irq with pending := s.irq.pending &&& ~~~(rxeMask s.params) } } := by
  rw [show stateAction e s = rxWaitRxe s by unfold stateAction; rw [h]]
  have h3 : ((0 : Word) != 0) = false := by decide
  have h4 : (s.irq.pending &&& rxeMask s.params &&& irqBit s.params .rxRest != 0) = true := by simpa using h2
  simp only [rxWaitRxe, engineGet_noEdges _ hq, Run.ok_bind, getIrq_eq, and_ne_zero_of_sub h2, if_false, hasIrq,
    h1, h3, h4, Bool.false_eq_true, if_true]

/-- 45 R204: NRE taken, or the NRT off. -/
theorem rxRestart_nre (hq : noEdges s) (hn : s.irq.pending &&& irqBit s.params .nre ≠ 0) :
    rxRestart s = .ok (.go 0, { s with
      irq := { s.irq with pending := s.irq.pending &&& ~~~(irqBit s.params .nre) }
      status := .timeout, txrxState := .rxFail }) := by
  simp only [rxRestart, engineGet_noEdges _ hq, Run.ok_bind, getIrq_eq, ne_eq, hn, not_false_eq_true, if_true]
  rfl

theorem nrtRunning_eq {b : Bool} {rest : List Bool} (hc : s.env.chipBits = b :: rest) :
    nrtRunning s = (b && !nrtOff s, { s with env := { s.env with chipBits := rest } }) := by
  simp [nrtRunning, chipStatus, Env.takeChipBit, hc, State.setEnv, nrtOff]

theorem rxRestart_off {b : Bool} {rest : List Bool} (hq : noEdges s)
    (hn : s.irq.pending &&& irqBit s.params .nre = 0)
    (hc : s.env.chipBits = b :: rest) (ho : b = false ∨ nrtOff s = true) :
    rxRestart s = .ok (.go 0, { s with
      irq := { s.irq with pending := s.irq.pending &&& ~~~(irqBit s.params .nre) }
      env := { s.env with chipBits := rest }
      status := .timeout, txrxState := .rxFail }) := by
  have hb : (b && !nrtOff s) = false := by obtain h | h := ho <;> simp [h]
  simp only [rxRestart, engineGet_noEdges _ hq, Run.ok_bind, getIrq_eq, hn, ne_eq, not_true_eq_false, if_false]
  rw [nrtRunning_eq (by exact hc)]
  simp only [show ∀ p, nrtOff { s with irq := { s.irq with pending := p } } = nrtOff s from fun _ => rfl, hb,
    Bool.not_false, if_true]
  rfl

theorem rxRestart_on {rxOn : Bool} {rest : List Bool} (hq : noEdges s) (ht : s.txrxState = .rxWaitRxe)
    (hn : s.irq.pending &&& irqBit s.params .nre = 0) (hc : s.env.chipBits = true :: rxOn :: rest)
    (ho : nrtOff s = false) :
    rxRestart s = .ok (.yield, { s with
      irq := { s.irq with pending := s.irq.pending &&& ~~~(irqBit s.params .nre) &&& ~~~(errIrqs s.params) }
      env := { s.env with chipBits := rest }
      txrxState := if rxOn then .rxWaitRxe else .rxWaitRxs }) := by
  simp only [rxRestart, engineGet_noEdges _ hq, Run.ok_bind, getIrq_eq, hn, ne_eq, not_true_eq_false, if_false]
  rw [nrtRunning_eq (by exact hc)]
  simp only [show ∀ p, nrtOff { s with irq := { s.irq with pending := p } } = nrtOff s from fun _ => rfl, ho,
    Bool.not_false, Bool.and_self, Bool.not_true, Bool.false_eq_true, if_false]
  rw [engineGet_noEdges _ (by exact hq)]
  cases rxOn <;> simp [getIrq_eq, yieldIn, State.setTxrx, ht, chipStatus, Env.takeChipBit, State.setEnv]

/-- A write of the first `c` bytes of a read, where they lie in the buffer's region. -/
theorem memWrite_take {b : BufRef} {i c : Nat} {bytes : List Byte} {t : State} (hl : c ≤ bytes.length)
    (h : c = 0 ∨ inBounds t.params b i c = true) :
    memWrite (some b) i (bytes.take c) t = .ok { t with mem := storeBytes b i (bytes.take c) t.mem } := by
  unfold memWrite
  split
  · rename_i h0; rw [h0]; rfl
  · rename_i h0
    have hc : (bytes.take c).length = c := by rw [List.length_take]; omega
    have : c ≠ 0 := by intro h1; exact h0 (by rw [h1]; rfl)
    simp only [hc, h.resolve_left this, if_true]
    rfl

theorem act_rxReadFifo {b : BufRef} (h : s.txrxState = .rxReadFifo) (hb : s.ctx.rxBuf = some b)
    (hd : s.params.wlChunk ≤ s.params.fifoDepth)
    (hc : min s.params.wlChunk (s.ctx.capBytes - s.fifo.bytesWritten) = 0 ∨
      inBounds s.params b s.fifo.bytesWritten (min s.params.wlChunk (s.ctx.capBytes - s.fifo.bytesWritten)) = true) :
    stateAction e s = .ok (.yield, { s with
      fifo := { bytesTotal := s.fifo.bytesTotal + s.params.wlChunk
                bytesWritten :=
                  s.fifo.bytesWritten + min s.params.wlChunk (s.ctx.capBytes - s.fifo.bytesWritten) }
      fifoStatus := { s.fifoStatus with valid := false }
      mem := storeBytes b s.fifo.bytesWritten ((s.env.takeFifo s.params.wlChunk).1.take
        (min s.params.wlChunk (s.ctx.capBytes - s.fifo.bytesWritten))) s.mem
      env := (s.env.takeFifo s.params.wlChunk).2
      txrxState := .rxWaitRxe
      trace := .fifoRead (s.env.takeFifo s.params.wlChunk).1 :: s.trace }) := by
  have hl := (Env.takeFifo_keeps s.params.wlChunk s.env).2.2.2
  rw [show stateAction e s = rxReadFifo s by unfold stateAction; rw [h]]
  simp only [rxReadFifo, fifoRead, hd, if_true]
  dsimp only [fsClear, State.setEnv, State.log, State.setFifoStatus]
  rw [hb, memWrite_take (by omega) (by exact hc)]
  rfl

end Sys2Proof.Machine
end

