-- ==== Sys2Proof/Laws/Codec.lean ====
section
/-! SUPPORT. Operand by operand: how long an encoding is, and that reading it gives the operand back
(30_encoding.md rule R81). -/

namespace Sys2Proof

@[simp] theorem encU16_length (h : Half) : (encU16 h).length = 2 := rfl

@[simp] theorem encU32_length (w : Word) : (encU32 w).length = 4 := rfl

@[simp] theorem encRef_length (r : Option Ref) : (encRef r).length = 5 := by cases r <;> rfl

@[simp] theorem encCb_length (c : Option Byte) : (encCb c).length = 1 := by cases c <;> rfl

@[simp] theorem takeU8_cons (b : Byte) (rest : List Byte) : takeU8 (b :: rest) = some (b, rest) := rfl

@[simp] theorem takeU16_encU16 (h : Half) (rest : List Byte) :
    takeU16 (encU16 h ++ rest) = some (h, rest) := by
  have : h.extractLsb' 8 8 ++ h.extractLsb' 0 8 = h := by
    ext i hi
    simp only [BitVec.getElem_append, BitVec.getElem_extractLsb']
    split
    · rw [Nat.zero_add]; rfl
    · rw [BitVec.getLsbD_eq_getElem (by omega)]; congr 1; omega
  simp [takeU16, encU16, this]

@[simp] theorem takeU32_encU32 (w : Word) (rest : List Byte) :
    takeU32 (encU32 w ++ rest) = some (w, rest) := by
  have : w.extractLsb' 24 8 ++ w.extractLsb' 16 8 ++ w.extractLsb' 8 8 ++ w.extractLsb' 0 8 = w := by
    ext i hi
    simp only [BitVec.getElem_append, BitVec.getElem_extractLsb']
    split
    · rw [BitVec.getLsbD_eq_getElem (by omega)]; congr 1; omega
    · split
      · rw [BitVec.getLsbD_eq_getElem (by omega)]; congr 1; omega
      · split <;> (rw [BitVec.getLsbD_eq_getElem (by omega)]; congr 1; omega)
  simp [takeU32, encU32, this]

@[simp] theorem takeRef_encRef {r : Option Ref} (h : refOk r = true) (rest : List Byte) :
    takeRef (encRef r ++ rest) = some (r, rest) := by
  cases r with
  | none => simp [takeRef, encRef]
  | some r =>
    have : ¬r.region = 0#8 := by simpa [refOk] using h
    simp [takeRef, encRef, this]

@[simp] theorem takeCb_encCb {c : Option Byte} (h : cbOk c = true) (rest : List Byte) :
    takeCb (encCb c ++ rest) = some (c, rest) := by
  cases c with
  | none => simp [takeCb, encCb]
  | some c =>
    have : ¬c = 0#8 := by simpa [cbOk] using h
    simp [takeCb, encCb, this]

end Sys2Proof
end

