-- ==== Sys2Proof/Laws/PerInstr.lean ====
section
/-! SUPPORT. The families of statements made instruction by instruction: an instruction's encoding has the
length its opcode alone determines (30_encoding.md rules R80, R90). -/

namespace Sys2Proof.Laws.EncodeLength

/-- The encoding of the instruction is as long as its opcode says. -/
def Statement (i : Instr) : Prop := commandLength (opcode i) = some (encode i).length

theorem init : Statement .init := rfl

theorem deinit : Statement .deinit := rfl

theorem setMode (mode txBR rxBR : Byte) :
    Statement (.setMode mode txBR rxBR) := rfl

theorem getMode : Statement .getMode := rfl

theorem setBitrate (txBR rxBR : Byte) :
    Statement (.setBitrate txBR rxBR) := rfl

theorem getBitrate : Statement .getBitrate := rfl

theorem setFdtPoll (cycles : Word) :
    Statement (.setFdtPoll cycles) := rfl

theorem setFdtListen (cycles : Word) :
    Statement (.setFdtListen cycles) := rfl

theorem setGt (cycles : Word) :
    Statement (.setGt cycles) := rfl

theorem fieldOn : Statement .fieldOn := rfl

theorem fieldOff : Statement .fieldOff := rfl

theorem startTransceive (txBuf : Option Ref) (txBufLen : Half) (rxBuf : Option Ref) (rxBufLen : Half)
    (rxRcvdLen : Option Ref) (flags fwt : Word) :
    Statement (.startTransceive txBuf txBufLen rxBuf rxBufLen rxRcvdLen flags fwt) := by
  cases txBuf <;> cases rxBuf <;> cases rxRcvdLen <;> rfl

theorem worker : Statement .worker := rfl

theorem getTransceiveStatus : Statement .getTransceiveStatus := rfl

theorem getTransceiveState : Statement .getTransceiveState := rfl

theorem transceiveBlocking (txBuf : Option Ref) (txBufLen : Half) (rxBuf : Option Ref) (rxBufLen : Half)
    (rxRcvdLen : Option Ref) (flags fwt : Word) :
    Statement (.transceiveBlocking txBuf txBufLen rxBuf rxBufLen rxRcvdLen flags fwt) := by
  cases txBuf <;> cases rxBuf <;> cases rxRcvdLen <;> rfl

theorem setPreCb (cb : Option Byte) :
    Statement (.setPreCb cb) := by
  cases cb <;> rfl

theorem setPostCb (cb : Option Byte) :
    Statement (.setPostCb cb) := by
  cases cb <;> rfl

theorem setSyncCb (cb : Option Byte) :
    Statement (.setSyncCb cb) := by
  cases cb <;> rfl

theorem setIrqCb (cb : Option Byte) :
    Statement (.setIrqCb cb) := by
  cases cb <;> rfl

theorem irqEnable (mask : Word) :
    Statement (.irqEnable mask) := rfl

theorem irqDisable (mask : Word) :
    Statement (.irqDisable mask) := rfl

theorem irqPoll : Statement .irqPoll := rfl

theorem irqGet (mask : Word) :
    Statement (.irqGet mask) := rfl

theorem irqWait (mask timeoutMs : Word) :
    Statement (.irqWait mask timeoutMs) := rfl

theorem irqIsr : Statement .irqIsr := rfl

theorem fifoStatusUpdate : Statement .fifoStatusUpdate := rfl

theorem fifoStatusClear : Statement .fifoStatusClear := rfl

theorem fifoGetNumBytes : Statement .fifoGetNumBytes := rfl

theorem fifoGetIncBits : Statement .fifoGetIncBits := rfl

theorem fifoIsMissingPar : Statement .fifoIsMissingPar := rfl

theorem iso14443aAnticollFrame (buf bytesToSend bitsToSend rxLength : Option Ref) (fwt : Word) :
    Statement (.iso14443aAnticollFrame buf bytesToSend bitsToSend rxLength fwt) := by
  cases buf <;> cases bytesToSend <;> cases bitsToSend <;> cases rxLength <;> rfl

theorem iso14443aShortFrame (cmd : Byte) (rxBuf : Option Ref) (rxBufLen : Half)
    (rxRcvdLen : Option Ref) (fwt : Word) :
    Statement (.iso14443aShortFrame cmd rxBuf rxBufLen rxRcvdLen fwt) := by
  cases rxBuf <;> cases rxRcvdLen <;> rfl

theorem iso15693AnticollFrame (txBuf : Option Ref) (txBufLen : Half) (rxBuf : Option Ref) (rxBufLen : Half)
    (rxRcvdLen : Option Ref) :
    Statement (.iso15693AnticollFrame txBuf txBufLen rxBuf rxBufLen rxRcvdLen) := by
  cases txBuf <;> cases rxBuf <;> cases rxRcvdLen <;> rfl

theorem iso15693Eof (rxBuf : Option Ref) (rxBufLen : Half)
    (rxRcvdLen : Option Ref) :
    Statement (.iso15693Eof rxBuf rxBufLen rxRcvdLen) := by
  cases rxBuf <;> cases rxRcvdLen <;> rfl

theorem setEmd (enable : Byte) (maxLen : Half) :
    Statement (.setEmd enable maxLen) := rfl

theorem setObsMode (enable : Byte) :
    Statement (.setObsMode enable) := rfl

end Sys2Proof.Laws.EncodeLength
end

