-- ==== Sys2Proof/Tests/Slice0.lean ====
section
/-! SUPPORT. Tests: what the checks of WellFormed refuse, one word of each opcode written out from 30 R90,
one-step vectors of 95_test_vectors.md, and a witness for every statement of the certificates that has
hypotheses. -/

namespace Sys2Proof.Tests

open Sys2Proof.Machine

/-! ## WellFormed: a location in region 0 and a callback 0 have no encoding (30 R81) -/

/-- A `ref` that has an encoding, and one that has none. -/
def good : Option Ref := some { region := 1, offset := 0 }
def bad : Option Ref := some { region := 0, offset := 0 }

theorem test_wf_startTransceive :
    (Instr.startTransceive good 8 good 16 good 0 0).wf = true ∧
    (Instr.startTransceive bad 8 good 16 good 0 0).wf = false ∧
    (Instr.startTransceive good 8 bad 16 good 0 0).wf = false ∧
    (Instr.startTransceive good 8 good 16 bad 0 0).wf = false := by decide

theorem test_wf_transceiveBlocking :
    (Instr.transceiveBlocking none 0 good 16 none 0 0).wf = true ∧
    (Instr.transceiveBlocking bad 8 good 16 good 0 0).wf = false ∧
    (Instr.transceiveBlocking good 8 bad 16 good 0 0).wf = false ∧
    (Instr.transceiveBlocking good 8 good 16 bad 0 0).wf = false := by decide

theorem test_wf_callbacks :
    (Instr.setPreCb none).wf = true ∧ (Instr.setPreCb (some 1)).wf = true ∧
    (Instr.setPreCb (some 0)).wf = false ∧ (Instr.setPostCb (some 0)).wf = false ∧
    (Instr.setSyncCb (some 0)).wf = false ∧ (Instr.setIrqCb (some 0)).wf = false := by decide

theorem test_wf_anticoll :
    (Instr.iso14443aAnticollFrame good good good good 0).wf = true ∧
    (Instr.iso14443aAnticollFrame bad good good good 0).wf = false ∧
    (Instr.iso14443aAnticollFrame good bad good good 0).wf = false ∧
    (Instr.iso14443aAnticollFrame good good bad good 0).wf = false ∧
    (Instr.iso14443aAnticollFrame good good good bad 0).wf = false := by decide

theorem test_wf_helpers :
    (Instr.iso14443aShortFrame 0 bad 0 good 0).wf = false ∧ (Instr.iso14443aShortFrame 0 good 0 bad 0).wf = false ∧
    (Instr.iso15693AnticollFrame bad 0 good 0 good).wf = false ∧
    (Instr.iso15693AnticollFrame good 0 bad 0 good).wf = false ∧
    (Instr.iso15693AnticollFrame good 0 good 0 bad).wf = false ∧
    (Instr.iso15693Eof bad 0 good).wf = false ∧ (Instr.iso15693Eof good 0 bad).wf = false := by decide

/-! ## Decoding: one byte string of each opcode, written out from the operand lists of 30 R90 -/

theorem test_decode_session :
    decode [0x01] = .ok .init ∧ decode [0x02] = .ok .deinit ∧
    decode [0x20] = .ok .fieldOn ∧ decode [0x21] = .ok .fieldOff ∧ decode [0x31] = .ok .worker ∧
    decode [0x32] = .ok .getTransceiveStatus ∧ decode [0x33] = .ok .getTransceiveState ∧
    decode [0x40, 0x01] = .ok (.setPreCb (some 1)) ∧ decode [0x41, 0x02] = .ok (.setPostCb (some 2)) ∧
    decode [0x42, 0x00] = .ok (.setSyncCb none) ∧ decode [0x80, 0x01, 0x04, 0x02] = .ok (.setEmd 1 0x0204) ∧
    decode [0x81, 0x01] = .ok (.setObsMode 1) := by decide

theorem test_decode_mode :
    decode [0x10, 0x01, 0x02, 0x03] = .ok (.setMode 1 2 3) ∧ decode [0x11] = .ok .getMode ∧
    decode [0x12, 0x01, 0xFF] = .ok (.setBitrate 1 0xFF) ∧ decode [0x13] = .ok .getBitrate := by decide

theorem test_decode_timing :
    decode [0x18, 0x7C, 0x1A, 0x00, 0x00] = .ok (.setFdtPoll 6780) ∧
    decode [0x19, 0x01, 0x00, 0x00, 0x80] = .ok (.setFdtListen 0x80000001) ∧
    decode [0x1A, 0xF8, 0x34, 0x00, 0x00] = .ok (.setGt 13560) := by decide

theorem test_decode_exchange :
    decode [0x30, 0x01, 0x04, 0x03, 0x02, 0x01, 0x07, 0x00, 0x02, 0x00, 0x00, 0x00, 0x00, 0x10, 0x00,
        0x03, 0x00, 0x00, 0x00, 0x00, 0x06, 0x00, 0x00, 0x00, 0xE8, 0x03, 0x00, 0x00]
      = .ok (.startTransceive (some ⟨1, 0x01020304⟩) 7 (some ⟨2, 0⟩) 16 (some ⟨3, 0⟩) 6 1000) ∧
    decode [0x34, 0x00, 0x00, 0x00, 0x00, 0x00, 0x00, 0x00, 0x02, 0x00, 0x00, 0x00, 0x00, 0x30, 0x00,
        0x00, 0x09, 0x09, 0x09, 0x09, 0x00, 0x00, 0x00, 0x00, 0xFF, 0xFF, 0xFF, 0xFF]
      = .ok (.transceiveBlocking none 0 (some ⟨2, 0⟩) 48 none 0 0xFFFFFFFF) := by decide

theorem test_decode_aggregator :
    decode [0x43, 0x03] = .ok (.setIrqCb (some 3)) ∧
    decode [0x50, 0x08, 0x01, 0x00, 0x00] = .ok (.irqEnable 0x108) ∧
    decode [0x51, 0x00, 0x01, 0x00, 0x00] = .ok (.irqDisable 0x100) ∧ decode [0x52] = .ok .irqPoll ∧
    decode [0x53, 0x08, 0x00, 0x00, 0x00] = .ok (.irqGet 8) ∧
    decode [0x54, 0x02, 0x00, 0x00, 0x00, 0x05, 0x00, 0x00, 0x00] = .ok (.irqWait 2 5) ∧
    decode [0x55] = .ok .irqIsr := by decide

theorem test_decode_fifo :
    decode [0x60] = .ok .fifoStatusUpdate ∧ decode [0x61] = .ok .fifoStatusClear ∧
    decode [0x62] = .ok .fifoGetNumBytes ∧ decode [0x63] = .ok .fifoGetIncBits ∧
    decode [0x64] = .ok .fifoIsMissingPar := by decide

theorem test_decode_anticollision :
    decode [0x70, 0x01, 0x00, 0x00, 0x00, 0x00, 0x04, 0x00, 0x00, 0x00, 0x00, 0x04, 0x01, 0x00, 0x00, 0x00,
        0x03, 0x00, 0x00, 0x00, 0x00, 0xE8, 0x03, 0x00, 0x00]
      = .ok (.iso14443aAnticollFrame (some ⟨1, 0⟩) (some ⟨4, 0⟩) (some ⟨4, 1⟩) (some ⟨3, 0⟩) 1000) ∧
    decode [0x71, 0x26, 0x02, 0x00, 0x00, 0x00, 0x00, 0x10, 0x00, 0x03, 0x00, 0x00, 0x00, 0x00, 0xE8, 0x03,
        0x00, 0x00] = .ok (.iso14443aShortFrame 0x26 (some ⟨2, 0⟩) 16 (some ⟨3, 0⟩) 1000) ∧
    decode [0x72, 0x01, 0x00, 0x00, 0x00, 0x00, 0x08, 0x00, 0x02, 0x00, 0x00, 0x00, 0x00, 0x10, 0x00, 0x03,
        0x00, 0x00, 0x00, 0x00] = .ok (.iso15693AnticollFrame (some ⟨1, 0⟩) 8 (some ⟨2, 0⟩) 16 (some ⟨3, 0⟩)) ∧
    decode [0x73, 0x02, 0x00, 0x00, 0x00, 0x00, 0x10, 0x00, 0x03, 0x00, 0x00, 0x00, 0x00]
      = .ok (.iso15693Eof (some ⟨2, 0⟩) 16 (some ⟨3, 0⟩)) := by decide

/-- V-EN1, V-EN2, V-EN3: rejected by name. -/
theorem test_decode_rejects :
    decode [] = .error .empty ∧ decode [0x03] = .error (.unknownOpcode 3) ∧
    decode [0x50, 0x08, 0x01, 0x00] = .error (.wrongLength 0x50) ∧
    decode [0x20, 0x00] = .error (.wrongLength 0x20) := by decide

/-- A number is laid out low byte first, and bytes above its bits are 0. -/
theorem test_table_word :
    decodeTableWord 32 0x03020110 = some (.setMode 1 2 3) ∧ decodeTableWord 8 0x1A = some (.setGt 0) ∧
    decodeTableWord 8 0x03 = none := by decide

/-! ## One-step vectors (95_test_vectors.md, its default parameters) -/

/-- A field of the next state, if there is one. -/
def see {α : Type} (o : Host.Outcome State Fault Refusal) (f : State → α) : Option α :=
  match o with
  | .next s => some (f s)
  | .fault _ => none
  | .refused _ => none

/-- Lifecycle MODE_SET, mode NFCA, the field on. -/
def base : State :=
  { State.reset with lifecycle := .modeSet, mode := .nfca, txBR := 0, rxBR := 0, fieldOn := true
                     cfg := modeDefaults Config.defaultParams .nfca }

/-- The operands of V-RT: tx region 1, rx region 2, length cell region 3. -/
def opsOf (txBits rxBits : Half) (flags : Word) : Ctx :=
  { txBuf := some ⟨1, 0⟩, txBufLen := txBits, rxBuf := some ⟨2, 0⟩, rxBufLen := rxBits
    rxRcvdLen := some ⟨3, 0⟩, flags, fwt := 1000 }

/-- An exchange in this sub-state, with these interrupts pending. -/
def exchangeIn (st : TxrxState) (pending flags : Word) : State :=
  { base with
    lifecycle := .txrx, txrxState := st, status := .busy, ctx := opsOf 16 128 flags
    cfg := flagCfg Config.defaultParams .nfca flags false
    irq := { enabled := 0x1F5F, pending, callback := none }, hwMask := masksOf 0x1F5F
    nrt := nrtFor Config.defaultParams .nfca 1000 }

/-- The same state with the Chip's answers scripted. -/
def answering (s : State) (regs fifo : List Byte) (chipBits : List Bool) (clock : List Nat) : State :=
  { s with env := { s.env with regs, fifo, chipBits, clock } }

/-- E29: INIT from reset. -/
theorem test_init :
    see (exec .init (answering State.reset [0x55, 1, 2, 3] [] [] []))
      (fun t => (t.response, t.lifecycle, t.fieldOn, t.irq.enabled, t.trace.length)) = some ([0], .init, false, 0, 8) := by
  decide

/-- V-S4: INIT keeps the registrations. -/
theorem test_init_keeps :
    see (exec .init (answering { base with gt := 500, cb := { pre := some 1, post := none, sync := none } } [0, 0, 0, 0] [] [] []))
      (fun t => (t.lifecycle, t.mode, t.gt, t.cb.pre)) = some (.init, .none, 0, some 1) := by decide

/-- V-S5, V-S6: DEINIT in UNINIT and with the field on. -/
theorem test_deinit :
    see (exec .deinit State.reset) (fun t => (t.response, t.trace)) = some ([0], []) ∧
    see (exec .deinit base) (fun t => (t.lifecycle, t.trace)) = some (.uninit, [.cmd .fieldOff]) := by decide

/-- E30: DEINIT inside an exchange. -/
theorem test_deinit_exchange :
    see (exec .deinit { exchangeIn .rxWaitRxs 0 0 with cb := { pre := none, post := some 2, sync := none } })
      (fun t => (t.lifecycle, t.status, t.trace.contains (.postCallback 2))) = some (.uninit, .none, true) := by decide

/-- V-MB4: SET_MODE 7, 0xEB, 0xEC from INIT. -/
theorem test_setMode :
    see (exec (.setMode 7 0xEB 0xEC) { State.reset with lifecycle := .init })
      (fun t => (t.response, t.lifecycle, t.mode, t.txBR, t.rxBR, t.cfg)) =
    some ([0], .modeSet, .nfcv, 0xEB, 0xEC,
      { txParity := false, txCrc := true, rxCrcCheck := true, rxParityKeep := false, agc := true, nfcip1 := false
        collDetect := false }) := by decide

/-- V-MB1, V-MB2: SET_MODE's refusals. -/
theorem test_setMode_refusals :
    let s := { State.reset with lifecycle := .init }
    [exec (.setMode 1 0xFF 0) s, exec (.setMode 6 0 0) s, exec (.setMode 6 0xFF 0) s, exec (.setMode 0 0 0) s,
      exec (.setMode 200 0 0) s].map (see · (fun t => (t.response, t.trace))) =
    [some ([7], []), some ([8], []), some ([7], []), some ([9], []), some ([9], [])] := by decide

/-- V-MB6 and V-MB4: GET_MODE. -/
theorem test_getMode :
    see (exec .getMode State.reset) State.response = some [6, 0] ∧
    see (exec .getMode { base with mode := .nfcv }) State.response = some [0, 7] := by decide

/-- E14: SET_BITRATE with KEEP. -/
theorem test_setBitrate :
    see (exec (.setBitrate 1 0xFF) base) (fun t => (t.response, t.txBR, t.rxBR)) = some ([0], 1, 0) := by decide

/-- V-MB4: GET_BITRATE. -/
theorem test_getBitrate :
    see (exec .getBitrate { base with txBR := 0xEB, rxBR := 0xEC }) State.response = some [0, 0xEB, 0xEC] := by
  decide

/-- E11 and V-TM12: the timing setters. -/
theorem test_timing_setters :
    see (exec (.setGt 5000) State.reset) (fun t => (t.response, t.gt)) = some ([0], 5000) ∧
    see (exec (.setFdtPoll 640) (exchangeIn .rxWaitRxs 0 0)) (fun t => (t.fdtPoll, t.gptPreload)) = some (640, 0) ∧
    see (exec (.setFdtListen 9) State.reset) State.fdtListen = some 9 := by decide

/-- V-TM1, V-TM3 to V-TM5, V-TM7. -/
theorem test_units :
    [toMs Config.defaultParams 0 1, toMs Config.defaultParams 13560 1, toMs Config.defaultParams 13561 1,
      toMs Config.defaultParams 1 8, toMs Config.defaultParams 212 64] = [0, 1, 2, 1, 2] ∧
    [4194240, 4194241, 268431361].map (fun f => (nrtFor Config.defaultParams .nfca f)) =
      [{ regVal := 0xFFFF, step := .s64, mirror64 := 65535, enabled := true },
        { regVal := 1024, step := .s4096, mirror64 := 65536, enabled := true },
        { regVal := 0xFFFF, step := .s4096, mirror64 := 4194240, enabled := true }] ∧
    [0, 1, 4194241].map (gptFor Config.defaultParams .nfca) = [0, 1, 0xFFFF] := by decide

/-- E31 and V-TM10: FIELD_ON. -/
theorem test_fieldOn :
    see (exec .fieldOn (answering { base with gt := 13560 } [] [] [] [100])) (fun t => (t.gtTimer, t.trace)) =
      some ({ armed := true, startMs := 100, durMs := 1 }, [.cmd .fieldOn]) ∧
    see (exec .fieldOn base) (fun t => t.gtTimer.armed) = some false := by decide

/-- E32: FIELD_OFF in TX_WAIT_TXE. -/
theorem test_fieldOff :
    see (exec .fieldOff (exchangeIn .txWaitTxe 0 0))
      (fun t => (t.response, t.status, t.lifecycle, t.fieldOn, t.trace.map (fun e => e == .cmd .fieldOff))) =
    some ([0], .system, .modeSet, false, [true, false, false, false]) := by decide

/-- E34 and V-TX8: an accepted start. -/
theorem test_startTransceive :
    see (exec (.startTransceive (some ⟨1, 0⟩) 7 (some ⟨2, 0⟩) 16 (some ⟨3, 0⟩) 6 1000) { base with fdtPoll := 6780 })
      (fun t => (t.response, t.txrxState, t.status, t.irq.enabled, t.trace)) =
    some ([0], .txIdle, .busy, 0x1F5F,
      [.regWrite (.irqMask 1) (.byte 0xE0), .regWrite (.irqMask 0) (.byte 0xA0), .regWrite16 .gpt 106,
        .regWrite16 .nrt 16, .regWrite .nrtStep (.byte 0), .regWrite .frameCfg (.frameCfg {
          txParity := true, txCrc := false, rxCrcCheck := true, rxParityKeep := false, agc := true, nfcip1 := false
          collDetect := false })]) := by decide

/-- V-TX3, V-TX4, V-TX5: refused starts. -/
theorem test_startTransceive_refused :
    [exec (.startTransceive good 8 good 16 good 0x80 1000) base, exec (.startTransceive good 0 good 16 good 0 1000) base,
      exec (.startTransceive none 0 none 0 good 0 1000) base,
      exec (.startTransceive good 8 good 16 good 0 1000) { base with fieldOn := false }].map
      (see · (fun t => (t.response, t.trace))) =
    [some ([7], []), some ([7], []), some ([7], []), some ([6], [])] := by decide

/-- P1 step 6: the first tick of a short frame. -/
theorem test_worker_tx :
    let s := { exchangeIn .txIdle 0 6 with ctx := opsOf 7 16 6, mem := [(4294967296, 0x26)] }
    see (exec .worker (answering s [] [] [false] [])) (fun t => (t.response, t.txrxState, t.fifo.bytesWritten, t.trace)) =
    some ([2], .txWaitTxe, 1, [.cmd .transmitWithoutCrc, .fifoWrite [0x26], .regWrite16 .numTxBytes 7,
      .cmd .clearFifo, .cmd .resetRxGain]) := by decide +kernel

/-- P3 step 8: framing and CRC errors together; 3 bytes stored, length 24. -/
theorem test_worker_rx :
    see (exec .worker (answering (exchangeIn .rxWaitRxs 0x50C 0) [5, 0] [0x11, 0x22, 0x33, 0xC1, 0xC2] [] []))
      (fun t => (t.response, t.txrxState, t.fifo.bytesTotal, t.mem)) =
    some ([12], .idle, 3, [(8589934592, 0x11), (8589934593, 0x22), (8589934594, 0x33), (12884901888, 24)]) := by
  decide

/-- V-RX7: a restart with the no-response timer off is a timeout, whatever the chip draws. -/
theorem test_restart_forever :
    [true, false].map (fun drawn =>
      let s := answering (exchangeIn .rxWaitRxe 0x40 0) [] [] [drawn, true] []
      see (exec .worker { s with nrt := nrtFor s.params .nfca Config.fwtForever }) (fun t => (t.response, t.txrxState))) =
    [some ([4], .idle), some ([4], .idle)] := by decide

/-- E33 and V-S10: the queries. -/
theorem test_queries :
    see (exec .getTransceiveState (exchangeIn .rxWaitRxs 0 0)) State.response = some [0, 0x52] ∧
    see (exec .getTransceiveStatus { base with status := .crc }) State.response = some [14] := by decide

/-- V-S9, and the start of the loop. -/
theorem test_transceiveBlocking :
    see (exec (.transceiveBlocking good 8 good 16 good 0 1000) { base with lifecycle := .init })
      (fun t => (t.response, t.running)) = some ([6], none) ∧
    see (exec (.transceiveBlocking good 8 good 16 good 0 1000) base)
      (fun t => (t.response, t.running, t.txrxState)) = some ([], some .blocking, .txIdle) := by decide

/-- V-IA13 and 47 R259. -/
theorem test_callbacks :
    see (exec (.setIrqCb (some 3)) State.reset) (fun t => t.irq.callback) = some (some 3) ∧
    [Instr.setPreCb (some 1), .setPostCb (some 1), .setSyncCb (some 1)].map (fun i => see (exec i State.reset) State.cb) =
      [some { pre := some 1, post := none, sync := none }, some { pre := none, post := some 1, sync := none },
        some { pre := none, post := none, sync := some 1 }] := by decide

/-- V-IA2: the mask writes. -/
theorem test_irqEnable :
    see (exec (.irqEnable 0x010001) State.reset) (fun t => (t.irq.enabled, t.hwMask, t.trace)) =
    some (0x010001, { m0 := 0xFE, m1 := 0xFF, m2 := 0xFE },
      [.regWrite (.irqMask 2) (.byte 0xFE), .regWrite (.irqMask 0) (.byte 0xFE)]) := by decide

/-- V-IA11: pending bits stay. -/
theorem test_irqDisable :
    see (exec (.irqDisable 8) { State.reset with
      irq := { enabled := 8, pending := 8, callback := none }, hwMask := { m0 := 0xF7, m1 := 0xFF, m2 := 0xFF } })
      (fun t => (t.irq.enabled, t.irq.pending, t.trace)) =
    some (0, 8, [.regWrite (.irqMask 0) (.byte 0xFF)]) := by decide

/-- A state with these interrupts enabled and pending, these line samples and these register answers. -/
def aggregator (enabled pending : Word) (line : List Bool) (regs : List Byte) : State :=
  { State.reset with
    irq := { enabled, pending, callback := some 1 }
    env := { quietEnv with line, regs, clock := [10, 1, 1, 1] } }

/-- V-IA7: two iterations of one drain. -/
theorem test_irqPoll :
    see (exec .irqPoll (aggregator 3 0 [true, true, false] [1, 0, 0, 2, 0, 0])) (fun t => (t.irq.pending, t.trace.length))
      = some (3, 6) := by decide

/-- 20 R70, 40 R107: an edge between the two iterations of IRQ_POLL's drain; the ISR agent drains once and calls
back between them, and its bits are kept. -/
theorem test_irqPoll_isr :
    let s := aggregator 7 0 [true, true, true, false, false] [1, 0, 0, 2, 0, 0, 4, 0, 0]
    see (exec .irqPoll { s with params := { s.params with irqBuild := .isr }, env := { s.env with edges := [false, true] } })
      (fun t => (t.response, t.irq.pending, t.trace.map (fun e => e == .irqCallback 1))) =
    some ([0], 7, [false, false, false, true, false, false, false, false, false, false]) := by decide

/-- V-IA5: the consuming read. -/
theorem test_irqGet :
    see (exec (.irqGet 0xA) (aggregator 0 0xE [] [])) (fun t => (t.response, t.irq.pending))
      = some ([0, 0xA, 0, 0, 0], 4) := by decide

/-- E5: a match at the first iteration; V-IA8: no match yet at clock 11. -/
theorem test_irqWait :
    see (exec (.irqWait 2 5) (aggregator 2 2 [] [])) State.response = some [0, 2, 0, 0, 0] ∧
    see (exec (.irqWait 8 3) (aggregator 8 0 [] [])) (fun t => (t.response, t.running, t.clockMs)) =
      some ([], some (.irqWait 8 3 10), 11) := by decide

/-- E6 and V-IA12: the ISR agent in the two builds. -/
theorem test_irqIsr :
    let s := aggregator 2 0 [true, false] [2, 0, 0]
    see (exec .irqIsr { s with params := { s.params with irqBuild := .isr } }) (fun t => (t.irq.pending, t.trace.head?)) =
      some (2, some (.irqCallback 1)) ∧
    see (exec .irqIsr s) (fun t => t == s) = some true := by decide

/-- V-FS1, V-FS4, V-FS5, V-FS2: the FIFO status cache. -/
theorem test_fifoStatus :
    see (exec .fifoGetNumBytes (answering base [3, 0] [] [] [])) (fun t => (t.response, t.trace.length)) = some ([0, 3, 0], 2) ∧
    see (exec .fifoGetNumBytes { base with fifoStatus := { valid := true, st1 := 3, st2 := 0 } })
      (fun t => (t.response, t.trace)) = some ([0, 3, 0], []) ∧
    see (exec .fifoStatusClear { base with fifoStatus := { valid := true, st1 := 3, st2 := 0 } })
      (fun t => t.fifoStatus.valid) = some false ∧
    see (exec .fifoStatusUpdate (answering base [5, 0] [] [] [])) (fun t => t.fifoStatus) =
      some { valid := true, st1 := 5, st2 := 0 } ∧
    [Instr.fifoGetIncBits, .fifoIsMissingPar].map (fun i => see (exec i (answering base [0, 0x0F] [] [] [])) State.response) =
      [some [0, 7], some [0, 1]] := by decide

/-- 20 R67, 43 R162: a fetched count of 258 faults below that depth and is answered from that depth on. -/
theorem test_fifoCount_range :
    let s := answering base [0x02, 0x88] [] [] []
    exec .fifoGetNumBytes s = .fault .chipRange ∧
    see (exec .fifoGetNumBytes { s with params := { s.params with fifoDepth := 258 } }) State.response =
      some [0, 0x02, 0x01] := ⟨rfl, by decide⟩

/-- Memory with the cells of P6: `buf` in region 1, `bytesToSend` and `bitsToSend` in region 4. -/
def anticollMem (B b : Byte) : List Host.Cell :=
  Memory.store 17179869184 B (Memory.store 17179869185 b
    [(4294967296, 0x93), (4294967297, 0x23), (4294967298, 0xB5)])

/-- P6 steps 1 to 3: the partial byte cleared, the exchange started with 19 bits. -/
theorem test_anticoll :
    see (exec (.iso14443aAnticollFrame (some ⟨1, 0⟩) (some ⟨4, 0⟩) (some ⟨4, 1⟩) (some ⟨3, 0⟩) 1000)
      { base with mem := anticollMem 2 3 })
      (fun t => (Memory.load t.mem 4294967298, t.ctx.txBufLen, t.ctx.rxBuf, t.ctx.rxBufLen, t.ctx.flags)) =
    some (0x05, 19, some ⟨1, 2⟩, 40, 0x0E) := by decide

/-- V-AC2, V-AC3, V-AC4: the lengths refused. -/
theorem test_anticoll_refused :
    [(1, 8), (7, 1), (0, 0)].map (fun p : Byte × Byte =>
      see (exec (.iso14443aAnticollFrame good (some ⟨4, 0⟩) (some ⟨4, 1⟩) none 1000) { base with mem := anticollMem p.1 p.2 })
        (fun t => (t.response, t.trace))) = [some ([7], []), some ([7], []), some ([7], [])] := by decide

/-- V-AC8, V-AC9: refused by name. -/
theorem test_refused_helpers (s : State) :
    exec (.iso14443aShortFrame 0x26 good 16 good 1000) s = .refused (.refusedHelper 0x71) ∧
    exec (.iso15693AnticollFrame good 8 good 16 good) s = .refused (.refusedHelper 0x72) ∧
    exec (.iso15693Eof good 16 good) s = .refused (.refusedHelper 0x73) := ⟨rfl, rfl, rfl⟩

/-- 45 R230, 44 R199. -/
theorem test_emd_obs :
    see (exec (.setEmd 2 4) base) State.emd = some { enabled := true, maxLen := 4 } ∧
    see (exec (.setObsMode 0) { base with obs := { configured := true, active := false } })
      (fun t => t.obs.configured) = some false := by decide

/-- V-F1, V-F2: the model faults. -/
theorem test_faults :
    (let s := answering (exchangeIn .rxWaitRxe 8 4) [2, 0] [1, 2] [] []
     exec .worker { s with params := { s.params with regionSizes := [(2, 1)] } } = .fault .bufferBounds) ∧
    exec .worker (answering (exchangeIn .rxWaitRxe 8 0) [7, 0] [] [] []) = .fault .chipRange := ⟨rfl, rfl⟩

/-- Host memory at reset is in its canonical form. -/
theorem test_reset_memory : Memory.wf State.reset.mem = true := rfl

/-! ## Witnesses: for each statement with hypotheses, concrete states that meet them, clause by clause -/

/-- With this byte string at the front of the port. -/
def ported (bytes : List Byte) (s : State) : State := { s with port := [bytes, [0x11]] }

/-- With the build ISR, and no edge scripted. -/
def isr (s : State) : State := { s with params := { s.params with irqBuild := .isr } }

/-- An exchange in RX_WAIT_RXS with a no-response interrupt pending, whose next command is a tick. -/
def timingOut : State := ported [0x31] (exchangeIn .rxWaitRxs 0x10 0)

theorem witness_StepKeepsInv : Inv timingOut ∧ see (step timingOut) (fun t => t.status) = some .timeout :=
  ⟨{ memory := rfl, pendingTop := rfl, exchange := by decide, busy := by decide, masks := by decide
     observation := by decide, fifoCount := by decide, defaults := by decide, timer := ⟨rfl, rfl⟩, stopwatch := by decide, flags := rfl
     phaseBuffer := by decide }, by decide⟩

theorem witness_StepRunsDecodedCommand :
    (ported [0x33] base).running = none ∧ (ported [0x33] base).port = [0x33] :: [[0x11]] ∧
      decode [0x33] = .ok .getTransceiveState := by decide

theorem witness_MalformedCommands :
    base.running = none ∧ (ported [] base).port = [] :: [[0x11]] ∧ (ported [0x03, 0x01] base).port = (0x03 :: [0x01]) :: [[0x11]] ∧ commandLength 0x03 = none ∧
      commandLength 0x50 = some 5 ∧ [0x08, 0x01, 0x00].length + 1 ≠ 5 ∧ commandLength 0x20 = some 1 ∧
      [0x00].length + 1 ≠ 1 := by decide

theorem witness_PortSteps :
    decodeTableWord 8 0x33 = some .getTransceiveState ∧ base.running = none ∧ base.port = [] ∧
      { base with running := some .hung }.running = some .hung := by decide

theorem witness_DecodeEncode :
    (Instr.startTransceive good 8 none 0 good 0x7F 0xFFFFFFFF).wf = true ∧ (Instr.setSyncCb (some 0xFF)).wf = true := by
  decide

theorem witness_DecodedIsWellFormed : decode [0x40, 0x01] = .ok (.setPreCb (some 1)) := by decide

theorem witness_LengthByOpcode : commandLength 0x40 = some ([0x01].length + 1) ∧ commandLength 0x40 ≠ some (([] : List Byte).length + 1) := by
  decide

/-- One millisecond holds 13560 units of 1/fc exactly. -/
theorem witness_UnitsRoundUp : 0 < Config.defaultParams.fcPerMs ∧ 13560 * 1 ≤ 1 * Config.defaultParams.fcPerMs := by
  decide

/-- The largest and the first saturated waiting time. -/
theorem witness_NrtNeverShorter :
    (268431360 : Word) ≠ 0xFFFFFFFF ∧ fwtEff Config.defaultParams .nfca 268431360 = 4096 * 0xFFFF ∧
      (268431361 : Word) ≠ 0xFFFFFFFF ∧ 4096 * 0xFFFF < fwtEff Config.defaultParams .nfca 268431361 ∧
      fwtEff Config.defaultParams .nfca 4194240 = 64 * 0xFFFF := by decide

/-- V-TM8, V-TM9: a guard time of 3 ms from clock 0, and a tick at clock 2, in build POLLED with a drain. -/
theorem witness_GuardTimeHolds :
    let s := answering { base with gt := 27121 } [] [] [] [0]
    let u := { exchangeIn .txWaitGt 0 0 with
      gtTimer := { armed := true, startMs := 0, durMs := 3 }
      env := { quietEnv with line := [true, false], regs := [1, 0, 0], clock := [2] } }
    s.lifecycle ≠ .uninit ∧ s.txrxState = .idle ∧ s.gt ≠ 0 ∧ 0 < s.params.fcPerMs ∧
      see (exec .fieldOn s) (fun t => (t.gtTimer, t.clockMs)) = some (u.gtTimer, 0) ∧ u.txrxState = .txWaitGt ∧
      see (exec .worker u) (fun v => (v.clockMs, v.txrxState)) = some (2, .txWaitGt) ∧
      2 - 0 < toMs s.params s.gt.toNat 1 := by decide

theorem witness_FieldOn :
    State.reset.lifecycle = .uninit ∧ (exchangeIn .txIdle 0 0).txrxState ≠ .idle ∧ base.lifecycle ≠ .uninit ∧
      base.txrxState = .idle ∧ base.gt = 0 ∧ { base with gt := 1 }.gt ≠ 0 := by decide

theorem witness_FieldOff :
    State.reset.lifecycle = .uninit ∧ base.lifecycle ≠ .uninit ∧ base.txrxState = .idle ∧
      (exchangeIn .txIdle 0 0).lifecycle ≠ .uninit ∧ noEdges (exchangeIn .txIdle 0 0) :=
  ⟨rfl, by decide, rfl, by decide, .inl rfl⟩

theorem witness_Deinit :
    State.reset.lifecycle = .uninit ∧ base.lifecycle ≠ .uninit ∧ noEdges base ∧ base.fieldOn = true ∧
      (isr (exchangeIn .rxIdle 0 0)).txrxState ≠ .idle ∧ noEdges (isr (exchangeIn .rxIdle 0 0)) :=
  ⟨rfl, by decide, .inl rfl, rfl, by decide, .inr rfl⟩

/-- FIELD_OFF and DEINIT in an exchange with an ISR run at their aggregator steps: one in the first, two in the second. -/
theorem witness_fieldOff_edges :
    let u := exchangeIn .txWaitTxe 0 0
    let s := isr { u with irq := { u.irq with callback := some 1 }, env := { quietEnv with edges := [true, false, true] } }
    let runs := fun t : State => (t.trace.filter (fun e => e == .irqCallback 1)).length
    s.lifecycle ≠ .uninit ∧ see (exec .fieldOff s) (fun t => (t.status, t.txrxState, runs t)) = some (.system, .idle, 1) ∧
      see (exec .deinit s) (fun t => (t.lifecycle, t.irq.pending, runs t)) = some (.uninit, 0, 2) := by decide

theorem witness_Init :
    (exchangeIn .txIdle 0 0).txrxState ≠ .idle ∧ State.reset.txrxState = .idle ∧
      (let s := answering State.reset [0x55, 0, 0, 0] [] [] []
       chipIdOk s.params s.env.takeReg.1 = true ∧
         chipIdOk { s.params with rejectedIds := [0x55] } s.env.takeReg.1 = false) := by decide

theorem witness_EmdAndObsSetters :
    (exchangeIn .txIdle 0 0).txrxState ≠ .idle ∧ base.txrxState = .idle := by decide

theorem witness_ModeGate :
    State.reset.lifecycle = .uninit ∧ (exchangeIn .txIdle 0 0).txrxState ≠ .idle := by decide

/-- Each clause of SET_MODE, at the ends of its range of codes. -/
theorem witness_SetMode :
    base.lifecycle ≠ .uninit ∧ base.txrxState = .idle ∧ (6 : Byte).toNat ∈ [6, 9, 10, 11, 12, 13] ∧
      (13 : Byte).toNat ∈ [6, 9, 10, 11, 12, 13] ∧ 14 ≤ (14 : Byte).toNat ∧ (1 : Byte) = Mode.nfca.code ∧
      (8 : Byte) = Mode.picopass.code ∧ (0xEC : Byte) ∈ base.params.supportedBr ∧ (4 : Byte) ∉ base.params.supportedBr := by
  decide

theorem witness_SetBitrate :
    base.lifecycle ≠ .uninit ∧ base.txrxState = .idle ∧ (4 : Byte) ≠ 0xFF ∧ (4 : Byte) ∉ base.params.supportedBr ∧
      (3 : Byte) ∈ base.params.supportedBr := by decide

theorem witness_ModeQueries :
    base.lifecycle ≠ .uninit ∧ see (exec (.setMode 1 0 3) base) State.response = some [0] ∧
      see (exec (.setBitrate 3 0) base) State.response = some [0] ∧ (3 : Byte) ≠ 0xFF := by decide

theorem witness_IrqEnableDisable :
    let s := exchangeIn .txIdle 0 0
    s.hwMask = masksOf s.irq.enabled ∧ 0x1F5F &&& ~~~s.irq.enabled = 0 ∧ 0xA0 &&& s.irq.enabled = 0 := by decide

/-- Two iterations of a drain (V-IA7), one sample and one answer left. -/
def polling : State := aggregator 3 0 [true, true, false, true] [1, 0, 0, 2, 0, 0, 7]

theorem witness_IrqPoll : noEdges polling ∧ drainScript [(1, 0, 0), (2, 0, 0)] [true] [7] polling :=
  ⟨.inl rfl, rfl, rfl⟩

/-- An exchange with FWT_FOREVER (41 R131): of the draw 1F the drain shows and accumulates 0F. -/
theorem witness_IrqPoll_untimed :
    let s := { exchangeIn .rxWaitRxs 0 0 with
      nrt := { regVal := 0, step := .s64, mirror64 := 0, enabled := false }
      env := { quietEnv with line := [true, false], regs := [0x1F, 0x10, 0] } }
    s.env.line = [(0x1F, 0x10, 0)].map (fun _ : Byte × Byte × Byte => true) ++ false :: [] ∧
      [(0x1F, 0x10, 0)].map (shown s) = [(0x0F, 0x10, 0)] ∧
      see (exec .irqPoll s) (fun t => (t.irq.pending, t.trace.length)) = some (0x100F, 3) := by decide

/-- A high sample, and an ISR run before the iteration that it starts. -/
theorem witness_IrqPoll_point :
    let s := { isr polling with env := { (isr polling).env with line := [true, true, false], edges := [true] } }
    s.env.line = true :: [true, false] ∧
      (match isrPoint { s with env := { s.env with line := [true, false] } } with
        | .ok u => u.irq.pending
        | .error _ => 0) = 1 := by decide

/-- The Chip's script holds an NRE; every drain leaves it out, of a command or of a loop in progress. -/
theorem witness_NoNreInUntimedExchange :
    let s := { exchangeIn .rxWaitRxs 0 0 with
      nrt := nrtFor Config.defaultParams .nfca Config.fwtForever
      env := { quietEnv with line := [true, false], regs := [0x1F, 0, 0] } }
    s.txrxState ≠ .idle ∧ s.nrt.regVal = 0 ∧ hasIrq s.params s.irq.pending .nre = false ∧
      see (exec .irqPoll s) (fun t => t.irq.pending) = some 0x0F ∧
      see (step { s with running := some .blocking, env := { s.env with regs := [0x14, 0, 0] } }) (fun t => (t.txrxState, t.status)) = some (.rxWaitRxe, .busy) := by
  decide

theorem witness_IrqWait :
    noEdges polling ∧ drainScript [(1, 0, 0), (2, 0, 0)] [true] [7] { polling with running := some (.irqWait 2 5 10) } ∧
      { polling with running := some (.irqWait 2 5 10) }.running = some (.irqWait 2 5 10) := ⟨.inl rfl, ⟨rfl, rfl⟩, rfl⟩

theorem witness_IrqIsr :
    polling.params.irqBuild = .polled ∧ (isr polling).params.irqBuild = .isr ∧
      drainScript [(1, 0, 0), (2, 0, 0)] [true] [7] (isr polling) := ⟨rfl, rfl, rfl, rfl⟩

/-- The FIFO status cache holding a count of 3. -/
def cached : State := { base with fifoStatus := { valid := true, st1 := 3, st2 := 0 } }

theorem witness_FifoUpdateAndClear : cached.fifoStatus.valid = true ∧ fifoInRange cached := ⟨rfl, .inl rfl⟩

/-- The largest count in range, and the first out of range. -/
theorem witness_FifoQueries :
    let s := fun n : Byte => answering base [n, 0] [] [] []
    fifoInRange (s 6) ∧ ¬fifoInRange (s 7) := ⟨.inr (by decide), fun h => h.elim (by decide) (by decide)⟩

theorem witness_FifoTraffic :
    (∀ i ∈ [Instr.fifoGetNumBytes, .fifoStatusUpdate, .fifoIsMissingPar, .fifoGetIncBits],
      i = .fifoStatusUpdate ∨ i = .fifoGetNumBytes ∨ i = .fifoGetIncBits ∨ i = .fifoIsMissingPar) ∧
    cached.fifoStatus.valid = true ∧ base.fifoStatus.valid = false := by decide

theorem witness_FifoTraffic_range :
    fifoInRange (answering base [6, 0] [] [] []) ∧ ¬fifoInRange (answering base [7, 0] [] [] []) :=
  ⟨.inr (by decide), fun h => h.elim (by decide) (by decide)⟩

/-- Not ready three ways, no field, bad parameters three ways (the shortest too long frame), and acceptance. -/
theorem witness_StartTransceive :
    State.reset.lifecycle = .uninit ∧ { base with lifecycle := .init }.lifecycle = .init ∧
      (exchangeIn .txIdle 0 0).txrxState ≠ .idle ∧ base.lifecycle = .modeSet ∧ base.txrxState = .idle ∧
      { base with fieldOn := false }.fieldOn = false ∧ base.fieldOn = true ∧
      (0x80 : Word).extractLsb' 7 25 ≠ 0 ∧ (0x7F : Word).extractLsb' 7 25 = 0 ∧
      { base.params with maxTxBits := 7 }.maxTxBits < (8 : Half).toNat ∧ (8 : Half).toNat ≤ base.params.maxTxBits ∧
      good ≠ none := by decide

theorem witness_start_noEdges : noEdges base ∧ noEdges (isr base) := ⟨.inl rfl, .inr rfl⟩

/-- As for StartTransceive: inside an exchange, below MODE_SET, without field, with bad parameters, accepted. -/
theorem witness_BlockingStarts :
    (exchangeIn .rxWaitRxs 0 0).txrxState ≠ .idle ∧ { base with lifecycle := .init }.lifecycle = .init ∧
      base.lifecycle = .modeSet ∧ base.txrxState = .idle ∧ { base with fieldOn := false }.fieldOn = false ∧
      base.fieldOn = true ∧ (0x7F : Word).extractLsb' 7 25 = 0 ∧ (0x80 : Word).extractLsb' 7 25 ≠ 0 ∧
      (1 : Half) ≠ 0 ∧ (1 : Half).toNat ≤ base.params.maxTxBits ∧ base.mode ∈ supportedModes := by decide

/-- A start whose two points each have an ISR run: the same start but for what that agent touches. -/
theorem witness_start_edges :
    let s := isr { base with irq := { base.irq with callback := some 1 }, env := { quietEnv with edges := [true, false, true] } }
    see (exec (.startTransceive good 8 good 16 good 0 1000) s) (fun t => (t.response, t.txrxState,
      (t.trace.filter (fun e => e == .irqCallback 1)).length)) = some ([0], .txIdle, 2) := by decide

/-- A tick of the loop that ends the exchange, and one that does not. -/
theorem witness_BlockingLoop :
    let s := { exchangeIn .rxWaitRxs 0x10 0 with running := some .blocking }
    let u := { exchangeIn .rxWaitRxs 0 0 with running := some .blocking }
    s.running = some .blocking ∧ see (exec .worker s) (fun t => (t.running, t.txrxState)) = some (none, .idle) ∧
      see (exec .worker u) (fun t => (t.running, t.txrxState)) = some (none, .rxWaitRxs) := by decide

/-- Without an edge, and with one whose drain reads the NRE that ends the exchange. -/
theorem witness_BlockingLoop_point :
    isrPoint (exchangeIn .rxWaitRxs 0x10 0) = .ok (exchangeIn .rxWaitRxs 0x10 0) ∧
    (let s := isr { exchangeIn .rxWaitRxs 0 0 with
        running := some .blocking, env := { quietEnv with line := [true, false], regs := [0x10, 0, 0], edges := [true] } }
     see (step s) (fun t => (t.response, t.running)) = some ([4], none)) := ⟨rfl, by decide⟩

theorem witness_TickDrainsFirst :
    (let s := aggregator 3 0 [true, false] [1, 0, 0, 7]
     s.params.irqBuild = .polled ∧ s.env.lineRest = false ∧ drainScript [(1, 0, 0)] [] [7] s) ∧
    (isr (exchangeIn .rxWaitRxs 0x10 0)).params.irqBuild = .isr ∧
    see (exec .worker (isr (exchangeIn .rxWaitRxs 0x10 0))) State.status = some .timeout ∧
    quiet base = true ∧ base.txrxState = .idle := ⟨⟨rfl, rfl, rfl, rfl⟩, rfl, by decide, rfl, rfl⟩

/-- In TX_WAIT_GT with this guard time running from clock 0, at clock `now`. -/
def guarded (now : Nat) : State :=
  { answering (exchangeIn .txWaitGt 0 0) [] [] [true, false] [now] with gtTimer := { armed := true, startMs := 0, durMs := 3 } }

/-- The last millisecond before and the first after the guard time; no guard time; the wait for the timer. -/
theorem witness_TxWaits :
    quiet (guarded 2) = true ∧ (guarded 2).txrxState = .txWaitGt ∧ (guarded 2).gtTimer.armed = true ∧
      (guarded 2).clockMs + (guarded 2).env.takeElapsed.1 - 0 < 3 ∧
      3 ≤ (guarded 3).clockMs + (guarded 3).env.takeElapsed.1 - 0 ∧ (guarded 3).env.chipBits = true :: [false] ∧
      (exchangeIn .txIdle 0 0).gtTimer.armed = false := by decide

theorem witness_TxLoadsAndTransmits :
    let s := answering (exchangeIn .txIdle 0 0) [] [] [false] []
    quiet s = true ∧ s.txrxState = .txIdle ∧ s.gtTimer.armed = false ∧ s.env.chipBits = false :: [] ∧ s.cb.sync = none ∧
      s.ctx.txBuf = some ⟨1, 0⟩ ∧ s.irq.pending &&& txIrqs s.params = 0 ∧
      inBounds s.params ⟨1, 0⟩ 0 (min (ceilDiv s.ctx.txBufLen.toNat 8) s.params.fifoDepth) = true := by decide

/-- P2 step 7: the first tick at the end of the guard time, the general-purpose timer stopped. -/
theorem witness_TxLoadsAndTransmits_guard :
    let s := { guarded 3 with env := { (guarded 3).env with chipBits := [false] } }
    s.txrxState = .txWaitGt ∧ s.gtTimer.armed = true ∧
      s.gtTimer.durMs ≤ s.clockMs + s.env.takeElapsed.1 - s.gtTimer.startMs ∧ s.env.chipBits = false :: [] ∧
      see (exec .worker s) (fun t => (t.gtTimer.armed, t.clockMs, t.txrxState)) = some (false, 3, .txWaitTxe) := by decide

/-- V-TX13 tick 1 from TX_IDLE, and the same tick with the gate open and a water level and an end pending. -/
theorem witness_TxLoadsAndTransmits_sync :
    let s := fun pending answer => { exchangeIn .txIdle pending 0 with
      cb := { pre := none, post := none, sync := some 5 }, env := { quietEnv with chipBits := [false], sync := [answer] } }
    quiet (s 0 false) = true ∧ (s 0 false).cb.sync = some 5 ∧ (s 0 false).env.sync = false :: [] ∧
      (s 0 true).env.sync = true :: [] ∧
      see (exec .worker (s 0 false)) (fun t => (t.txrxState, t.trace.length, t.fifo.bytesWritten)) = some (.txTransmit, 4, 2) ∧
      see (exec .worker (s 3 true)) (fun t => t.txrxState) = some .rxWaitRxs := by decide

/-- In TX_TRANSMIT with a sync callback that answers this. -/
def gated (answer : Bool) : State :=
  { exchangeIn .txTransmit 0 0 with
    cb := { pre := none, post := none, sync := some 5 }, env := { quietEnv with sync := [answer] } }

theorem witness_SyncGate :
    quiet (gated false) = true ∧ (gated false).txrxState = .txTransmit ∧ (gated false).cb.sync = some 5 ∧
      (gated false).env.sync = false :: [] ∧ (gated true).env.sync = true :: [] ∧
      (gated true).irq.pending &&& txIrqs (gated true).params = 0 := by decide

/-- Nothing, the water level alone, and an end of transmission too. -/
theorem witness_WaterLevelReloads :
    let s := fun pending => { exchangeIn .txWaitWl pending 0 with fifo := { bytesTotal := 12, bytesWritten := 6 } }
    quiet (s 0) = true ∧ (s 0).txrxState = .txWaitWl ∧ (s 0).ctx.txBuf = some ⟨1, 0⟩ ∧
      (s 0).irq.pending &&& txIrqs (s 0).params = 0 ∧ (s 1).irq.pending &&& txIrqs (s 1).params = irqBit (s 1).params .fwl ∧
      min (s 1).params.wlChunk (12 - 6) ≤ (s 1).params.fifoDepth ∧
      inBounds (s 1).params ⟨1, 0⟩ 6 (min (s 1).params.wlChunk (12 - 6)) = true ∧
      (s 3).irq.pending &&& txIrqs (s 3).params ≠ 0 ∧ (s 3).irq.pending &&& txIrqs (s 3).params ≠ irqBit (s 3).params .fwl := by
  decide

/-- A length cell inside its region. -/
theorem cell_ok (s : State) (h : inBounds s.params ⟨3, 0⟩ 0 2 = true) (hc : s.ctx.rxRcvdLen = some ⟨3, 0⟩) :
    cellOk s.params s.ctx.rxRcvdLen := by
  intro c h'
  rw [hc] at h'
  cases h'
  exact h

theorem witness_EndOfTransmission :
    let s := fun pending => exchangeIn .txWaitTxe pending 0
    quiet (s 1) = true ∧ (s 1).txrxState = .txWaitTxe ∧ ¬(s 1).irq.pending &&& irqBit (s 1).params .txe ≠ 0 ∧
      (s 2).irq.pending &&& irqBit (s 2).params .txe ≠ 0 ∧ (s 2).ctx.rxBuf ≠ none ∧
      ((s 2).irq.pending &&& ~~~(txIrqs (s 2).params)) &&& (irqBit (s 2).params .rxs ||| irqBit (s 2).params .nre) = 0 ∧
      { s 2 with ctx := { (s 2).ctx with rxBuf := none } }.ctx.rxBuf = none := by decide

theorem witness_EndOfTransmission_cell :
    cellOk (exchangeIn .txWaitTxe 2 0).params (exchangeIn .txWaitTxe 2 0).ctx.rxRcvdLen := cell_ok _ (by decide) rfl

/-- Nothing; NRE alone; RXS with an NRE (E22). -/
theorem witness_ReceptionStart :
    let s := exchangeIn .rxIdle 0 0
    let u := fun pending => exchangeIn .rxWaitRxs pending 0
    let mask := irqBit s.params .rxs ||| irqBit s.params .nre
    quiet s = true ∧ s.txrxState = .rxIdle ∧ s.irq.pending &&& mask = 0 ∧ (u 0).txrxState = .rxWaitRxs ∧
      (u 0x10).irq.pending &&& mask ≠ 0 ∧ (u 0x10).irq.pending &&& mask &&& irqBit s.params .rxs = 0 ∧
      (u 0x14).irq.pending &&& mask &&& irqBit s.params .rxs ≠ 0 ∧
      ((u 0x14).irq.pending &&& ~~~mask) &&& (irqBit s.params .rxe ||| irqBit s.params .fwl ||| irqBit s.params .rxRest) = 0 := by
  decide

theorem witness_ReceptionStart_cell :
    cellOk (exchangeIn .rxIdle 0 0).params (exchangeIn .rxIdle 0 0).ctx.rxRcvdLen := cell_ok _ (by decide) rfl

/-- V-RX3, V-RX5 and V-RX6. -/
theorem witness_RestartHandling :
    let s := fun pending bits => answering (exchangeIn .rxWaitRxe pending 0) [] [] bits []
    let irq := fun u : State =>
      u.irq.pending &&& (irqBit u.params .rxe ||| irqBit u.params .fwl ||| irqBit u.params .rxRest)
    quiet (s 0x140 []) = true ∧ (s 0x140 []).txrxState = .rxWaitRxe ∧
      irq (s 0x140 []) &&& irqBit (s 0x140 []).params .rxe = 0 ∧ irq (s 0x140 []) &&& irqBit (s 0x140 []).params .rxRest ≠ 0 ∧
      irq (s 0x50 []) &&& irqBit (s 0x50 []).params .rxRest ≠ 0 ∧
      (s 0x50 []).irq.pending &&& irqBit (s 0x50 []).params .nre ≠ 0 ∧
      (s 0x140 []).irq.pending &&& irqBit (s 0x140 []).params .nre = 0 ∧ (s 0x140 [false]).env.chipBits = false :: [] ∧
      (s 0x140 [true, true]).env.chipBits = true :: true :: [] ∧ (s 0x140 [true, false]).env.chipBits = true :: false :: [] ∧
      (s 0x140 [true]).nrt.regVal ≠ 0 ∧ (nrtFor (s 0 []).params .nfca Config.fwtForever).regVal = 0 := by
  decide

/-- Nothing; the water level alone, with room in the buffer and with none (E23). -/
theorem witness_MidStreamDrain :
    let s := fun pending => exchangeIn .rxWaitRxe pending 0
    let mask := irqBit (s 0).params .rxe ||| irqBit (s 0).params .fwl ||| irqBit (s 0).params .rxRest
    quiet (s 0) = true ∧ (s 0).txrxState = .rxWaitRxe ∧ (s 0).ctx.rxBuf = some ⟨2, 0⟩ ∧ (s 0).irq.pending &&& mask = 0 ∧
      (s 1).irq.pending &&& mask ≠ 0 ∧ (s 1).irq.pending &&& mask &&& irqBit (s 1).params .rxe = 0 ∧
      (s 1).irq.pending &&& mask &&& irqBit (s 1).params .rxRest = 0 ∧ (s 1).params.wlChunk ≤ (s 1).params.fifoDepth ∧
      min (s 1).params.wlChunk (ceilDiv (s 1).ctx.rxBufLen.toNat 8 - 0) ≠ 0 ∧
      inBounds (s 1).params ⟨2, 0⟩ 0 (min (s 1).params.wlChunk (ceilDiv (s 1).ctx.rxBufLen.toNat 8 - 0)) = true ∧
      min (s 1).params.wlChunk (ceilDiv (s 1).ctx.rxBufLen.toNat 8 - 16) = 0 := by decide

/-- RX_WAIT_RXE with this pending, this EMD threshold, and the Chip's coming FIFO status and bytes. -/
def receiving (pending : Word) (emd : Emd) (regs fifo : List Byte) : State :=
  { answering (exchangeIn .rxWaitRxe pending 0) regs fifo [] [] with emd }

/-- P1 step 8: RXS with RXE, taken in one tick, from RX_WAIT_RXS, from RX_IDLE and from TX_WAIT_TXE with TXE. -/
theorem witness_ReceptionStart_onward :
    let s := fun st pending => { receiving pending { enabled := false, maxLen := 0 } [2, 0] [4, 0] with
      txrxState := st, fifo := { bytesTotal := 0, bytesWritten := 0 }, ctx := opsOf 16 128 0x0E }
    quiet (s .rxWaitRxs 0xC) = true ∧
      [s .rxWaitRxs 0xC, s .rxIdle 0xC, s .txWaitTxe 0xE].map (fun s => see (exec .worker s) (fun t => (t.response, t.txrxState,
        Memory.load t.mem (hostAddr 2 0)))) = List.replicate 3 (some ([0], .idle, 4)) := by decide

/-- P3: five bytes, framing and CRC errors, EMD off. -/
theorem witness_ReceptionReadOut :
    let s := receiving 0x508 { enabled := false, maxLen := 0 } [5, 0] [0x11, 0x22, 0x33, 0xC1, 0xC2]
    let u := refreshed s
    let n := numBytes s.params u.fifoStatus
    quiet s = true ∧ s.txrxState = .rxWaitRxe ∧ s.status = .busy ∧ s.irq.pending &&& irqBit s.params .rxe ≠ 0 ∧
      s.ctx.rxBuf = some ⟨2, 0⟩ ∧ n ≤ s.params.fifoDepth ∧ s.emd.enabled = false ∧
      inBounds s.params ⟨2, 0⟩ s.fifo.bytesWritten (readOutOf s n (incBits s.params u.fifoStatus)).stored = true := by decide

theorem witness_ReceptionReadOut_cell :
    cellOk (receiving 0x508 { enabled := false, maxLen := 0 } [5, 0] []).params
      (receiving 0x508 { enabled := false, maxLen := 0 } [5, 0] []).ctx.rxRcvdLen := cell_ok _ (by decide) rfl

/-- E26, and V-RX19 with its NRE; three bytes are the last below a threshold of 4. -/
theorem witness_EmdRearm :
    let s := fun pending => receiving pending { enabled := true, maxLen := 4 } [3, 0] []
    let u := refreshed (s 0x108)
    let n := numBytes u.params u.fifoStatus
    let mask := irqBit u.params .rxe ||| irqBit u.params .fwl ||| irqBit u.params .rxRest
    let left := fun pending : Word => pending &&& ~~~mask &&& ~~~(errIrqs u.params)
    quiet (s 0x108) = true ∧ (s 0x108).txrxState = .rxWaitRxe ∧ (s 0x108).status = .busy ∧
      (s 0x108).irq.pending &&& irqBit u.params .rxe ≠ 0 ∧ (s 0x108).emd.enabled = true ∧
      verdict u.params u.mode (0x108 &&& ~~~(irqBit u.params .fwl)) u.fifoStatus = .crc ∧
      n ≤ u.params.fifoDepth ∧ n < (4 : Half).toNat ∧ left 0x108 &&& irqBit u.params .nre = 0 ∧
      left 0x118 &&& irqBit u.params .nre ≠ 0 := by decide

/-- A tick that ends an exchange with a post callback, one that goes on, and one whose drain never ends. -/
theorem witness_TickEnds :
    (let s := { exchangeIn .rxWaitRxs 0x10 0 with cb := { pre := none, post := some 2, sync := none } }
     s.txrxState ≠ .idle ∧ s.cb.post = some 2 ∧ see (exec .worker s) (fun t => (t.running, t.txrxState)) = some (none, .idle)) ∧
    see (exec .worker (exchangeIn .rxWaitRxs 0 0)) (fun t => (t.running, t.txrxState)) = some (none, .rxWaitRxs) ∧
    see (exec .worker { base with env := { quietEnv with lineRest := true } }) State.running = some (some .hung) := by
  decide

theorem witness_TerminalCleansUp :
    let s := { exchangeIn .rxWaitRxs 0x10 0 with cb := { pre := none, post := some 2, sync := none } }
    s.txrxState ≠ .idle ∧ s.cb.post = some 2 ∧ see (exec .worker s) State.txrxState = some .idle := by decide

/-- A tick that does change a byte of the receive buffer, and one of the length cell. -/
theorem witness_TickWritesOnlyReceiveMemory :
    let s := receiving 0x508 { enabled := false, maxLen := 0 } [5, 0] [0x11, 0x22, 0x33, 0xC1, 0xC2]
    Memory.load s.mem 8589934592 = 0 ∧ Memory.load s.mem 12884901888 = 0 ∧
      see (exec .worker s) (fun t => (Memory.load t.mem 8589934592, Memory.load t.mem 12884901888)) = some (0x11, 24) := by
  decide

theorem witness_TickFrame :
    [Instr.worker, .irqPoll, .irqIsr, .irqGet 8, .irqWait 8 3].map
      (fun i => (see (exec i (aggregator 8 0 [true, false] [8, 0, 0])) (fun _ => true))) =
    [some true, some true, some true, some true, some true] := by decide

/-- Each setting's own command does write it. -/
theorem witness_SettingsHaveTheirWriters :
    see (exec (.setPreCb (some 1)) base) (fun t => t.cb == base.cb) = some false ∧
    see (exec (.setEmd 1 4) base) (fun t => t.emd == base.emd) = some false ∧
    see (exec (.setGt 4) base) (fun t => t.gt == base.gt) = some false ∧
    see (exec .fieldOff base) (fun t => t.fieldOn == base.fieldOn) = some false := by decide

theorem witness_OneExchangeAtATime :
    (exchangeIn .txIdle 0 0).txrxState ≠ .idle ∧
      [Instr.startTransceive good 8 good 16 good 0 1000, .setMode 1 0 0, .setBitrate 0 0, .setEmd 1 4, .fieldOn, .init].map
        opcode = [(0x30 : Byte), 0x10, 0x12, 0x80, 0x20, 0x01] := by decide

/-- A refusal and a fault do occur. -/
theorem witness_StopsByName :
    exec (.iso15693Eof good 16 good) base = .refused (.refusedHelper 0x73) ∧
      exec .worker (receiving 8 { enabled := false, maxLen := 0 } [7, 0] []) = .fault .chipRange := ⟨rfl, rfl⟩

/-- With these region sizes. -/
def sized (sizes : List (Byte × Nat)) (s : State) : State := { s with params := { s.params with regionSizes := sizes } }

/-- A first load and a reload one byte outside their region, a length cell outside at the start of a reception. -/
theorem witness_EngineFaults_tx :
    (let s := sized [(1, 1)] (answering (exchangeIn .txWaitFdt 0 0) [] [] [false] [])
     quiet s = true ∧ s.env.chipBits = false :: [] ∧ 0 < min s.ctx.txBytes s.params.fifoDepth ∧
       inBounds s.params ⟨1, 0⟩ 0 (min s.ctx.txBytes s.params.fifoDepth) = false) ∧
    (let s := sized [(1, 9)] { exchangeIn .txWaitWl 1 0 with fifo := { bytesTotal := 12, bytesWritten := 6 } }
     quiet s = true ∧ s.irq.pending &&& txIrqs s.params = irqBit s.params .fwl ∧
       inBounds s.params ⟨1, 0⟩ 6 (min s.params.wlChunk (12 - 6)) = false) ∧
    (let s := fun t pending => sized [(3, 1)] (exchangeIn t pending 0)
     quiet (s .rxIdle 0) = true ∧ (s .rxIdle 0).ctx.rxRcvdLen = some ⟨3, 0⟩ ∧
       inBounds (s .rxIdle 0).params ⟨3, 0⟩ 0 2 = false ∧ (s .txWaitTxe 2).ctx.rxBuf ≠ none ∧
       (s .txWaitTxe 2).irq.pending &&& irqBit (s .txWaitTxe 2).params .txe ≠ 0) := by decide

/-- A chunk and a last read (V-F1) outside the rx buffer's region, a length cell outside at the end, and a count one
above the FIFO depth (V-F2). -/
theorem witness_EngineFaults_rx :
    (let s := sized [(2, 3)] (exchangeIn .rxWaitRxe 1 0)
     quiet s = true ∧ s.params.wlChunk ≤ s.params.fifoDepth ∧
       inBounds s.params ⟨2, 0⟩ 0 (min s.params.wlChunk (s.ctx.capBytes - 0)) = false) ∧
    (let s := sized [(2, 1), (3, 1)] (receiving 8 { enabled := false, maxLen := 0 } [4, 0] [])
     let n := numBytes s.params (refreshed s).fifoStatus
     s.irq.pending &&& irqBit s.params .rxe ≠ 0 ∧ n ≤ s.params.fifoDepth ∧ (readOutOf s n 0).stored = 2 ∧
       inBounds s.params ⟨2, 0⟩ 0 2 = false ∧ inBounds s.params ⟨3, 0⟩ 0 2 = false) ∧
    (let s := receiving 8 { enabled := false, maxLen := 0 } [7, 0] []
     s.fifoStatus.valid = false ∧ s.params.fifoDepth < numBytes s.params (refreshed s).fifoStatus) := by decide

/-- Wrong state four ways; refused lengths (V-AC2 to V-AC4); the accepted lengths `B = 7, b = 0` and `B = 2, b = 3`. -/
theorem witness_AnticollStarts :
    let s := fun B b => { base with mem := anticollMem B b }
    State.reset.lifecycle = .uninit ∧ (exchangeIn .txIdle 0 0).txrxState ≠ .idle ∧ { base with mode := .nfcb }.mode ≠ .nfca ∧
      (s 2 3).lifecycle = .modeSet ∧ (s 2 3).txrxState = .idle ∧ (s 2 3).mode = .nfca ∧ (s 2 3).fieldOn = true ∧
      toBuf (some { region := 4, offset := 0 }) = some ⟨4, 0⟩ ∧ inBounds base.params ⟨4, 1⟩ 0 1 = true ∧
      (bufByte (s 1 8).mem ⟨4, 1⟩ 0).toNat = 8 ∧ (bufByte (s 7 1).mem ⟨4, 0⟩ 0).toNat + 1 = 8 ∧
      (bufByte (s 7 0).mem ⟨4, 0⟩ 0).toNat = base.params.anticollFrameLen ∧ (bufByte (s 2 3).mem ⟨4, 1⟩ 0).toNat = 3 ∧
      8 * (base.params.anticollFrameLen - 2) < 65536 ∧ 8 * 2 + 3 ≤ base.params.maxTxBits ∧
      { base with fieldOn := false }.fieldOn = false ∧ { base.params with maxTxBits := 18 }.maxTxBits < 8 * 2 + 3 ∧
      toBuf none = none ∧ (bufByte (s 2 0).mem ⟨4, 1⟩ 0).toNat = 0 ∧
      inBounds base.params ⟨1, 0⟩ 2 1 = true := by decide

/-- The locals of P6's call. -/
def p6 : Anticoll :=
  { buf := some ⟨1, 0⟩, bytesToSend := some ⟨4, 0⟩, bitsToSend := some ⟨4, 1⟩, sentBytes := 2, sentBits := 3, saved := 0xB5 }

/-- P6's exchange ending in a collision, in a timeout, and not ending. -/
theorem witness_AnticollEnds :
    let s := fun pending => { receiving pending { enabled := false, maxLen := 0 } [2, 0, 0x15] [0x48, 0x11] with
      running := some (.anticoll p6), ctx := { (opsOf 19 40 0x0E) with rxBuf := some ⟨1, 2⟩ } }
    (s 0x1008).running = some (.anticoll p6) ∧
      see (exec .worker (s 0x1008)) (fun t => (t.running, t.txrxState, t.status)) = some (none, .idle, .rfCollision) ∧
      see (exec .worker { s 0x10 with txrxState := .rxWaitRxs }) (fun t => (t.running, t.txrxState, t.status)) =
        some (none, .idle, .timeout) ∧
      see (exec .worker (s 0)) (fun t => (t.running, t.txrxState)) = some (none, .rxWaitRxe) ∧
      inBounds base.params ⟨1, 0⟩ p6.sentBytes 1 = true ∧ inBounds base.params ⟨4, 0⟩ 0 1 = true := by decide

theorem witness_AnticollEnds_point :
    isrPoint (exchangeIn .rxWaitRxe 0x1008 0) = .ok (exchangeIn .rxWaitRxe 0x1008 0) := rfl

/-- A tick of the two loops that stores outside the rx buffer's region: the step faults as the tick does. -/
theorem witness_loops_fault :
    let s := { sized [(2, 1)] (receiving 8 { enabled := false, maxLen := 0 } [4, 0] [1, 2, 3, 4]) with ctx := opsOf 16 128 0x0E }
    let steps := [Running.blocking, .anticoll p6].map (fun r => step { s with running := some r })
    isrPoint s = .ok s ∧ exec .worker s = .fault .bufferBounds ∧ steps[0]? = some (.fault .bufferBounds) ∧
      steps[1]? = some (.fault .bufferBounds) := ⟨rfl, rfl, rfl, rfl⟩

/-- V-AC family: a call whose inner start is refused leaves collision detection off and the partial byte merged. -/
theorem test_anticoll_inner_refusal :
    see (exec (.iso14443aAnticollFrame (some ⟨1, 0⟩) (some ⟨4, 0⟩) (some ⟨4, 1⟩) (some ⟨3, 0⟩) 1000)
      { base with mem := anticollMem 2 3, fieldOn := false })
      (fun t => (t.response, t.cfg.collDetect, Memory.load t.mem 4294967298, t.trace.length)) =
    some ([6], false, 0x05, 2) := by decide

/-- A cell past its region, a null cell, and a partial byte past its region; the same at the helper's end. -/
theorem witness_AnticollFaults :
    let s := sized [(1, 2), (4, 2)] { base with mem := anticollMem 2 3 }
    let run := fun buf bytes bits : Option Ref => exec (.iso14443aAnticollFrame buf bytes bits none 1000) s
    s.lifecycle = .modeSet ∧ s.txrxState = .idle ∧ s.mode = .nfca ∧
      run (some ⟨1, 0⟩) (some ⟨4, 2⟩) (some ⟨4, 1⟩) = .fault .bufferBounds ∧
      run (some ⟨1, 0⟩) (some ⟨4, 0⟩) none = .fault .bufferBounds ∧
      run (some ⟨1, 0⟩) (some ⟨4, 0⟩) (some ⟨4, 1⟩) = .fault .bufferBounds ∧
      step { sized [(1, 2)] (receiving 0x1008 { enabled := false, maxLen := 0 } [2, 0, 0x15] [0x48, 0x11]) with
        running := some (.anticoll p6) } = .fault .bufferBounds := ⟨rfl, rfl, rfl, rfl, rfl, rfl, rfl⟩

end Sys2Proof.Tests
end

section
/-! PROOFS. The invariant of the block state (10 R34, R35, R43, R44, 44 R197) through each shared operation:
which updates keep it, and what has to hold before the others. -/

namespace Sys2Proof.Machine

variable {s t : State}

/-! ## Outcomes and computations -/

/-- Every next state the outcome answers satisfies `Q`. -/
def NextPost (o : Host.Outcome State Fault Refusal) (Q : State → Prop) : Prop :=
  ∀ t, o = .next t → Q t

@[simp] theorem nextPost_next (s : State) (Q : State → Prop) : NextPost (.next s) Q ↔ Q s :=
  ⟨fun h => h s rfl, fun h t e => by cases e; exact h⟩

theorem nextPost_settle {r : Run State} {Q : State → Prop}
    (h : Run.post r Q (fun s => Q (loopOn .hung s))) : NextPost (settle r) Q :=
  fun _ e => settle_post e h

/-- What follows `m` is judged from what `m` is known to answer. -/
theorem Run.post_seq {α β : Type} {m : Run α} {f : α → Run β} {P : α → Prop} {Q : β → Prop}
    {H : State → Prop} (hm : Run.post m P H) (hf : ∀ a, P a → Run.post (f a) Q H) :
    Run.post (m >>= f) Q H := by
  rw [Run.post_bind]
  exact Run.post_mono hm hf (fun _ h => h)

theorem Run.post_and {α : Type} {r : Run α} {Q Q' : α → Prop} {H H' : State → Prop}
    (h : Run.post r Q H) (h' : Run.post r Q' H') :
    Run.post r (fun a => Q a ∧ Q' a) (fun s => H s ∧ H' s) := by
  match r with
  | .ok _ => exact ⟨h, h'⟩
  | .error (.hang _) => exact ⟨h, h'⟩
  | .error (.fault _) => exact trivial

/-- A memory read never hangs. -/
theorem memRead_noHang (b : Option BufRef) (i n : Nat) (s : State) (H : State → Prop) :
    Run.post (memRead b i n s) (fun _ => True) H := by
  obtain ⟨_, h⟩ | ⟨_, _, _, _, h⟩ | ⟨_, _, h⟩ := memRead_cases b i n s <;> rw [h] <;> exact trivial

/-! ## Updates that keep the invariant -/

namespace Inv

theorem agg (h : Inv s) (a : AggStep s t) : Inv t := by
  obtain ⟨⟨p, n, e, rfl, _, _⟩, _, _, top⟩ := a
  exact { h with pendingTop := top.trans h.pendingTop }

/-- A consuming read only clears bits. -/
theorem getIrq (h : Inv s) (mask : Word) : Inv (getIrq mask s).2 := by
  refine { h with pendingTop := ?_ }
  have top := h.pendingTop
  show (s.irq.pending &&& ~~~mask).extractLsb' 24 8 = 0
  rw [BitVec.extractLsb'_and, top]
  simp

/-- The mask registers are written with the enable mask (40 R101). -/
theorem setEnableMask (h : Inv s) (w : Word) : Inv (setEnableMask w s) := by
  rw [setEnableMask_eq]
  exact { h with masks := masksOf_get w }

theorem setMem (h : Inv s) {m : List Host.Cell} (hm : Memory.wf m = true) : Inv (s.setMem m) :=
  { h with memory := hm }

theorem readClock (h : Inv s) : Inv (readClock s).2 := by
  obtain ⟨n, e, hr, _⟩ := readClock_eq s
  rw [hr]
  exact { h with stopwatch := h.stopwatch.trans (Nat.le_add_right _ _) }

theorem gtStart (h : Inv s) (ms : Nat) : Inv (gtStart ms s) := by
  obtain ⟨n, e, hr, _⟩ := readClock_eq s
  unfold Machine.gtStart
  rw [hr]
  exact { h with stopwatch := le_refl _ }

theorem gtDisarm (h : Inv s) : Inv (gtDisarm s) := { h with }

theorem fsClear (h : Inv s) : Inv (fsClear s) := { h with fifoCount := nofun }

theorem obsOff (h : Inv s) : Inv (obsOff s) := by
  rw [obsOff_eq]
  exact { h with observation := nofun }

theorem log (h : Inv s) (e : Event) : Inv (s.log e) := { h with }

theorem setFifo (h : Inv s) (a b : Nat) : Inv (s.setFifo a b) := { h with }

/-- The response and the loop in progress are outside the invariant. -/
theorem answer (h : Inv s) (resp : List Byte) (r : Option Running) :
    Inv ((s.setResponse resp).setRunning r) := { h with }

/-- A FIFO status update leaves a count in range (20 R67). -/
theorem fsUpdate (h : Inv s) : Run.post (fsUpdate s) Inv Inv := by
  obtain ⟨_, e⟩ | ⟨_, hc, e⟩ | ⟨_, _, e⟩ := fsUpdate_cases s <;> rw [e]
  · exact h
  · obtain ⟨u, f, ⟨n, e, rfl, _⟩, _, hf⟩ := fetchFifoStatus_spec s
    rw [hf] at hc ⊢
    exact { h with fifoCount := fun _ => hc }
  · exact trivial

end Inv

/-! ## Steps inside one sub-state -/

/-- An engine step that keeps the invariant and stays in its sub-state. -/
structure CalmStep (s t : State) : Prop where
  engine : EngineStep s t
  inv : Inv s → Inv t
  sub : t.txrxState = s.txrxState

namespace CalmStep

theorem refl (s : State) : CalmStep s s := ⟨.refl s, id, rfl⟩

theorem trans {s t u : State} (h : CalmStep s t) (h' : CalmStep t u) : CalmStep s u :=
  ⟨h.engine.trans h'.engine, fun i => h'.inv (h.inv i), h'.sub.trans h.sub⟩

theorem of_agg (a : AggStep s t) : CalmStep s t := by
  refine ⟨.of_agg a, fun i => i.agg a, ?_⟩
  obtain ⟨⟨_, _, _, rfl, _⟩, _⟩ := a
  rfl

theorem of_draw (d : DrawStep s t) : CalmStep s t := of_agg (.of_draw d)

variable (s : State)

theorem answer (resp : List Byte) (r : Option Running) :
    CalmStep s ((s.setResponse resp).setRunning r) :=
  ⟨.plain (by constructor <;> rfl) rfl rfl rfl rfl, fun i => i.answer resp r, rfl⟩

theorem log (e : Event) : CalmStep s (s.log e) := ⟨.log s e, fun i => i.log e, rfl⟩

theorem setFifo (a b : Nat) : CalmStep s (s.setFifo a b) := ⟨.setFifo s a b, fun i => i.setFifo a b, rfl⟩

theorem fsClear : CalmStep s (fsClear s) := ⟨.fsClear s, fun i => i.fsClear, rfl⟩

theorem gtDisarm : CalmStep s (gtDisarm s) := ⟨.gtDisarm s, fun i => i.gtDisarm, rfl⟩

theorem getIrq (mask : Word) : CalmStep s (getIrq mask s).2 := ⟨.getIrq s mask, fun i => i.getIrq mask, rfl⟩

theorem setEnableMask (w : Word) : CalmStep s (setEnableMask w s) :=
  ⟨.setEnableMask s w, fun i => i.setEnableMask w, by rw [setEnableMask_eq]⟩

theorem readClock : CalmStep s (readClock s).2 := ⟨.readClock s, fun i => i.readClock, rfl⟩

theorem obsOff : CalmStep s (obsOff s) := ⟨.obsOff s, fun i => i.obsOff, by rw [obsOff_eq]⟩

end CalmStep

/-- From `s`, the computation reaches only states a `CalmStep` away. -/
abbrev CalmPost (s : State) (r : Run State) : Prop := Run.post r (CalmStep s) (CalmStep s)

theorem drain_calm (s : State) : CalmPost s (drain s) :=
  Run.post_mono (drain_post s) (fun _ => .of_agg) (fun _ => .of_agg)

theorem isrPoint_calm (s : State) : CalmPost s (isrPoint s) :=
  Run.post_mono (isrPoint_post s) (fun _ => .of_agg) (fun _ => .of_agg)

theorem isrBody_calm (s : State) : CalmPost s (isrBody s) :=
  Run.post_mono (isrBody_post s) (fun _ => .of_agg) (fun _ => .of_agg)

theorem engineGet_calm (mask : Word) (s : State) :
    Run.post (engineGet mask s) (fun r => CalmStep s r.2) (CalmStep s) :=
  Run.post_mono (engineGet_post mask s)
    (fun _ ⟨t, a, e⟩ => e ▸ (CalmStep.of_agg a).trans (CalmStep.getIrq t mask)) (fun _ => .of_agg)

theorem engineDisable_calm (mask : Word) (s : State) : CalmPost s (engineDisable mask s) :=
  Run.post_mono (engineDisable_post mask s)
    (fun _ ⟨t, a, e⟩ => e ▸ (CalmStep.of_agg a).trans (CalmStep.setEnableMask t _)) (fun _ => .of_agg)

theorem engineEnable_calm (mask : Word) (s : State) : CalmPost s (engineEnable mask s) :=
  Run.post_mono (engineEnable_post mask s)
    (fun _ ⟨t, a, e⟩ => e ▸ (CalmStep.of_agg a).trans (CalmStep.setEnableMask t _)) (fun _ => .of_agg)

theorem fetchFifoStatus_txrxState (s : State) : (fetchFifoStatus s).txrxState = s.txrxState := by
  obtain ⟨u, f, ⟨n, e, rfl, _⟩, _, h⟩ := fetchFifoStatus_spec s
  rw [h]
  rfl

theorem fsUpdate_calm (s : State) : CalmPost s (fsUpdate s) := by
  obtain ⟨_, h⟩ | ⟨_, hc, h⟩ | ⟨_, _, h⟩ := fsUpdate_cases s <;> rw [h]
  · exact .refl s
  · refine ⟨.fetchFifoStatus s, fun i => ?_, fetchFifoStatus_txrxState s⟩
    have hi := i.fsUpdate
    rwa [h] at hi
  · exact trivial

/-! ## The invariant at a sub-state -/

/-- The invariant, in the sub-state `x`. -/
structure InvAt (x : TxrxState) (s : State) : Prop where
  inv : Inv s
  sub : s.txrxState = x

/-- Two sub-states of the same phase: TX, RX, or no exchange. -/
def SamePhase (x y : TxrxState) : Prop := y.isTx = x.isTx ∧ y.isRx = x.isRx

theorem TxrxState.idle_iff (x : TxrxState) : x = .idle ↔ x.isTx = false ∧ x.isRx = false := by
  cases x <;> decide

theorem SamePhase.idle_iff {x y : TxrxState} (h : SamePhase x y) : y = .idle ↔ x = .idle := by
  obtain ⟨ht, hr⟩ := h
  rw [TxrxState.idle_iff x, TxrxState.idle_iff y, ht, hr]

namespace InvAt

variable {x : TxrxState}

theorem calm (h : InvAt x s) (c : CalmStep s t) : InvAt x t := ⟨c.inv h.inv, c.sub.trans h.sub⟩

theorem calmPost {r : Run State} (h : InvAt x s) (c : CalmPost s r) : Run.post r (InvAt x) Inv :=
  Run.post_mono c (fun _ => h.calm) (fun _ c => c.inv h.inv)

theorem engineGet (h : InvAt x s) (mask : Word) :
    Run.post (engineGet mask s) (fun r => InvAt x r.2) Inv :=
  Run.post_mono (engineGet_calm mask s) (fun _ => h.calm) (fun _ c => c.inv h.inv)

/-- Moving inside a phase. -/
theorem setTxrx (h : InvAt x s) {y : TxrxState} (p : SamePhase x y) : Inv (s.setTxrx y) := by
  have i := h.inv
  have hy : y = .idle ↔ s.txrxState = .idle := by rw [h.sub]; exact p.idle_iff
  obtain ⟨hbt, hbr⟩ := i.phaseBuffer
  rw [h.sub] at hbt hbr
  obtain ⟨ht, hr⟩ := p
  exact { i with
    exchange := (not_congr hy).trans i.exchange
    busy := fun b => mt hy.1 (i.busy b)
    observation := fun o => mt hy.1 (i.observation o)
    phaseBuffer := ⟨fun e => hbt (ht ▸ e), fun e => hbr (hr ▸ e)⟩ }

/-- During an exchange every status is allowed. -/
theorem setStatus (h : InvAt x s) (hx : x ≠ .idle) (v : Status) : InvAt x (s.setStatus v) :=
  ⟨{ h.inv with busy := fun _ => h.sub ▸ hx }, h.sub⟩

theorem obsOn (h : InvAt x s) (hx : x ≠ .idle) : InvAt x (obsOn s) := by
  unfold Machine.obsOn
  split
  · exact ⟨{ h.inv with observation := fun _ => h.sub ▸ hx }, h.sub⟩
  · exact h

theorem memWrite (h : InvAt x s) (buf : Option BufRef) (i : Nat) (bytes : List Byte) :
    Run.post (memWrite buf i bytes s) (InvAt x) Inv := by
  refine Run.post_mono (memWrite_post buf i bytes s Inv) ?_ (fun _ => id)
  rintro t ⟨m, rfl, hw, _⟩
  exact ⟨h.inv.setMem (hw h.inv.memory), h.sub⟩

theorem memWrite16 (h : InvAt x s) (cell : Option BufRef) (v : Half) :
    Run.post (memWrite16 cell v s) (InvAt x) Inv := by
  refine Run.post_mono (memWrite16_post cell v s Inv) ?_ (fun _ => id)
  rintro t ⟨m, rfl, hw, _⟩
  exact ⟨h.inv.setMem (hw h.inv.memory), h.sub⟩

end InvAt

/-! ## The terminal cleanup (44 R197) -/

/-- All that the cleanup leaves to do is to leave the exchange. -/
structure CleanupDone (s : State) : Prop where
  inv : Inv s
  notBusy : s.status ≠ .busy
  obsOff : s.obs.active = false
  defaults : s.cfg = { modeDefaults s.params s.mode with collDetect := s.cfg.collDetect }

namespace CleanupDone

theorem agg (h : CleanupDone s) (a : AggStep s t) : CleanupDone t := by
  have i := h.inv.agg a
  obtain ⟨⟨_, _, _, rfl, _⟩, _⟩ := a
  exact { h with inv := i }

theorem setEnableMask (h : CleanupDone s) (w : Word) : CleanupDone (setEnableMask w s) := by
  have i := h.inv.setEnableMask w
  rw [setEnableMask_eq] at i ⊢
  exact { h with inv := i }

/-- Leaving the exchange keeps the invariant once the cleanup is done. -/
theorem leave (h : CleanupDone s) : Inv ((s.setTxrx .idle).setLifecycle .modeSet) :=
  { h.inv with
    exchange := by simp
    busy := fun b => absurd b h.notBusy
    observation := fun o => absurd o (by simp [h.obsOff])
    defaults := fun _ => h.defaults
    phaseBuffer := ⟨nofun, nofun⟩ }

end CleanupDone

/-- The cleanup up to the mask registers: observation mode off, the mode's frame configuration. -/
theorem cleanupDone_of_notBusy (h : Inv s) (hb : s.status ≠ .busy) :
    CleanupDone (setFrameCfg { modeDefaults (obsOff s).params (obsOff s).mode with
      collDetect := (obsOff s).cfg.collDetect } (obsOff s)) := by
  have i := h.obsOff
  rw [obsOff_eq] at i ⊢
  exact ⟨{ i with defaults := fun _ => rfl }, hb, rfl, rfl⟩

/-- The terminal cleanup keeps the invariant where a status other than BUSY has been set. -/
theorem exchangeEnd_inv (h : Inv s) (hb : s.status ≠ .busy) : Run.post (exchangeEnd s) Inv Inv := by
  have c := cleanupDone_of_notBusy h hb
  unfold exchangeEnd
  refine Run.post_seq (P := CleanupDone) (Run.post_mono (engineDisable_post _ _) (fun r ⟨u, a, e⟩ => ?_)
    (fun _ a => c.inv.agg a)) (fun r d => ?_)
  · exact e ▸ (c.agg a).setEnableMask _
  · show Inv (((emitCallback r.cb.post .postCallback r).setTxrx .idle).setLifecycle .modeSet)
    rw [emitCallback_eq]
    exact { d.leave with }

theorem failStatus_notBusy (s : State) : (failStatus s).status ≠ .busy := by
  unfold failStatus
  split
  · nofun
  · assumption

theorem Inv.failStatus (h : Inv s) : Inv (failStatus s) := by
  unfold Machine.failStatus
  split
  · exact { h with busy := nofun }
  · exact h

/-- Leaving an exchange on failure (44 R183, 45 R218, 47 R254). -/
theorem exchangeEnd_failStatus_inv (h : Inv s) : Run.post (exchangeEnd (failStatus s)) Inv Inv :=
  exchangeEnd_inv h.failStatus (failStatus_notBusy s)

end Sys2Proof.Machine
end

section
/-! PROOFS. Every state action of a tick keeps the invariant (44 R172 to R183, 45 R200 to R218), and with
them the tick. -/

namespace Sys2Proof.Machine

variable {s : State} {x : TxrxState}

/-- The action leads to states with the invariant alone, a drain that never ends included. -/
abbrev ActionInv (r : Run (Flow × State)) : Prop := Run.post r (fun p => Inv p.2) Inv

theorem goTo_inv (h : InvAt x s) {y : TxrxState} (p : SamePhase x y) : ActionInv (goTo y s) := h.setTxrx p

theorem yieldIn_inv (h : Inv s) : ActionInv (yieldIn s) := h

/-- Going to another sub-state of the phase with a new status. -/
theorem goTo_setStatus_inv (h : InvAt x s) (hx : x ≠ .idle) (v : Status) {y : TxrxState}
    (p : SamePhase x y) : ActionInv (goTo y (s.setStatus v)) := goTo_inv (h.setStatus hx v) p

theorem endExchange_inv (h : Inv s) (hb : s.status ≠ .busy) : ActionInv (endExchange s) :=
  Run.post_seq (exchangeEnd_inv h hb) (fun _ => yieldIn_inv)

theorem endExchange_failStatus_inv (h : Inv s) : ActionInv (endExchange (failStatus s)) :=
  endExchange_inv h.failStatus (failStatus_notBusy s)

/-! ## TX -/

theorem txIdle_inv (h : InvAt .txIdle s) : ActionInv (txIdle s) := goTo_inv h ⟨rfl, rfl⟩

theorem txWaitGt_inv (h : InvAt .txWaitGt s) : ActionInv (txWaitGt s) := by
  have onward : ∀ t, InvAt .txWaitGt t → ActionInv (goTo .txWaitFdt (gtDisarm t)) := fun t ht =>
    goTo_inv (ht.calm (.gtDisarm t)) ⟨rfl, rfl⟩
  have read := h.calm (.readClock s)
  unfold txWaitGt
  split
  · dsimp only [gtIsExpired]
    split
    · exact onward _ read
    · exact yieldIn_inv read.inv
  · exact onward s h

theorem txWaitFdt_inv (h : InvAt .txWaitFdt s) : ActionInv (txWaitFdt s) := by
  have polled := h.calm (.of_draw (chipStatus_draw s))
  dsimp only [txWaitFdt]
  split
  · exact yieldIn_inv polled.inv
  · exact goTo_inv polled ⟨rfl, rfl⟩

theorem txPrepTx_inv (h : InvAt .txPrepTx s) : ActionInv (txPrepTx s) := by
  have cleared := ((h.calm (.log s (.cmd .resetRxGain))).calm (.setFifo _ s.ctx.txBytes 0)).calm (.fsClear _)
  have counted := ((cleared.calm (.log _ (.cmd .clearFifo))).calm (.fsClear _)).calm
    (.log _ (.regWrite16 .numTxBytes s.ctx.txBufLen))
  dsimp only [txPrepTx, busCmd, busWrite16]
  refine Run.post_seq (memRead_noHang _ _ _ _ Inv) (fun bytes _ => ?_)
  have loaded := (counted.calm (.of_draw (fifoWrite_draw bytes _))).calm (.fsClear _)
  exact goTo_inv ((loaded.calm (.setFifo _ _ _)).obsOn nofun) ⟨rfl, rfl⟩

/-- Where the rest of the frame goes: a reload where bytes are left, the end of transmission where none is. -/
theorem restOfFrame_inv (h : InvAt x s) (p : SamePhase x .txWaitWl) :
    ActionInv (if s.fifo.bytesWritten < s.fifo.bytesTotal then goTo .txWaitWl s else goTo .txWaitTxe s) := by
  split
  · exact goTo_inv h p
  · exact goTo_inv h p

theorem transmit_inv (h : InvAt .txTransmit s) : ActionInv (transmit s) :=
  restOfFrame_inv (h.calm (.log s (.cmd (if s.cfg.txCrc then .transmitWithCrc else .transmitWithoutCrc)))) ⟨rfl, rfl⟩

theorem txTransmit_inv (h : InvAt .txTransmit s) : ActionInv (txTransmit s) := by
  have asked := h.calm (.of_draw (syncAnswer_draw s))
  unfold txTransmit
  split
  · exact transmit_inv h
  · dsimp only
    split
    · exact transmit_inv asked
    · exact yieldIn_inv asked.inv

theorem txWaitWl_inv (h : InvAt .txWaitWl s) : ActionInv (txWaitWl s) := by
  refine Run.post_seq (h.engineGet _) (fun ⟨irq, t⟩ ht => ?_)
  dsimp only at ht ⊢
  split
  · exact yieldIn_inv ht.inv
  · split
    · exact goTo_inv ht ⟨rfl, rfl⟩
    · exact goTo_setStatus_inv ht nofun _ ⟨rfl, rfl⟩

theorem txReloadFifo_inv (h : InvAt .txReloadFifo s) : ActionInv (txReloadFifo s) := by
  refine Run.post_seq (memRead_noHang _ _ _ _ Inv) (fun bytes _ => ?_)
  have loaded := (h.calm (.of_draw (fifoWrite_draw bytes s))).calm (.fsClear _)
  exact restOfFrame_inv (loaded.calm (.setFifo _ _ _)) ⟨rfl, rfl⟩

theorem txWaitTxe_inv (h : InvAt .txWaitTxe s) : ActionInv (txWaitTxe s) := by
  refine Run.post_seq (h.engineGet _) (fun ⟨irq, t⟩ ht => ?_)
  dsimp only at ht ⊢
  split
  · exact goTo_inv ht ⟨rfl, rfl⟩
  · exact yieldIn_inv ht.inv

/-- From the TX phase to the RX phase, where there is an rx buffer (44 R182). -/
theorem setTxrx_rxIdle_inv (h : InvAt x s) (hx : x ≠ .idle) (hr : s.ctx.rxBuf ≠ none) :
    Inv (s.setTxrx .rxIdle) := by
  have i := h.inv
  have busyPhase : s.txrxState ≠ .idle := h.sub ▸ hx
  exact { i with
    exchange := ⟨fun _ => i.exchange.1 busyPhase, fun _ => nofun⟩
    busy := nofun
    observation := nofun
    phaseBuffer := ⟨nofun, fun _ => hr⟩ }

theorem txDone_inv (h : InvAt .txDone s) : ActionInv (txDone s) := by
  have off := h.calm (.obsOff s)
  dsimp only [txDone]
  split
  · exact endExchange_inv (off.setStatus nofun .none).inv nofun
  next hr => exact setTxrx_rxIdle_inv off nofun hr

theorem txFail_inv (h : InvAt .txFail s) : ActionInv (txFail s) := endExchange_failStatus_inv h.inv.obsOff

/-! ## RX -/

theorem rxIdle_inv (h : InvAt .rxIdle s) : ActionInv (rxIdle s) := by
  have cleared := (h.calm (.setFifo s 0 0)).calm (.fsClear _)
  exact Run.post_seq (cleared.memWrite16 _ 0) (fun t ht => goTo_inv ht ⟨rfl, rfl⟩)

theorem rxWaitRxs_inv (h : InvAt .rxWaitRxs s) : ActionInv (rxWaitRxs s) := by
  refine Run.post_seq (h.engineGet _) (fun ⟨irq, t⟩ ht => ?_)
  dsimp only at ht ⊢
  split
  · exact yieldIn_inv ht.inv
  · split
    · exact goTo_inv ht ⟨rfl, rfl⟩
    · exact goTo_setStatus_inv ht nofun _ ⟨rfl, rfl⟩

theorem rxRestart_inv (h : InvAt .rxWaitRxe s) : ActionInv (rxRestart s) := by
  refine Run.post_seq (h.engineGet _) (fun ⟨nre, t⟩ ht => ?_)
  have asked := ht.calm (.of_draw (chipStatus_draw t))
  dsimp only [nrtRunning]
  split
  · exact goTo_setStatus_inv ht nofun _ ⟨rfl, rfl⟩
  · split
    · exact goTo_setStatus_inv asked nofun _ ⟨rfl, rfl⟩
    · refine Run.post_seq (asked.engineGet _) (fun ⟨_, u⟩ hu => ?_)
      have receiverRead := hu.calm (.of_draw (chipStatus_draw u))
      dsimp only
      split
      · exact yieldIn_inv receiverRead.inv
      · exact yieldIn_inv (receiverRead.setTxrx ⟨rfl, rfl⟩)

theorem rxWaitRxe_inv (h : InvAt .rxWaitRxe s) : ActionInv (rxWaitRxe s) := by
  refine Run.post_seq (h.engineGet _) (fun ⟨irq, t⟩ ht => ?_)
  dsimp only at ht ⊢
  split
  · exact yieldIn_inv ht.inv
  · split
    · exact Run.post_seq (ht.engineGet _) (fun ⟨_, u⟩ hu => hu.setTxrx ⟨rfl, rfl⟩)
    · split
      · exact rxRestart_inv ht
      · exact goTo_inv ht ⟨rfl, rfl⟩

theorem rxReadFifo_inv (h : InvAt .rxReadFifo s) : ActionInv (rxReadFifo s) := by
  have read := (h.calm (.of_draw (fifoRead_draw s.params.wlChunk s))).calm (.fsClear _)
  exact Run.post_seq (read.memWrite _ _ _) (fun t ht => (ht.calm (.setFifo t _ _)).setTxrx ⟨rfl, rfl⟩)

theorem classify_inv (errIrq : Word) (h : InvAt x s) :
    Run.post (classify errIrq s) (fun r => InvAt x r.2) Inv := by
  unfold classify
  split
  · exact h
  · exact Run.post_seq (h.calmPost (fsUpdate_calm s)) (fun _ ht => ht)

theorem nfcaReclassify_inv (h : InvAt x s) (hx : x ≠ .idle) :
    Run.post (nfcaReclassify s) (InvAt x) Inv := by
  unfold nfcaReclassify
  split
  · refine Run.post_seq (h.calmPost (fsUpdate_calm s)) (fun t ht => ?_)
    split
    · exact ht.setStatus hx _
    · exact ht
  · exact h

theorem emdRearming_inv (h : InvAt .rxErrCheck s) : ActionInv (emdRearm s) := by
  have unmasked := (h.calm (.log s (.cmd .unmaskReceive))).calm (.fsClear _)
  refine Run.post_seq (unmasked.engineGet _) (fun ⟨nre, t⟩ ht => ?_)
  dsimp only at ht ⊢
  split
  · exact goTo_setStatus_inv ht nofun _ ⟨rfl, rfl⟩
  · exact yieldIn_inv (((ht.setStatus nofun .busy).calm (.setFifo _ 0 0)).setTxrx ⟨rfl, rfl⟩)

theorem emdHandling_inv (h : InvAt .rxErrCheck s) : ActionInv (emdHandling s) := by
  unfold emdHandling
  split
  · refine Run.post_seq (h.calmPost (fsUpdate_calm s)) (fun t ht => ?_)
    split
    · exact emdRearming_inv ht
    · exact goTo_inv ht ⟨rfl, rfl⟩
  · exact goTo_inv h ⟨rfl, rfl⟩

theorem rxErrCheck_inv (errIrq : Word) (h : InvAt .rxErrCheck s) : ActionInv (rxErrCheck errIrq s) := by
  refine Run.post_seq (classify_inv errIrq h) (fun ⟨e, t⟩ ht => ?_)
  cases e with
  | none => exact goTo_inv ht ⟨rfl, rfl⟩
  | some e =>
    exact Run.post_seq (nfcaReclassify_inv (ht.setStatus nofun e) nofun) (fun _ hu => emdHandling_inv hu)

theorem readOut_inv (n : Nat) (h : InvAt x s) : InvAt x (readOut n s).2 := by
  unfold readOut
  split
  · exact h
  · exact (h.calm (.of_draw (fifoRead_draw n s))).calm (.fsClear _)

/-- An overflow is recorded as NOMEM (45 R215). -/
theorem InvAt.nomemIf (h : InvAt x s) (hx : x ≠ .idle) (overflow : Prop) [Decidable overflow] :
    InvAt x (if overflow then s.setStatus .nomem else s) := by
  split
  · exact h.setStatus hx .nomem
  · exact h

/-- The length cell is written and the exchange goes to its terminal (45 R213, R215, R216). -/
theorem lengthCell_inv (h : InvAt .rxReadData s) (cell : Option BufRef) (v : Half) :
    ActionInv (do
      let s ← memWrite16 cell v s
      if s.status ≠ .busy then goTo .rxFail s else goTo .rxDone s) := by
  refine Run.post_seq (h.memWrite16 cell v) (fun t ht => ?_)
  split
  · exact goTo_inv ht ⟨rfl, rfl⟩
  · exact goTo_inv ht ⟨rfl, rfl⟩

theorem rxReadData_inv (h : InvAt .rxReadData s) : ActionInv (rxReadData s) := by
  refine Run.post_seq (h.calmPost (fsUpdate_calm s)) (fun t ht => ?_)
  refine Run.post_seq ((readOut_inv (fifoCount t) ht).memWrite _ _ _) (fun u hu => ?_)
  exact lengthCell_inv ((hu.calm (.setFifo u _ _)).nomemIf nofun _) _ _

theorem rxDone_inv (h : InvAt .rxDone s) : ActionInv (rxDone s) :=
  endExchange_inv (h.setStatus nofun .none).inv nofun

theorem rxFail_inv (h : InvAt .rxFail s) : ActionInv (rxFail s) := endExchange_failStatus_inv h.inv

/-! ## The tick -/

theorem stateAction_inv (errIrq : Word) (h : Inv s) : ActionInv (stateAction errIrq s) := by
  unfold stateAction
  split
  next => exact yieldIn_inv h
  next hx => exact txIdle_inv ⟨h, hx⟩
  next hx => exact txWaitGt_inv ⟨h, hx⟩
  next hx => exact txWaitFdt_inv ⟨h, hx⟩
  next hx => exact txPrepTx_inv ⟨h, hx⟩
  next hx => exact txTransmit_inv ⟨h, hx⟩
  next hx => exact txWaitWl_inv ⟨h, hx⟩
  next hx => exact txReloadFifo_inv ⟨h, hx⟩
  next hx => exact txWaitTxe_inv ⟨h, hx⟩
  next hx => exact txDone_inv ⟨h, hx⟩
  next hx => exact txFail_inv ⟨h, hx⟩
  next hx => exact rxIdle_inv ⟨h, hx⟩
  next hx => exact rxWaitRxs_inv ⟨h, hx⟩
  next hx => exact rxWaitRxe_inv ⟨h, hx⟩
  next hx => exact rxErrCheck_inv errIrq ⟨h, hx⟩
  next hx => exact rxReadData_inv ⟨h, hx⟩
  next hx => exact rxReadFifo_inv ⟨h, hx⟩
  next hx => exact rxDone_inv ⟨h, hx⟩
  next hx => exact rxFail_inv ⟨h, hx⟩

theorem runActions_inv (n : Nat) (errIrq : Word) (h : Inv s) : Run.post (runActions n errIrq s) Inv Inv := by
  induction n generalizing errIrq s with
  | zero => exact h
  | succ n ih =>
    refine Run.post_seq (stateAction_inv errIrq h) (fun ⟨flow, t⟩ ht => ?_)
    cases flow with
    | yield => exact ht
    | go e => exact ih e ht

/-- A worker tick keeps the invariant (44 R171). -/
theorem tick_inv (h : Inv s) : Run.post (tick s) Inv Inv := by
  have drained : Run.post (drain s) Inv Inv :=
    Run.post_mono (drain_calm s) (fun _ c => c.inv h) (fun _ c => c.inv h)
  unfold tick
  dsimp only
  split
  · exact Run.post_seq drained (fun t ht => runActions_inv _ _ ht)
  · exact runActions_inv _ _ h

end Sys2Proof.Machine
end

section
/-! PROOFS. The start of an exchange and the anticollision helper (44 R170, 46 R240): what they write, and that
they keep the invariant. -/

namespace Sys2Proof.Machine

variable {s t : State}

/-! ## The start of an exchange (44 R170) -/

/-- The timer record that NRT programming leaves agrees with its register (41 R130). -/
theorem nrtFor_consistent (p : Config.Params) (mode : Mode) (fwt : Word) : (nrtFor p mode fwt).consistent := by
  have fits : ∀ steps, (BitVec.ofNat 16 (min 0xFFFF steps)).toNat = min 0xFFFF steps := fun steps => by
    rw [BitVec.toNat_ofNat]
    omega
  have off : ∀ r, r = min 0xFFFF r → (BitVec.ofNat 16 r != 0) = (r != 0) := fun r hr => by
    rw [hr, Bool.eq_iff_iff, bne_iff_ne, bne_iff_ne, ne_eq, ← BitVec.toNat_inj, fits]
    rfl
  unfold nrtFor Nrt.consistent
  split
  · exact ⟨rfl, rfl⟩
  · exact ⟨by simp only [fits], (off _ (by omega)).symm⟩

/-- The set-up of an exchange as one update: the operands, the frame configuration, the two timers, the trace. -/
theorem startProgram_eq (c : Ctx) (s : State) : startProgram c s = { s with
    ctx := c, cfg := flagCfg s.params s.mode c.flags s.cfg.collDetect
    nrt := nrtFor s.params s.mode c.fwt, gptPreload := gptFor s.params s.mode s.fdtPoll
    trace := .regWrite16 .gpt (gptFor s.params s.mode s.fdtPoll) ::
      (nrtEvents c.fwt (nrtFor s.params s.mode c.fwt) ++
        .regWrite .frameCfg (.frameCfg (flagCfg s.params s.mode c.flags s.cfg.collDetect)) ::
          (callbackEvents s.cb.pre .preCallback ++ s.trace)) } := by
  dsimp only [startProgram]
  rw [emitCallback_eq, programNrt_eq]
  rfl

/-- What the checks of START_TRANSCEIVE let through (44 R170). -/
theorem startCheck_none {c : Ctx} (h : startCheck c s = none) :
    Lifecycle.modeSet.rank ≤ s.lifecycle.rank ∧ s.txrxState = .idle ∧ flagsReserved c.flags = 0 ∧
      ¬(c.txBuf = none ∧ c.rxBuf = none) := by
  unfold startCheck at h
  split at h
  · cases h
  next gate =>
    split at h
    · cases h
    · split at h
      · cases h
      next reserved =>
        split at h
        · cases h
        · split at h
          · cases h
          next buffers =>
            simp only [not_or, not_lt, ne_eq, not_not] at gate reserved
            exact ⟨gate.1, gate.2, reserved, buffers⟩

/-- The sub-state an exchange starts in. -/
def startState (c : Ctx) : TxrxState := if c.txBuf ≠ none then .txIdle else .rxIdle

theorem startState_cases (c : Ctx) :
    c.txBuf ≠ none ∧ startState c = .txIdle ∨ c.txBuf = none ∧ startState c = .rxIdle := by
  unfold startState
  split
  next h => exact .inl ⟨h, rfl⟩
  next h => exact .inr ⟨not_not.1 h, rfl⟩

/-- The exchange set up and entered, before its aggregator steps. -/
theorem startProgram_entered {c : Ctx} (h : Inv s) (hc : startCheck c s = none) :
    InvAt (startState c) (((startProgram c s).setTxrx (startState c)).setLifecycle .txrx) := by
  obtain ⟨_, _, hflags, hbuf⟩ := startCheck_none hc
  have entered : startState c ≠ .idle ∧ ((startState c).isTx = true → c.txBuf ≠ none) ∧
      ((startState c).isRx = true → c.rxBuf ≠ none) := by
    obtain ⟨ht, e⟩ | ⟨ht, e⟩ := startState_cases c <;> rw [e]
    · exact ⟨nofun, fun _ => ht, nofun⟩
    · exact ⟨nofun, nofun, fun _ hr => hbuf ⟨ht, hr⟩⟩
  obtain ⟨notIdle, phase⟩ := entered
  rw [startProgram_eq]
  exact ⟨{ h with
    exchange := ⟨fun _ => rfl, fun _ => notIdle⟩
    busy := fun _ => notIdle
    observation := fun _ => notIdle
    defaults := nofun
    timer := nrtFor_consistent _ _ _
    flags := hflags
    phaseBuffer := phase }, rfl⟩

theorem startState_ne_idle (c : Ctx) : startState c ≠ .idle := by
  obtain ⟨_, e⟩ | ⟨_, e⟩ := startState_cases c <;> rw [e] <;> nofun

theorem startAccepted_inv {c : Ctx} (h : Inv s) (hc : startCheck c s = none) :
    Run.post (startAccepted c s) Inv Inv := by
  refine Run.post_seq ((startProgram_entered h hc).engineGet _) (fun ⟨_, t⟩ ht => ?_)
  refine Run.post_seq (ht.calmPost (engineEnable_calm _ t)) (fun u hu => ?_)
  exact (hu.setStatus (startState_ne_idle c) .busy).inv

/-- A start refused or accepted keeps the invariant (44 R170). -/
theorem start_inv (c : Ctx) (h : Inv s) : Run.post (start c s) (fun r => Inv r.2) Inv := by
  unfold start
  split
  · exact h
  next hc => exact Run.post_seq (startAccepted_inv h hc) (fun _ ht => ht)

/-! ## The anticollision helper's own part (46 R240, R243 to R245, R248) -/

/-- From `s` to `t` only collision detection was switched, memory written, answers taken and events recorded. -/
def HelperStep (s t : State) : Prop :=
  ∃ on mem new env,
    t = { s with cfg := { s.cfg with collDetect := on }, mem, trace := new ++ s.trace, env } ∧
      (Memory.wf s.mem = true → Memory.wf mem = true)

namespace HelperStep

theorem refl (s : State) : HelperStep s s := ⟨s.cfg.collDetect, s.mem, [], s.env, rfl, id⟩

theorem trans {s t u : State} (h : HelperStep s t) (h' : HelperStep t u) : HelperStep s u := by
  obtain ⟨_, _, n, _, rfl, hw⟩ := h
  obtain ⟨on, m, n', e, rfl, hw'⟩ := h'
  exact ⟨on, m, n' ++ n, e, by simp, fun h => hw' (hw h)⟩

theorem of_draw (d : DrawStep s t) : HelperStep s t := by
  obtain ⟨n, e, rfl, _⟩ := d
  exact ⟨s.cfg.collDetect, s.mem, n, e, rfl, id⟩

theorem setCollDetect (on : Bool) (s : State) : HelperStep s (setCollDetect on s) :=
  ⟨on, s.mem, [_], s.env, rfl, id⟩

/-- Collision detection is not part of the mode's frame configuration, so the invariant does not see it. -/
theorem inv (h : HelperStep s t) (i : Inv s) : Inv t := by
  obtain ⟨on, m, n, e, rfl, hw⟩ := h
  exact { i with
    memory := hw i.memory
    defaults := fun l => congrArg (fun c : Cfg => { c with collDetect := on }) (i.defaults l) }

end HelperStep

theorem memWrite8_helper (buf : Option BufRef) (i : Nat) (v : Byte) (s : State) (H : State → Prop) :
    Run.post (memWrite8 buf i v s) (HelperStep s) H := by
  refine Run.post_mono (memWrite_post buf i [v] s H) ?_ (fun _ => id)
  rintro t ⟨m, rfl, hw, _⟩
  exact ⟨s.cfg.collDetect, m, [], s.env, rfl, hw⟩

theorem memRead8_noHang (buf : Option BufRef) (i : Nat) (s : State) (H : State → Prop) :
    Run.post (memRead8 buf i s) (fun _ => True) H :=
  Run.post_seq (memRead_noHang buf i 1 s H) (fun _ _ => trivial)

theorem clearPartial_helper (buf : Option BufRef) (B b : Nat) (s : State) (H : State → Prop) :
    Run.post (clearPartial buf B b s) (fun r => HelperStep s r.2) H := by
  unfold clearPartial
  split
  · exact .refl s
  · refine Run.post_seq (memRead8_noHang _ _ s H) (fun save _ => ?_)
    exact Run.post_seq (memWrite8_helper _ _ _ s H) (fun t ht => ht)

theorem restorePartial_helper (call : Anticoll) (s : State) (H : State → Prop) :
    Run.post (restorePartial call s) (HelperStep s) H := by
  unfold restorePartial
  split
  · exact .refl s
  · exact Run.post_seq (memRead8_noHang _ _ s H) (fun now _ => memWrite8_helper _ _ _ s H)

theorem writeCollision_helper (call : Anticoll) (s : State) (H : State → Prop) :
    Run.post (writeCollision call s) (HelperStep s) H := by
  have read := HelperStep.of_draw (busRead_draw .collPos s)
  refine Run.post_seq (memWrite8_helper _ _ _ _ H) (fun t ht => ?_)
  exact Run.post_mono (memWrite8_helper _ _ _ t H) (fun u hu => (read.trans ht).trans hu) (fun _ => id)

/-- The helper's end: its own part, then the answer. -/
theorem finishAnticoll_helper (call : Anticoll) (st : Status) (s : State) (H : State → Prop) :
    Run.post (finishAnticoll call st s) (fun t => ∃ u, HelperStep s u ∧ t = reply st [] u) H := by
  refine Run.post_seq (restorePartial_helper call s H) (fun t ht => ?_)
  have answered : ∀ u, HelperStep s u →
      ∃ v, HelperStep s v ∧ reply st [] (setCollDetect false u) = reply st [] v := fun u hu =>
    ⟨_, hu.trans (.setCollDetect false u), rfl⟩
  dsimp only
  split
  · exact Run.post_seq (writeCollision_helper call t H) (fun u hu => answered u (ht.trans hu))
  · exact answered t ht

/-- A property that the helper's own part, an exchange's start and an answer keep, the whole call keeps. -/
theorem beginAnticoll_post {P : State → Prop} (helper : ∀ u v, P u → HelperStep u v → P v)
    (starts : ∀ c u, P u → Run.post (start c u) (fun r => P r.2) P)
    (answers : ∀ u resp r, P u → P ((u.setResponse resp).setRunning r))
    (buf bytesToSend bitsToSend rxLength : Option BufRef) (fwt : Word) (s : State) (h : P s) :
    Run.post (beginAnticoll buf bytesToSend bitsToSend rxLength fwt s) P P := by
  refine Run.post_seq (memRead8_noHang _ _ s P) (fun B _ => ?_)
  refine Run.post_seq (memRead8_noHang _ _ s P) (fun b _ => ?_)
  split
  · exact answers _ _ _ h
  · have detecting := helper _ _ h (.setCollDetect true s)
    refine Run.post_seq (clearPartial_helper _ _ _ _ P) (fun ⟨saved, t⟩ ht => ?_)
    refine Run.post_seq (starts _ t (helper _ _ detecting ht)) (fun ⟨st, u⟩ hu => ?_)
    dsimp only
    split
    · refine Run.post_mono (finishAnticoll_helper _ st u P) ?_ (fun _ => id)
      rintro _ ⟨v, hv, rfl⟩
      exact answers _ _ _ (helper _ _ hu hv)
    · exact answers _ _ _ hu

/-! ## The loop commands' iterations -/

theorem isrPoint_inv (h : Inv s) : Run.post (isrPoint s) Inv Inv :=
  Run.post_mono (isrPoint_calm s) (fun _ c => c.inv h) (fun _ c => c.inv h)

theorem blockingIteration_inv (h : Inv s) : Run.post (blockingIteration s) Inv Inv := by
  refine Run.post_seq (isrPoint_inv h) (fun t ht => ?_)
  refine Run.post_seq (tick_inv ht) (fun u hu => ?_)
  split
  · exact hu.answer _ _
  · exact hu.answer _ _

theorem finishAnticoll_inv (call : Anticoll) (st : Status) (h : Inv s) :
    Run.post (finishAnticoll call st s) Inv Inv := by
  refine Run.post_mono (finishAnticoll_helper call st s Inv) ?_ (fun _ => id)
  rintro _ ⟨u, hu, rfl⟩
  exact (hu.inv h).answer _ _

theorem anticollIteration_inv (call : Anticoll) (h : Inv s) : Run.post (anticollIteration call s) Inv Inv := by
  refine Run.post_seq (isrPoint_inv h) (fun t ht => ?_)
  refine Run.post_seq (tick_inv ht) (fun u hu => ?_)
  split
  · exact finishAnticoll_inv call _ hu
  · exact hu.answer _ _

/-- One iteration of IRQ_WAIT is a calm step (40 R106). -/
theorem waitIteration_calm (mask timeoutMs : Word) (t0 : Nat) (s : State) :
    CalmPost s (waitIteration mask timeoutMs t0 s) := by
  refine Run.post_seq (drain_calm s) (fun t ht => ?_)
  refine Run.post_seq (Run.post_mono (engineGet_calm mask t) (fun _ c => ht.trans c) (fun _ c => ht.trans c))
    (fun ⟨r, u⟩ hu => ?_)
  have answered := fun v (hv : CalmStep s v) resp run => hv.trans (.answer v resp run)
  have timed := hu.trans (.readClock u)
  dsimp only at hu ⊢
  split
  · exact answered u hu _ _
  · split
    · exact answered u hu _ _
    · split
      · exact answered _ timed _ _
      · exact answered _ timed _ _

end Sys2Proof.Machine
end

section
/-! PROOFS. What each command can do to the settings and to the invariant, said once (`CommandEffect`), and from
it that every command and every step keeps the invariant. -/

namespace Sys2Proof.Machine

variable {s t : State}

theorem Run.post_imp {α : Type} {p : Prop} {r : Run α} {Q : α → Prop} {H : State → Prop}
    (h : p → Run.post r Q H) : Run.post r (fun a => p → Q a) (fun s => p → H s) := by
  match r with
  | .ok _ => exact h
  | .error (.hang _) => exact h
  | .error (.fault _) => exact trivial

/-! ## Commands that stay within the engine's frame -/

/-- An engine step that keeps the invariant, whatever its sub-states. -/
structure LawfulStep (s t : State) : Prop where
  engine : EngineStep s t
  inv : Inv s → Inv t

namespace LawfulStep

theorem of_calm (c : CalmStep s t) : LawfulStep s t := ⟨c.engine, c.inv⟩

theorem trans {s t u : State} (h : LawfulStep s t) (h' : LawfulStep t u) : LawfulStep s u :=
  ⟨h.engine.trans h'.engine, fun i => h'.inv (h.inv i)⟩

theorem answer (h : LawfulStep s t) (resp : List Byte) (r : Option Running) :
    LawfulStep s ((t.setResponse resp).setRunning r) := h.trans (.of_calm (.answer t resp r))

theorem post {r : Run State} (c : CalmPost s r) : Run.post r (LawfulStep s) (LawfulStep s) :=
  Run.post_mono c (fun _ => .of_calm) (fun _ => .of_calm)

/-- A computation of lawful steps, as a command: a hang is answered by no response. -/
theorem settle {r : Run State} (h : Run.post r (LawfulStep s) (LawfulStep s)) :
    NextPost (settle r) (LawfulStep s) :=
  nextPost_settle (Run.post_mono h (fun _ => id) (fun _ u => u.answer [] _))

end LawfulStep

theorem Inv.reply (h : Inv s) (st : Status) (results : List Byte) : Inv (reply st results s) := h.answer _ _

/-- A command that answers and changes nothing else. -/
theorem reply_lawful (st : Status) (results : List Byte) (s : State) : LawfulStep s (reply st results s) :=
  .of_calm (.answer s _ _)

theorem tick_lawful (s : State) : Run.post (tick s) (LawfulStep s) (LawfulStep s) :=
  Run.post_mono (Run.post_and (tick_engine s) (Run.post_imp tick_inv))
    (fun _ ⟨e, i⟩ => ⟨e, i⟩) (fun _ ⟨e, i⟩ => ⟨e, i⟩)

theorem execWorker_lawful (s : State) : NextPost (execWorker s) (LawfulStep s) :=
  LawfulStep.settle (Run.post_seq (tick_lawful s) (fun _ h => h.answer _ _))

theorem execIrqPoll_lawful (s : State) : NextPost (execIrqPoll s) (LawfulStep s) :=
  LawfulStep.settle (Run.post_seq (LawfulStep.post (drain_calm s)) (fun _ h => h.answer _ _))

theorem execIrqIsr_lawful (s : State) : NextPost (execIrqIsr s) (LawfulStep s) := by
  unfold execIrqIsr
  split
  · exact (nextPost_next s _).2 (.of_calm (.refl s))
  · exact LawfulStep.settle (LawfulStep.post (isrBody_calm s))

theorem execIrqGet_lawful (mask : Word) (s : State) : NextPost (execIrqGet mask s) (LawfulStep s) :=
  (nextPost_next _ _).2 ((LawfulStep.of_calm (.getIrq s mask)).answer _ _)

theorem execIrqWait_lawful (mask timeoutMs : Word) (s : State) :
    NextPost (execIrqWait mask timeoutMs s) (LawfulStep s) := by
  have started := LawfulStep.of_calm (CalmStep.readClock s)
  have waited := LawfulStep.post (waitIteration_calm mask timeoutMs (readClock s).1 (readClock s).2)
  exact LawfulStep.settle (Run.post_mono waited (fun _ => started.trans) (fun _ => started.trans))

theorem setEnableMask_lawful (w : Word) (s : State) : LawfulStep s (setEnableMask w s) :=
  .of_calm (.setEnableMask s w)

theorem fifoQuery_lawful (field : State → List Byte) (s : State) :
    NextPost (fifoQuery field s) (LawfulStep s) :=
  LawfulStep.settle (Run.post_seq (LawfulStep.post (fsUpdate_calm s)) (fun _ h => h.answer _ _))

/-! ## What a command keeps of the registrations and settings -/

/-- The host's registrations, the parameters and the port are as they were; the clock and the trace only grew. -/
structure RegistrationsKept (s t : State) : Prop where
  cb : t.cb = s.cb
  irqCallback : t.irq.callback = s.irq.callback
  emd : t.emd = s.emd
  obsConfigured : t.obs.configured = s.obs.configured
  params : t.params = s.params
  port : t.port = s.port
  clock : s.clockMs ≤ t.clockMs
  trace : s.trace <:+ t.trace

theorem RegistrationsKept.trans {s t u : State} (h : RegistrationsKept s t) (h' : RegistrationsKept t u) :
    RegistrationsKept s u where
  cb := h'.cb.trans h.cb
  irqCallback := h'.irqCallback.trans h.irqCallback
  emd := h'.emd.trans h.emd
  obsConfigured := h'.obsConfigured.trans h.obsConfigured
  params := h'.params.trans h.params
  port := h'.port.trans h.port
  clock := h.clock.trans h'.clock
  trace := h.trace.trans h'.trace

/-- Mode, rates, durations and field are as they were too. -/
structure SettingsKept (s t : State) : Prop extends RegistrationsKept s t where
  mode : t.mode = s.mode
  txBR : t.txBR = s.txBR
  rxBR : t.rxBR = s.rxBR
  fdtPoll : t.fdtPoll = s.fdtPoll
  fdtListen : t.fdtListen = s.fdtListen
  gt : t.gt = s.gt
  fieldOn : t.fieldOn = s.fieldOn

namespace SettingsKept

theorem trans {s t u : State} (h : SettingsKept s t) (h' : SettingsKept t u) : SettingsKept s u where
  toRegistrationsKept := h.toRegistrationsKept.trans h'.toRegistrationsKept
  mode := h'.mode.trans h.mode
  txBR := h'.txBR.trans h.txBR
  rxBR := h'.rxBR.trans h.rxBR
  fdtPoll := h'.fdtPoll.trans h.fdtPoll
  fdtListen := h'.fdtListen.trans h.fdtListen
  gt := h'.gt.trans h.gt
  fieldOn := h'.fieldOn.trans h.fieldOn

theorem of_engine (h : EngineStep s t) : SettingsKept s t where
  cb := h.frame.cb
  irqCallback := h.frame.irqCallback
  emd := h.frame.emd
  obsConfigured := h.frame.obsConfigured
  params := h.frame.params
  port := h.frame.port
  clock := h.clock
  trace := h.trace
  mode := h.frame.mode
  txBR := h.frame.txBR
  rxBR := h.frame.rxBR
  fdtPoll := h.frame.fdtPoll
  fdtListen := h.frame.fdtListen
  gt := h.frame.gt
  fieldOn := h.frame.fieldOn

theorem of_helper (h : HelperStep s t) : SettingsKept s t := by
  obtain ⟨_, _, new, _, rfl, _⟩ := h
  exact { of_engine (.refl s) with trace := List.suffix_append new s.trace }

theorem startProgram (c : Ctx) (s : State) : SettingsKept s (startProgram c s) := by
  rw [startProgram_eq]
  refine { of_engine (.refl s) with trace := ?_ }
  exact (((List.suffix_append _ _).trans (List.suffix_cons _ _)).trans (List.suffix_append _ _)).trans
    (List.suffix_cons _ _)

end SettingsKept

/-- Kept registrations leave each writer's clause at its first case. -/
theorem RegistrationsKept.unwritten (k : RegistrationsKept s t) {A B C D E : Prop} (settings : E) :
    (t.cb = s.cb ∨ A) ∧ (t.irq.callback = s.irq.callback ∨ B) ∧ (t.emd = s.emd ∨ C) ∧
      (t.obs.configured = s.obs.configured ∨ D) ∧
      (t.params = s.params ∧ t.port = s.port ∧ s.clockMs ≤ t.clockMs ∧ s.trace <:+ t.trace) ∧ E :=
  ⟨.inl k.cb, .inl k.irqCallback, .inl k.emd, .inl k.obsConfigured, ⟨k.params, k.port, k.clock, k.trace⟩, settings⟩

/-- Kept settings leave each writer's clause at its first case; the operands' clause is the command's. -/
theorem SettingsKept.unwritten (k : SettingsKept s t) {A B C D E F G : Prop} (operands : G) :
    (t.mode = s.mode ∨ A) ∧ (t.txBR = s.txBR ∧ t.rxBR = s.rxBR ∨ B) ∧ (t.fdtPoll = s.fdtPoll ∨ C) ∧
      (t.fdtListen = s.fdtListen ∨ D) ∧ (t.gt = s.gt ∨ E) ∧ (t.fieldOn = s.fieldOn ∨ F) ∧ G :=
  ⟨.inl k.mode, .inl ⟨k.txBR, k.rxBR⟩, .inl k.fdtPoll, .inl k.fdtListen, .inl k.gt, .inl k.fieldOn, operands⟩

/-- The block state reset inside a run keeps the host's registrations (47 R250, R251). -/
theorem resetKeeping_registrations (s : State) : RegistrationsKept s (resetKeeping s) :=
  ⟨rfl, rfl, rfl, rfl, rfl, rfl, le_refl _, List.suffix_refl _⟩

/-- No exchange, no pending bit, nothing enabled, the timers off (70 R290). -/
theorem reset_inv : Inv State.reset where
  memory := rfl
  pendingTop := rfl
  exchange := by decide
  busy := nofun
  masks := by decide
  observation := nofun
  defaults := nofun
  timer := ⟨rfl, rfl⟩
  stopwatch := le_refl _
  fifoCount := nofun
  flags := by decide
  phaseBuffer := ⟨nofun, nofun⟩

/-- The block state reset inside a run has the invariant as reset has it; host memory and the clock stay. -/
theorem resetKeeping_inv (h : Inv s) : Inv (resetKeeping s) :=
  { reset_inv with
    memory := h.memory
    defaults := nofun
    stopwatch := Nat.zero_le _
    fifoCount := nofun }

/-! ## Commands that start an exchange -/

/-- The settings are kept and so is the invariant; the operand registers and the timers may be programmed. -/
structure ProgramStep (s t : State) : Prop where
  settings : SettingsKept s t
  inv : Inv s → Inv t

namespace ProgramStep

theorem of_lawful (h : LawfulStep s t) : ProgramStep s t := ⟨.of_engine h.engine, h.inv⟩

theorem trans {s t u : State} (h : ProgramStep s t) (h' : ProgramStep t u) : ProgramStep s u :=
  ⟨h.settings.trans h'.settings, fun i => h'.inv (h.inv i)⟩

theorem answer (h : ProgramStep s t) (resp : List Byte) (r : Option Running) :
    ProgramStep s ((t.setResponse resp).setRunning r) := h.trans (.of_lawful (.of_calm (.answer t resp r)))

theorem settle {r : Run State} (h : Run.post r (ProgramStep s) (ProgramStep s)) :
    NextPost (settle r) (ProgramStep s) :=
  nextPost_settle (Run.post_mono h (fun _ => id) (fun _ u => u.answer [] _))

end ProgramStep

theorem startAccepted_settings (c : Ctx) (s : State) :
    Run.post (startAccepted c s) (SettingsKept s) (SettingsKept s) := by
  have entered : SettingsKept s (((startProgram c s).setTxrx (startState c)).setLifecycle .txrx) :=
    (SettingsKept.startProgram c s).trans (.of_engine ((EngineStep.setTxrx _ _).trans (EngineStep.setLifecycle _ _)))
  have onward : ∀ u v, SettingsKept s u → CalmStep u v → SettingsKept s v := fun u v h c =>
    h.trans (.of_engine c.engine)
  refine Run.post_seq (Run.post_mono (engineGet_calm _ _) (fun _ => onward _ _ entered) (fun _ => onward _ _ entered))
    (fun ⟨_, t⟩ ht => ?_)
  refine Run.post_seq (Run.post_mono (engineEnable_calm _ t) (fun _ => onward _ _ ht) (fun _ => onward _ _ ht))
    (fun u hu => ?_)
  exact hu.trans (.of_engine (.setStatus u .busy))

/-- A start, refused or accepted (44 R170). -/
theorem start_program (c : Ctx) (s : State) :
    Run.post (start c s) (fun r => ProgramStep s r.2) (ProgramStep s) := by
  have settings : Run.post (start c s) (fun r => SettingsKept s r.2) (SettingsKept s) := by
    unfold start
    split
    · exact .of_engine (.refl s)
    · exact Run.post_seq (startAccepted_settings c s) (fun _ h => h)
  exact Run.post_mono (Run.post_and settings (Run.post_imp (start_inv c)))
    (fun _ ⟨k, i⟩ => ⟨k, i⟩) (fun _ ⟨k, i⟩ => ⟨k, i⟩)

theorem execStartTransceive_program (txBuf : Option Ref) (txBufLen : Half) (rxBuf : Option Ref) (rxBufLen : Half)
    (rxRcvdLen : Option Ref) (flags fwt : Word) (s : State) :
    NextPost (execStartTransceive txBuf txBufLen rxBuf rxBufLen rxRcvdLen flags fwt s) (ProgramStep s) :=
  ProgramStep.settle (Run.post_seq (start_program _ s) (fun _ h => h.answer _ _))

theorem execTransceiveBlocking_program (txBuf : Option Ref) (txBufLen : Half) (rxBuf : Option Ref)
    (rxBufLen : Half) (rxRcvdLen : Option Ref) (flags fwt : Word) (s : State) :
    NextPost (execTransceiveBlocking txBuf txBufLen rxBuf rxBufLen rxRcvdLen flags fwt s) (ProgramStep s) := by
  refine ProgramStep.settle (Run.post_seq (start_program _ s) (fun ⟨st, t⟩ h => ?_))
  dsimp only at h ⊢
  split
  · exact h.answer _ _
  · exact h.answer _ _

theorem execIso14443aAnticollFrame_program (buf bytesToSend bitsToSend rxLength : Option Ref) (fwt : Word)
    (s : State) :
    NextPost (execIso14443aAnticollFrame buf bytesToSend bitsToSend rxLength fwt s) (ProgramStep s) := by
  have refused : NextPost (.next (reply .wrongState [] s)) (ProgramStep s) :=
    (nextPost_next _ _).2 (.of_lawful (reply_lawful _ _ s))
  unfold execIso14443aAnticollFrame
  split
  · exact refused
  · split
    · exact refused
    · refine ProgramStep.settle (beginAnticoll_post (fun u v h hv => ?_) (fun c u h => ?_)
        (fun u resp r h => h.answer resp r) _ _ _ _ fwt s (.of_lawful (.of_calm (.refl s))))
      · exact h.trans ⟨.of_helper hv, hv.inv⟩
      · exact Run.post_mono (start_program c u) (fun _ => h.trans) (fun _ => h.trans)

/-! ## Commands that write a setting -/

/-- The rate of one direction after SET_BITRATE: KEEP leaves it as it was (42 R147). -/
def newRate (rate old : Byte) : Byte := if rate = Config.keep then old else rate

/-- The body of SET_BITRATE as one update (42 R147). -/
theorem applyRates_eq (txBR rxBR : Byte) (s : State) : applyRates txBR rxBR s = { s with
    txBR := newRate txBR s.txBR, rxBR := newRate rxBR s.rxBR
    trace := .presetApplied (.bitrate (newRate txBR s.txBR) (newRate rxBR s.rxBR)) ::
      .regWrite .bitrateReg (.brCfg (newRate txBR s.txBR) (newRate rxBR s.rxBR)) :: s.trace } := rfl

/-- A SET_MODE that succeeds, as one update (42 R141). -/
theorem applyMode_eq (m : Mode) (txBR rxBR : Byte) (s : State) : applyMode m txBR rxBR s = { s with
    lifecycle := s.lifecycle.max .modeSet, mode := m, cfg := modeDefaults s.params m
    txBR := newRate txBR s.txBR, rxBR := newRate rxBR s.rxBR
    trace := .presetApplied (.bitrate (newRate txBR s.txBR) (newRate rxBR s.rxBR)) ::
      .regWrite .bitrateReg (.brCfg (newRate txBR s.txBR) (newRate rxBR s.rxBR)) ::
      .presetApplied (.tech m) :: .regWrite .frameCfg (.frameCfg (modeDefaults s.params m)) ::
      .regWrite .modeReg (.modeCfg m) :: s.trace } := by
  simp only [applyMode, applyRates_eq, setFrameCfg, writeFrameCfg, busWrite, State.log, State.setCfg, State.setMode,
    State.setLifecycle]

/-- Outside an exchange SET_MODE never leads into one. -/
theorem Lifecycle.max_modeSet_ne_txrx {l : Lifecycle} (h : l ≠ .txrx) : l.max .modeSet ≠ .txrx := by
  cases l with
  | txrx => exact absurd rfl h
  | uninit | init | modeSet => decide

/-- SET_MODE writes the frame configuration that its lifecycle calls for (42 R141, R144). -/
theorem Inv.applyMode (h : Inv s) (hx : s.txrxState = .idle) (m : Mode) (txBR rxBR : Byte) :
    Inv (applyMode m txBR rxBR s) := by
  have notTxrx := Lifecycle.max_modeSet_ne_txrx (fun l => h.exchange.2 l hx)
  rw [applyMode_eq]
  exact { h with
    exchange := ⟨fun x => absurd hx x, fun l => absurd l notTxrx⟩
    defaults := fun _ => rfl }

/-- The rates are outside the invariant. -/
theorem Inv.applyRates (h : Inv s) (txBR rxBR : Byte) : Inv (applyRates txBR rxBR s) := by
  rw [applyRates_eq]
  exact { h with }

/-- The field switched off and the guard time disarmed: the end of FIELD_OFF (47 R254). -/
def switchFieldOff (s : State) : State :=
  { s with fieldOn := false, gtTimer := { s.gtTimer with armed := false }, trace := .cmd .fieldOff :: s.trace }

/-- FIELD_OFF past its gate: the engine's cleanup if an exchange is in progress, then the field switched off
(47 R254). -/
theorem fieldOffBody_post (s : State) : Run.post (fieldOffBody s)
    (fun t => ∃ u, LawfulStep s u ∧ t = switchFieldOff u) (LawfulStep s) := by
  have cleanup : Run.post (exchangeEnd (failStatus s)) (LawfulStep s) (LawfulStep s) :=
    Run.post_mono (Run.post_and (EnginePost.from (.failStatus s) (exchangeEnd_engine _))
      (Run.post_imp exchangeEnd_failStatus_inv)) (fun _ ⟨e, i⟩ => ⟨e, i⟩) (fun _ ⟨e, i⟩ => ⟨e, i⟩)
  unfold fieldOffBody
  dsimp only
  split
  · exact Run.post_seq cleanup (fun u h => ⟨u, h, rfl⟩)
  · exact ⟨s, .of_calm (.refl s), rfl⟩

/-- The field and the guard time are outside the invariant. -/
theorem Inv.fieldSwitchedOff (h : Inv s) : Inv (switchFieldOff s) := { h with }

theorem switchFieldOff_registrations (s : State) : RegistrationsKept s (switchFieldOff s) :=
  ⟨rfl, rfl, rfl, rfl, rfl, rfl, le_refl _, List.suffix_cons _ _⟩

/-- The registrations kept and the invariant kept: all that INIT and DEINIT keep. -/
structure ResetStep (s t : State) : Prop where
  registrations : RegistrationsKept s t
  inv : Inv s → Inv t

namespace ResetStep

theorem of_lawful (h : LawfulStep s t) : ResetStep s t := ⟨(SettingsKept.of_engine h.engine).1, h.inv⟩

theorem trans {s t u : State} (h : ResetStep s t) (h' : ResetStep t u) : ResetStep s u :=
  ⟨h.registrations.trans h'.registrations, fun i => h'.inv (h.inv i)⟩

theorem answer (h : ResetStep s t) (resp : List Byte) (r : Option Running) :
    ResetStep s ((t.setResponse resp).setRunning r) := h.trans (.of_lawful (.of_calm (.answer t resp r)))

theorem resetKeeping (s : State) : ResetStep s (resetKeeping s) := ⟨resetKeeping_registrations s, resetKeeping_inv⟩

theorem switchFieldOff (s : State) : ResetStep s (switchFieldOff s) :=
  ⟨switchFieldOff_registrations s, Inv.fieldSwitchedOff⟩

end ResetStep

theorem execDeinit_reset (s : State) : NextPost (execDeinit s) (ResetStep s) := by
  have masked : ∀ t, ResetStep s t → Run.post (do
      let s ← engineDisable 0xFFFFFFFF t
      pure (reply .none [] (resetKeeping s))) (ResetStep s) (ResetStep s) := fun t h =>
    Run.post_seq (P := ResetStep s)
      (Run.post_mono (engineDisable_calm _ t) (fun _ c => h.trans (.of_lawful (.of_calm c)))
        (fun _ c => h.trans (.of_lawful (.of_calm c))))
      (fun u hu => (hu.trans (.resetKeeping u)).answer _ _)
  unfold execDeinit
  split
  · exact (nextPost_next _ _).2 (.of_lawful (reply_lawful _ _ s))
  · refine nextPost_settle (Run.post_mono (Q := ResetStep s) (H := ResetStep s) ?_ (fun _ => id)
      (fun _ h => h.answer _ _))
    dsimp only
    split
    · refine Run.post_seq (Run.post_mono (fieldOffBody_post s) (fun t h => h) (fun _ => .of_lawful)) ?_
      rintro _ ⟨u, hu, rfl⟩
      exact masked _ ((ResetStep.of_lawful hu).trans (.switchFieldOff u))
    · exact masked s (.of_lawful (.of_calm (.refl s)))

/-- INIT's chip bring-up: bus events and status reads, then the lifecycle (47 R250). -/
theorem bringUp_calm (s : State) : ∃ u, CalmStep s u ∧ bringUp s = u.setLifecycle .init := by
  have masked := ((CalmStep.log s (.regWrite (.irqMask 0) (.byte 0xFF))).trans
    (.log _ (.regWrite (.irqMask 1) (.byte 0xFF)))).trans (.log _ (.regWrite (.irqMask 2) (.byte 0xFF)))
  have readAway := ((masked.trans (.of_draw (busRead_draw (.irqStatus 0) _))).trans
    (.of_draw (busRead_draw (.irqStatus 1) _))).trans (.of_draw (busRead_draw (.irqStatus 2) _))
  exact ⟨_, readAway.trans (.log _ (.cmd .fieldOff)), rfl⟩

/-- The identity check passed: the lifecycle of a block state just reset becomes INIT. -/
theorem Inv.setLifecycle_init (h : Inv s) (hx : s.txrxState = .idle) : Inv (s.setLifecycle .init) :=
  { h with
    exchange := ⟨fun x => absurd hx x, nofun⟩
    defaults := nofun }

theorem bringUp_reset (hx : s.txrxState = .idle) : ResetStep s (bringUp s) := by
  obtain ⟨u, c, e⟩ := bringUp_calm s
  rw [e]
  exact ⟨(SettingsKept.of_engine (c.engine.trans (.setLifecycle u .init))).1,
    fun i => (c.inv i).setLifecycle_init (c.sub.trans hx)⟩

theorem execInit_reset (s : State) : NextPost (execInit s) (ResetStep s) := by
  have read := (ResetStep.resetKeeping s).trans
    (.of_lawful (.of_calm (.of_draw (busRead_draw .icIdentity (resetKeeping s)))))
  unfold execInit
  dsimp only
  split
  · exact (nextPost_next _ _).2 (.of_lawful (reply_lawful _ _ s))
  · split
    · exact (nextPost_next _ _).2 ((read.trans (bringUp_reset rfl)).answer _ _)
    · exact (nextPost_next _ _).2 (read.answer _ _)

/-! ## Every command -/

/-- All a command can do to the settings and the invariant. -/
inductive CommandEffect (s t : State) : Instr → Prop
  | engine (i : Instr) (h : LawfulStep s t) : CommandEffect s t i
  | program (i : Instr) (op : opcode i = 0x30 ∨ opcode i = 0x34 ∨ opcode i = 0x70) (h : ProgramStep s t) :
      CommandEffect s t i
  | init (h : ResetStep s t) : CommandEffect s t .init
  | deinit (h : ResetStep s t) : CommandEffect s t .deinit
  | setMode (mode txBR rxBR : Byte) (m : Mode) (hx : s.txrxState = .idle)
      (e : t = reply .none [] (applyMode m txBR rxBR s)) : CommandEffect s t (.setMode mode txBR rxBR)
  | setBitrate (txBR rxBR : Byte) (e : t = reply .none [] (applyRates txBR rxBR s)) :
      CommandEffect s t (.setBitrate txBR rxBR)
  | setFdtPoll (c : Word) (e : t = reply .none [] (s.setFdtPoll c)) : CommandEffect s t (.setFdtPoll c)
  | setFdtListen (c : Word) (e : t = reply .none [] (s.setFdtListen c)) : CommandEffect s t (.setFdtListen c)
  | setGt (c : Word) (e : t = reply .none [] (s.setGt c)) : CommandEffect s t (.setGt c)
  | fieldOn (u : State) (h : LawfulStep ((busCmd .fieldOn s).setFieldOn true) u) (e : t = reply .none [] u) :
      CommandEffect s t .fieldOn
  | fieldOff (u : State) (h : LawfulStep s u)
      (e : t = reply .none [] (switchFieldOff u)) : CommandEffect s t .fieldOff
  | setPreCb (cb : Option Byte) (e : t = reply .none [] (s.setCb { s.cb with pre := cb })) :
      CommandEffect s t (.setPreCb cb)
  | setPostCb (cb : Option Byte) (e : t = reply .none [] (s.setCb { s.cb with post := cb })) :
      CommandEffect s t (.setPostCb cb)
  | setSyncCb (cb : Option Byte) (e : t = reply .none [] (s.setCb { s.cb with sync := cb })) :
      CommandEffect s t (.setSyncCb cb)
  | setIrqCb (cb : Option Byte) (e : t = reply .none [] (s.setIrqCallback cb)) : CommandEffect s t (.setIrqCb cb)
  | setEmd (enable : Byte) (maxLen : Half) (e : t = reply .none [] (s.setEmd { enabled := enable != 0, maxLen })) :
      CommandEffect s t (.setEmd enable maxLen)
  | setObsMode (enable : Byte) (e : t = reply .none [] (s.setObs { s.obs with configured := enable != 0 })) :
      CommandEffect s t (.setObsMode enable)

/-- A refused command. -/
theorem refused_effect (st : Status) (results : List Byte) (s : State) (i : Instr) :
    NextPost (.next (reply st results s)) (fun t => CommandEffect s t i) :=
  (nextPost_next _ _).2 (.engine i (reply_lawful st results s))

theorem execSetMode_effect (mode txBR rxBR : Byte) (s : State) :
    NextPost (execSetMode mode txBR rxBR s) (fun t => CommandEffect s t (.setMode mode txBR rxBR)) := by
  unfold execSetMode
  split
  · exact refused_effect _ _ s _
  next gate =>
    simp only [inExchange, Bool.or_eq_true, bne_iff_ne, ne_eq, not_or, not_not] at gate
    obtain ⟨_, idle⟩ := gate
    split
    · exact refused_effect _ _ s _
    · split
      · exact refused_effect _ _ s _
      · exact refused_effect _ _ s _
      · split
        · exact refused_effect _ _ s _
        · exact (nextPost_next _ _).2 (.setMode _ _ _ _ idle rfl)

theorem execSetBitrate_effect (txBR rxBR : Byte) (s : State) :
    NextPost (execSetBitrate txBR rxBR s) (fun t => CommandEffect s t (.setBitrate txBR rxBR)) := by
  unfold execSetBitrate
  split
  · exact refused_effect _ _ s _
  · split
    · exact refused_effect _ _ s _
    · exact (nextPost_next _ _).2 (.setBitrate _ _ rfl)

theorem execSetEmd_effect (enable : Byte) (maxLen : Half) (s : State) :
    NextPost (execSetEmd enable maxLen s) (fun t => CommandEffect s t (.setEmd enable maxLen)) := by
  unfold execSetEmd
  split
  · exact refused_effect _ _ s _
  · exact (nextPost_next _ _).2 (.setEmd _ _ rfl)

theorem execGetBitrate_effect (s : State) :
    NextPost (execGetBitrate s) (fun t => CommandEffect s t .getBitrate) := by
  unfold execGetBitrate
  split
  · exact refused_effect _ _ s _
  · exact refused_effect _ _ s _

theorem gtStart_lawful (ms : Nat) (s : State) : LawfulStep s (gtStart ms s) :=
  ⟨(EngineStep.readClock s).trans (.setGtTimer _ _), fun i => i.gtStart ms⟩

theorem execFieldOn_effect (s : State) : NextPost (execFieldOn s) (fun t => CommandEffect s t .fieldOn) := by
  unfold execFieldOn
  split
  · exact refused_effect _ _ s _
  · refine (nextPost_next _ _).2 (.fieldOn _ ?_ rfl)
    split
    · exact gtStart_lawful _ _
    · exact .of_calm (.gtDisarm _)

theorem execFieldOff_effect (s : State) : NextPost (execFieldOff s) (fun t => CommandEffect s t .fieldOff) := by
  unfold execFieldOff
  split
  · exact refused_effect _ _ s _
  · refine nextPost_settle (Run.post_seq (Run.post_mono (fieldOffBody_post s) (fun _ => id)
      (fun _ h => .engine _ (h.answer _ _))) ?_)
    rintro _ ⟨u, hu, rfl⟩
    exact .fieldOff u hu rfl

/-- Every command is of one of these kinds. -/
theorem exec_effect {i : Instr} (h : exec i s = .next t) : CommandEffect s t i := by
  have refused := fun st results => refused_effect st results s i t
  cases i with
  | init => exact .init (execInit_reset s t h)
  | deinit => exact .deinit (execDeinit_reset s t h)
  | setMode mode txBR rxBR => exact execSetMode_effect mode txBR rxBR s t h
  | getMode => exact refused _ _ h
  | setBitrate txBR rxBR => exact execSetBitrate_effect txBR rxBR s t h
  | getBitrate => exact execGetBitrate_effect s t h
  | setFdtPoll c => exact .setFdtPoll c (Host.Outcome.next.inj h).symm
  | setFdtListen c => exact .setFdtListen c (Host.Outcome.next.inj h).symm
  | setGt c => exact .setGt c (Host.Outcome.next.inj h).symm
  | fieldOn => exact execFieldOn_effect s t h
  | fieldOff => exact execFieldOff_effect s t h
  | startTransceive => exact .program _ (.inl rfl) (execStartTransceive_program _ _ _ _ _ _ _ s t h)
  | worker => exact .engine _ (execWorker_lawful s t h)
  | getTransceiveStatus => exact refused _ _ h
  | getTransceiveState => exact refused _ _ h
  | transceiveBlocking =>
    exact .program _ (.inr (.inl rfl)) (execTransceiveBlocking_program _ _ _ _ _ _ _ s t h)
  | setPreCb cb => exact .setPreCb cb (Host.Outcome.next.inj h).symm
  | setPostCb cb => exact .setPostCb cb (Host.Outcome.next.inj h).symm
  | setSyncCb cb => exact .setSyncCb cb (Host.Outcome.next.inj h).symm
  | setIrqCb cb => exact .setIrqCb cb (Host.Outcome.next.inj h).symm
  | irqEnable mask => exact .engine _ ((nextPost_next _ _).2 ((setEnableMask_lawful _ s).answer _ _) t h)
  | irqDisable mask => exact .engine _ ((nextPost_next _ _).2 ((setEnableMask_lawful _ s).answer _ _) t h)
  | irqPoll => exact .engine _ (execIrqPoll_lawful s t h)
  | irqGet mask => exact .engine _ (execIrqGet_lawful mask s t h)
  | irqWait mask timeoutMs => exact .engine _ (execIrqWait_lawful mask timeoutMs s t h)
  | irqIsr => exact .engine _ (execIrqIsr_lawful s t h)
  | fifoStatusUpdate => exact .engine _ (fifoQuery_lawful _ s t h)
  | fifoStatusClear => exact .engine _ ((nextPost_next _ _).2 ((LawfulStep.of_calm (.fsClear s)).answer _ _) t h)
  | fifoGetNumBytes => exact .engine _ (fifoQuery_lawful _ s t h)
  | fifoGetIncBits => exact .engine _ (fifoQuery_lawful _ s t h)
  | fifoIsMissingPar => exact .engine _ (fifoQuery_lawful _ s t h)
  | iso14443aAnticollFrame =>
    exact .program _ (.inr (.inr rfl)) (execIso14443aAnticollFrame_program _ _ _ _ _ s t h)
  | iso14443aShortFrame => cases h
  | iso15693AnticollFrame => cases h
  | iso15693Eof => cases h
  | setEmd enable maxLen => exact execSetEmd_effect enable maxLen s t h
  | setObsMode enable => exact .setObsMode enable (Host.Outcome.next.inj h).symm

/-! ## What the kinds of command do -/

/-- Every command keeps the invariant. -/
theorem CommandEffect.inv {i : Instr} (c : CommandEffect s t i) (h : Inv s) : Inv t := by
  cases c with
  | engine _ c => exact c.inv h
  | program _ _ c => exact c.inv h
  | init c | deinit c => exact c.inv h
  | setMode _ txBR rxBR m hx e => exact e ▸ (h.applyMode hx m txBR rxBR).reply _ _
  | setBitrate txBR rxBR e => exact e ▸ (h.applyRates txBR rxBR).reply _ _
  | fieldOn u c e => exact e ▸ (c.inv { h with }).reply _ _
  | fieldOff u c e => exact e ▸ (c.inv h).fieldSwitchedOff.reply _ _
  | setFdtPoll _ e | setFdtListen _ e | setGt _ e | setPreCb _ e | setPostCb _ e | setSyncCb _ e | setIrqCb _ e
  | setEmd _ _ e | setObsMode _ e =>
    subst e
    refine Inv.reply ?_ _ _
    exact { h with }

theorem exec_inv {i : Instr} (h : Inv s) (e : exec i s = .next t) : Inv t := (exec_effect e).inv h

/-- The next iteration of a loop command keeps the invariant. -/
theorem resume_inv (r : Running) (h : Inv s) : NextPost (resume r s) Inv := by
  have settled : ∀ {r : Run State}, Run.post r Inv Inv → NextPost (settle r) Inv := fun hr =>
    nextPost_settle (Run.post_mono hr (fun _ => id) (fun _ i => i.answer _ _))
  cases r with
  | hung => exact (nextPost_next _ _).2 (h.agg (drainOnce_step s))
  | irqWait mask timeoutMs t0 =>
    refine settled (Run.post_seq (isrPoint_inv h) (fun t ht => ?_))
    exact Run.post_mono (waitIteration_calm mask timeoutMs t0 t) (fun _ c => c.inv ht) (fun _ c => c.inv ht)
  | blocking => exact settled (blockingIteration_inv h)
  | anticoll call => exact settled (anticollIteration_inv call h)

/-- A step is an iteration of the loop in progress, an idle step, a command, or the answer to a byte string that
is none. -/
theorem step_inv (h : Inv s) : NextPost (step s) Inv := by
  unfold step
  split
  · exact resume_inv _ h
  · split
    · exact (nextPost_next s _).2 h
    next bytes u hu =>
      have taken : Inv u := by
        unfold takeCommand at hu
        split at hu
        · cases hu
        · cases hu
          exact { h with }
      split
      · exact fun t e => exec_inv taken e
      · exact (nextPost_next _ _).2 (taken.answer _ _)

end Sys2Proof.Machine

section
/-! PROOFS. The statements on the invariant, the engine's frame and the writers of the settings. -/

open Sys2Proof Sys2Proof.Machine

/-- Settles O3: every kind of step keeps the invariant, a drain that never ends included. -/
theorem stepKeepsInv : Obligations.StepKeepsInv := fun _ t h e => step_inv h t e

/-- Settles O2. -/
theorem resetHasInv : Obligations.ResetHasInv := reset_inv

/-- Settles O53: the tick and the aggregator's commands are engine steps. -/
theorem tickFrame : Obligations.TickFrame := by
  rintro i s t (rfl | rfl | rfl | ⟨mask, rfl⟩ | ⟨mask, timeoutMs, rfl⟩) h
  · exact (execWorker_lawful s t h).engine.frame
  · exact (execIrqPoll_lawful s t h).engine.frame
  · exact (execIrqIsr_lawful s t h).engine.frame
  · exact (execIrqGet_lawful mask s t h).engine.frame
  · exact (execIrqWait_lawful mask timeoutMs s t h).engine.frame

/-- Settles O54: each kind of command writes its own setting. -/
theorem settingsHaveTheirWriters : Obligations.SettingsHaveTheirWriters := by
  intro i s t h
  cases exec_effect h with
  | engine _ c =>
    have k := SettingsKept.of_engine c.engine
    have f := c.engine.frame
    exact k.1.unwritten fun _ _ => k.unwritten (.inl ⟨f.ctx, f.nrt, f.gptPreload⟩)
  | program _ op c => exact c.settings.1.unwritten fun _ _ => c.settings.unwritten (.inr op)
  | init c => exact c.registrations.unwritten fun n => absurd rfl n
  | deinit c => exact c.registrations.unwritten fun _ n => absurd rfl n
  | setMode mode txBR rxBR m _ e =>
    subst e
    rw [applyMode_eq]
    exact ⟨.inl rfl, .inl rfl, .inl rfl, .inl rfl, ⟨rfl, rfl, le_refl _, ⟨[_, _, _, _, _], rfl⟩⟩, fun _ _ =>
      ⟨.inr ⟨_, _, _, rfl⟩, .inr (.inl ⟨_, _, _, rfl⟩), .inl rfl, .inl rfl, .inl rfl, .inl rfl, .inl ⟨rfl, rfl, rfl⟩⟩⟩
  | setBitrate txBR rxBR e =>
    subst e
    rw [applyRates_eq]
    exact ⟨.inl rfl, .inl rfl, .inl rfl, .inl rfl, ⟨rfl, rfl, le_refl _, ⟨[_, _], rfl⟩⟩, fun _ _ =>
      ⟨.inl rfl, .inr (.inr ⟨_, _, rfl⟩), .inl rfl, .inl rfl, .inl rfl, .inl rfl, .inl ⟨rfl, rfl, rfl⟩⟩⟩
  | fieldOn u c e =>
    subst e
    have k := SettingsKept.of_engine c.engine
    have f := c.engine.frame
    have r : RegistrationsKept s (reply .none [] u) := { k with trace := (List.suffix_cons _ _).trans k.trace }
    exact r.unwritten fun _ _ => ⟨.inl k.mode, .inl ⟨k.txBR, k.rxBR⟩, .inl k.fdtPoll, .inl k.fdtListen, .inl k.gt,
      .inr (.inl rfl), .inl ⟨f.ctx, f.nrt, f.gptPreload⟩⟩
  | fieldOff u c e =>
    subst e
    have k := SettingsKept.of_engine c.engine
    have f := c.engine.frame
    have r : RegistrationsKept s (reply .none [] (switchFieldOff u)) :=
      { k with trace := k.trace.trans (List.suffix_cons _ _) }
    exact r.unwritten fun _ _ => ⟨.inl k.mode, .inl ⟨k.txBR, k.rxBR⟩, .inl k.fdtPoll, .inl k.fdtListen, .inl k.gt,
      .inr (.inr rfl), .inl ⟨f.ctx, f.nrt, f.gptPreload⟩⟩
  | setFdtPoll _ e | setFdtListen _ e | setGt _ e | setPreCb _ e | setPostCb _ e | setSyncCb _ e | setIrqCb _ e
  | setEmd _ _ e | setObsMode _ e =>
    subst e
    simp [reply]

end
end

section
/-! PROOFS. Computations that stop with a model fault (60 R273), and the accesses to host memory that stop so
(20 R62): which bytes lie outside a region, and what a reader or writer of them answers. -/

namespace Sys2Proof.Machine

variable {s : State} {f : Fault}

/-! ## Computations that can only stop with one fault -/

/-- The computation stops with the fault `f`, or answers a value that satisfies `Q`; it stops in no other way. -/
def Run.stopsOr {α : Type} (r : Run α) (f : Fault) (Q : α → Prop) : Prop :=
  match r with
  | .ok a => Q a
  | .error (.fault g) => g = f
  | .error (.hang _) => False

theorem Run.stopsOr_mono {α : Type} {r : Run α} {Q Q' : α → Prop} (h : Run.stopsOr r f Q) (hq : ∀ a, Q a → Q' a) :
    Run.stopsOr r f Q' := by
  match r with
  | .ok a => exact hq a h
  | .error (.fault _) => exact h
  | .error (.hang _) => exact h

theorem Run.stopsOr_seq {α β : Type} {m : Run α} {k : α → Run β} {P : α → Prop} {Q : β → Prop}
    (hm : Run.stopsOr m f P) (hk : ∀ a, P a → Run.stopsOr (k a) f Q) : Run.stopsOr (m >>= k) f Q := by
  match m with
  | .ok a => exact hk a hm
  | .error (.fault _) => exact hm
  | .error (.hang _) => exact hm

theorem Run.stopsOr_of_ok {α : Type} {r : Run α} {a : α} {Q : α → Prop} (h : r = .ok a) (ha : Q a) :
    Run.stopsOr r f Q := by
  rw [h]
  exact ha

/-- The computation stops with the fault `f`. -/
abbrev Run.stops {α : Type} (r : Run α) (f : Fault) : Prop := Run.stopsOr r f (fun _ => False)

theorem Run.stops_iff {α : Type} {r : Run α} : Run.stops r f ↔ r = .error (.fault f) := by
  match r with
  | .ok a => exact ⟨False.elim, nofun⟩
  | .error (.fault g) => exact ⟨fun h => by cases h; rfl, fun h => by cases h; rfl⟩
  | .error (.hang u) => exact ⟨False.elim, nofun⟩

theorem Run.stops_bind {α β : Type} {m : Run α} {k : α → Run β} (hm : Run.stops m f) : Run.stops (m >>= k) f :=
  Run.stopsOr_seq hm (fun _ h => h.elim)

/-- A command whose computation stops with a fault answers that fault. -/
theorem settle_stops {r : Run State} (h : Run.stops r f) : settle r = .fault f := by
  rw [Run.stops_iff.1 h, settle_fault]

/-! ## Accesses outside a region -/

/-- `n` bytes from index `i` do not lie in the region of the buffer, if there is one (20 R61, R62; log 18). -/
def OutsideRegion (p : Config.Params) (buf : Option BufRef) (i n : Nat) : Prop :=
  ∀ b, buf = some b → inBounds p b i n = false

theorem memRead_outside {buf : Option BufRef} {i n : Nat} (hn : 0 < n) (ho : OutsideRegion s.params buf i n) :
    Run.stops (memRead buf i n s) .bufferBounds := by
  obtain ⟨h0, _⟩ | ⟨_, b, hb, hi, _⟩ | ⟨_, _, h⟩ := memRead_cases buf i n s
  · omega
  · rw [ho b hb] at hi
    cases hi
  · exact Run.stops_iff.2 h

theorem memWrite_outside {buf : Option BufRef} {i : Nat} {bytes : List Byte} (hn : 0 < bytes.length)
    (ho : OutsideRegion s.params buf i bytes.length) : Run.stops (memWrite buf i bytes s) .bufferBounds := by
  obtain ⟨h0, _⟩ | ⟨_, b, hb, hi, _⟩ | ⟨_, _, h⟩ := memWrite_cases buf i bytes s
  · rw [h0] at hn
    cases hn
  · rw [ho b hb] at hi
    cases hi
  · exact Run.stops_iff.2 h

/-- The first `c` bytes of a read are written as `c` bytes. -/
theorem memWrite_take_outside {buf : Option BufRef} {i c : Nat} {bytes : List Byte} (hl : c ≤ bytes.length)
    (hc : 0 < c) (ho : OutsideRegion s.params buf i c) :
    Run.stops (memWrite buf i (bytes.take c) s) .bufferBounds := by
  have len : (bytes.take c).length = c := by simp [hl]
  rw [← len] at hc ho
  exact memWrite_outside hc ho

/-- A read stops in no other way. -/
theorem memRead_stopsOr (buf : Option BufRef) (i n : Nat) (s : State) :
    Run.stopsOr (memRead buf i n s) .bufferBounds (fun _ => True) := by
  obtain ⟨_, h⟩ | ⟨_, _, _, _, h⟩ | ⟨_, _, h⟩ := memRead_cases buf i n s
  · exact Run.stopsOr_of_ok h trivial
  · exact Run.stopsOr_of_ok h trivial
  · exact Run.stopsOr_mono (Run.stops_iff.2 h) (fun _ => False.elim)

/-- A write stops in no other way, and changes memory alone. -/
theorem memWrite_stopsOr (buf : Option BufRef) (i : Nat) (bytes : List Byte) (s : State) :
    Run.stopsOr (memWrite buf i bytes s) .bufferBounds (fun t => ∃ m, t = s.setMem m) := by
  obtain ⟨_, h⟩ | ⟨_, _, _, _, h⟩ | ⟨_, _, h⟩ := memWrite_cases buf i bytes s
  · exact Run.stopsOr_of_ok h ⟨s.mem, rfl⟩
  · exact Run.stopsOr_of_ok h ⟨_, rfl⟩
  · exact Run.stopsOr_mono (Run.stops_iff.2 h) (fun _ => False.elim)

theorem memRead8_outside {buf : Option BufRef} {i : Nat} (ho : OutsideRegion s.params buf i 1) :
    Run.stops (memRead8 buf i s) .bufferBounds := Run.stops_bind (memRead_outside Nat.one_pos ho)

theorem memWrite8_outside {buf : Option BufRef} {i : Nat} {v : Byte} (ho : OutsideRegion s.params buf i 1) :
    Run.stops (memWrite8 buf i v s) .bufferBounds := memWrite_outside Nat.one_pos ho

theorem memRead8_stopsOr (buf : Option BufRef) (i : Nat) (s : State) :
    Run.stopsOr (memRead8 buf i s) .bufferBounds (fun _ => True) :=
  Run.stopsOr_seq (memRead_stopsOr buf i 1 s) (fun _ h => h)

theorem memWrite8_stopsOr (buf : Option BufRef) (i : Nat) (v : Byte) (s : State) :
    Run.stopsOr (memWrite8 buf i v s) .bufferBounds (fun t => ∃ m, t = s.setMem m) := memWrite_stopsOr buf i [v] s

/-- A 16-bit cell is given and does not lie in its region. -/
def CellOutside (p : Config.Params) (cell : Option BufRef) : Prop := ∃ c, cell = some c ∧ inBounds p c 0 2 = false

theorem memWrite16_outside {cell : Option BufRef} {v : Half} (h : CellOutside s.params cell) :
    Run.stops (memWrite16 cell v s) .bufferBounds := by
  obtain ⟨c, rfl, hi⟩ := h
  have len := cellBytes_length s.params v
  show Run.stops (memWrite (some c) 0 (cellBytes s.params v) s) .bufferBounds
  refine memWrite_outside (by omega) (fun b hb => ?_)
  cases hb
  rwa [len]

end Sys2Proof.Machine
end

section
/-! PROOFS. The accesses of the anticollision helper to its two cells and its partial byte (46 R240, R243 to R245),
and where they stop it. -/

namespace Sys2Proof.Machine

variable {s t : State}

/-! ## The start -/

theorem clearPartial_outside {buf : Option BufRef} {B b : Nat} (hb : b ≠ 0) (ho : OutsideRegion s.params buf B 1) :
    Run.stops (clearPartial buf B b s) .bufferBounds := by
  unfold clearPartial
  rw [if_neg hb]
  exact Run.stops_bind (memRead8_outside ho)

theorem memRead8_inBounds {c : BufRef} {i : Nat} (h : inBounds s.params c i 1 = true) :
    memRead8 (some c) i s = .ok (bufByte s.mem c i) := by
  simp [memRead8, memRead, h, bufBytes]

theorem beginAnticoll_bytesToSend_outside {buf bytesToSend bitsToSend rxLength : Option BufRef} {fwt : Word}
    (ho : OutsideRegion s.params bytesToSend 0 1) :
    Run.stops (beginAnticoll buf bytesToSend bitsToSend rxLength fwt s) .bufferBounds :=
  Run.stops_bind (memRead8_outside ho)

theorem beginAnticoll_bitsToSend_outside {buf bytesToSend bitsToSend rxLength : Option BufRef} {fwt : Word}
    (ho : OutsideRegion s.params bitsToSend 0 1) :
    Run.stops (beginAnticoll buf bytesToSend bitsToSend rxLength fwt s) .bufferBounds :=
  Run.stopsOr_seq (memRead8_stopsOr bytesToSend 0 s) (fun _ _ => Run.stops_bind (memRead8_outside ho))

theorem beginAnticoll_partial_outside {buf rxLength : Option BufRef} {cellB cellb : BufRef} {fwt : Word}
    (hB : inBounds s.params cellB 0 1 = true) (hb : inBounds s.params cellb 0 1 = true)
    (pos : (bufByte s.mem cellb 0).toNat ≠ 0)
    (ok : anticollLengthsOk s.params (bufByte s.mem cellB 0).toNat (bufByte s.mem cellb 0).toNat = true)
    (ho : OutsideRegion s.params buf (bufByte s.mem cellB 0).toNat 1) :
    Run.stops (beginAnticoll buf (some cellB) (some cellb) rxLength fwt s) .bufferBounds := by
  unfold beginAnticoll
  rw [memRead8_inBounds hB, memRead8_inBounds hb]
  simp only [Run.ok_bind, ok, Bool.true_eq_false, if_false]
  exact Run.stops_bind (clearPartial_outside pos ho)

/-- In a ready NFCA state the command is its body (46 R240, R248). -/
theorem execAnticoll_ready (ready : s.lifecycle = .modeSet ∨ s.lifecycle = .txrx) (idle : s.txrxState = .idle)
    (mode : s.mode = .nfca) (buf bytesToSend bitsToSend rxLength : Option Ref) (fwt : Word) :
    exec (.iso14443aAnticollFrame buf bytesToSend bitsToSend rxLength fwt) s =
      settle (beginAnticoll (toBuf buf) (toBuf bytesToSend) (toBuf bitsToSend) (toBuf rxLength) fwt s) := by
  have rank : ¬ s.lifecycle.rank < Lifecycle.modeSet.rank := by
    obtain h | h := ready <;> rw [h] <;> decide
  show execIso14443aAnticollFrame _ _ _ _ _ _ = _
  simp [execIso14443aAnticollFrame, rank, idle, mode]

/-! ## The end -/

theorem restorePartial_outside {call : Anticoll} (hb : call.sentBits ≠ 0)
    (ho : OutsideRegion s.params call.buf call.sentBytes 1) : Run.stops (restorePartial call s) .bufferBounds := by
  unfold restorePartial
  rw [if_neg hb]
  exact Run.stops_bind (memRead8_outside ho)

theorem restorePartial_stopsOr (call : Anticoll) (s : State) :
    Run.stopsOr (restorePartial call s) .bufferBounds (fun t => ∃ m, t = s.setMem m) := by
  unfold restorePartial
  split
  · exact ⟨s.mem, rfl⟩
  · exact Run.stopsOr_seq (memRead8_stopsOr _ _ s) (fun _ _ => memWrite8_stopsOr _ _ _ s)

/-- A collision's position is written to both cells, so that either one outside its region stops it. -/
theorem writeCollision_outside {call : Anticoll}
    (ho : OutsideRegion s.params call.bytesToSend 0 1 ∨ OutsideRegion s.params call.bitsToSend 0 1) :
    Run.stops (writeCollision call s) .bufferBounds := by
  obtain h | h := ho
  · exact Run.stops_bind (memWrite8_outside h)
  · refine Run.stopsOr_seq (memWrite8_stopsOr _ _ _ _) (fun t ht => ?_)
    obtain ⟨m, rfl⟩ := ht
    exact memWrite8_outside h

theorem finishAnticoll_outside {call : Anticoll} {st : Status}
    (ho : call.sentBits ≠ 0 ∧ OutsideRegion s.params call.buf call.sentBytes 1 ∨
      st = .rfCollision ∧
        (OutsideRegion s.params call.bytesToSend 0 1 ∨ OutsideRegion s.params call.bitsToSend 0 1)) :
    Run.stops (finishAnticoll call st s) .bufferBounds := by
  obtain ⟨hb, h⟩ | ⟨hst, h⟩ := ho
  · exact Run.stops_bind (restorePartial_outside hb h)
  · refine Run.stopsOr_seq (restorePartial_stopsOr call s) (fun t ht => ?_)
    obtain ⟨m, rfl⟩ := ht
    dsimp only
    rw [if_pos hst]
    exact Run.stops_bind (writeCollision_outside h)

/-- A WORKER that has returned ran a whole tick. -/
theorem execWorker_returned (h : exec .worker s = .next t) (hr : t.running = none) :
    ∃ u, tick s = .ok u ∧ t = reply u.status [] u := by
  have answered : execWorker s = .next t := h
  unfold execWorker at answered
  cases ht : tick s with
  | ok u =>
    rw [ht] at answered
    cases answered
    exact ⟨u, rfl, rfl⟩
  | error e =>
    rw [ht] at answered
    cases e with
    | fault _ => cases answered
    | hang _ =>
      cases answered
      cases hr

theorem isrPoint_params (h : isrPoint s = .ok t) : t.params = s.params := by
  have p := isrPoint_post s
  rw [h] at p
  exact (EngineStep.of_agg p).frame.params

theorem tick_params (h : tick s = .ok t) : t.params = s.params := by
  have p := tick_engine s
  rw [h] at p
  exact p.frame.params

/-- The loop's last step: the exchange's last WORKER, then the helper's end (46 R240, 47 R258). -/
theorem step_anticoll_last {call : Anticoll} {u : State} (hr : s.running = some (.anticoll call))
    (hp : isrPoint s = .ok u) (ht : tick u = .ok t) (idle : t.txrxState = .idle) :
    step s = settle (finishAnticoll call t.status t) := by
  simp [step, hr, resume, anticollIteration, hp, ht, idle]

end Sys2Proof.Machine
end

section
/-! PROOFS. The buffer faults of the anticollision helper. -/

open Sys2Proof Sys2Proof.Machine

/-- Settles O60: the start reads both cells before all else, then the partial byte; the end restores the partial
byte, then writes the cells. -/
theorem anticollFaults : Obligations.AnticollFaults := by
  constructor
  · intro buf bytesToSend bitsToSend rxLength fwt s ready idle mode
    dsimp only
    rw [execAnticoll_ready ready idle mode]
    refine ⟨fun ho => settle_stops (beginAnticoll_bytesToSend_outside ho),
      fun ho => settle_stops (beginAnticoll_bitsToSend_outside ho), ?_⟩
    intro cellB cellb hB inB hb inb pos small fits ho
    rw [hB, hb]
    have nonzero : (bufByte s.mem cellb 0).toNat ≠ 0 := by omega
    refine settle_stops (beginAnticoll_partial_outside inB inb nonzero ?_ ho)
    simp [anticollLengthsOk, nonzero, small, fits]
  · intro call s u t hr hp hw returned idle
    obtain ⟨v, ht, rfl⟩ := execWorker_returned hw returned
    intro outside ho
    rw [step_anticoll_last hr hp ht idle]
    refine settle_stops (finishAnticoll_outside ?_)
    rw [(tick_params ht).trans (isrPoint_params hp)]
    exact ho

end

section
/-! PROOFS. The engine's accesses to host memory and its FIFO counts (20 R62, R67), and where they stop a tick:
the first load and the reload, a chunk of a reception, its last read, its length cell. -/

namespace Sys2Proof.Machine

variable {s t : State} {f : Fault} {e : Word}

/-! ## A tick that stops -/

theorem runActions_stops {n : Nat} (h : Run.stops (stateAction e s) f) : Run.stops (runActions (n + 1) e s) f :=
  Run.stops_bind h

theorem runActions_stops_go {n : Nat} {e' : Word} (h : stateAction e s = .ok (.go e', t))
    (ht : Run.stops (runActions n e' t) f) : Run.stops (runActions (n + 1) e s) f := by
  rw [runActions_go h]
  exact ht

/-- WORKER answers the fault that its actions stop with. -/
theorem worker_stops (hq : quiet s = true) (h : ∀ k, Run.stops (runActions (k + 32) 0 s) f) :
    exec .worker s = .fault f := by
  obtain ⟨k, hk⟩ := execWorker_quiet hq
  exact hk.trans (settle_stops (Run.stops_bind (h k)))

/-! ## TX -/

theorem txPrepTx_outside (hn : 0 < min s.ctx.txBytes s.params.fifoDepth)
    (ho : OutsideRegion s.params s.ctx.txBuf 0 (min s.ctx.txBytes s.params.fifoDepth)) :
    Run.stops (txPrepTx s) .bufferBounds := by
  simp only [txPrepTx, busCmd, busWrite16, fsClear, State.log_ctx, State.setFifo_ctx, State.setFifoStatus_ctx,
    State.log_params, State.setFifo_params, State.setFifoStatus_params]
  exact Run.stops_bind (memRead_outside hn (by simpa using ho))

theorem txReloadFifo_outside (hn : 0 < min s.params.wlChunk (s.fifo.bytesTotal - s.fifo.bytesWritten))
    (ho : OutsideRegion s.params s.ctx.txBuf s.fifo.bytesWritten
      (min s.params.wlChunk (s.fifo.bytesTotal - s.fifo.bytesWritten))) :
    Run.stops (txReloadFifo s) .bufferBounds := Run.stops_bind (memRead_outside hn ho)

theorem irqBit_ne_zero (p : Config.Params) (i : Irq) : irqBit p i ≠ 0 := by
  have bit : ∀ k : Fin 32, 1#32 <<< k.val ≠ 0 := by decide
  exact bit (irqPos p i)

/-- FWL alone leads from TX_WAIT_WL to the reload (44 R178). -/
theorem act_txWaitWl_reloads (h : s.txrxState = .txWaitWl) (hq : noEdges s)
    (fwl : s.irq.pending &&& txIrqs s.params = irqBit s.params .fwl) :
    stateAction e s = .ok (.go 0, { s with
      irq := { s.irq with pending := s.irq.pending &&& ~~~(txIrqs s.params) }
      txrxState := .txReloadFifo }) := by
  rw [act_txWaitWl h hq, fwl, if_neg (irqBit_ne_zero _ _), if_pos rfl]

/-- TXE leads from TX_WAIT_TXE to TX_DONE (44 R181). -/
theorem act_txWaitTxe_done (h : s.txrxState = .txWaitTxe) (hq : noEdges s)
    (txe : s.irq.pending &&& irqBit s.params .txe ≠ 0) :
    stateAction e s = .ok (.go 0, { s with
      irq := { s.irq with pending := s.irq.pending &&& ~~~(txIrqs s.params) }
      txrxState := .txDone }) := by
  rw [act_txWaitTxe h hq, if_pos txe, if_pos txe]

/-! ## RX -/

theorem rxIdle_outside (hc : CellOutside s.params s.ctx.rxRcvdLen) : Run.stops (rxIdle s) .bufferBounds :=
  Run.stops_bind (memWrite16_outside hc)

theorem rxReadFifo_outside (hd : s.params.wlChunk ≤ s.params.fifoDepth)
    (hn : 0 < min s.params.wlChunk (s.ctx.capBytes - s.fifo.bytesWritten))
    (ho : OutsideRegion s.params s.ctx.rxBuf s.fifo.bytesWritten
      (min s.params.wlChunk (s.ctx.capBytes - s.fifo.bytesWritten))) :
    Run.stops (rxReadFifo s) .bufferBounds := by
  obtain ⟨_, _, _, len⟩ := Env.takeFifo_keeps s.params.wlChunk s.env
  simp only [rxReadFifo, fifoRead, hd, if_true]
  refine Run.stops_bind (memWrite_take_outside ?_ hn ho)
  rw [len]
  exact Nat.min_le_left _ _

/-! ## What the FIFO status shows, fetched already or not -/

theorem refreshed_frame (s : State) : EngineFrame s (refreshed s) := by
  unfold refreshed
  split
  · exact .refl s
  · constructor <;> rfl

theorem refreshed_fifo (s : State) : (refreshed s).fifo = s.fifo := by
  unfold refreshed
  split <;> rfl

/-- The status a fetch shows depends on the cache and the environment's answers alone. -/
theorem refreshed_fifoStatus_congr (hf : t.fifoStatus = s.fifoStatus) (he : t.env = s.env) :
    (refreshed t).fifoStatus = (refreshed s).fifoStatus := by
  unfold refreshed
  rw [hf, he]
  split
  · exact hf
  · rfl

theorem fifoInRange_congr (h : fifoInRange t) (hp : t.params = s.params) (hf : t.fifoStatus = s.fifoStatus)
    (he : t.env = s.env) : fifoInRange s := by
  unfold fifoInRange at *
  rwa [refreshed_fifoStatus_congr hf he, hf, hp] at h

theorem fsUpdate_outOfRange (h : ¬ fifoInRange s) : Run.stops (fsUpdate s) .chipRange := by
  obtain ⟨invalid, above⟩ := not_or.1 h
  exact Run.stops_iff.2 (fsUpdate_faults (Bool.eq_false_iff.2 invalid) (Nat.lt_of_not_le above))

/-! ## RX_ERR_CHECK leads to RX_READ_DATA -/

/-- What all parts of RX_ERR_CHECK keep, where a fetch of the FIFO status can only stop with `f` and a count it shows
is none that EMD handling re-arms for (45 R206 to R210). -/
structure ErrCheckKeeps (f : Fault) (P : State → Prop) : Prop where
  status : ∀ v st, P v → P (v.setStatus st)
  update : ∀ v, P v → Run.stopsOr (fsUpdate v) f fun w =>
    P w ∧ (v.emd.enabled = true → w.emd.maxLen.toNat ≤ fifoCount w)

namespace ErrCheckKeeps

variable {P : State → Prop}

theorem updated (k : ErrCheckKeeps f P) (h : P s) : Run.stopsOr (fsUpdate s) f P :=
  Run.stopsOr_mono (k.update s h) (fun _ hw => hw.1)

theorem classify (k : ErrCheckKeeps f P) (errIrq : Word) (h : P s) :
    Run.stopsOr (classify errIrq s) f (fun r => P r.2) := by
  unfold Machine.classify
  split
  · exact h
  · exact Run.stopsOr_seq (k.updated h) (fun _ hw => hw)

theorem nfcaReclassify (k : ErrCheckKeeps f P) (h : P s) : Run.stopsOr (nfcaReclassify s) f P := by
  unfold Machine.nfcaReclassify
  split
  · refine Run.stopsOr_seq (k.updated h) (fun w hw => ?_)
    split
    · exact k.status w _ hw
    · exact hw
  · exact h

theorem emdHandling (k : ErrCheckKeeps f P) (h : P s) :
    Run.stopsOr (emdHandling s) f (fun r => ∃ v, P v ∧ r = (.go 0, v.setTxrx .rxReadData)) := by
  unfold Machine.emdHandling
  split
  next eligible =>
    refine Run.stopsOr_seq (k.update s h) (fun w ⟨hw, hc⟩ => ?_)
    rw [if_neg (Nat.not_lt.2 (hc eligible.1))]
    exact ⟨w, hw, rfl⟩
  · exact ⟨s, h, rfl⟩

theorem rxErrCheck (k : ErrCheckKeeps f P) (errIrq : Word) (h : P s) :
    Run.stopsOr (rxErrCheck errIrq s) f (fun r => ∃ v, P v ∧ r = (.go 0, v.setTxrx .rxReadData)) := by
  refine Run.stopsOr_seq (k.classify errIrq h) (fun ⟨v, t⟩ ht => ?_)
  cases v with
  | none => exact ⟨t, ht, rfl⟩
  | some v => exact Run.stopsOr_seq (k.nfcaReclassify (k.status t v ht)) (fun _ hu => k.emdHandling hu)

end ErrCheckKeeps

/-- Nothing in RX_ERR_CHECK brings a count above FIFO_DEPTH into range. -/
theorem outOfRange_errCheckKeeps : ErrCheckKeeps .chipRange (fun v => ¬ fifoInRange v) where
  status _ _ h fits := h (fifoInRange_congr fits rfl rfl rfl)
  update _ h := Run.stopsOr_mono (fsUpdate_outOfRange h) (fun _ => False.elim)

/-! ## The end of receive (45 R206 to R214) -/

/-- From `s` to `t` a reception has not been read out: the counters, and what the FIFO status shows, are the same. -/
structure SameReception (s t : State) : Prop where
  frame : EngineFrame s t
  fifo : t.fifo = s.fifo
  shown : (refreshed t).fifoStatus = (refreshed s).fifoStatus

namespace SameReception

theorem trans {u : State} (h : SameReception s t) (h' : SameReception t u) : SameReception s u :=
  ⟨h.frame.trans h'.frame, h'.fifo.trans h.fifo, h'.shown.trans h.shown⟩

theorem of_sameStatus (frame : EngineFrame s t) (fifo : t.fifo = s.fifo) (hf : t.fifoStatus = s.fifoStatus)
    (he : t.env = s.env) : SameReception s t := ⟨frame, fifo, refreshed_fifoStatus_congr hf he⟩

theorem setStatus (s : State) (v : Status) : SameReception s (s.setStatus v) :=
  .of_sameStatus (EngineStep.setStatus s v).frame rfl rfl rfl

theorem setTxrx (s : State) (v : TxrxState) : SameReception s (s.setTxrx v) :=
  .of_sameStatus (EngineStep.setTxrx s v).frame rfl rfl rfl

theorem refreshed (s : State) : SameReception s (refreshed s) :=
  ⟨refreshed_frame s, refreshed_fifo s, by rw [refreshed_of_valid (refreshed_valid s)]⟩

/-- The count in FIFO status, after the fetch if one is due. -/
theorem count (h : SameReception s t) :
    numBytes t.params (Machine.refreshed t).fifoStatus = numBytes s.params (Machine.refreshed s).fifoStatus := by
  rw [h.frame.params, h.shown]

end SameReception

/-- A count in range that EMD handling does not re-arm for stays so through RX_ERR_CHECK. -/
theorem sameReception_errCheckKeeps (inRange : numBytes s.params (refreshed s).fifoStatus ≤ s.params.fifoDepth)
    (long : s.emd.enabled = false ∨ s.emd.maxLen.toNat ≤ numBytes s.params (refreshed s).fifoStatus) :
    ErrCheckKeeps f (SameReception s) where
  status v st h := h.trans (.setStatus v st)
  update v h := by
    have fits : fifoInRange v := .inr (by rw [h.count, h.frame.params]; exact inRange)
    have same := h.trans (.refreshed v)
    refine Run.stopsOr_of_ok (fsUpdate_inRange fits) ⟨same, fun enabled => ?_⟩
    have count : fifoCount (refreshed v) = numBytes s.params (refreshed s).fifoStatus := by
      rw [← h.count, ← refreshed_params v]
      rfl
    rw [count, same.frame.emd]
    rw [h.frame.emd] at enabled
    exact long.resolve_left (by simp [enabled])

/-- The last read's bytes, or the length cell, do not lie in their region. -/
def LastReadOutside (s : State) : Prop :=
  let shown := (refreshed s).fifoStatus
  let stored := (readOutOf s (numBytes s.params shown) (incBits s.params shown)).stored
  0 < stored ∧ OutsideRegion s.params s.ctx.rxBuf s.fifo.bytesWritten stored ∨ CellOutside s.params s.ctx.rxRcvdLen

theorem SameReception.lastReadOutside (h : SameReception s t) : LastReadOutside t ↔ LastReadOutside s := by
  unfold LastReadOutside readOutOf
  rw [h.shown, h.fifo, h.frame.params, h.frame.ctx, h.frame.mode]

/-- How many bytes count as data: all but the CRC, which a short chunk lacks in part (45 R213, R214). -/
theorem countData_keep (strip : Bool) (total n : Nat) :
    (countData strip total n).1 = n - if strip then 2 else 0 := by
  unfold countData
  cases strip
  · rfl
  · show (if 2 ≤ n then _ else _ : Nat × Nat).1 = n - 2
    split
    · rfl
    · show 0 = n - 2
      omega

theorem readOutOf_stored (s : State) (n k : Nat) :
    (readOutOf s n k).stored =
      min (countData (stripCrc s.params s.mode s.ctx.flags k) s.fifo.bytesTotal n).1
        (s.ctx.capBytes - s.fifo.bytesWritten) := by
  rw [countData_keep]
  simp [readOutOf, stripCrc, and_assoc]

/-- The read-out takes all the bytes of a count in range, and leaves the counters alone. -/
theorem readOut_inRange {n : Nat} (h : n ≤ s.params.fifoDepth) :
    (readOut n s).1.length = n ∧ (readOut n s).2.fifo = s.fifo := by
  obtain ⟨_, _, _, len⟩ := Env.takeFifo_keeps n s.env
  unfold readOut
  split
  next h0 => exact ⟨h0.symm, rfl⟩
  · simp only [fifoRead, h, if_true]
    exact ⟨len, rfl⟩

/-- RX_READ_DATA fetches a status that is due, and goes on as with that status in the cache. -/
theorem rxReadData_refreshed (h : fifoInRange s) : rxReadData s = rxReadData (refreshed s) := by
  unfold rxReadData
  rw [fsUpdate_inRange h, fsUpdate_valid _ (refreshed_valid s)]

/-- Recording an overflow leaves the cell where it is (45 R215). -/
theorem CellOutside.nomemIf (h : CellOutside s.params s.ctx.rxRcvdLen) (overflow : Prop) [Decidable overflow] :
    CellOutside (if overflow then s.setStatus .nomem else s).params
      (if overflow then s.setStatus .nomem else s).ctx.rxRcvdLen := by
  split <;> exact h

/-- With the status in the cache, RX_READ_DATA stops at the bytes or at the cell. -/
theorem rxReadData_valid_outside (valid : s.fifoStatus.valid = true) (inRange : fifoCount s ≤ s.params.fifoDepth)
    (ho : LastReadOutside s) : Run.stops (rxReadData s) .bufferBounds := by
  unfold LastReadOutside at ho
  rw [refreshed_of_valid valid] at ho
  have frame := (readOut_engine (fifoCount s) s).frame
  obtain ⟨len, fifo⟩ := readOut_inRange inRange
  unfold rxReadData
  rw [fsUpdate_valid s valid, Run.ok_bind]
  dsimp only
  generalize readOut (fifoCount s) s = r at *
  obtain ⟨hn, ho⟩ | hc := ho
  · have keep := countData_keep (stripCrc s.params s.mode s.ctx.flags (fifoIncBits s)) s.fifo.bytesTotal (fifoCount s)
    rw [readOutOf_stored] at hn ho
    rw [frame.ctx, fifo]
    refine Run.stops_bind (memWrite_take_outside ?_ hn (by rw [frame.params]; exact ho))
    omega
  · refine Run.stopsOr_seq (memWrite_stopsOr _ _ _ _) (fun t ht => ?_)
    obtain ⟨m, rfl⟩ := ht
    rw [← frame.params, ← frame.ctx] at hc
    exact Run.stops_bind (memWrite16_outside (CellOutside.nomemIf (by exact hc) _))

theorem rxReadData_outside (inRange : numBytes s.params (refreshed s).fifoStatus ≤ s.params.fifoDepth)
    (ho : LastReadOutside s) : Run.stops (rxReadData s) .bufferBounds := by
  have same := SameReception.refreshed s
  rw [rxReadData_refreshed (.inr inRange)]
  refine rxReadData_valid_outside (refreshed_valid s) ?_ (same.lastReadOutside.2 ho)
  unfold fifoCount
  rw [same.frame.params]
  exact inRange

/-- Where RX_READ_DATA stops, RX_ERR_CHECK before it stops the tick alike. -/
theorem rxErrCheck_stops {n : Nat} {P : State → Prop} (k : ErrCheckKeeps f P)
    (reads : ∀ v, P v → Run.stops (rxReadData (v.setTxrx .rxReadData)) f) (h : P s)
    (state : s.txrxState = .rxErrCheck) : Run.stops (runActions (n + 2) e s) f := by
  have checked : Run.stopsOr (stateAction e s) f (fun r => ∃ v, P v ∧ r = (.go 0, v.setTxrx .rxReadData)) := by
    unfold stateAction
    rw [state]
    exact k.rxErrCheck e h
  refine Run.stopsOr_seq checked (fun r hr => ?_)
  obtain ⟨v, hv, rfl⟩ := hr
  exact runActions_stops (reads v hv)

end Sys2Proof.Machine
end

section
/-! PROOFS. The model faults of a tick. -/

open Sys2Proof Sys2Proof.Machine

/-- Settles O57: a clause for each access, each read off the actions of its tick. -/
theorem engineFaults : Obligations.EngineFaults := by
  intro s hq
  have edges := quiet_noEdges hq
  refine ⟨fun rest state answer ho => ?_, fun state fwl ho => ?_, fun state ho => ?_, fun state txe receives ho => ?_,
    fun state some noRxe noRest fits ho => ?_, fun state rxe inRange long ho => ?_, fun state rxe invalid above => ?_⟩
  · obtain ⟨hn, ho⟩ := ho
    exact worker_stops hq fun _ => runActions_stops_go (act_txWaitFdt state answer)
      (runActions_stops (txPrepTx_outside hn ho))
  · obtain ⟨hn, ho⟩ := ho
    exact worker_stops hq fun _ => runActions_stops_go (act_txWaitWl_reloads state edges fwl)
      (runActions_stops (txReloadFifo_outside hn ho))
  · refine worker_stops hq fun _ => runActions_stops ?_
    unfold stateAction
    rw [state]
    exact rxIdle_outside ho
  · exact worker_stops hq fun _ => runActions_stops_go (act_txWaitTxe_done state edges txe)
      (runActions_stops_go (act_txDone_receives rfl receives) (runActions_stops (rxIdle_outside ho)))
  · obtain ⟨hn, ho⟩ := ho
    exact worker_stops hq fun _ => runActions_stops_go (act_rxWaitRxe_drain state edges some noRxe noRest)
      (runActions_stops (rxReadFifo_outside fits hn ho))
  · refine worker_stops hq fun _ => runActions_stops_go (act_rxWaitRxe_end state edges rxe)
      (rxErrCheck_stops (sameReception_errCheckKeeps inRange long) (fun v same => ?_)
        (.of_sameStatus (by constructor <;> rfl) rfl rfl rfl) rfl)
    have same := same.trans (.setTxrx v .rxReadData)
    refine rxReadData_outside (by rw [same.count, same.frame.params]; exact inRange) (same.lastReadOutside.2 ?_)
    exact ho.imp id And.right
  · have outOfRange : ¬ fifoInRange s := not_or.2 ⟨Bool.eq_false_iff.1 invalid, Nat.not_le.2 above⟩
    refine worker_stops hq fun _ => runActions_stops_go (act_rxWaitRxe_end state edges rxe)
      (rxErrCheck_stops outOfRange_errCheckKeeps (fun v hv => Run.stops_bind (fsUpdate_outOfRange ?_))
        (fun fits => outOfRange (fifoInRange_congr fits rfl rfl rfl)) rfl)
    exact fun fits => hv (fifoInRange_congr fits rfl rfl rfl)

end

section
/-! PROOFS. The decoder command by command (30 R80 to R82, R90): an operand reader takes a fixed number of
bytes, whatever they are, and gives operands that have an encoding; from an encoding it gives the operands back. -/

namespace Sys2Proof

/-! ## Readers of a fixed length -/

/-- The reader takes exactly `n` bytes from the front, whatever they are, and what it reads satisfies `P`; it
refuses only where fewer than `n` bytes are left. -/
def Takes {α : Type} (take : List Byte → Option (α × List Byte)) (n : Nat) (P : α → Prop) : Prop :=
  ∀ bs, (bs.length < n ∧ take bs = none) ∨
    ∃ a rest, take bs = some (a, rest) ∧ P a ∧ bs.length = n + rest.length

namespace Takes

variable {α β : Type} {n k : Nat} {P : α → Prop} {Q : β → Prop}

theorem pure {a : α} (h : P a) : Takes (fun bs => some (a, bs)) 0 P :=
  fun bs => .inr ⟨a, bs, rfl, h, (Nat.zero_add _).symm⟩

/-- Two readers in sequence take the sum of their bytes. -/
theorem bind {m : List Byte → Option (α × List Byte)} {f : α × List Byte → Option (β × List Byte)}
    (hm : Takes m n P) (hf : ∀ a, P a → Takes (fun bs => f (a, bs)) k Q) :
    Takes (fun bs => m bs >>= f) (k + n) Q := by
  intro bs
  obtain ⟨short, none⟩ | ⟨a, mid, read, ha, len⟩ := hm bs
  · exact .inl ⟨by omega, by simp [none]⟩
  · obtain ⟨short, none⟩ | ⟨b, rest, read', hb, len'⟩ := hf a ha mid
    · exact .inl ⟨by omega, by simp [read, none]⟩
    · exact .inr ⟨b, rest, by simp [read, read'], hb, by omega⟩

/-- Nothing is left over exactly where the string has the reader's length. -/
theorem whole {take : List Byte → Option (α × List Byte)} (h : Takes take n P) {bs : List Byte}
    (len : bs.length = n) : ∃ a, take bs = some (a, []) ∧ P a := by
  obtain ⟨short, -⟩ | ⟨a, rest, read, ha, total⟩ := h bs
  · omega
  · have : rest = [] := List.eq_nil_of_length_eq_zero (by omega)
    exact ⟨a, this ▸ read, ha⟩

theorem length_of_whole {take : List Byte → Option (α × List Byte)} (h : Takes take n P) {bs : List Byte} {a : α}
    (read : take bs = some (a, [])) : bs.length = n := by
  obtain ⟨-, none⟩ | ⟨b, rest, read', -, total⟩ := h bs
  · simp [none] at read
  · obtain ⟨-, rfl⟩ : b = a ∧ rest = [] := by simpa [read'] using read
    simpa using total

end Takes

/-! ## The operands (30 R81) -/

theorem takeU8_takes : Takes takeU8 1 fun _ => True
  | [] => .inl ⟨by simp, rfl⟩
  | b :: rest => .inr ⟨b, rest, rfl, trivial, by simp [Nat.add_comm]⟩

theorem takeU16_takes : Takes takeU16 2 fun _ => True
  | [] | [_] => .inl ⟨by simp, rfl⟩
  | _ :: _ :: rest => .inr ⟨_, rest, rfl, trivial, by simp; omega⟩

theorem takeU32_takes : Takes takeU32 4 fun _ => True
  | [] | [_] | [_, _] | [_, _, _] => .inl ⟨by simp, rfl⟩
  | _ :: _ :: _ :: _ :: rest => .inr ⟨_, rest, rfl, trivial, by simp; omega⟩

/-- Region 0 is read as no location, so a location read is never in region 0. -/
theorem takeRef_takes : Takes takeRef 5 fun r => refOk r = true :=
  takeU8_takes.bind fun region _ => takeU32_takes.bind fun offset _ => .pure (by
    split
    · rfl
    · next h => simpa [refOk] using h)

/-- 0 is read as no callback, so a callback read is never 0. -/
theorem takeCb_takes : Takes takeCb 1 fun c => cbOk c = true :=
  takeU8_takes.bind fun c _ => .pure (by
    split
    · rfl
    · next h => simpa [cbOk] using h)

/-! ## The operand lists (30 R90) -/

/-- What the reader of an opcode's operand list is to give: a well-formed command with that opcode. -/
def CommandOf (op : Byte) (i : Instr) : Prop := i.wf = true ∧ opcode i = op

section
variable {op : Byte}

theorem takeOneWord_takes {mk : Word → Instr} (h : ∀ w, CommandOf op (mk w)) :
    Takes (takeOneWord mk) 4 (CommandOf op) :=
  takeU32_takes.bind fun w _ => .pure (h w)

theorem takeOneCb_takes {mk : Option Byte → Instr} (h : ∀ c, cbOk c = true → CommandOf op (mk c)) :
    Takes (takeOneCb mk) 1 (CommandOf op) :=
  takeCb_takes.bind fun c ok => .pure (h c ok)

theorem takeExchange_takes {mk : Option Ref → Half → Option Ref → Half → Option Ref → Word → Word → Instr}
    (h : ∀ tx txLen rx rxLen rcvd flags fwt, (refOk tx && refOk rx && refOk rcvd) = true →
      CommandOf op (mk tx txLen rx rxLen rcvd flags fwt)) : Takes (takeExchange mk) 27 (CommandOf op) :=
  takeRef_takes.bind fun tx ht => takeU16_takes.bind fun txLen _ => takeRef_takes.bind fun rx hr =>
    takeU16_takes.bind fun rxLen _ => takeRef_takes.bind fun rcvd hc => takeU32_takes.bind fun flags _ =>
      takeU32_takes.bind fun fwt _ => .pure (h tx txLen rx rxLen rcvd flags fwt (by simp [ht, hr, hc]))

end

theorem takeSetMode_takes : Takes takeSetMode 3 (CommandOf 0x10) :=
  takeU8_takes.bind fun _ _ => takeU8_takes.bind fun _ _ => takeU8_takes.bind fun _ _ => .pure ⟨rfl, rfl⟩

theorem takeSetBitrate_takes : Takes takeSetBitrate 2 (CommandOf 0x12) :=
  takeU8_takes.bind fun _ _ => takeU8_takes.bind fun _ _ => .pure ⟨rfl, rfl⟩

theorem takeIrqWait_takes : Takes takeIrqWait 8 (CommandOf 0x54) :=
  takeU32_takes.bind fun _ _ => takeU32_takes.bind fun _ _ => .pure ⟨rfl, rfl⟩

theorem takeAnticoll_takes : Takes takeAnticoll 24 (CommandOf 0x70) :=
  takeRef_takes.bind fun _ hb => takeRef_takes.bind fun _ hy => takeRef_takes.bind fun _ hi =>
    takeRef_takes.bind fun _ hr => takeU32_takes.bind fun _ _ => .pure ⟨by simp [Instr.wf, hb, hy, hi, hr], rfl⟩

theorem takeShortFrame_takes : Takes takeShortFrame 17 (CommandOf 0x71) :=
  takeU8_takes.bind fun _ _ => takeRef_takes.bind fun _ hr => takeU16_takes.bind fun _ _ =>
    takeRef_takes.bind fun _ hc => takeU32_takes.bind fun _ _ => .pure ⟨by simp [Instr.wf, hr, hc], rfl⟩

theorem takeIso15693Anticoll_takes : Takes takeIso15693Anticoll 19 (CommandOf 0x72) :=
  takeRef_takes.bind fun _ ht => takeU16_takes.bind fun _ _ => takeRef_takes.bind fun _ hr =>
    takeU16_takes.bind fun _ _ => takeRef_takes.bind fun _ hc => .pure ⟨by simp [Instr.wf, ht, hr, hc], rfl⟩

theorem takeIso15693Eof_takes : Takes takeIso15693Eof 12 (CommandOf 0x73) :=
  takeRef_takes.bind fun _ hr => takeU16_takes.bind fun _ _ => takeRef_takes.bind fun _ hc =>
    .pure ⟨by simp [Instr.wf, hr, hc], rfl⟩

theorem takeSetEmd_takes : Takes takeSetEmd 3 (CommandOf 0x80) :=
  takeU8_takes.bind fun _ _ => takeU16_takes.bind fun _ _ => .pure ⟨rfl, rfl⟩

theorem takeSetObsMode_takes : Takes takeSetObsMode 1 (CommandOf 0x81) :=
  takeU8_takes.bind fun _ _ => .pure ⟨rfl, rfl⟩

/-! ## The opcode map -/

/-- Every command's opcode is in the map: it has a reader, which takes as many bytes as `commandLength` leaves
after the opcode byte. -/
theorem operandReader_opcode (i : Instr) : ∃ reader n, operandReader (opcode i) = some reader ∧
    commandLength (opcode i) = some (n + 1) ∧ Takes reader n (CommandOf (opcode i)) := by
  cases i with
  | init | deinit | getMode | getBitrate | fieldOn | fieldOff | worker | getTransceiveStatus | getTransceiveState
  | irqPoll | irqIsr | fifoStatusUpdate | fifoStatusClear | fifoGetNumBytes | fifoGetIncBits | fifoIsMissingPar =>
    exact ⟨_, 0, rfl, rfl, .pure ⟨rfl, rfl⟩⟩
  | setFdtPoll | setFdtListen | setGt | irqEnable | irqDisable | irqGet =>
    exact ⟨_, 4, rfl, rfl, takeOneWord_takes fun _ => ⟨rfl, rfl⟩⟩
  | setPreCb | setPostCb | setSyncCb | setIrqCb =>
    exact ⟨_, 1, rfl, rfl, takeOneCb_takes fun _ ok => ⟨ok, rfl⟩⟩
  | startTransceive | transceiveBlocking =>
    exact ⟨_, 27, rfl, rfl, takeExchange_takes fun _ _ _ _ _ _ _ ok => ⟨ok, rfl⟩⟩
  | setMode => exact ⟨_, 3, rfl, rfl, takeSetMode_takes⟩
  | setBitrate => exact ⟨_, 2, rfl, rfl, takeSetBitrate_takes⟩
  | irqWait => exact ⟨_, 8, rfl, rfl, takeIrqWait_takes⟩
  | iso14443aAnticollFrame => exact ⟨_, 24, rfl, rfl, takeAnticoll_takes⟩
  | iso14443aShortFrame => exact ⟨_, 17, rfl, rfl, takeShortFrame_takes⟩
  | iso15693AnticollFrame => exact ⟨_, 19, rfl, rfl, takeIso15693Anticoll_takes⟩
  | iso15693Eof => exact ⟨_, 12, rfl, rfl, takeIso15693Eof_takes⟩
  | setEmd => exact ⟨_, 3, rfl, rfl, takeSetEmd_takes⟩
  | setObsMode => exact ⟨_, 1, rfl, rfl, takeSetObsMode_takes⟩

/-- One command of each row of the opcode map. -/
def oneOfEach : List Instr :=
  [.init, .deinit, .setMode 0 0 0, .getMode, .setBitrate 0 0, .getBitrate, .setFdtPoll 0, .setFdtListen 0, .setGt 0,
    .fieldOn, .fieldOff, .startTransceive none 0 none 0 none 0 0, .worker, .getTransceiveStatus, .getTransceiveState,
    .transceiveBlocking none 0 none 0 none 0 0, .setPreCb none, .setPostCb none, .setSyncCb none, .setIrqCb none,
    .irqEnable 0, .irqDisable 0, .irqPoll, .irqGet 0, .irqWait 0 0, .irqIsr, .fifoStatusUpdate, .fifoStatusClear,
    .fifoGetNumBytes, .fifoGetIncBits, .fifoIsMissingPar, .iso14443aAnticollFrame none none none none 0,
    .iso14443aShortFrame 0 none 0 none 0, .iso15693AnticollFrame none 0 none 0 none, .iso15693Eof none 0 none,
    .setEmd 0 0, .setObsMode 0]

/-- An opcode that no command has is in neither table of the codec. -/
theorem reserved_of_not_mem : ∀ op : Byte, op ∉ oneOfEach.map opcode →
    (operandReader op).isNone = true ∧ commandLength op = none := by decide

theorem opcode_or_reserved (op : Byte) :
    (∃ i, opcode i = op) ∨ operandReader op = none ∧ commandLength op = none := by
  by_cases h : op ∈ oneOfEach.map opcode
  · obtain ⟨i, -, hi⟩ := List.mem_map.1 h
    exact .inl ⟨i, hi⟩
  · obtain ⟨reader, len⟩ := reserved_of_not_mem op h
    exact .inr ⟨Option.isNone_iff_eq_none.1 reader, len⟩

/-! ## The decoder -/

theorem decode_reserved {op : Byte} (h : operandReader op = none) (bs : List Byte) :
    decode (op :: bs) = .error (.unknownOpcode op) := by
  simp [decode, h]

theorem decode_of_reader {op : Byte} {bs : List Byte} {i : Instr}
    {reader : List Byte → Option (Instr × List Byte)} (h : operandReader op = some reader)
    (read : reader bs = some (i, [])) : decode (op :: bs) = .ok i := by
  simp [decode, h, read]

theorem decode_wrongLength {op : Byte} {bs : List Byte} {reader : List Byte → Option (Instr × List Byte)}
    (h : operandReader op = some reader) (read : ∀ i, reader bs ≠ some (i, [])) :
    decode (op :: bs) = .error (.wrongLength op) := by
  match e : reader bs with
  | none => simp [decode, h, e]
  | some (i, []) => exact absurd e (read i)
  | some (_, _ :: _) => simp [decode, h, e]

/-- 30 R80, R82: past an opcode of the map, the length alone decides between a command and `wrongLength`. -/
theorem decode_cons_of_commandLength {op : Byte} {len : Nat} (h : commandLength op = some len) (bs : List Byte) :
    (bs.length + 1 = len ∧ ∃ i, decode (op :: bs) = .ok i ∧ CommandOf op i) ∨
      (bs.length + 1 ≠ len ∧ decode (op :: bs) = .error (.wrongLength op)) := by
  obtain ⟨i, rfl⟩ | ⟨-, none⟩ := opcode_or_reserved op
  · obtain ⟨reader, n, hr, hn, takes⟩ := operandReader_opcode i
    obtain rfl : n + 1 = len := by simpa [hn] using h
    by_cases total : bs.length = n
    · obtain ⟨j, read, hj⟩ := takes.whole total
      exact .inl ⟨by omega, j, decode_of_reader hr read, hj⟩
    · exact .inr ⟨by omega, decode_wrongLength hr fun _ read => total (takes.length_of_whole read)⟩
  · simp [none] at h

theorem decode_cons_of_reserved {op : Byte} (h : commandLength op = none) (bs : List Byte) :
    decode (op :: bs) = .error (.unknownOpcode op) := by
  obtain ⟨i, rfl⟩ | ⟨reader, -⟩ := opcode_or_reserved op
  · obtain ⟨_, n, -, hn, -⟩ := operandReader_opcode i
    simp [hn] at h
  · exact decode_reserved reader bs

/-- What a decoded byte string is made of: the command's opcode, then as many bytes as that opcode says. -/
theorem decode_ok {bytes : List Byte} {i : Instr} (h : decode bytes = .ok i) :
    i.wf = true ∧ ∃ bs, bytes = opcode i :: bs ∧ commandLength (opcode i) = some (bs.length + 1) := by
  cases bytes with
  | nil => cases h
  | cons op bs =>
    cases hlen : commandLength op with
    | none => cases (decode_cons_of_reserved hlen bs).symm.trans h
    | some n =>
      obtain ⟨total, j, dec, wf, rfl⟩ | ⟨-, dec⟩ := decode_cons_of_commandLength hlen bs
      · obtain rfl : j = i := by cases dec.symm.trans h; rfl
        exact ⟨wf, bs, rfl, by rw [hlen, total]⟩
      · cases dec.symm.trans h

/-! ## Encodings -/

section
open Laws

/-- Every encoding has the length its opcode determines: the per-instruction laws, gathered. -/
theorem commandLength_opcode : ∀ i : Instr, commandLength (opcode i) = some (encode i).length
  | .init => EncodeLength.init
  | .deinit => EncodeLength.deinit
  | .setMode _ _ _ => EncodeLength.setMode _ _ _
  | .getMode => EncodeLength.getMode
  | .setBitrate _ _ => EncodeLength.setBitrate _ _
  | .getBitrate => EncodeLength.getBitrate
  | .setFdtPoll _ => EncodeLength.setFdtPoll _
  | .setFdtListen _ => EncodeLength.setFdtListen _
  | .setGt _ => EncodeLength.setGt _
  | .fieldOn => EncodeLength.fieldOn
  | .fieldOff => EncodeLength.fieldOff
  | .startTransceive _ _ _ _ _ _ _ => EncodeLength.startTransceive _ _ _ _ _ _ _
  | .worker => EncodeLength.worker
  | .getTransceiveStatus => EncodeLength.getTransceiveStatus
  | .getTransceiveState => EncodeLength.getTransceiveState
  | .transceiveBlocking _ _ _ _ _ _ _ => EncodeLength.transceiveBlocking _ _ _ _ _ _ _
  | .setPreCb _ => EncodeLength.setPreCb _
  | .setPostCb _ => EncodeLength.setPostCb _
  | .setSyncCb _ => EncodeLength.setSyncCb _
  | .setIrqCb _ => EncodeLength.setIrqCb _
  | .irqEnable _ => EncodeLength.irqEnable _
  | .irqDisable _ => EncodeLength.irqDisable _
  | .irqPoll => EncodeLength.irqPoll
  | .irqGet _ => EncodeLength.irqGet _
  | .irqWait _ _ => EncodeLength.irqWait _ _
  | .irqIsr => EncodeLength.irqIsr
  | .fifoStatusUpdate => EncodeLength.fifoStatusUpdate
  | .fifoStatusClear => EncodeLength.fifoStatusClear
  | .fifoGetNumBytes => EncodeLength.fifoGetNumBytes
  | .fifoGetIncBits => EncodeLength.fifoGetIncBits
  | .fifoIsMissingPar => EncodeLength.fifoIsMissingPar
  | .iso14443aAnticollFrame _ _ _ _ _ => EncodeLength.iso14443aAnticollFrame _ _ _ _ _
  | .iso14443aShortFrame _ _ _ _ _ => EncodeLength.iso14443aShortFrame _ _ _ _ _
  | .iso15693AnticollFrame _ _ _ _ _ => EncodeLength.iso15693AnticollFrame _ _ _ _ _
  | .iso15693Eof _ _ _ => EncodeLength.iso15693Eof _ _ _
  | .setEmd _ _ => EncodeLength.setEmd _ _
  | .setObsMode _ => EncodeLength.setObsMode _

end

@[simp] theorem takeU16_encU16_nil (h : Half) : takeU16 (encU16 h) = some (h, []) := takeU16_encU16 h []

@[simp] theorem takeU32_encU32_nil (w : Word) : takeU32 (encU32 w) = some (w, []) := takeU32_encU32 w []

@[simp] theorem takeRef_encRef_nil {r : Option Ref} (h : refOk r = true) : takeRef (encRef r) = some (r, []) := by
  simpa using takeRef_encRef h []

theorem takeOneWord_encU32 (mk : Word → Instr) (w : Word) : takeOneWord mk (encU32 w) = some (mk w, []) := by
  simp [takeOneWord]

theorem takeOneCb_encCb (mk : Option Byte → Instr) {c : Option Byte} (h : cbOk c = true) :
    takeOneCb mk (encCb c) = some (mk c, []) := by
  have read : takeCb (encCb c) = some (c, []) := by simpa using takeCb_encCb h []
  simp [takeOneCb, read]

theorem takeExchange_encode (mk : Option Ref → Half → Option Ref → Half → Option Ref → Word → Word → Instr)
    {tx rx rcvd : Option Ref} (txLen rxLen : Half) (flags fwt : Word)
    (h : (refOk tx && refOk rx && refOk rcvd) = true) :
    takeExchange mk (encRef tx ++ encU16 txLen ++ encRef rx ++ encU16 rxLen ++ encRef rcvd ++ encU32 flags
      ++ encU32 fwt) = some (mk tx txLen rx rxLen rcvd flags fwt, []) := by
  obtain ⟨⟨ht, hr⟩, hc⟩ : (refOk tx = true ∧ refOk rx = true) ∧ refOk rcvd = true := by simpa using h
  simp [takeExchange, ht, hr, hc]

/-- Each operand list is read back operand by operand, in the order it was written. -/
theorem decode_encode {i : Instr} (wf : i.wf = true) : decode (encode i) = .ok i := by
  cases i with
  | init | deinit | getMode | getBitrate | fieldOn | fieldOff | worker | getTransceiveStatus | getTransceiveState
  | irqPoll | irqIsr | fifoStatusUpdate | fifoStatusClear | fifoGetNumBytes | fifoGetIncBits | fifoIsMissingPar
  | setMode | setBitrate | setObsMode =>
    exact decode_of_reader rfl rfl
  | setFdtPoll w | setFdtListen w | setGt w | irqEnable w | irqDisable w | irqGet w =>
    exact decode_of_reader rfl (takeOneWord_encU32 _ w)
  | setPreCb | setPostCb | setSyncCb | setIrqCb => exact decode_of_reader rfl (takeOneCb_encCb _ wf)
  | startTransceive | transceiveBlocking => exact decode_of_reader rfl (takeExchange_encode _ _ _ _ _ wf)
  | irqWait => exact decode_of_reader rfl (by simp [takeIrqWait, encOperands])
  | setEmd => exact decode_of_reader rfl (by simp [takeSetEmd, encOperands])
  | iso14443aAnticollFrame buf bytesToSend bitsToSend rxLength fwt =>
    obtain ⟨⟨⟨hb, hy⟩, hi⟩, hr⟩ : ((refOk buf = true ∧ refOk bytesToSend = true) ∧ refOk bitsToSend = true) ∧
      refOk rxLength = true := by simpa [Instr.wf] using wf
    exact decode_of_reader rfl (by simp [takeAnticoll, encOperands, hb, hy, hi, hr])
  | iso14443aShortFrame cmd rxBuf rxBufLen rxRcvdLen fwt =>
    obtain ⟨hr, hc⟩ : refOk rxBuf = true ∧ refOk rxRcvdLen = true := by simpa [Instr.wf] using wf
    exact decode_of_reader rfl (by simp [takeShortFrame, encOperands, hr, hc])
  | iso15693AnticollFrame txBuf txBufLen rxBuf rxBufLen rxRcvdLen =>
    obtain ⟨⟨ht, hr⟩, hc⟩ : (refOk txBuf = true ∧ refOk rxBuf = true) ∧ refOk rxRcvdLen = true := by
      simpa [Instr.wf] using wf
    exact decode_of_reader rfl (by simp [takeIso15693Anticoll, encOperands, ht, hr, hc])
  | iso15693Eof rxBuf rxBufLen rxRcvdLen =>
    obtain ⟨hr, hc⟩ : refOk rxBuf = true ∧ refOk rxRcvdLen = true := by simpa [Instr.wf] using wf
    exact decode_of_reader rfl (by simp [takeIso15693Eof, encOperands, hr, hc])

end Sys2Proof
end

section
/-! PROOFS. What a step does with the byte string at the front of the port (30 R80, R82). -/

namespace Sys2Proof.Machine

variable {s : State} {bytes : List Byte} {rest : List (List Byte)}

theorem step_decoded {i : Instr} (idle : s.running = none) (port : s.port = bytes :: rest)
    (dec : decode bytes = .ok i) : step s = exec i { s with port := rest } := by
  simp only [step, idle, takeCommand, port, dec, State.setPort]

/-- Only the port and the response change: no command was in progress before the rejection either. -/
theorem step_rejected {e : DecodeError} (idle : s.running = none) (port : s.port = bytes :: rest)
    (dec : decode bytes = .error e) :
    step s = .next { s with port := rest, response := [(decodeStatus e).code] } := by
  simp only [step, idle, takeCommand, port, dec]
  simp [rejectCommand, reply, State.setResponse, State.setRunning, State.setPort, idle]

end Sys2Proof.Machine
end

section
/-! PROOFS. The statements on the encoding and on the byte strings that are no command. -/

open Sys2Proof Sys2Proof.Machine

/-- Settles O7: each operand reader gives back what its encoder wrote. -/
theorem decodeEncode : Obligations.DecodeEncode := fun _ => decode_encode

/-- Settles O5: the two ways the decoder refuses, each answered by its status. -/
theorem malformedCommands : Obligations.MalformedCommands := by
  intro s rest idle
  refine ⟨fun port => step_rejected idle port rfl, fun op operands port => ⟨fun reserved => ?_, fun n len wrong => ?_⟩⟩
  · exact step_rejected idle port (decode_cons_of_reserved reserved operands)
  · obtain ⟨right, -⟩ | ⟨-, dec⟩ := decode_cons_of_commandLength len operands
    · exact absurd right wrong
    · exact step_rejected idle port dec

/-- Settles O8: the opcode fixes the length of the string and of the command's encoding alike. -/
theorem decodedIsWellFormed : Obligations.DecodedIsWellFormed := by
  intro bytes i h
  obtain ⟨wf, bs, rfl, len⟩ := decode_ok h
  exact ⟨wf, rfl, Option.some.inj (len.symm.trans (commandLength_opcode i))⟩

/-- Settles O9: one direction is the shape of a decoded string, the other that the length alone decides. -/
theorem lengthByOpcode : Obligations.LengthByOpcode := by
  intro op operands
  constructor
  · rintro ⟨i, h⟩
    obtain ⟨-, bs, e, len⟩ := decode_ok h
    obtain ⟨rfl, rfl⟩ := List.cons.inj e
    exact len
  · intro len
    obtain ⟨-, i, dec, -⟩ | ⟨wrong, -⟩ := decode_cons_of_commandLength len operands
    · exact ⟨i, dec⟩
    · exact absurd rfl wrong

/-- Settles O4: the port and the decoder are all a step looks at before `exec`. -/
theorem stepRunsDecodedCommand : Obligations.StepRunsDecodedCommand := fun _ _ _ _ => step_decoded

/-- Settles O10: each of the four readers, run on a string of its own length. -/
theorem operandAssembly : Obligations.OperandAssembly :=
  ⟨fun _ _ _ => decode_of_reader rfl rfl, fun _ _ _ _ => decode_of_reader rfl rfl, fun _ => decode_of_reader rfl rfl,
    fun _ _ _ _ _ _ _ _ _ _ _ _ => decode_of_reader rfl rfl⟩

/-- Settles O11: each string is read by its opcode's operand reader. -/
theorem writtenWordsDecode : Obligations.WrittenWordsDecode :=
  ⟨decode_of_reader rfl rfl, decode_of_reader rfl rfl, decode_of_reader rfl rfl, decode_of_reader rfl rfl,
    decode_of_reader rfl rfl, decode_of_reader rfl rfl⟩

end

section
/-! PROOFS. What the drain and the points of the ISR agent never do (fault) and what they use up of the line's
script, and from the latter the drain after one iteration (40 R104, R107, 20 R70). -/

namespace Sys2Proof.Machine

variable {s t : State} {point : State → Run State}

/-! ## Computations without a model fault -/

/-- The computation answers a value or never ends; it stops with no model fault. -/
def Run.faultless {α : Type} (r : Run α) : Prop := ∀ f, r ≠ .error (.fault f)

theorem Run.faultless_ok {α : Type} (a : α) : Run.faultless (.ok a) := nofun

theorem Run.faultless_hang {α : Type} (s : State) : Run.faultless (.error (.hang s) : Run α) := nofun

theorem Run.faultless_seq {α β : Type} {m : Run α} {k : α → Run β} (hm : Run.faultless m)
    (hk : ∀ a, Run.faultless (k a)) : Run.faultless (m >>= k) := by
  match m with
  | .ok a => exact hk a
  | .error (.hang u) => exact Run.faultless_hang u
  | .error (.fault f) => exact absurd rfl (hm f)

/-- A faultless command has a next state: the computation's value, or the state it hangs in. -/
theorem Run.faultless.settle {r : Run State} {Q H : State → Prop} (hr : Run.faultless r) (hp : Run.post r Q H) :
    ∃ t, settle r = .next t ∧ (Q t ∨ ∃ u, H u ∧ t = loopOn .hung u) := by
  match r with
  | .ok t => exact ⟨t, rfl, .inl hp⟩
  | .error (.hang u) => exact ⟨_, rfl, .inr ⟨u, hp, rfl⟩⟩
  | .error (.fault f) => exact absurd rfl (hr f)

theorem drainLoop_faultless (hp : ∀ t, Run.faultless (point t)) (n : Nat) (s : State) :
    Run.faultless (drainLoop point n s) := by
  induction n generalizing s with
  | zero =>
    unfold drainLoop
    split
    · exact Run.faultless_hang s
    · exact Run.faultless_ok s
  | succ n ih =>
    unfold drainLoop
    split
    · split
      · exact Run.faultless_hang s
      · exact Run.faultless_ok s
    · exact Run.faultless_ok _
    · exact Run.faultless_seq (hp _) (fun t => ih (drainOnce t))

theorem isrBody_faultless (s : State) : Run.faultless (isrBody s) := by
  refine Run.faultless_seq (drainLoop_faultless Run.faultless_ok _ s) (fun t => ?_)
  split
  · exact Run.faultless_ok t
  · exact Run.faultless_ok _

theorem isrLoop_faultless (edges : List Bool) (s : State) : Run.faultless (isrLoop edges s) := by
  induction edges generalizing s with
  | nil => exact Run.faultless_ok _
  | cons edge rest ih =>
    cases edge with
    | false => exact Run.faultless_ok _
    | true => exact Run.faultless_seq (isrBody_faultless s) ih

theorem isrPoint_faultless (s : State) : Run.faultless (isrPoint s) := by
  unfold isrPoint
  split
  · exact Run.faultless_ok s
  · exact isrLoop_faultless _ s

theorem drain_faultless (s : State) : Run.faultless (drain s) := drainLoop_faultless isrPoint_faultless _ s

theorem engineGet_faultless (mask : Word) (s : State) : Run.faultless (engineGet mask s) :=
  Run.faultless_seq (isrPoint_faultless s) (fun _ => Run.faultless_ok _)

theorem waitIteration_faultless (mask timeoutMs : Word) (t0 : Nat) (s : State) :
    Run.faultless (waitIteration mask timeoutMs t0 s) := by
  refine Run.faultless_seq (drain_faultless s) (fun t => ?_)
  refine Run.faultless_seq (engineGet_faultless mask t) (fun ⟨r, u⟩ => ?_)
  dsimp only
  split
  · exact Run.faultless_ok _
  · split
    · exact Run.faultless_ok _
    · split
      · exact Run.faultless_ok _
      · exact Run.faultless_ok _

/-! ## Samples of the line -/

/-- From `s`, the computation only uses samples of the line, from the front of the script. -/
abbrev UsesLine (s : State) (r : Run State) : Prop :=
  Run.post r (fun t => t.env.line <:+ s.env.line) (fun _ => True)

theorem UsesLine.seq {m : Run State} {k : State → Run State} (hm : UsesLine s m) (hk : ∀ t, UsesLine t (k t)) :
    UsesLine s (m >>= k) :=
  Run.post_seq hm (fun t ht => Run.post_mono (hk t) (fun _ h => h.trans ht) (fun _ => id))

theorem drainOnce_line (s : State) : (drainOnce s).env.line = s.env.line := by
  obtain ⟨n, e, hu, line, _⟩ :=
    ((busRead_draw (.irqStatus 0) s).trans (busRead_draw (.irqStatus 1) _)).trans (busRead_draw (.irqStatus 2) _)
  unfold drainOnce
  simp only [State.setPending_env, hu, line]

theorem drainLoop_usesLine (hp : ∀ t, UsesLine t (point t)) (n : Nat) (s : State) :
    UsesLine s (drainLoop point n s) := by
  induction n generalizing s with
  | zero =>
    unfold drainLoop
    split
    · exact trivial
    · exact List.suffix_refl _
  | succ n ih =>
    unfold drainLoop
    split
    · split
      · exact trivial
      · exact List.suffix_refl _
    next rest h =>
      show rest <:+ s.env.line
      rw [h]
      exact List.suffix_cons false rest
    next rest h =>
      refine Run.post_seq (hp (setLine rest s)) (fun t ht => ?_)
      have used : (drainOnce t).env.line <:+ s.env.line := by
        rw [drainOnce_line, h]
        exact ht.trans (List.suffix_cons true rest)
      exact Run.post_mono (ih (drainOnce t)) (fun _ hu => hu.trans used) (fun _ => id)

theorem isrBody_usesLine (s : State) : UsesLine s (isrBody s) := by
  refine UsesLine.seq (drainLoop_usesLine (point := .ok) (fun t => List.suffix_refl t.env.line) _ s) (fun t => ?_)
  split
  · exact List.suffix_refl _
  · exact List.suffix_refl _

theorem isrLoop_usesLine (edges : List Bool) (s : State) : UsesLine s (isrLoop edges s) := by
  induction edges generalizing s with
  | nil => exact List.suffix_refl _
  | cons edge rest ih =>
    cases edge with
    | false => exact List.suffix_refl _
    | true => exact UsesLine.seq (isrBody_usesLine s) ih

theorem isrPoint_usesLine (s : State) : UsesLine s (isrPoint s) := by
  unfold isrPoint
  split
  · exact List.suffix_refl _
  · exact isrLoop_usesLine _ s

/-! ## The drain, iteration by iteration -/

/-- As many iterations as there are samples are enough: at most that many find the line high. -/
theorem drainLoop_enough (hp : ∀ t, UsesLine t (point t)) {n : Nat} (hn : s.env.line.length ≤ n) :
    drainLoop point n s = drainWith point s := by
  suffices same : ∀ (n m : Nat) (s : State), s.env.line.length ≤ n → s.env.line.length ≤ m →
      drainLoop point n s = drainLoop point m s from same _ _ s hn (le_refl _)
  intro n
  induction n with
  | zero =>
    intro m s hn hm
    have used : s.env.line = [] := List.length_eq_zero_iff.1 (Nat.le_zero.1 hn)
    cases m with
    | zero => rfl
    | succ m => simp only [drainLoop, used]
  | succ n ih =>
    intro m s hn hm
    match h : s.env.line, m with
    | [], 0 => simp only [drainLoop, h]
    | [], m + 1 => simp only [drainLoop, h]
    | _ :: _, 0 => simp [h] at hm
    | false :: rest, m + 1 => simp only [drainLoop, h]
    | true :: rest, m + 1 =>
      simp only [drainLoop, h]
      rw [h, List.length_cons, Nat.add_le_add_iff_right] at hn hm
      have used := hp (setLine rest s)
      match hu : point (setLine rest s) with
      | .error _ => rfl
      | .ok t =>
        rw [hu] at used
        have left : (drainOnce t).env.line.length ≤ rest.length := by
          rw [drainOnce_line]
          exact used.length_le
        exact ih m (drainOnce t) (left.trans hn) (left.trans hm)

/-- A high sample: the ISR agent's point, one iteration, then the drain of the state after it (40 R104). -/
theorem drain_high {line : List Bool} {u : State} (high : s.env.line = true :: line)
    (hu : isrPoint (setLine line s) = .ok u) : drain s = drain (drainOnce u) := by
  have used := isrPoint_usesLine (setLine line s)
  rw [hu] at used
  have first : drain s = drainLoop isrPoint line.length (drainOnce u) := by
    simp [drain, drainWith, drainLoop, high, hu]
  rw [first]
  refine drainLoop_enough isrPoint_usesLine ?_
  rw [drainOnce_line]
  exact used.length_le

/-! ## The aggregator's commands -/

/-- Enabling bits none of which is new changes nothing (40 R101). -/
theorem or_eq_of_and_not_eq_zero {e m : Word} (h : m &&& ~~~e = 0) : e ||| m = e := by
  ext i hi
  have bit := congrArg (fun w : Word => w[i]) h
  simp only [BitVec.getElem_and, BitVec.getElem_not, BitVec.getElem_or] at bit ⊢
  revert bit
  cases m[i] <;> cases e[i] <;> simp

/-- The enable mask replaced, and NONE answered (40 R101, R102). -/
theorem reply_setEnableMask (new : Word) (s : State) :
    reply .none [] (setEnableMask new s) = { s with
      irq := { s.irq with enabled := new }, hwMask := masksOf new
      trace := maskEvents s.hwMask new ++ s.trace, response := [0], running := none } := by
  rw [setEnableMask_eq]
  rfl

/-- The enable mask replaced by itself, where the record mirrors it, writes nothing. -/
theorem reply_setEnableMask_same (mirror : s.hwMask = masksOf s.irq.enabled) :
    reply .none [] (setEnableMask s.irq.enabled s) = { s with response := [0], running := none } := by
  rw [reply_setEnableMask, mirror, maskEvents_masksOf, List.nil_append, ← mirror]

/-- A drain that is followed by an answer, or never answers, shows only what an ISR run may touch. -/
theorem AggStep.sameButIsr (h : AggStep s t) (resp : List Byte) (r : Option Running) :
    SameButIsr { s with response := resp, running := r } ((t.setResponse resp).setRunning r) := by
  obtain ⟨⟨p, n, e, rfl, _⟩, _⟩ := h
  rfl

/-- IRQ_POLL answers, or drains without end, an aggregator step away (40 R104, 93 I50). -/
theorem execIrqPoll_completes (s : State) :
    ∃ u, AggStep s u ∧ (execIrqPoll s = .next (reply .none [] u) ∨ execIrqPoll s = .next (loopOn .hung u)) := by
  have runs : Run.faultless (drain s >>= fun t => .ok (reply .none [] t)) :=
    Run.faultless_seq (drain_faultless s) (fun _ => Run.faultless_ok _)
  have steps : Run.post (drain s >>= fun t => .ok (reply .none [] t))
      (fun t => ∃ u, AggStep s u ∧ t = reply .none [] u) (AggStep s) :=
    Run.post_seq (drain_post s) (fun u hu => ⟨u, hu, rfl⟩)
  obtain ⟨t, ht, ⟨u, hu, rfl⟩ | ⟨u, hu, rfl⟩⟩ := runs.settle steps
  · exact ⟨u, hu, .inl ht⟩
  · exact ⟨u, hu, .inr ht⟩

/-- The ISR agent's step with a scripted drain, whatever edges are scripted (40 R107). -/
theorem isrBody_script {reads : List (Byte × Byte × Byte)} {line : List Bool} {regs : List Byte}
    (h : drainScript reads line regs s) : isrBody s = .ok { drained reads line regs s with
      trace := callbackEvents s.irq.callback .irqCallback ++ (drained reads line regs s).trace } := by
  have kept : (drained reads line regs s).irq.callback = s.irq.callback := rfl
  simp only [isrBody, isrDrain_script h, Run.ok_bind]
  split
  next unregistered =>
    rw [← kept, unregistered]
    rfl
  next cb registered =>
    rw [← kept, registered]
    rfl

theorem Env.takeElapsed_keeps (e : Env) :
    e.takeElapsed.2.line = e.line ∧ e.takeElapsed.2.regs = e.regs ∧ e.takeElapsed.2.edges = e.edges := by
  unfold Env.takeElapsed
  split
  · exact ⟨rfl, rfl, rfl⟩
  · exact ⟨rfl, rfl, rfl⟩

/-- One iteration of IRQ_WAIT with a scripted drain and no ISR edge (40 R106). -/
theorem waitIteration_script (mask timeoutMs : Word) (t0 : Nat) {reads : List (Byte × Byte × Byte)} {line : List Bool}
    {regs : List Byte} (hq : noEdges s) (h : drainScript reads line regs s) :
    waitIteration mask timeoutMs t0 s = .ok (waited mask timeoutMs t0 (drained reads line regs s)) := by
  simp only [waitIteration, drain_script h hq, Run.ok_bind]
  generalize hd : drained reads line regs s = d
  have quietDrain : noEdges d := noEdges_congr hq (by rw [← hd]; rfl) (by rw [← hd]; rfl)
  rw [engineGet_noEdges _ quietDrain]
  simp only [Run.ok_bind, getIrq, waited]
  split
  · rfl
  · split
    · rfl
    · dsimp only [readClock, reply, loopOn, State.setPending, State.setEnv, State.setClock, State.setResponse,
        State.setRunning]
      by_cases passed : timeoutMs.toNat ≤ d.clockMs + d.env.takeElapsed.1 - t0
      · simp only [passed, if_true]
        rfl
      · simp only [passed, if_false]
        rfl

/-- Where one iteration of IRQ_WAIT leaves the command: returned, or waiting on (40 R106). -/
theorem waitIteration_running (mask timeoutMs : Word) (t0 : Nat) (s : State) :
    Run.post (waitIteration mask timeoutMs t0 s)
      (fun t => t.running = none ∨ t.running = some (.irqWait mask timeoutMs t0)) (fun _ => True) := by
  refine Run.post_seq (Run.post_mono (drain_post s) (fun _ _ => trivial) (fun _ _ => trivial)) (fun t _ => ?_)
  refine Run.post_seq (Run.post_mono (engineGet_post mask t) (fun _ _ => trivial) (fun _ _ => trivial))
    (fun ⟨r, u⟩ _ => ?_)
  dsimp only
  split
  · exact .inl rfl
  · split
    · exact .inr rfl
    · split
      · exact .inl rfl
      · exact .inr rfl

end Sys2Proof.Machine
end

section
/-! PROOFS. The statements on the interrupt aggregator's commands. -/

open Sys2Proof Sys2Proof.Machine

/-- Settles O29: a scripted drain, one more iteration of a drain, and what a drain with ISR runs inside can do. -/
theorem irqPoll : Obligations.IrqPoll := by
  refine ⟨fun reads line regs s hq h => ?_, fun line s u high hu => ?_, fun s => ?_⟩
  · show settle (drain s >>= _) = _
    rw [drain_script h hq]
    rfl
  · show settle (drain s >>= _) = settle (drain (drainOnce u) >>= _)
    rw [drain_high high hu]
  · obtain ⟨u, hu, answers | hangs⟩ := execIrqPoll_completes s
    · exact ⟨_, answers, hu.sameButIsr _ _, .inl ⟨rfl, rfl⟩, hu.grows, hu.enabled⟩
    · exact ⟨_, hangs, hu.sameButIsr _ _, .inr ⟨rfl, rfl⟩, hu.grows, hu.enabled⟩

/-- Settles O31: the first iteration and every further one are the same `waitIteration`. -/
theorem irqWait : Obligations.IrqWait := by
  refine fun mask timeoutMs s => ⟨fun reads line regs hq h => ⟨?_, fun t0 waiting => ?_⟩, ?_⟩
  · obtain ⟨samples, answers⟩ := h
    obtain ⟨line', regs', edges'⟩ := Env.takeElapsed_keeps s.env
    exact congrArg settle (waitIteration_script (s := (readClock s).2) mask timeoutMs _
      (noEdges_congr hq rfl edges') ⟨line'.trans samples, regs'.trans answers⟩)
  · have resumed : step s = settle (isrPoint s >>= waitIteration mask timeoutMs t0) := by
      simp only [step, waiting, resume]
    rw [resumed, isrPoint_noEdges hq, Run.ok_bind, waitIteration_script mask timeoutMs t0 hq h, settle_ok]
  · obtain ⟨t, ht, (returned | waits) | ⟨u, _, rfl⟩⟩ := (waitIteration_faultless mask timeoutMs (readClock s).1
      (readClock s).2).settle (waitIteration_running mask timeoutMs _ _)
    · exact ⟨t, ht, .inl returned⟩
    · exact ⟨t, ht, .inr (.inr ⟨_, waits⟩)⟩
    · exact ⟨_, ht, .inr (.inl rfl)⟩

/-- Settles O27: both replace the enable mask, and a mask that changes no bit replaces it by itself. -/
theorem irqEnableDisable : Obligations.IrqEnableDisable := by
  refine ⟨?_, ?_, fun mask s mirror => ⟨fun already => ?_, fun already => ?_⟩⟩
  · rintro mask _ s rfl
    exact congrArg _ (reply_setEnableMask _ s)
  · rintro mask _ s rfl
    exact congrArg _ (reply_setEnableMask _ s)
  · show Host.Outcome.next (reply .none [] (setEnableMask (s.irq.enabled ||| mask) s)) = _
    rw [or_eq_of_and_not_eq_zero already, reply_setEnableMask_same mirror]
  · show Host.Outcome.next (reply .none [] (setEnableMask (s.irq.enabled &&& ~~~mask) s)) = _
    rw [and_not_of_and_eq_zero ((BitVec.and_comm _ _).trans already), reply_setEnableMask_same mirror]

/-- Settles O28: after the first consuming read no bit of the mask is pending. -/
theorem irqGet : Obligations.IrqGet := by
  refine fun mask s => ⟨_, rfl, rfl, ?_⟩
  have none_left : (s.irq.pending &&& ~~~mask) &&& mask = 0 := by
    rw [BitVec.and_assoc, BitVec.and_comm (~~~mask), BitVec.and_not_self]
    exact BitVec.and_zero
  show Host.Outcome.next (reply .none (encU32 ((s.irq.pending &&& ~~~mask) &&& mask))
    (s.setPending ((s.irq.pending &&& ~~~mask) &&& ~~~mask))) = _
  rw [and_not_of_and_eq_zero none_left, none_left]
  rfl

/-- Settles O32: the ISR agent's own drain has no point, so no edge matters to it. -/
theorem irqIsr : Obligations.IrqIsr := by
  refine ⟨fun s polled => ?_, fun reads line regs s isr h => ?_⟩
  · show execIrqIsr s = _
    simp only [execIrqIsr, polled]
  · show execIrqIsr s = _
    simp only [execIrqIsr, isr, isrBody_script h, settle_ok]

end

section
/-! PROOFS. A tick's actions where no ISR edge comes: they sample no line and never drain without end (40 R109,
44 R171). -/

namespace Sys2Proof.Machine

variable {s t : State} {l : List Bool}

/-- No ISR edge comes, and these are the line's samples to come. -/
def LineAt (l : List Bool) (s : State) : Prop := noEdges s ∧ s.env.line = l

/-- The action ends, unless it faults, and has sampled no line. -/
abbrev ActionLine (l : List Bool) (r : Run (Flow × State)) : Prop :=
  Run.post r (fun p => LineAt l p.2) (fun _ => False)

namespace LineAt

theorem draw (h : LineAt l s) (d : DrawStep s t) : LineAt l t := by
  obtain ⟨n, e, rfl, line, _, edges⟩ := d
  exact ⟨noEdges_congr h.1 rfl edges, line.trans h.2⟩

theorem readClock (h : LineAt l s) : LineAt l (readClock s).2 := by
  obtain ⟨n, e, hr, line, _, edges⟩ := readClock_eq s
  rw [hr]
  exact ⟨noEdges_congr h.1 rfl edges, line.trans h.2⟩

theorem log (h : LineAt l s) (e : Event) : LineAt l (s.log e) := h

theorem fsClear (h : LineAt l s) : LineAt l (fsClear s) := h

theorem setFifo (h : LineAt l s) (total written : Nat) : LineAt l (s.setFifo total written) := h

theorem goTo (h : LineAt l s) (next : TxrxState) : ActionLine l (goTo next s) := h

theorem obsOff (h : LineAt l s) : LineAt l (obsOff s) := by
  rw [obsOff_eq]
  exact h

theorem obsOn (h : LineAt l s) : LineAt l (obsOn s) := by
  unfold Machine.obsOn
  split
  · exact h
  · exact h

theorem failStatus (h : LineAt l s) : LineAt l (failStatus s) := by
  unfold Machine.failStatus
  split
  · exact h
  · exact h

/-- The engine's consuming read, its point included. -/
theorem engineGet (h : LineAt l s) (mask : Word) :
    Run.post (engineGet mask s) (fun r => LineAt l r.2) (fun _ => False) := by
  rw [engineGet_noEdges mask h.1]
  exact h

theorem fsUpdate (h : LineAt l s) : Run.post (fsUpdate s) (LineAt l) (fun _ => False) := by
  obtain ⟨_, e⟩ | ⟨_, _, e⟩ | ⟨_, _, e⟩ := fsUpdate_cases s <;> rw [e]
  · exact h
  · obtain ⟨u, f, d, _, hf⟩ := fetchFifoStatus_spec s
    have fetched : LineAt l u := h.draw d
    rw [hf]
    exact fetched
  · exact trivial

theorem memWrite (h : LineAt l s) (buf : Option BufRef) (i : Nat) (bytes : List Byte) :
    Run.post (memWrite buf i bytes s) (LineAt l) (fun _ => False) :=
  Run.post_mono (memWrite_post buf i bytes s _) (fun _ ⟨_, e, _⟩ => e ▸ h) (fun _ => id)

theorem memWrite16 (h : LineAt l s) (cell : Option BufRef) (v : Half) :
    Run.post (memWrite16 cell v s) (LineAt l) (fun _ => False) :=
  Run.post_mono (memWrite16_post cell v s _) (fun _ ⟨_, e, _⟩ => e ▸ h) (fun _ => id)

theorem endExchange (h : LineAt l s) : ActionLine l (endExchange s) := by
  rw [endExchange_noEdges h.1]
  exact h

/-! ## TX -/

theorem txWaitGt (h : LineAt l s) : ActionLine l (txWaitGt s) := by
  unfold Machine.txWaitGt
  split
  · dsimp only [gtIsExpired]
    split
    · exact h.readClock
    · exact h.readClock
  · exact h

theorem txWaitFdt (h : LineAt l s) : ActionLine l (txWaitFdt s) := by
  have polled := h.draw (chipStatus_draw s)
  dsimp only [Machine.txWaitFdt]
  split
  · exact polled
  · exact polled.goTo _

theorem txPrepTx (h : LineAt l s) : ActionLine l (txPrepTx s) := by
  have cleared := ((h.log (.cmd .resetRxGain)).setFifo s.ctx.txBytes 0).fsClear
  have counted := (cleared.log (.cmd .clearFifo)).fsClear.log (.regWrite16 .numTxBytes s.ctx.txBufLen)
  refine Run.post_seq (memRead_noHang _ _ _ _ _) (fun bytes _ => ?_)
  exact ((counted.draw (fifoWrite_draw bytes _)).fsClear.setFifo _ _).obsOn.goTo _

theorem transmit (h : LineAt l s) : ActionLine l (transmit s) := by
  rw [transmit_eq]
  exact h

theorem txTransmit (h : LineAt l s) : ActionLine l (txTransmit s) := by
  have asked := h.draw (syncAnswer_draw s)
  unfold Machine.txTransmit
  split
  · exact h.transmit
  · dsimp only
    split
    · exact asked.transmit
    · exact asked

theorem txWaitWl (h : LineAt l s) : ActionLine l (txWaitWl s) := by
  refine Run.post_seq (h.engineGet _) (fun ⟨irq, t⟩ ht => ?_)
  dsimp only at ht ⊢
  split
  · exact ht
  · split
    · exact ht
    · exact ht

theorem txReloadFifo (h : LineAt l s) : ActionLine l (txReloadFifo s) := by
  refine Run.post_seq (memRead_noHang _ _ _ _ _) (fun bytes _ => ?_)
  have loaded := (h.draw (fifoWrite_draw bytes s)).fsClear
  dsimp only
  split
  · exact (loaded.setFifo _ _).goTo _
  · exact (loaded.setFifo _ _).goTo _

theorem txWaitTxe (h : LineAt l s) : ActionLine l (txWaitTxe s) := by
  refine Run.post_seq (h.engineGet _) (fun ⟨irq, t⟩ ht => ?_)
  dsimp only at ht ⊢
  split
  · exact ht
  · exact ht

theorem txDone (h : LineAt l s) : ActionLine l (txDone s) := by
  have off := h.obsOff
  dsimp only [Machine.txDone]
  split
  · exact endExchange (s := State.setStatus _ _) off
  · exact off

/-! ## RX -/

theorem rxIdle (h : LineAt l s) : ActionLine l (rxIdle s) :=
  Run.post_seq (memWrite16 (h.setFifo 0 0).fsClear _ _) (fun _ ht => ht.goTo _)

theorem rxWaitRxs (h : LineAt l s) : ActionLine l (rxWaitRxs s) := by
  refine Run.post_seq (h.engineGet _) (fun ⟨irq, t⟩ ht => ?_)
  dsimp only at ht ⊢
  split
  · exact ht
  · split
    · exact ht
    · exact ht

theorem rxRestart (h : LineAt l s) : ActionLine l (rxRestart s) := by
  refine Run.post_seq (h.engineGet _) (fun ⟨nre, t⟩ ht => ?_)
  have asked := LineAt.draw ht (chipStatus_draw t)
  dsimp only [nrtRunning]
  split
  · exact ht
  · split
    · exact asked
    · refine Run.post_seq (asked.engineGet _) (fun ⟨_, u⟩ hu => ?_)
      have receiverRead := LineAt.draw hu (chipStatus_draw u)
      dsimp only
      split
      · exact receiverRead
      · exact receiverRead

theorem rxWaitRxe (h : LineAt l s) : ActionLine l (rxWaitRxe s) := by
  refine Run.post_seq (h.engineGet _) (fun ⟨irq, t⟩ ht => ?_)
  dsimp only at ht ⊢
  split
  · exact ht
  · split
    · exact Run.post_seq (ht.engineGet _) (fun _ hu => hu)
    · split
      · exact ht.rxRestart
      · exact ht

theorem rxReadFifo (h : LineAt l s) : ActionLine l (rxReadFifo s) := by
  have read := h.draw (fifoRead_draw s.params.wlChunk s)
  exact Run.post_seq (read.fsClear.memWrite _ _ _) (fun _ ht => ht)

theorem classify (h : LineAt l s) (errIrq : Word) :
    Run.post (classify errIrq s) (fun r => LineAt l r.2) (fun _ => False) := by
  unfold Machine.classify
  split
  · exact h
  · exact Run.post_seq h.fsUpdate (fun _ ht => ht)

theorem nfcaReclassify (h : LineAt l s) : Run.post (nfcaReclassify s) (LineAt l) (fun _ => False) := by
  unfold Machine.nfcaReclassify
  split
  · refine Run.post_seq h.fsUpdate (fun t ht => ?_)
    split
    · exact ht
    · exact ht
  · exact h

theorem emdRearm (h : LineAt l s) : ActionLine l (emdRearm s) := by
  have unmasked : LineAt l (busCmd .unmaskReceive s) := h
  refine Run.post_seq (unmasked.fsClear.engineGet _) (fun ⟨nre, t⟩ ht => ?_)
  dsimp only at ht ⊢
  split
  · exact ht
  · exact ht

theorem emdHandling (h : LineAt l s) : ActionLine l (emdHandling s) := by
  unfold Machine.emdHandling
  split
  · refine Run.post_seq h.fsUpdate (fun t ht => ?_)
    split
    · exact ht.emdRearm
    · exact ht
  · exact h

theorem rxErrCheck (h : LineAt l s) (errIrq : Word) : ActionLine l (rxErrCheck errIrq s) := by
  refine Run.post_seq (h.classify errIrq) (fun ⟨e, t⟩ ht => ?_)
  cases e with
  | none => exact ht
  | some e => exact Run.post_seq (nfcaReclassify (s := State.setStatus t e) ht) (fun _ hu => hu.emdHandling)

theorem readOut (h : LineAt l s) (n : Nat) : LineAt l (readOut n s).2 := by
  unfold Machine.readOut
  split
  · exact h
  · exact (h.draw (fifoRead_draw n s)).fsClear

theorem rxReadData (h : LineAt l s) : ActionLine l (rxReadData s) := by
  refine Run.post_seq h.fsUpdate (fun t ht => ?_)
  refine Run.post_seq ((ht.readOut (fifoCount t)).memWrite _ _ _) (fun u hu => ?_)
  have counted : ∀ (overflow : Prop) [Decidable overflow] (total written : Nat),
      LineAt l (if overflow then (u.setFifo total written).setStatus .nomem else u.setFifo total written) := by
    intro overflow _ total written
    split
    · exact hu
    · exact hu
  refine Run.post_seq ((counted _ _ _).memWrite16 _ _) (fun v hv => ?_)
  split
  · exact hv
  · exact hv

/-! ## The tick -/

theorem stateAction (h : LineAt l s) (errIrq : Word) : ActionLine l (stateAction errIrq s) := by
  unfold Machine.stateAction
  split
  next => exact h
  next => exact h
  next => exact h.txWaitGt
  next => exact h.txWaitFdt
  next => exact h.txPrepTx
  next => exact h.txTransmit
  next => exact h.txWaitWl
  next => exact h.txReloadFifo
  next => exact h.txWaitTxe
  next => exact h.txDone
  next => exact h.obsOff.failStatus.endExchange
  next => exact h.rxIdle
  next => exact h.rxWaitRxs
  next => exact h.rxWaitRxe
  next => exact h.rxErrCheck errIrq
  next => exact h.rxReadData
  next => exact h.rxReadFifo
  next => exact endExchange (s := State.setStatus _ _) h
  next => exact h.failStatus.endExchange

theorem runActions (h : LineAt l s) (n : Nat) (errIrq : Word) :
    Run.post (runActions n errIrq s) (LineAt l) (fun _ => False) := by
  induction n generalizing errIrq s with
  | zero => exact h
  | succ n ih =>
    refine Run.post_seq (h.stateAction errIrq) (fun ⟨flow, t⟩ ht => ?_)
    cases flow with
    | yield => exact ht
    | go e => exact ih ht e

end LineAt

/-- The worker's tick is its actions where no event comes; in build ISR it samples no line. -/
theorem execWorker_line (isr : s.params.irqBuild = .isr) (quietEdges : s.env.edges = [])
    (h : execWorker s = .next t) : t.env.line = s.env.line := by
  have still : quiet s = true := by simp [quiet, isr, quietEdges]
  have ticked : Run.post (tick s) (LineAt s.env.line) (fun _ => False) := by
    rw [tick_quiet still]
    exact LineAt.runActions ⟨.inr quietEdges, rfl⟩ _ _
  have answered : Run.post (tick s >>= fun u => .ok (reply u.status [] u)) (fun u => u.env.line = s.env.line)
      (fun _ => False) := Run.post_seq ticked (fun _ hu => hu.2)
  exact settle_post h (Run.post_mono answered (fun _ => id) (fun _ => False.elim))

/-- In build POLLED a tick with a scripted drain is the tick of the drained state (40 R109). -/
theorem tick_drained {reads : List (Byte × Byte × Byte)} {regs : List Byte} (polled : s.params.irqBuild = .polled)
    (low : s.env.lineRest = false) (h : drainScript reads [] regs s) : tick s = tick (drained reads [] regs s) := by
  have still : quiet (drained reads [] regs s) = true := by simp [quiet, drained, polled, low]
  rw [tick_quiet still]
  unfold tick
  simp only [polled, drain_script h (.inl polled), Run.ok_bind]

end Sys2Proof.Machine
end

section
/-! PROOFS. The statement on the drain of a tick. -/

open Sys2Proof Sys2Proof.Machine

/-- Settles O39: the drain comes before the actions and is their only sampling of the line; IDLE has no action. -/
theorem tickDrainsFirst : Obligations.TickDrainsFirst := by
  refine ⟨fun reads regs s polled low h => ?_, fun _ _ => execWorker_line, fun s still idle => ?_⟩
  · show settle (tick s >>= _) = settle (tick (drained reads [] regs s) >>= _)
    rw [tick_drained polled low h]
  · obtain ⟨k, hk⟩ := execWorker_quiet still
    refine hk.trans ?_
    rw [runActions_yield (act_idle idle)]
    rfl

end

section
/-! PROOFS. Durations rounded up to whole units (00 R10, 41 R121 to R123): the guard time in milliseconds, and the
no-response timer's register, step and mirror (41 R130). -/

namespace Sys2Proof.Machine

variable {n v : Nat}

/-! ## Rounding up -/

/-- The library's rounding-up division is the one of 00 R10, so a count of units is enough exactly when it covers the
duration. -/
theorem ceilDiv_le_iff (hn : 0 < n) (a k : Nat) : ceilDiv a n ≤ k ↔ a ≤ k * n := by
  rw [Nat.mul_comm k n]
  exact ceilDiv_le_iff_le_mul hn

theorem le_ceilDiv_mul (hn : 0 < n) (a : Nat) : a ≤ ceilDiv a n * n := (ceilDiv_le_iff hn a _).1 (le_refl _)

/-- One unit less would be too short. -/
theorem ceilDiv_mul_lt (hn : 0 < n) (a : Nat) : ceilDiv a n * n < a + n := by
  by_contra tooLong
  have long : a + n ≤ ceilDiv a n * n := Nat.not_lt.1 tooLong
  have fewer : a ≤ (ceilDiv a n - 1) * n := by
    rw [Nat.sub_mul, Nat.one_mul]
    omega
  have least := (ceilDiv_le_iff hn a _).2 fewer
  have none : ceilDiv a n = 0 := by omega
  rw [none, Nat.zero_mul] at long
  omega

theorem ceilDiv_eq_zero_iff (hn : 0 < n) : ceilDiv a n = 0 ↔ a = 0 := by
  rw [← Nat.le_zero, ceilDiv_le_iff hn, Nat.zero_mul, Nat.le_zero]

/-! ## The no-response timer (41 R130) -/

/-- The step NRT programming takes for a waiting time of `v` cycles. -/
def nrtStepFor (v : Nat) : NrtStep := if timerSteps v 64 ≤ 0xFFFF then .s64 else .s4096

/-- The register NRT programming writes for a waiting time of `v` cycles. -/
def nrtRegFor (v : Nat) : Nat := min 0xFFFF (timerSteps v (nrtStepFor v).cycles)

theorem nrtFor_forever (p : Config.Params) (mode : Mode) :
    nrtFor p mode Config.fwtForever = { regVal := 0, step := .s64, mirror64 := 0, enabled := false } := if_pos rfl

theorem nrtFor_finite {fwt : Word} (p : Config.Params) (mode : Mode) (h : fwt ≠ Config.fwtForever) :
    nrtFor p mode fwt =
      { regVal := BitVec.ofNat 16 (nrtRegFor (fwtEff p mode fwt)), step := nrtStepFor (fwtEff p mode fwt)
        mirror64 := BitVec.ofNat 32 (nrtRegFor (fwtEff p mode fwt) * ((nrtStepFor (fwtEff p mode fwt)).cycles / 64))
        enabled := nrtRegFor (fwtEff p mode fwt) != 0 } := if_neg h

theorem NrtStep.cycles_pos (step : NrtStep) : 0 < step.cycles := by
  cases step <;> decide

/-- Both steps are whole multiples of the mirror's unit, up to 64 of them. -/
theorem NrtStep.cycles_units (step : NrtStep) : step.cycles / 64 * 64 = step.cycles ∧ step.cycles / 64 ≤ 64 := by
  cases step <;> decide

theorem nrtStepFor_cases (v : Nat) :
    (v ≤ 64 * 0xFFFF ∧ nrtStepFor v = .s64) ∨ (64 * 0xFFFF < v ∧ nrtStepFor v = .s4096) := by
  have fits : timerSteps v 64 ≤ 0xFFFF ↔ v ≤ 64 * 0xFFFF := ceilDiv_le_iff (by decide) v 0xFFFF
  unfold nrtStepFor
  split
  next h => exact .inl ⟨fits.1 h, rfl⟩
  next h => exact .inr ⟨Nat.not_le.1 (mt fits.2 h), rfl⟩

theorem nrtStepFor_eq_s64_iff (v : Nat) : nrtStepFor v = .s64 ↔ v ≤ 64 * 0xFFFF := by
  obtain ⟨short, e⟩ | ⟨long, e⟩ := nrtStepFor_cases v
  · exact iff_of_true e short
  · exact iff_of_false (by rw [e]; nofun) (Nat.not_le.2 long)

theorem nrtRegFor_le (v : Nat) : nrtRegFor v ≤ 0xFFFF := Nat.min_le_left _ _

/-- Up to the longest time that 16 bits of 4096/fc steps hold, the register holds the whole count of its step. -/
theorem nrtRegFor_unsaturated (h : v ≤ 4096 * 0xFFFF) : nrtRegFor v = ceilDiv v (nrtStepFor v).cycles := by
  refine Nat.min_eq_right ?_
  obtain ⟨short, e⟩ | ⟨_, e⟩ := nrtStepFor_cases v <;> rw [e]
  · exact (ceilDiv_le_iff (by decide) v _).2 short
  · exact (ceilDiv_le_iff (by decide) v _).2 h

theorem nrtRegFor_saturated (h : 4096 * 0xFFFF < v) : nrtRegFor v = 0xFFFF := by
  obtain ⟨short, _⟩ | ⟨_, e⟩ := nrtStepFor_cases v
  · omega
  · refine Nat.min_eq_left (Nat.le_of_not_lt fun few => ?_)
    rw [e] at few
    have covered := (ceilDiv_le_iff (by decide) v _).1 (Nat.le_of_lt few)
    exact absurd h (Nat.not_lt.2 covered)

theorem nrtRegFor_eq_zero_iff (v : Nat) : nrtRegFor v = 0 ↔ v = 0 := by
  refine Iff.trans ?_ (ceilDiv_eq_zero_iff (nrtStepFor v).cycles_pos)
  show min 0xFFFF (ceilDiv v _) = 0 ↔ _
  omega

end Sys2Proof.Machine
end

section
/-! PROOFS. The statements on the timing setters, the units of time and the no-response timer. -/

open Sys2Proof Sys2Proof.Machine

/-- Settles O12: each setter is one named update and the answer NONE. -/
theorem timingSetters : Obligations.TimingSetters := fun _ _ => ⟨rfl, rfl, rfl⟩

/-- Settles O13: `toMs` is the rounding-up division, of which each clause is a law. -/
theorem unitsRoundUp : Obligations.UnitsRoundUp := by
  intro p c u hp
  refine ⟨le_ceilDiv_mul hp _, ceilDiv_mul_lt hp _, fun ms => (ceilDiv_le_iff hp _ ms).2, ?_, fun _ => rfl⟩
  exact (ceilDiv_eq_zero_iff hp).2 (Nat.zero_mul u)

/-- Settles O14: the record is read off the step and the register of the waiting time, which fits 16 bits. -/
theorem nrtNeverShorter : Obligations.NrtNeverShorter := by
  refine ⟨nrtFor_forever, fun p mode fwt finite => ?_⟩
  rw [nrtFor_finite p mode finite]
  generalize fwtEff p mode fwt = v
  dsimp only
  have reg : (BitVec.ofNat 16 (nrtRegFor v)).toNat = nrtRegFor v := by
    have fits := nrtRegFor_le v
    rw [BitVec.toNat_ofNat]
    omega
  obtain ⟨whole, few⟩ := (nrtStepFor v).cycles_units
  refine ⟨nrtStepFor_eq_s64_iff v, fun unsaturated => ?_, fun saturated => ?_, ?_, ?_⟩
  · rw [reg, nrtRegFor_unsaturated unsaturated]
    exact ⟨le_ceilDiv_mul (NrtStep.cycles_pos _) v, ceilDiv_mul_lt (NrtStep.cycles_pos _) v⟩
  · rw [nrtRegFor_saturated saturated]
    rfl
  · have mirror : nrtRegFor v * ((nrtStepFor v).cycles / 64) < 2 ^ 32 :=
      (Nat.mul_le_mul (nrtRegFor_le v) few).trans_lt (by decide)
    rw [reg, BitVec.toNat_ofNat, Nat.mod_eq_of_lt mirror, Nat.mul_assoc, whole]
  · rw [bne_iff_ne, ne_eq, nrtRegFor_eq_zero_iff]

end

section
/-! PROOFS. The guard time through a tick (41 R125 to R127, 44 R173): the drain before the actions reads interrupt
status registers alone, and the actions end in TX_WAIT_GT while the stopwatch runs. -/

namespace Sys2Proof.Machine

variable {s t : State} {P : State → Prop} {point : State → Run State}

/-! ## Drains -/

/-- What a drain's iterations, its points and its use of a sample keep, the drain keeps. -/
theorem drainLoop_keeps (line : ∀ l t, P t → P (setLine l t)) (once : ∀ t, P t → P (drainOnce t))
    (hp : ∀ t, P t → Run.post (point t) P P) (n : Nat) (h : P s) : Run.post (drainLoop point n s) P P := by
  induction n generalizing s with
  | zero =>
    unfold drainLoop
    split
    · exact h
    · exact h
  | succ n ih =>
    unfold drainLoop
    split
    · split
      · exact h
      · exact h
    next rest _ => exact line rest s h
    next rest _ => exact Run.post_seq (hp _ (line rest s h)) (fun t ht => ih (once t ht))

/-- From `s` to `t` no event was issued but reads of the interrupt status registers. -/
def StatusReads (s t : State) : Prop :=
  ∃ new, t.trace = new ++ s.trace ∧ ∀ e ∈ new, ∃ k b, e = .regRead (.irqStatus k) b

theorem StatusReads.of_trace_eq (h : t.trace = s.trace) : StatusReads s t := ⟨[], h, nofun⟩

theorem StatusReads.drainOnce (h : StatusReads s t) : StatusReads s (drainOnce t) := by
  obtain ⟨new, ht, reads⟩ := h
  obtain ⟨b0, b1, b2, hd⟩ : ∃ b0 b1 b2, (Machine.drainOnce t).trace =
      .regRead (.irqStatus 2) b2 :: .regRead (.irqStatus 1) b1 :: .regRead (.irqStatus 0) b0 :: t.trace :=
    ⟨_, _, _, rfl⟩
  refine ⟨.regRead (.irqStatus 2) b2 :: .regRead (.irqStatus 1) b1 :: .regRead (.irqStatus 0) b0 :: new,
    by rw [hd, ht]; rfl, fun e he => ?_⟩
  simp only [List.mem_cons] at he
  obtain rfl | rfl | rfl | he := he
  · exact ⟨_, _, rfl⟩
  · exact ⟨_, _, rfl⟩
  · exact ⟨_, _, rfl⟩
  · exact reads e he

/-- In build POLLED the ISR agent has no step, so a drain issues nothing but its own reads (40 R104, R107). -/
theorem drain_statusReads (polled : s.params.irqBuild = .polled) :
    Run.post (drain s) (StatusReads s) (StatusReads s) := by
  have kept : Run.post (drain s) (fun t => t.params.irqBuild = .polled ∧ StatusReads s t)
      (fun t => t.params.irqBuild = .polled ∧ StatusReads s t) :=
    drainLoop_keeps (fun _ _ h => h) (fun _ h => ⟨h.1, h.2.drainOnce⟩)
      (fun t h => by rw [isrPoint_quiet t (.inl h.1)]; exact h) _ ⟨polled, .of_trace_eq rfl⟩
  exact Run.post_mono kept (fun _ h => h.2) (fun _ h => h.2)

/-! ## The stopwatch -/

/-- The exchange has not left the wait for the guard time. -/
def BeforeGuard (s : State) : Prop := s.txrxState = .txIdle ∨ s.txrxState = .txWaitGt

/-- The clock of `t` has passed the end of this stopwatch. -/
def GuardOver (timer : GtTimer) (t : State) : Prop := timer.durMs ≤ t.clockMs - timer.startMs

/-- TX_WAIT_GT with a running stopwatch: the tick ends there, or the guard time is over (44 R173). -/
theorem runActions_txWaitGt (state : s.txrxState = .txWaitGt) (armed : s.gtTimer.armed = true) (n : Nat) (e : Word) :
    Run.post (runActions (n + 1) e s)
      (fun t => t.txrxState = .txWaitGt ∧ t.gtTimer = s.gtTimer ∧ t.trace = s.trace ∨ GuardOver s.gtTimer t)
      (GuardOver s.gtTimer) := by
  obtain running | passed := Nat.lt_or_ge (s.clockMs + s.env.takeElapsed.1 - s.gtTimer.startMs) s.gtTimer.durMs
  · rw [runActions_yield (act_txWaitGt_waits state armed running)]
    exact .inl ⟨state, rfl, rfl⟩
  · rw [runActions_go (act_txWaitGt_expired state armed passed)]
    have staysOver : ∀ t : State, s.clockMs + s.env.takeElapsed.1 ≤ t.clockMs → GuardOver s.gtTimer t :=
      fun t later => Nat.le_trans passed (Nat.sub_le_sub_right later _)
    exact Run.post_mono (runActions_engine n 0 _) (fun t h => .inr (staysOver t h.clock))
      (fun t h => staysOver t h.clock)

/-- The actions of a tick before the end of the guard time, TX_IDLE leading to TX_WAIT_GT (44 R172). -/
theorem runActions_beforeGuard (before : BeforeGuard s) (armed : s.gtTimer.armed = true) (n : Nat) (e : Word) :
    Run.post (runActions (n + 2) e s)
      (fun t => t.txrxState = .txWaitGt ∧ t.gtTimer = s.gtTimer ∧ t.trace = s.trace ∨ GuardOver s.gtTimer t)
      (GuardOver s.gtTimer) := by
  obtain first | waiting := before
  · rw [runActions_go (act_txIdle first)]
    exact runActions_txWaitGt (s := { s with txrxState := .txWaitGt }) rfl armed n 0
  · exact runActions_txWaitGt waiting armed (n + 1) e

/-- What the guard time allows a tick to leave: only status registers read, and the stopwatch as it was. -/
def HeldBack (s t : State) : Prop := t.gtTimer = s.gtTimer ∧ StatusReads s t

/-- A tick before the end of the guard time: it ends in TX_WAIT_GT, or hangs in its drain where it began, unless the
guard time is over by then (41 R127). -/
theorem tick_beforeGuard (before : BeforeGuard s) (armed : s.gtTimer.armed = true) :
    Run.post (tick s) (fun t => t.txrxState = .txWaitGt ∧ HeldBack s t ∨ GuardOver s.gtTimer t)
      (fun t => t.txrxState = s.txrxState ∧ HeldBack s t ∨ GuardOver s.gtTimer t) := by
  have drained : ∀ u, AggStep s u ∧ StatusReads s u → u.txrxState = s.txrxState ∧ HeldBack s u := by
    rintro u ⟨⟨⟨_, _, _, rfl, _⟩, _⟩, reads⟩
    exact ⟨rfl, rfl, reads⟩
  have acts : ∀ u, u.txrxState = s.txrxState ∧ HeldBack s u → Run.post (runActions (tickBound u) 0 u)
      (fun t => t.txrxState = .txWaitGt ∧ HeldBack s t ∨ GuardOver s.gtTimer t)
      (fun t => t.txrxState = s.txrxState ∧ HeldBack s t ∨ GuardOver s.gtTimer t) := by
    rintro u ⟨same, timer, reads⟩
    have acted := runActions_beforeGuard (s := u) (by rwa [BeforeGuard, same]) (by rwa [timer])
      (2 * u.env.edges.length + 30) 0
    rw [timer] at acted
    refine Run.post_mono acted (fun t ht => ht.imp_left fun ⟨state, timer', trace⟩ => ⟨state, timer', ?_⟩)
      (fun _ => .inr)
    unfold StatusReads
    rwa [trace]
  unfold tick
  dsimp only
  split
  next build =>
    exact Run.post_seq (Run.post_mono (Run.post_and (drain_post s) (drain_statusReads build)) drained
      (fun u h => .inl (drained u h))) acts
  next => exact acts s ⟨rfl, rfl, .of_trace_eq rfl⟩

/-- WORKER before the end of the guard time, whether it answers or hangs. -/
theorem execWorker_beforeGuard (before : BeforeGuard s) (armed : s.gtTimer.armed = true) :
    NextPost (execWorker s) (fun t =>
      (t.txrxState = .txWaitGt ∨ t.running = some .hung ∧ t.txrxState = s.txrxState) ∧ HeldBack s t ∨
        GuardOver s.gtTimer t) :=
  nextPost_settle (Run.post_seq
    (Run.post_mono (tick_beforeGuard before armed) (fun _ => id)
      (fun _ h => h.imp_left fun ⟨state, held⟩ => ⟨.inr ⟨rfl, state⟩, held⟩))
    (fun _ h => h.imp_left fun ⟨state, held⟩ => ⟨.inl state, held⟩))

/-! ## FIELD_ON with a guard time -/

theorem belowInit_eq_false (h : s.lifecycle ≠ .uninit) : belowInit s = false := by
  unfold belowInit
  cases l : s.lifecycle with
  | uninit => exact absurd l h
  | init | modeSet | txrx => rfl

/-- FIELD_ON starts the stopwatch of a guard time that is not 0, outside an exchange (47 R253). -/
theorem execFieldOn_guarded (up : s.lifecycle ≠ .uninit) (idle : s.txrxState = .idle) (guard : s.gt ≠ 0) :
    execFieldOn s = .next (reply .none [] (gtStart (toMs s.params s.gt.toNat 1)
      ((busCmd .fieldOn s).setFieldOn true))) := by
  have gate : ¬ (belowInit s || inExchange s) = true := by simp [belowInit_eq_false up, inExchange, idle]
  unfold execFieldOn
  rw [if_neg gate]
  exact congrArg (fun u => Host.Outcome.next (reply .none [] u)) (if_pos guard)

end Sys2Proof.Machine
end

section
/-! PROOFS. The statement on the guard time. -/

open Sys2Proof Sys2Proof.Machine

/-- Settles O15: the clock reading of the hypothesis rules out that the guard time is over. -/
theorem guardTimeHolds : Obligations.GuardTimeHolds := by
  intro s t up idle guard hp on
  have covers := le_ceilDiv_mul hp (s.gt.toNat * 1)
  rw [Nat.mul_one] at covers
  refine ⟨by rwa [toMs, Nat.mul_one], fun u v timer before worker early => ?_⟩
  obtain rfl : _ = t := Host.Outcome.next.inj ((execFieldOn_guarded up idle guard).symm.trans on)
  have armed : u.gtTimer.armed = true := by rw [timer]; rfl
  obtain ⟨state, timer', reads⟩ | passed := execWorker_beforeGuard before armed v worker
  · exact ⟨state, timer'.trans timer, reads⟩
  · rw [timer] at passed
    exact absurd early (Nat.not_lt.2 passed)

end

section
/-! PROOFS. What a worker tick, a drain and an ISR run keep, said once (`TickKeeps`): a property that the aggregator's
atomic steps and the terminal cleanup keep, and that no other part of a tick can see, holds through all of them. -/

namespace Sys2Proof.Machine

variable {s t : State}

/-! ## Steps that the aggregator does not see -/

/-- All that the aggregator's steps read and write of a state, the environment and the trace apart; the timer and the
sub-state decide whether the Chip raises NRE (41 R131). -/
def State.aggregator (s : State) : IrqState × HwMask × Nrt × TxrxState × Config.Params :=
  (s.irq, s.hwMask, s.nrt, s.txrxState, s.params)

/-- From `s` to `t` nothing happened that the aggregator sees. -/
def SameAggregator (s t : State) : Prop := t.aggregator = s.aggregator

namespace SameAggregator

theorem of_draw (d : DrawStep s t) : SameAggregator s t := by
  obtain ⟨_, _, rfl, _⟩ := d
  rfl

theorem of_helper (h : HelperStep s t) : SameAggregator s t := by
  obtain ⟨_, _, _, _, rfl, _⟩ := h
  rfl

theorem obsOff (s : State) : SameAggregator s (obsOff s) := by
  rw [obsOff_eq]
  rfl

theorem obsOn (s : State) : SameAggregator s (obsOn s) := by
  unfold Machine.obsOn
  split
  · rfl
  · rfl

theorem failStatus (s : State) : SameAggregator s (failStatus s) := by
  unfold Machine.failStatus
  split
  · rfl
  · rfl

theorem readOut (n : Nat) (s : State) : SameAggregator s (readOut n s).2 := by
  unfold Machine.readOut
  split
  · rfl
  · exact of_draw (t := (fifoRead n s).2.2) (fifoRead_draw n s)

end SameAggregator

/-- The computation never hangs, and what it reaches the aggregator does not tell from `s`. -/
abbrev AggregatorUnseen (s : State) (r : Run State) : Prop := Run.post r (SameAggregator s) (fun _ => False)

theorem memWrite_unseen (buf : Option BufRef) (i : Nat) (bytes : List Byte) (s : State) :
    AggregatorUnseen s (memWrite buf i bytes s) :=
  Run.post_mono (memWrite_post buf i bytes s _) (fun _ ⟨_, e, _⟩ => e ▸ rfl) (fun _ => id)

theorem memWrite16_unseen (cell : Option BufRef) (v : Half) (s : State) :
    AggregatorUnseen s (memWrite16 cell v s) :=
  Run.post_mono (memWrite16_post cell v s _) (fun _ ⟨_, e, _⟩ => e ▸ rfl) (fun _ => id)

theorem fsUpdate_unseen (s : State) : AggregatorUnseen s (fsUpdate s) := by
  obtain ⟨_, e⟩ | ⟨_, _, e⟩ | ⟨_, _, e⟩ := fsUpdate_cases s <;> rw [e]
  · rfl
  · obtain ⟨u, f, d, _, hf⟩ := fetchFifoStatus_spec s
    rw [hf]
    exact SameAggregator.of_draw (t := u) d
  · exact trivial

theorem classify_unseen (errIrq : Word) (s : State) :
    Run.post (classify errIrq s) (fun r => SameAggregator s r.2) (fun _ => False) := by
  unfold classify
  split
  · rfl
  · exact Run.post_seq (fsUpdate_unseen s) (fun _ h => h)

theorem nfcaReclassify_unseen (s : State) : AggregatorUnseen s (nfcaReclassify s) := by
  unfold nfcaReclassify
  split
  · refine Run.post_seq (fsUpdate_unseen s) (fun t h => ?_)
    split
    · exact h
    · exact h
  · rfl

/-! ## Properties of the aggregator -/

/-- What a property needs to hold through a tick: the steps that the aggregator does not see keep it, and so do a move
to another sub-state of an exchange, a drain iteration, a consuming read, and the end of the exchange with its interrupts
disabled (44 R197). -/
structure TickKeeps (P : State → Prop) : Prop where
  unseen : ∀ {s t}, P s → SameAggregator s t → P t
  enter : ∀ {s x}, P s → x ≠ .idle → P (s.setTxrx x)
  once : ∀ s, P s → P (drainOnce s)
  get : ∀ mask s, P s → P (getIrq mask s).2
  leave : ∀ s, P s → P ((irqDisable (exchIrqs s.params) s).setTxrx .idle)

/-- Whether it ends or hangs, the computation leads to states with the property. -/
abbrev Keeps (P : State → Prop) (r : Run State) : Prop := Run.post r P P

/-- The same for an action, whose value is a flow and a state. -/
abbrev ActionKeeps (P : State → Prop) (r : Run (Flow × State)) : Prop := Run.post r (fun p => P p.2) P

namespace TickKeeps

variable {P : State → Prop} (k : TickKeeps P)

include k

/-- A computation that the aggregator does not see, judged by what follows it. -/
theorem seq_unseen {α : Type} {m : Run State} {f : State → Run α} {Q : α → Prop} (h : P s)
    (hm : AggregatorUnseen s m) (hf : ∀ t, P t → Run.post (f t) Q P) : Run.post (m >>= f) Q P :=
  Run.post_seq (Run.post_mono hm (fun _ => k.unseen h) (fun _ => False.elim)) hf

/-! ## Drains and the ISR agent -/

theorem drainLoop {point : State → Run State} (hp : ∀ t, P t → Keeps P (point t)) (n : Nat) (h : P s) :
    Keeps P (drainLoop point n s) :=
  drainLoop_keeps (fun _ _ ht => k.unseen ht rfl) k.once hp n h

theorem isrBody (h : P s) : Keeps P (isrBody s) := by
  refine Run.post_seq (k.drainLoop (point := .ok) (fun _ ht => ht) _ h) (fun t ht => ?_)
  split
  · exact ht
  · exact k.unseen ht rfl

theorem isrLoop (edges : List Bool) (h : P s) : Keeps P (isrLoop edges s) := by
  induction edges generalizing s with
  | nil => exact k.unseen h rfl
  | cons edge rest ih =>
    cases edge with
    | false => exact k.unseen h rfl
    | true => exact Run.post_seq (k.isrBody h) (fun _ ht => ih ht)

theorem isrPoint (h : P s) : Keeps P (isrPoint s) := by
  unfold Machine.isrPoint
  split
  · exact h
  · exact k.isrLoop _ h

theorem drain (h : P s) : Keeps P (drain s) := k.drainLoop (fun _ => k.isrPoint) _ h

theorem engineGet (mask : Word) (h : P s) : Run.post (engineGet mask s) (fun r => P r.2) P :=
  Run.post_seq (k.isrPoint h) (fun t ht => k.get mask t ht)

/-- Disabling interrupts inside a command: the point of the ISR agent, then the atomic step. -/
theorem engineDisable (mask : Word) (h : P s) :
    Run.post (engineDisable mask s) (fun r => ∃ u, P u ∧ u.params = s.params ∧ r = irqDisable mask u) P :=
  Run.post_seq (Run.post_mono (Run.post_and (k.isrPoint h) (isrPoint_post s)) (fun _ => id) (fun _ h => h.1))
    (fun u ⟨hu, a⟩ => ⟨u, hu, (EngineStep.of_agg a).frame.params, rfl⟩)

/-! ## The terminal cleanup -/

theorem exchangeEnd (h : P s) : Keeps P (exchangeEnd s) := by
  have off := k.unseen h (.obsOff s)
  refine Run.post_seq (k.engineDisable _ (k.unseen off rfl)) ?_
  rintro _ ⟨u, hu, same, rfl⟩
  rw [← same, emitCallback_eq]
  exact k.unseen (k.leave u hu) rfl

theorem endExchange (h : P s) : ActionKeeps P (endExchange s) := Run.post_seq (k.exchangeEnd h) (fun _ ht => ht)

theorem goTo {x : TxrxState} (h : P s) (hx : x ≠ .idle) : ActionKeeps P (goTo x s) := k.enter h hx

theorem log (h : P s) (e : Event) : P (s.log e) := k.unseen h rfl

theorem setFifo (h : P s) (total written : Nat) : P (s.setFifo total written) := k.unseen h rfl

theorem fsClear (h : P s) : P (fsClear s) := k.unseen h rfl

theorem obsOn (h : P s) : P (obsOn s) := k.unseen h (.obsOn s)

/-! ## TX -/

theorem txWaitGt (h : P s) : ActionKeeps P (txWaitGt s) := by
  unfold Machine.txWaitGt
  split
  · have read : P (readClock s).2 := k.unseen h rfl
    dsimp only [gtIsExpired]
    split
    · exact k.goTo (k.unseen read rfl) nofun
    · exact read
  · exact k.goTo (k.unseen h rfl) nofun

theorem txWaitFdt (h : P s) : ActionKeeps P (txWaitFdt s) := by
  have polled := k.unseen h (.of_draw (chipStatus_draw s))
  dsimp only [Machine.txWaitFdt]
  split
  · exact polled
  · exact k.goTo polled nofun

theorem txPrepTx (h : P s) : ActionKeeps P (txPrepTx s) := by
  have cleared := k.fsClear (k.setFifo (k.log h (.cmd .resetRxGain)) s.ctx.txBytes 0)
  have counted := k.log (k.fsClear (k.log cleared (.cmd .clearFifo))) (.regWrite16 .numTxBytes s.ctx.txBufLen)
  refine Run.post_seq (memRead_noHang _ _ _ _ _) (fun bytes _ => ?_)
  have loaded := k.fsClear (k.unseen counted (.of_draw (fifoWrite_draw bytes _)))
  exact k.goTo (k.obsOn (k.setFifo loaded _ _)) nofun

/-- Where the rest of the frame goes. -/
theorem restOfFrame (h : P s) :
    ActionKeeps P (if s.fifo.bytesWritten < s.fifo.bytesTotal then Machine.goTo .txWaitWl s
      else Machine.goTo .txWaitTxe s) := by
  split
  · exact k.goTo h nofun
  · exact k.goTo h nofun

theorem transmit (h : P s) : ActionKeeps P (transmit s) := k.restOfFrame (k.unseen h rfl)

theorem txTransmit (h : P s) : ActionKeeps P (txTransmit s) := by
  unfold Machine.txTransmit
  split
  · exact k.transmit h
  · have asked := k.unseen h (.of_draw (syncAnswer_draw s))
    dsimp only
    split
    · exact k.transmit asked
    · exact asked

theorem txWaitWl (h : P s) : ActionKeeps P (txWaitWl s) := by
  refine Run.post_seq (k.engineGet _ h) (fun ⟨irq, t⟩ ht => ?_)
  dsimp only at ht ⊢
  split
  · exact ht
  · split
    · exact k.goTo ht nofun
    · exact k.goTo (k.unseen ht rfl) nofun

theorem txReloadFifo (h : P s) : ActionKeeps P (txReloadFifo s) := by
  refine Run.post_seq (memRead_noHang _ _ _ _ _) (fun bytes _ => ?_)
  have loaded := k.unseen h (.of_draw (fifoWrite_draw bytes s))
  exact k.restOfFrame (k.unseen loaded rfl)

theorem txWaitTxe (h : P s) : ActionKeeps P (txWaitTxe s) := by
  refine Run.post_seq (k.engineGet _ h) (fun ⟨irq, t⟩ ht => ?_)
  dsimp only at ht ⊢
  split
  · exact k.goTo ht nofun
  · exact ht

theorem txDone (h : P s) : ActionKeeps P (txDone s) := by
  have off := k.unseen h (.obsOff s)
  dsimp only [Machine.txDone]
  split
  · exact k.endExchange (k.unseen off rfl)
  · exact k.goTo off nofun

theorem txFail (h : P s) : ActionKeeps P (txFail s) :=
  k.endExchange (k.unseen (k.unseen h (.obsOff s)) (.failStatus _))

/-! ## RX -/

theorem rxIdle (h : P s) : ActionKeeps P (rxIdle s) :=
  k.seq_unseen (k.unseen h rfl) (memWrite16_unseen _ _ _) (fun _ ht => k.goTo ht nofun)

theorem rxWaitRxs (h : P s) : ActionKeeps P (rxWaitRxs s) := by
  refine Run.post_seq (k.engineGet _ h) (fun ⟨irq, t⟩ ht => ?_)
  dsimp only at ht ⊢
  split
  · exact ht
  · split
    · exact k.goTo ht nofun
    · exact k.goTo (k.unseen ht rfl) nofun

theorem rxRestart (h : P s) : ActionKeeps P (rxRestart s) := by
  refine Run.post_seq (k.engineGet _ h) (fun ⟨nre, t⟩ ht => ?_)
  have asked := k.unseen ht (.of_draw (chipStatus_draw t))
  dsimp only [nrtRunning]
  split
  · exact k.goTo (k.unseen ht rfl) nofun
  · split
    · exact k.goTo (k.unseen asked rfl) nofun
    · refine Run.post_seq (k.engineGet _ asked) (fun ⟨_, u⟩ hu => ?_)
      have receiverRead := k.unseen hu (.of_draw (chipStatus_draw u))
      dsimp only
      split
      · exact receiverRead
      · exact k.enter receiverRead nofun

theorem rxWaitRxe (h : P s) : ActionKeeps P (rxWaitRxe s) := by
  refine Run.post_seq (k.engineGet _ h) (fun ⟨irq, t⟩ ht => ?_)
  dsimp only at ht ⊢
  split
  · exact ht
  · split
    · exact Run.post_seq (k.engineGet _ ht) (fun _ hu => k.enter hu nofun)
    · split
      · exact k.rxRestart ht
      · exact k.goTo ht nofun

theorem rxReadFifo (h : P s) : ActionKeeps P (rxReadFifo s) := by
  have read := k.unseen h (.of_draw (fifoRead_draw s.params.wlChunk s))
  exact k.seq_unseen (k.unseen read rfl) (memWrite_unseen _ _ _ _)
    (fun t ht => k.enter (k.unseen ht rfl) nofun)

theorem emdRearm (h : P s) : ActionKeeps P (emdRearm s) := by
  have unmasked : P (Machine.fsClear (busCmd .unmaskReceive s)) := k.unseen h rfl
  refine Run.post_seq (k.engineGet _ unmasked) (fun ⟨nre, t⟩ ht => ?_)
  dsimp only at ht ⊢
  split
  · exact k.goTo (k.unseen ht rfl) nofun
  · exact k.enter (k.unseen ht rfl) nofun

theorem emdHandling (h : P s) : ActionKeeps P (emdHandling s) := by
  unfold Machine.emdHandling
  split
  · refine k.seq_unseen h (fsUpdate_unseen s) (fun t ht => ?_)
    split
    · exact k.emdRearm ht
    · exact k.goTo ht nofun
  · exact k.goTo h nofun

theorem rxErrCheck (errIrq : Word) (h : P s) : ActionKeeps P (rxErrCheck errIrq s) := by
  refine Run.post_seq (Run.post_mono (classify_unseen errIrq s) (fun _ => k.unseen h) (fun _ => False.elim))
    (fun ⟨e, t⟩ ht => ?_)
  cases e with
  | none => exact k.goTo ht nofun
  | some e => exact k.seq_unseen (k.unseen ht rfl) (nfcaReclassify_unseen _) (fun _ hu => k.emdHandling hu)

theorem rxReadData (h : P s) : ActionKeeps P (rxReadData s) := by
  refine k.seq_unseen h (fsUpdate_unseen s) (fun t ht => ?_)
  refine k.seq_unseen (k.unseen ht (.readOut (fifoCount t) t)) (memWrite_unseen _ _ _ _) (fun u hu => ?_)
  have counted : ∀ (overflow : Prop) [Decidable overflow] (total written : Nat),
      P (if overflow then (u.setFifo total written).setStatus .nomem else u.setFifo total written) := by
    intro overflow _ total written
    split
    · exact k.unseen hu rfl
    · exact k.unseen hu rfl
  refine k.seq_unseen (counted _ _ _) (memWrite16_unseen _ _ _) (fun v hv => ?_)
  split
  · exact k.goTo hv nofun
  · exact k.goTo hv nofun

/-! ## The tick and the loops -/

theorem stateAction (errIrq : Word) (h : P s) : ActionKeeps P (stateAction errIrq s) := by
  unfold Machine.stateAction
  split
  next => exact h
  next => exact k.goTo h nofun
  next => exact k.txWaitGt h
  next => exact k.txWaitFdt h
  next => exact k.txPrepTx h
  next => exact k.txTransmit h
  next => exact k.txWaitWl h
  next => exact k.txReloadFifo h
  next => exact k.txWaitTxe h
  next => exact k.txDone h
  next => exact k.txFail h
  next => exact k.rxIdle h
  next => exact k.rxWaitRxs h
  next => exact k.rxWaitRxe h
  next => exact k.rxErrCheck errIrq h
  next => exact k.rxReadData h
  next => exact k.rxReadFifo h
  next => exact k.endExchange (k.unseen h rfl)
  next => exact k.endExchange (k.unseen h (.failStatus s))

theorem runActions (n : Nat) (errIrq : Word) (h : P s) : Keeps P (runActions n errIrq s) := by
  induction n generalizing errIrq s with
  | zero => exact h
  | succ n ih =>
    refine Run.post_seq (k.stateAction errIrq h) (fun ⟨flow, t⟩ ht => ?_)
    cases flow with
    | yield => exact ht
    | go e => exact ih e ht

theorem tick (h : P s) : Keeps P (tick s) := by
  unfold Machine.tick
  dsimp only
  split
  · exact Run.post_seq (k.drain h) (fun _ ht => k.runActions _ _ ht)
  · exact k.runActions _ _ h

theorem waitIteration (mask timeoutMs : Word) (t0 : Nat) (h : P s) :
    Keeps P (waitIteration mask timeoutMs t0 s) := by
  refine Run.post_seq (k.drain h) (fun t ht => ?_)
  refine Run.post_seq (k.engineGet mask ht) (fun ⟨r, u⟩ hu => ?_)
  have timed : P (readClock u).2 := k.unseen hu rfl
  dsimp only at hu ⊢
  split
  · exact k.unseen hu rfl
  · split
    · exact k.unseen hu rfl
    · split
      · exact k.unseen timed rfl
      · exact k.unseen timed rfl

theorem blockingIteration (h : P s) : Keeps P (blockingIteration s) := by
  refine Run.post_seq (k.isrPoint h) (fun t ht => Run.post_seq (k.tick ht) (fun u hu => ?_))
  split
  · exact k.unseen hu rfl
  · exact k.unseen hu rfl

theorem finishAnticoll (call : Anticoll) (st : Status) (h : P s) : Keeps P (finishAnticoll call st s) := by
  refine Run.post_mono (finishAnticoll_helper call st s P) ?_ (fun _ => id)
  rintro _ ⟨u, hu, rfl⟩
  exact k.unseen (k.unseen h (.of_helper hu)) rfl

theorem anticollIteration (call : Anticoll) (h : P s) : Keeps P (anticollIteration call s) := by
  refine Run.post_seq (k.isrPoint h) (fun t ht => Run.post_seq (k.tick ht) (fun u hu => ?_))
  split
  · exact k.finishAnticoll call _ hu
  · exact k.unseen hu rfl

/-- A command that a drain without end leaves in progress has the property too. -/
theorem settle {r : Run State} (h : Keeps P r) : NextPost (settle r) P :=
  nextPost_settle (Run.post_mono h (fun _ => id) (fun _ hu => k.unseen hu rfl))

/-- The next iteration of a loop command. -/
theorem resume (r : Running) (h : P s) : NextPost (resume r s) P := by
  cases r with
  | hung => exact (nextPost_next _ _).2 (k.once s h)
  | irqWait mask timeoutMs t0 =>
    exact k.settle (Run.post_seq (k.isrPoint h) (fun _ ht => k.waitIteration mask timeoutMs t0 ht))
  | blocking => exact k.settle (k.blockingIteration h)
  | anticoll call => exact k.settle (k.anticollIteration call h)

/-- FIELD_OFF past its gate (47 R254). -/
theorem fieldOffBody (h : P s) : Keeps P (fieldOffBody s) := by
  have switched : ∀ u, P u → P (gtDisarm ((busCmd .fieldOff u).setFieldOn false)) := fun _ hu => k.unseen hu rfl
  unfold Machine.fieldOffBody
  dsimp only
  split
  · exact Run.post_seq (k.exchangeEnd (k.unseen h (.failStatus s))) switched
  · exact switched s h

end TickKeeps

end Sys2Proof.Machine
end

section
/-! PROOFS. NRE in an exchange whose NRT was written 0 (41 R131): no drain brings it in, the exchange's end masks it,
and so no command and no step of such an exchange leaves it pending. -/

namespace Sys2Proof.Machine

variable {s t : State} {p : Config.Params}

/-! ## Interrupt bits -/

theorem getLsbD_irqBit (p : Config.Params) (i : Irq) (j : Nat) :
    (irqBit p i).getLsbD j = decide (j = (irqPos p i).val) := by
  have := (irqPos p i).isLt
  rw [irqBit, ← BitVec.twoPow_eq, BitVec.getLsbD_twoPow, Bool.eq_iff_iff]
  simp only [Bool.and_eq_true, decide_eq_true_eq]
  omega

/-- An interrupt is in a mask where its bit is. -/
theorem hasIrq_eq_getLsbD (p : Config.Params) (m : Word) (i : Irq) : hasIrq p m i = m.getLsbD (irqPos p i).val := by
  have bit := BitVec.and_twoPow m (irqPos p i).val
  rw [BitVec.twoPow_eq] at bit
  unfold hasIrq
  rw [irqBit, bit]
  split
  next h => rw [h]; exact bne_iff_ne.2 (irqBit_ne_zero p i)
  next h => rw [Bool.eq_false_iff.2 h]; rfl

theorem hasIrq_or (p : Config.Params) (a b : Word) (i : Irq) :
    hasIrq p (a ||| b) i = (hasIrq p a i || hasIrq p b i) := by
  simp only [hasIrq_eq_getLsbD, BitVec.getLsbD_or]

theorem hasIrq_and (p : Config.Params) (a b : Word) (i : Irq) :
    hasIrq p (a &&& b) i = (hasIrq p a i && hasIrq p b i) := by
  simp only [hasIrq_eq_getLsbD, BitVec.getLsbD_and]

theorem hasIrq_not (p : Config.Params) (a : Word) (i : Irq) : hasIrq p (~~~a) i = !hasIrq p a i := by
  simp only [hasIrq_eq_getLsbD, BitVec.getLsbD_not, (irqPos p i).isLt, decide_true, Bool.true_and]

theorem hasIrq_zero (p : Config.Params) (i : Irq) : hasIrq p 0 i = false := by
  simp [hasIrq_eq_getLsbD]

theorem hasIrq_irqBit (p : Config.Params) (i : Irq) : hasIrq p (irqBit p i) i = true := by
  simp only [hasIrq_eq_getLsbD, getLsbD_irqBit, decide_true]

/-- NRE is one of the exchange's interrupts (30 R84). -/
theorem exchIrqs_nre (p : Config.Params) : hasIrq p (exchIrqs p) .nre = true := by
  simp [exchIrqs, rxIrqs, hasIrq_or, hasIrq_irqBit]

/-- Three status bytes, each without the bits of `m` that its register holds, show none of them. -/
theorem rawStatus_masked (b0 b1 b2 : Byte) (m : Word) :
    rawStatus (b0 &&& ~~~(m.extractLsb' 0 8)) (b1 &&& ~~~(m.extractLsb' 8 8)) (b2 &&& ~~~(m.extractLsb' 16 8)) &&& m
      = 0 := by
  refine BitVec.eq_of_getLsbD_eq fun j hj => ?_
  simp only [rawStatus, BitVec.getLsbD_and, BitVec.getLsbD_setWidth, BitVec.getLsbD_append, BitVec.getLsbD_not,
    BitVec.getLsbD_extractLsb']
  obtain h | h | h | h : j < 8 ∨ (8 ≤ j ∧ j < 16) ∨ (16 ≤ j ∧ j < 24) ∨ 24 ≤ j := by omega
  · simp [h]
  · simp [show ¬ j < 8 by omega, show j - 8 < 8 by omega, show 8 + (j - 8) = j by omega]
  · simp [show ¬ j < 8 by omega, show ¬ j - 8 < 8 by omega, show j - 8 - 8 < 8 by omega,
      show 16 + (j - 8 - 8) = j by omega]
  · simp [show ¬ j < 8 by omega, show ¬ j - 8 < 8 by omega, show ¬ j - 8 - 8 < 8 by omega]

/-! ## A drain iteration -/

theorem busRead_irq (r : Reg) (s : State) : (busRead r s).2.irq = s.irq := rfl

theorem chipAnswer_busRead (r : Reg) (s : State) : chipAnswer (busRead r s).2 = chipAnswer s := rfl

theorem busRead_answer (r : Reg) (s : State) : ∃ v, (busRead r s).1 = chipAnswer s r v := ⟨s.env.takeReg.1, rfl⟩

/-- One iteration ORs the enabled bits of the three bytes it reads into the accumulator (40 R103, R104). -/
theorem drainOnce_pending (s : State) :
    ∃ v0 v1 v2, (drainOnce s).irq.pending = s.irq.pending |||
      (rawStatus (chipAnswer s (.irqStatus 0) v0) (chipAnswer s (.irqStatus 1) v1) (chipAnswer s (.irqStatus 2) v2)
        &&& s.irq.enabled) := by
  obtain ⟨v0, h0⟩ := busRead_answer (.irqStatus 0) s
  obtain ⟨v1, h1⟩ := busRead_answer (.irqStatus 1) (busRead (.irqStatus 0) s).2
  obtain ⟨v2, h2⟩ := busRead_answer (.irqStatus 2) (busRead (.irqStatus 1) (busRead (.irqStatus 0) s).2).2
  rw [chipAnswer_busRead] at h1
  rw [chipAnswer_busRead, chipAnswer_busRead] at h2
  refine ⟨v0, v1, v2, ?_⟩
  unfold drainOnce
  simp only [State.setPending_irq, busRead_irq, h0, h1, h2]

/-- Where the no-response timer is off, the three bytes show no NRE (41 R131). -/
theorem rawStatus_nrtOff (off : nrtOff s = true) (v0 v1 v2 : Byte) :
    hasIrq s.params (rawStatus (chipAnswer s (.irqStatus 0) v0) (chipAnswer s (.irqStatus 1) v1)
      (chipAnswer s (.irqStatus 2) v2)) .nre = false := by
  have masked : ∀ (j : Fin 3) v, chipAnswer s (.irqStatus j) v =
      v &&& ~~~((irqBit s.params .nre).extractLsb' (8 * j.val) 8) := fun j v => if_pos off
  rw [masked, masked, masked]
  exact bne_eq_false_iff_eq.2 (rawStatus_masked v0 v1 v2 _)

/-! ## No NRE -/

/-- With these parameters NRE is not pending, and no drain can bring it in: the timer is off, or NRE is not enabled. -/
def NreFree (p : Config.Params) (s : State) : Prop :=
  s.params = p ∧ hasIrq p s.irq.pending .nre = false ∧
    (s.txrxState ≠ .idle ∧ s.nrt.regVal = 0 ∨ hasIrq p s.irq.enabled .nre = false)

theorem nrtOff_iff (s : State) : nrtOff s = true ↔ s.txrxState ≠ .idle ∧ s.nrt.regVal = 0 := by
  simp [nrtOff]

theorem NreFree.drainOnce (h : NreFree p s) : NreFree p (drainOnce s) := by
  obtain ⟨rfl, pending, closed⟩ := h
  obtain ⟨v0, v1, v2, drained⟩ := drainOnce_pending s
  obtain ⟨⟨q, _, _, only, _⟩, _⟩ := drainOnce_step s
  rw [only] at drained ⊢
  have ored : q = _ := drained
  refine ⟨rfl, ?_, closed⟩
  show hasIrq s.params q .nre = false
  rw [ored, hasIrq_or, hasIrq_and, pending, Bool.false_or, Bool.and_eq_false_iff]
  exact closed.imp_left fun off => rawStatus_nrtOff ((nrtOff_iff s).2 off) v0 v1 v2

/-- What a mask clears stays clear. -/
theorem hasIrq_and_eq_false {a : Word} {i : Irq} (h : hasIrq p a i = false) (b : Word) :
    hasIrq p (a &&& b) i = false := by
  rw [hasIrq_and, h, Bool.false_and]

theorem irqDisable_eq (mask : Word) (s : State) : irqDisable mask s = { s with
    irq := { s.irq with enabled := s.irq.enabled &&& ~~~mask }
    hwMask := masksOf (s.irq.enabled &&& ~~~mask)
    trace := maskEvents s.hwMask (s.irq.enabled &&& ~~~mask) ++ s.trace } := setEnableMask_eq _ s

/-- The end of an exchange disables NRE with the exchange's other interrupts (44 R197). -/
theorem NreFree.leave (h : NreFree p s) : NreFree p ((irqDisable (exchIrqs s.params) s).setTxrx .idle) := by
  obtain ⟨rfl, pending, _⟩ := h
  rw [irqDisable_eq]
  refine ⟨rfl, pending, .inr ?_⟩
  show hasIrq s.params (s.irq.enabled &&& ~~~exchIrqs s.params) .nre = false
  rw [hasIrq_and, hasIrq_not, exchIrqs_nre, Bool.not_true, Bool.and_false]

theorem SameAggregator.nreFree (e : SameAggregator s t) (h : NreFree p s) : NreFree p t := by
  simp only [SameAggregator, State.aggregator, Prod.mk.injEq] at e
  obtain ⟨irq, _, nrt, sub, params⟩ := e
  unfold NreFree
  rwa [irq, nrt, params, sub]

/-- Through every drain, tick and loop iteration NRE stays away. -/
theorem nreFree_tickKeeps : TickKeeps (NreFree p) where
  unseen h e := e.nreFree h
  enter := fun ⟨same, away, closed⟩ hx => ⟨same, away, closed.imp_left fun ⟨_, untimed⟩ => ⟨hx, untimed⟩⟩
  once _ h := h.drainOnce
  get := fun _ _ ⟨same, away, closed⟩ => ⟨same, hasIrq_and_eq_false away _, closed⟩
  leave _ h := h.leave

end Sys2Proof.Machine
end

section
/-! PROOFS. What an exchange in progress makes of each command (70 R294), and that none of them, and no step, brings
in an NRE where the timer is off (41 R131). -/

namespace Sys2Proof.Machine

variable {s t : State} {p : Config.Params}

/-! ## Commands refused in an exchange -/

theorem belowInit_or_inExchange (busy : s.txrxState ≠ .idle) : (belowInit s || inExchange s) = true := by
  simp [inExchange, busy]

theorem execInit_busy (busy : s.txrxState ≠ .idle) : execInit s = .next (reply .wrongState [] s) := if_pos busy

theorem execSetMode_busy (mode txBR rxBR : Byte) (busy : s.txrxState ≠ .idle) :
    execSetMode mode txBR rxBR s = .next (reply .wrongState [] s) := if_pos (belowInit_or_inExchange busy)

theorem execSetBitrate_busy (txBR rxBR : Byte) (busy : s.txrxState ≠ .idle) :
    execSetBitrate txBR rxBR s = .next (reply .wrongState [] s) := if_pos (belowInit_or_inExchange busy)

theorem execFieldOn_busy (busy : s.txrxState ≠ .idle) : execFieldOn s = .next (reply .wrongState [] s) :=
  if_pos (belowInit_or_inExchange busy)

theorem execSetEmd_busy (enable : Byte) (maxLen : Half) (busy : s.txrxState ≠ .idle) :
    execSetEmd enable maxLen s = .next (reply .wrongState [] s) := if_pos busy

theorem start_busy (c : Ctx) (busy : s.txrxState ≠ .idle) : start c s = .ok (.wrongState, s) := by
  have refused : startCheck c s = some .wrongState := if_pos (.inr busy)
  unfold start
  rw [refused]

theorem execStartTransceive_busy (txBuf : Option Ref) (txBufLen : Half) (rxBuf : Option Ref) (rxBufLen : Half)
    (rxRcvdLen : Option Ref) (flags fwt : Word) (busy : s.txrxState ≠ .idle) :
    execStartTransceive txBuf txBufLen rxBuf rxBufLen rxRcvdLen flags fwt s = .next (reply .wrongState [] s) := by
  unfold execStartTransceive
  rw [start_busy _ busy]
  rfl

theorem execTransceiveBlocking_busy (txBuf : Option Ref) (txBufLen : Half) (rxBuf : Option Ref) (rxBufLen : Half)
    (rxRcvdLen : Option Ref) (flags fwt : Word) (busy : s.txrxState ≠ .idle) :
    execTransceiveBlocking txBuf txBufLen rxBuf rxBufLen rxRcvdLen flags fwt s = .next (reply .wrongState [] s) := by
  unfold execTransceiveBlocking
  rw [start_busy _ busy]
  rfl

theorem execIso14443aAnticollFrame_busy (buf bytesToSend bitsToSend rxLength : Option Ref) (fwt : Word)
    (busy : s.txrxState ≠ .idle) :
    execIso14443aAnticollFrame buf bytesToSend bitsToSend rxLength fwt s = .next (reply .wrongState [] s) :=
  if_pos (.inr busy)

/-! ## Commands that leave NRE away -/

/-- A command that answers, and before that did nothing that the aggregator sees. -/
theorem NreFree.reply {st : Status} {results : List Byte} (h : NreFree p s) (e : SameAggregator s t) :
    NextPost (.next (reply st results t)) (NreFree p) :=
  (nextPost_next _ _).2 (nreFree_tickKeeps.unseen (e.nreFree h) rfl)

/-- A computation that keeps NRE away, as a command that answers after it. -/
theorem NreFree.settle_reply {r : Run State} (h : Keeps (NreFree p) r) (st : State → Status)
    (results : State → List Byte) :
    NextPost (settle (r >>= fun u => pure (Machine.reply (st u) (results u) u))) (NreFree p) :=
  nreFree_tickKeeps.settle (Run.post_seq h (fun _ hu => nreFree_tickKeeps.unseen hu rfl))

theorem fsUpdate_nreFree (h : NreFree p s) : Keeps (NreFree p) (fsUpdate s) :=
  Run.post_mono (fsUpdate_unseen s) (fun _ e => e.nreFree h) (fun _ => False.elim)

/-- A reset block state has nothing pending and nothing enabled (70 R290). -/
theorem resetKeeping_nreFree (same : s.params = p) : NreFree p (resetKeeping s) :=
  ⟨same, hasIrq_zero p .nre, .inr (hasIrq_zero p .nre)⟩

theorem execDeinit_nreFree (h : NreFree p s) : NextPost (execDeinit s) (NreFree p) := by
  have masked : ∀ u, NreFree p u → Keeps (NreFree p) (do
      let u ← engineDisable 0xFFFFFFFF u
      pure (reply .none [] (resetKeeping u))) := by
    intro u hu
    refine Run.post_seq (nreFree_tickKeeps.engineDisable _ hu) ?_
    rintro _ ⟨v, ⟨same, _⟩, _, rfl⟩
    rw [irqDisable_eq]
    exact nreFree_tickKeeps.unseen (resetKeeping_nreFree same) rfl
  unfold execDeinit
  split
  · exact h.reply rfl
  · refine nreFree_tickKeeps.settle ?_
    dsimp only
    split
    · exact Run.post_seq (nreFree_tickKeeps.fieldOffBody h) masked
    · exact masked s h

theorem execFieldOff_nreFree (h : NreFree p s) : NextPost (execFieldOff s) (NreFree p) := by
  unfold execFieldOff
  split
  · exact h.reply rfl
  · exact NreFree.settle_reply (nreFree_tickKeeps.fieldOffBody h) _ _

theorem execGetBitrate_nreFree (h : NreFree p s) : NextPost (execGetBitrate s) (NreFree p) := by
  unfold execGetBitrate
  split
  · exact h.reply rfl
  · exact h.reply rfl

theorem execIrqIsr_nreFree (h : NreFree p s) : NextPost (execIrqIsr s) (NreFree p) := by
  unfold execIrqIsr
  split
  · exact (nextPost_next _ _).2 h
  · exact nreFree_tickKeeps.settle (nreFree_tickKeeps.isrBody h)

theorem execIrqWait_nreFree (mask timeoutMs : Word) (h : NreFree p s) :
    NextPost (execIrqWait mask timeoutMs s) (NreFree p) := by
  have timed : NreFree p (readClock s).2 := nreFree_tickKeeps.unseen h rfl
  exact nreFree_tickKeeps.settle (nreFree_tickKeeps.waitIteration mask timeoutMs _ timed)

theorem fifoQuery_nreFree (field : State → List Byte) (h : NreFree p s) : NextPost (fifoQuery field s) (NreFree p) :=
  NreFree.settle_reply (fsUpdate_nreFree h) _ _

/-- Enabling NRE brings none in while the timer is off. -/
theorem setEnableMask_nreFree (new : Word) (h : NreFree p s) (off : s.txrxState ≠ .idle ∧ s.nrt.regVal = 0) :
    NreFree p (setEnableMask new s) := by
  obtain ⟨same, away, _⟩ := h
  rw [setEnableMask_eq]
  exact ⟨same, away, .inl off⟩

/-- Every command of an exchange whose NRT was written 0 leaves NRE away. -/
theorem exec_nreFree (i : Instr) (h : NreFree p s) (off : s.txrxState ≠ .idle ∧ s.nrt.regVal = 0) :
    NextPost (exec i s) (NreFree p) := by
  have busy := off.1
  have refused : ∀ {o : Host.Outcome State Fault Refusal}, o = .next (reply .wrongState [] s) →
      NextPost o (NreFree p) := fun e => e ▸ h.reply rfl
  cases i with
  | init => exact refused (execInit_busy busy)
  | deinit => exact execDeinit_nreFree h
  | setMode mode txBR rxBR => exact refused (execSetMode_busy mode txBR rxBR busy)
  | getMode => exact h.reply rfl
  | setBitrate txBR rxBR => exact refused (execSetBitrate_busy txBR rxBR busy)
  | getBitrate => exact execGetBitrate_nreFree h
  | setFdtPoll => exact h.reply rfl
  | setFdtListen => exact h.reply rfl
  | setGt => exact h.reply rfl
  | fieldOn => exact refused (execFieldOn_busy busy)
  | fieldOff => exact execFieldOff_nreFree h
  | startTransceive => exact refused (execStartTransceive_busy _ _ _ _ _ _ _ busy)
  | worker => exact NreFree.settle_reply (nreFree_tickKeeps.tick h) _ _
  | getTransceiveStatus => exact h.reply rfl
  | getTransceiveState => exact h.reply rfl
  | transceiveBlocking => exact refused (execTransceiveBlocking_busy _ _ _ _ _ _ _ busy)
  | setPreCb => exact h.reply rfl
  | setPostCb => exact h.reply rfl
  | setSyncCb => exact h.reply rfl
  | setIrqCb cb =>
    have registered : NreFree p (s.setIrqCallback cb) := h
    exact registered.reply rfl
  | irqEnable mask => exact (setEnableMask_nreFree _ h off).reply rfl
  | irqDisable mask => exact (setEnableMask_nreFree _ h off).reply rfl
  | irqPoll => exact NreFree.settle_reply (nreFree_tickKeeps.drain h) _ _
  | irqGet mask => exact (nreFree_tickKeeps.get mask s h).reply rfl
  | irqWait mask timeoutMs => exact execIrqWait_nreFree mask timeoutMs h
  | irqIsr => exact execIrqIsr_nreFree h
  | fifoStatusUpdate => exact fifoQuery_nreFree _ h
  | fifoStatusClear => exact h.reply rfl
  | fifoGetNumBytes => exact fifoQuery_nreFree _ h
  | fifoGetIncBits => exact fifoQuery_nreFree _ h
  | fifoIsMissingPar => exact fifoQuery_nreFree _ h
  | iso14443aAnticollFrame => exact refused (execIso14443aAnticollFrame_busy _ _ _ _ _ busy)
  | iso14443aShortFrame => exact fun _ e => by cases e
  | iso15693AnticollFrame => exact fun _ e => by cases e
  | iso15693Eof => exact fun _ e => by cases e
  | setEmd enable maxLen => exact refused (execSetEmd_busy enable maxLen busy)
  | setObsMode => exact h.reply rfl

theorem takeCommand_same {bytes : List Byte} (h : takeCommand s = some (bytes, t)) : ∃ port, t = s.setPort port := by
  unfold takeCommand at h
  split at h
  · cases h
  next rest _ =>
    cases h
    exact ⟨rest, rfl⟩

/-- Every step of an exchange whose NRT was written 0 leaves NRE away: the next iteration of a loop, an idle step, a
command, or the answer to a byte string that is none. -/
theorem step_nreFree (h : NreFree p s) (off : s.txrxState ≠ .idle ∧ s.nrt.regVal = 0) :
    NextPost (step s) (NreFree p) := by
  unfold step
  split
  · exact nreFree_tickKeeps.resume _ h
  · split
    · exact (nextPost_next _ _).2 h
    next taken =>
      obtain ⟨port, rfl⟩ := takeCommand_same taken
      have hu : NreFree p (s.setPort port) := nreFree_tickKeeps.unseen h rfl
      split
      · exact exec_nreFree _ hu off
      · exact hu.reply rfl

end Sys2Proof.Machine
end

section
/-! PROOFS. The statement on NRE in an untimed exchange. -/

open Sys2Proof Sys2Proof.Machine

/-- Settles O30: not pending, with the timer off, is where `NreFree` starts, and every command and step keeps it. -/
theorem noNreInUntimedExchange : Obligations.NoNreInUntimedExchange := by
  intro s t busy untimed pending next
  have free : NreFree s.params s := ⟨rfl, pending, .inl ⟨busy, untimed⟩⟩
  obtain ⟨i, command⟩ | stepped := next
  · obtain ⟨_, away, _⟩ := exec_nreFree i free ⟨busy, untimed⟩ t command
    exact away
  · obtain ⟨_, away, _⟩ := step_nreFree free ⟨busy, untimed⟩ t stepped
    exact away

end

section
/-! PROOFS. The mode and bit-rate commands (42_mode_bitrate.md): the two gates, the class of a mode code, and what each
command answers past its gate. -/

namespace Sys2Proof.Machine

variable {s t : State} {p : Config.Params} {code tx rx : Byte} {m : Mode}

/-! ## The gates (42 R140) -/

theorem belowInit_eq_true (down : s.lifecycle = .uninit) : belowInit s = true := by
  rw [belowInit, down]
  rfl

theorem rateGate_shut (h : s.lifecycle = .uninit ∨ s.txrxState ≠ .idle) : (belowInit s || inExchange s) = true := by
  obtain down | busy := h
  · rw [belowInit_eq_true down, Bool.true_or]
  · exact belowInit_or_inExchange busy

theorem rateGate_open (up : s.lifecycle ≠ .uninit) (idle : s.txrxState = .idle) :
    ¬ (belowInit s || inExchange s) = true := by
  simp [belowInit_eq_false up, inExchange, idle]

theorem execSetMode_gated (h : s.lifecycle = .uninit ∨ s.txrxState ≠ .idle) :
    execSetMode code tx rx s = .next (reply .wrongState [] s) := if_pos (rateGate_shut h)

theorem execSetBitrate_gated (h : s.lifecycle = .uninit ∨ s.txrxState ≠ .idle) :
    execSetBitrate tx rx s = .next (reply .wrongState [] s) := if_pos (rateGate_shut h)

/-! ## The queries (42 R148, R149) -/

theorem execGetMode_gated (down : s.lifecycle = .uninit) :
    execGetMode s = .next (reply .wrongState [s.mode.code] s) := by
  rw [execGetMode, if_pos (belowInit_eq_true down)]

theorem execGetMode_up (up : s.lifecycle ≠ .uninit) : execGetMode s = .next (reply .none [s.mode.code] s) := by
  rw [execGetMode, belowInit_eq_false up]
  rfl

theorem execGetBitrate_gated (down : s.lifecycle = .uninit) :
    execGetBitrate s = .next (reply .wrongState
      [(Config.gatedRates s.txBR s.rxBR).1, (Config.gatedRates s.txBR s.rxBR).2] s) :=
  if_pos (belowInit_eq_true down)

theorem execGetBitrate_up (up : s.lifecycle ≠ .uninit) :
    execGetBitrate s = .next (reply .none [s.txBR, s.rxBR] s) := by
  rw [execGetBitrate, belowInit_eq_false up]
  rfl

theorem execGetBitrate_stored (up : s.lifecycle ≠ .uninit) (htx : s.txBR = tx) (hrx : s.rxBR = rx) :
    execGetBitrate s = .next (reply .none [tx, rx] s) := by
  rw [execGetBitrate_up up, htx, hrx]

/-! ## Rates (42 R147) -/

theorem rateSupported_iff {b : Byte} : rateSupported p b = true ↔ b ∈ p.supportedBr := List.contains_iff_mem

theorem rateOrKeep_iff {b : Byte} : rateOrKeep s b = true ↔ b = 0xFF ∨ b ∈ s.params.supportedBr := by
  rw [rateOrKeep, Bool.or_eq_true, beq_iff_eq, rateSupported_iff]
  rfl

theorem newRate_of_ne_keep {rate old : Byte} (h : rate ≠ 0xFF) : newRate rate old = rate := if_neg h

/-- A rate that is neither KEEP nor supported (42 R147). -/
theorem execSetBitrate_invalid (up : s.lifecycle ≠ .uninit) (idle : s.txrxState = .idle)
    (h : (tx ≠ 0xFF ∧ tx ∉ s.params.supportedBr) ∨ (rx ≠ 0xFF ∧ rx ∉ s.params.supportedBr)) :
    execSetBitrate tx rx s = .next (reply .invalidParam [] s) := by
  have bad : (!rateOrKeep s tx || !rateOrKeep s rx) = true := by
    simpa [← Bool.not_eq_true, rateOrKeep_iff] using h
  rw [execSetBitrate, if_neg (rateGate_open up idle), if_pos bad]

theorem execSetBitrate_valid (up : s.lifecycle ≠ .uninit) (idle : s.txrxState = .idle)
    (htx : tx = 0xFF ∨ tx ∈ s.params.supportedBr) (hrx : rx = 0xFF ∨ rx ∈ s.params.supportedBr) :
    execSetBitrate tx rx s = .next (reply .none [] (applyRates tx rx s)) := by
  have good : ¬ (!rateOrKeep s tx || !rateOrKeep s rx) = true := by
    simp [rateOrKeep_iff.2 htx, rateOrKeep_iff.2 hrx]
  rw [execSetBitrate, if_neg (rateGate_open up idle), if_neg good]

/-! ## The class of a mode code (30 R86, 42 R142) -/

theorem modeClass_code : ∀ m ∈ supportedModes, modeClass m.code = .supported m := by decide

theorem modeClass_notSupported (h : code.toNat ∈ [6, 9, 10, 11, 12, 13]) : modeClass code = .notSupported := by
  simp only [List.mem_cons, List.not_mem_nil, or_false] at h
  unfold modeClass Mode.ofCode
  obtain h | h | h | h | h | h := h <;> rw [h] <;> rfl

theorem ofCode_eq_none (h : 14 ≤ code.toNat) : Mode.ofCode code = none := by
  unfold Mode.ofCode
  split
  case h_15 => rfl
  all_goals omega

theorem modeClass_unknown (h : code = 0 ∨ 14 ≤ code.toNat) : modeClass code = .unknown := by
  obtain rfl | big := h
  · rfl
  · rw [modeClass, ofCode_eq_none big]

/-- The default bits of the supported modes (42 R144). -/
theorem defaultModeBits_of_supported :
    ∀ m ∈ supportedModes, defaultModeBits m = (m == .nfca || m == .nfcaT1t, true) := by decide

/-! ## SET_MODE past its gate (42 R141) -/

theorem execSetMode_keep (up : s.lifecycle ≠ .uninit) (idle : s.txrxState = .idle)
    (keep : tx = Config.keep ∨ rx = Config.keep) :
    execSetMode code tx rx s = .next (reply .invalidParam [] s) := by
  rw [execSetMode, if_neg (rateGate_open up idle), if_pos keep]

section Rated

variable (up : s.lifecycle ≠ .uninit) (idle : s.txrxState = .idle) (noKeep : ¬(tx = Config.keep ∨ rx = Config.keep))
include up idle noKeep

theorem execSetMode_notSupported (kind : modeClass code = .notSupported) :
    execSetMode code tx rx s = .next (reply .notSupported [] s) := by
  rw [execSetMode, if_neg (rateGate_open up idle), if_neg noKeep, kind]

theorem execSetMode_unknown (kind : modeClass code = .unknown) :
    execSetMode code tx rx s = .next (reply .notImplemented [] s) := by
  rw [execSetMode, if_neg (rateGate_open up idle), if_neg noKeep, kind]

theorem execSetMode_unsupportedRate (kind : modeClass code = .supported m)
    (h : tx ∉ s.params.supportedBr ∨ rx ∉ s.params.supportedBr) :
    execSetMode code tx rx s = .next (reply .invalidParam [] s) := by
  have bad : (!rateSupported s.params tx || !rateSupported s.params rx) = true := by
    simpa [← Bool.not_eq_true, rateSupported_iff] using h
  rw [execSetMode, if_neg (rateGate_open up idle), if_neg noKeep, kind]
  exact if_pos bad

theorem execSetMode_applies (kind : modeClass code = .supported m)
    (htx : tx ∈ s.params.supportedBr) (hrx : rx ∈ s.params.supportedBr) :
    execSetMode code tx rx s = .next (reply .none [] (applyMode m tx rx s)) := by
  have good : ¬ (!rateSupported s.params tx || !rateSupported s.params rx) = true := by
    simp [rateSupported_iff.2 htx, rateSupported_iff.2 hrx]
  rw [execSetMode, if_neg (rateGate_open up idle), if_neg noKeep, kind]
  exact if_neg good

end Rated

theorem Lifecycle.max_modeSet (l : Lifecycle) : l.max .modeSet = if l = .txrx then .txrx else .modeSet := by
  cases l with
  | uninit | init | modeSet | txrx => rfl

theorem Lifecycle.two_le_rank_max_modeSet (l : Lifecycle) : 2 ≤ (l.max .modeSet).rank := by
  cases l with
  | uninit | init | modeSet | txrx => decide

theorem Lifecycle.ne_uninit_of_rank_pos {l : Lifecycle} (h : 0 < l.rank) : l ≠ .uninit := by
  rintro rfl
  exact absurd h (by decide)

/-! ## The commands that answered NONE -/

theorem Status.code_eq_zero_iff (st : Status) : st.code = 0 ↔ st = .none := by
  cases st <;> decide

/-- An answer without result bytes is the byte of NONE exactly where its status is NONE. -/
theorem reply_response_eq_none_iff (st : Status) : (reply st [] s).response = [0] ↔ st = .none :=
  List.singleton_inj.trans st.code_eq_zero_iff

theorem response_ne_none_of_refused {st : Status}
    (e : (.next (reply st [] s) : Host.Outcome State Fault Refusal) = .next t) (refused : st ≠ .none) :
    t.response ≠ [0] := by
  obtain rfl := Host.Outcome.next.inj e
  exact fun ok => refused ((reply_response_eq_none_iff st).1 ok)

/-- A SET_MODE that answered NONE had two rates, neither of them KEEP, and set a mode. -/
theorem execSetMode_none (e : execSetMode code tx rx s = .next t) (ok : t.response = [0]) :
    tx ≠ Config.keep ∧ rx ≠ Config.keep ∧ ∃ m, t = reply .none [] (applyMode m tx rx s) := by
  unfold execSetMode at e
  split at e
  · exact absurd ok (response_ne_none_of_refused e nofun)
  · split at e
    · exact absurd ok (response_ne_none_of_refused e nofun)
    next noKeep =>
      obtain ⟨htx, hrx⟩ := not_or.1 noKeep
      split at e
      · exact absurd ok (response_ne_none_of_refused e nofun)
      · exact absurd ok (response_ne_none_of_refused e nofun)
      next m _ =>
        split at e
        · exact absurd ok (response_ne_none_of_refused e nofun)
        · exact ⟨htx, hrx, m, (Host.Outcome.next.inj e).symm⟩

/-- A SET_BITRATE that answered NONE passed its gate and stored its rates. -/
theorem execSetBitrate_none (e : execSetBitrate tx rx s = .next t) (ok : t.response = [0]) :
    s.lifecycle ≠ .uninit ∧ t = reply .none [] (applyRates tx rx s) := by
  unfold execSetBitrate at e
  split at e
  · exact absurd ok (response_ne_none_of_refused e nofun)
  next gate =>
    split at e
    · exact absurd ok (response_ne_none_of_refused e nofun)
    · exact ⟨fun down => gate (rateGate_shut (.inl down)), (Host.Outcome.next.inj e).symm⟩

end Sys2Proof.Machine
end

section
/-! PROOFS. The statements on the mode and the bit rates. -/

open Sys2Proof Sys2Proof.Machine

/-- Settles O24: the clauses are the cases of SET_MODE past its gate, in their order. -/
theorem setMode : Obligations.SetMode := by
  intro code tx rx s up idle
  refine ⟨execSetMode_keep up idle, fun htx hrx unsupported => ?_, fun htx hrx unknown => ?_,
    fun htx hrx m hm named => ?_⟩
  · exact execSetMode_notSupported up idle (not_or.2 ⟨htx, hrx⟩) (modeClass_notSupported unsupported)
  · exact execSetMode_unknown up idle (not_or.2 ⟨htx, hrx⟩) (modeClass_unknown unknown)
  · subst named
    have kind := modeClass_code m hm
    refine ⟨execSetMode_unsupportedRate up idle (not_or.2 ⟨htx, hrx⟩) kind, fun stx srx => ?_⟩
    refine (execSetMode_applies up idle (not_or.2 ⟨htx, hrx⟩) kind stx srx).trans ?_
    rw [applyMode_eq, newRate_of_ne_keep htx, newRate_of_ne_keep hrx, Lifecycle.max_modeSet,
      ← defaultModeBits_of_supported m hm]
    rfl

/-- Settles O25: the two clauses are the cases of SET_BITRATE past its gate. -/
theorem setBitrate : Obligations.SetBitrate := fun _ _ _ up idle =>
  ⟨execSetBitrate_invalid up idle, execSetBitrate_valid up idle⟩

/-- Settles O26: the queries read what a SET_MODE or SET_BITRATE that answered NONE has stored. -/
theorem modeQueries : Obligations.ModeQueries := by
  refine ⟨fun s up => ⟨execGetMode_up up, execGetBitrate_up up, ?_⟩, fun code tx rx s t e ok => ?_,
    fun tx rx s t e ok htx hrx => ?_⟩
  · cases s.mode <;> decide
  · obtain ⟨htx, hrx, m, rfl⟩ := execSetMode_none e ok
    have set : 2 ≤ (s.lifecycle.max .modeSet).rank := s.lifecycle.two_le_rank_max_modeSet
    have up : s.lifecycle.max .modeSet ≠ .uninit := Lifecycle.ne_uninit_of_rank_pos (Nat.zero_lt_of_lt set)
    exact ⟨set, execGetBitrate_stored up (newRate_of_ne_keep htx) (newRate_of_ne_keep hrx)⟩
  · obtain ⟨up, rfl⟩ := execSetBitrate_none e ok
    exact ⟨rfl, execGetBitrate_stored (s := reply .none [] (applyRates tx rx s)) up (newRate_of_ne_keep htx)
      (newRate_of_ne_keep hrx)⟩

/-- Settles O23: the gate of the four commands; the bytes of a refused GET_BITRATE are the model's free ones. -/
theorem modeGate : Obligations.ModeGate := fun _ _ _ _ =>
  ⟨fun shut => ⟨execSetMode_gated shut, execSetBitrate_gated shut⟩,
    fun down => ⟨execGetMode_gated down, _, _, execGetBitrate_gated down⟩⟩

end

section
/-! PROOFS. The FIFO status cache's commands (43_fifo_status.md): the fetch, the fields a query answers, one query, and
a list of them. -/

namespace Sys2Proof.Machine

variable {s : State} {i : Instr} {cmds : List Instr} {field : State → List Byte}

/-! ## The fields of the snapshot (43 R162) -/

/-- The two bytes of a half-word, least significant first (30 R81). -/
theorem encU16_ofNat (low high : Byte) :
    encU16 (BitVec.ofNat 16 (low.toNat + 256 * high.toNat)) = [low, high] := by
  have lowByte : (BitVec.ofNat 16 (low.toNat + 256 * high.toNat)).extractLsb' 0 8 = low := by
    apply BitVec.eq_of_toNat_eq
    simp only [BitVec.extractLsb'_toNat, BitVec.toNat_ofNat, Nat.shiftRight_zero]
    omega
  have highByte : (BitVec.ofNat 16 (low.toNat + 256 * high.toNat)).extractLsb' 8 8 = high := by
    apply BitVec.eq_of_toNat_eq
    simp only [BitVec.extractLsb'_toNat, BitVec.toNat_ofNat, Nat.shiftRight_eq_div_pow]
    omega
  rw [encU16, lowByte, highByte]

/-- The 9-bit count in two bytes: status 1, and the high bit from status 2. -/
theorem encU16_numBytes (p : Config.Params) (f : FifoStatus) :
    encU16 (BitVec.ofNat 16 (numBytes p f)) = [f.st1, if f.st2.getLsbD p.fs2.b8.val then 1 else 0] := by
  unfold numBytes
  split
  · exact encU16_ofNat f.st1 1
  · exact encU16_ofNat f.st1 0

/-- The 3-bit field in a byte is status 2 shifted down to it and masked. -/
theorem ofNat_incBits (p : Config.Params) (f : FifoStatus) :
    BitVec.ofNat 8 (incBits p f) = (f.st2 >>> p.fs2.lbLo.val) &&& 7 := by
  apply BitVec.eq_of_toNat_eq
  have masked := Nat.and_two_pow_sub_one_eq_mod (f.st2.toNat >>> p.fs2.lbLo.val) 3
  simp only [incBits, BitVec.extractLsb'_toNat, BitVec.toNat_ofNat, BitVec.toNat_and, BitVec.toNat_ushiftRight]
  exact (Nat.mod_eq_of_lt (by omega)).trans masked.symm

/-! ## One query (43 R161, R165 to R167, 20 R67) -/

/-- 43 R161: the fetch of an invalid cache reads status 1, then status 2, and caches both answers. -/
theorem refreshed_of_invalid (invalid : s.fifoStatus.valid = false) :
    ∃ a b, (refreshed s).trace = .regRead .fifoStatus2 b :: .regRead .fifoStatus1 a :: s.trace ∧
      (refreshed s).fifoStatus = { valid := true, st1 := a, st2 := b } := by
  rw [refreshed, if_neg (Bool.eq_false_iff.1 invalid)]
  exact ⟨_, _, rfl, rfl⟩

theorem fifoQuery_inRange (h : fifoInRange s) :
    fifoQuery field s = .next (reply .none (field (refreshed s)) (refreshed s)) := by
  rw [fifoQuery, fsUpdate_inRange h]
  rfl

theorem fifoQuery_outOfRange (h : ¬ fifoInRange s) : fifoQuery field s = .fault .chipRange :=
  settle_stops (Run.stops_bind (fsUpdate_outOfRange h))

theorem execFifoGetNumBytes_inRange (h : fifoInRange s) :
    execFifoGetNumBytes s = .next (reply .none [(refreshed s).fifoStatus.st1,
      if (refreshed s).fifoStatus.st2.getLsbD s.params.fs2.b8.val then 1 else 0] (refreshed s)) := by
  rw [execFifoGetNumBytes, fifoQuery_inRange h, fifoCount, encU16_numBytes, refreshed_params]

theorem execFifoGetIncBits_inRange (h : fifoInRange s) :
    execFifoGetIncBits s = .next (reply .none
      [((refreshed s).fifoStatus.st2 >>> s.params.fs2.lbLo.val) &&& 7] (refreshed s)) := by
  rw [execFifoGetIncBits, fifoQuery_inRange h, fifoIncBits, ofNat_incBits, refreshed_params]

theorem execFifoIsMissingPar_inRange (h : fifoInRange s) :
    execFifoIsMissingPar s = .next (reply .none
      [if (refreshed s).fifoStatus.st2.getLsbD s.params.fs2.np.val then 1 else 0] (refreshed s)) := by
  rw [execFifoIsMissingPar, fifoQuery_inRange h, missingPar, refreshed_params]

/-! ## A list of updates and queries (43 R168) -/

/-- An update or a query: it refreshes the cache and answers some field of it. -/
def IsFifoQuery (i : Instr) : Prop := ∃ field, ∀ s, exec i s = fifoQuery field s

theorem isFifoQuery_of_eq
    (h : i = .fifoStatusUpdate ∨ i = .fifoGetNumBytes ∨ i = .fifoGetIncBits ∨ i = .fifoIsMissingPar) :
    IsFifoQuery i := by
  obtain rfl | rfl | rfl | rfl := h
  all_goals exact ⟨_, fun _ => rfl⟩

theorem IsFifoQuery.exec_inRange (q : IsFifoQuery i) (h : fifoInRange s) :
    ∃ results, exec i s = .next (reply .none results (refreshed s)) := by
  obtain ⟨field, q⟩ := q
  exact ⟨_, (q s).trans (fifoQuery_inRange h)⟩

theorem IsFifoQuery.exec_outOfRange (q : IsFifoQuery i) (h : ¬ fifoInRange s) : exec i s = .fault .chipRange := by
  obtain ⟨field, q⟩ := q
  exact (q s).trans (fifoQuery_outOfRange h)

/-- With a valid cache no query is a bus access. -/
theorem execAll_fifoQueries_valid (queries : ∀ i ∈ cmds, IsFifoQuery i) (valid : s.fifoStatus.valid = true) :
    ∃ t, execAll cmds s = .next t ∧ t.trace = s.trace ∧ t.fifoStatus = s.fifoStatus := by
  induction cmds generalizing s with
  | nil => exact ⟨s, rfl, rfl, rfl⟩
  | cons i cmds ih =>
    obtain ⟨query, queries⟩ := List.forall_mem_cons.1 queries
    obtain ⟨results, first⟩ := query.exec_inRange (.inl valid)
    rw [refreshed_of_valid valid] at first
    rw [execAll, first]
    exact ih queries (s := reply .none results s) valid

/-- The first query refreshes the cache; the others find it valid. -/
theorem execAll_fifoQueries_cons (queries : ∀ j ∈ i :: cmds, IsFifoQuery j) (h : fifoInRange s) :
    ∃ t, execAll (i :: cmds) s = .next t ∧ t.trace = (refreshed s).trace ∧
      t.fifoStatus = (refreshed s).fifoStatus := by
  obtain ⟨query, queries⟩ := List.forall_mem_cons.1 queries
  obtain ⟨results, first⟩ := query.exec_inRange h
  rw [execAll, first]
  exact execAll_fifoQueries_valid queries (s := reply .none results (refreshed s)) (refreshed_valid s)

theorem execAll_fifoQueries_outOfRange (query : IsFifoQuery i) (h : ¬ fifoInRange s) :
    execAll (i :: cmds) s = .fault .chipRange := by
  rw [execAll, query.exec_outOfRange h]

end Sys2Proof.Machine
end

section
/-! PROOFS. The statements on the FIFO status cache. -/

open Sys2Proof Sys2Proof.Machine

/-- Settles O35: a list is empty, or its first command refreshes the cache for the rest of it, or faults. -/
theorem fifoTraffic : Obligations.FifoTraffic := by
  intro cmds s commands
  have queries : ∀ i ∈ cmds, IsFifoQuery i := fun i hi => isFifoQuery_of_eq (commands i hi)
  cases cmds with
  | nil =>
    exact ⟨fun _ => ⟨s, rfl, fun _ => ⟨rfl, rfl⟩, fun nonempty => absurd rfl nonempty⟩,
      fun nonempty => absurd rfl nonempty⟩
  | cons i cmds =>
    refine ⟨fun inRange => ?_, fun _ above =>
      execAll_fifoQueries_outOfRange (queries i List.mem_cons_self) above⟩
    obtain ⟨t, run, trace, cache⟩ := execAll_fifoQueries_cons queries (inRange.resolve_left (List.cons_ne_nil _ _))
    refine ⟨t, run, fun valid => ?_, fun _ invalid => ?_⟩
    · rw [refreshed_of_valid (valid.resolve_left (List.cons_ne_nil _ _))] at trace cache
      exact ⟨trace, cache⟩
    · rw [trace, cache]
      exact refreshed_of_invalid invalid

/-- Settles O33: the update is a query that answers no field. -/
theorem fifoUpdateAndClear : Obligations.FifoUpdateAndClear := fun _ =>
  ⟨fifoQuery_inRange, refreshed_of_valid, fifoQuery_outOfRange, rfl⟩

/-- Settles O34: the snapshot's fields, bit by bit, are the bytes the queries encode. -/
theorem fifoQueries : Obligations.FifoQueries := fun _ =>
  ⟨fun h => ⟨execFifoGetNumBytes_inRange h, execFifoGetIncBits_inRange h, execFifoIsMissingPar_inRange h⟩,
    fun h => ⟨fifoQuery_outOfRange h, fifoQuery_outOfRange h, fifoQuery_outOfRange h⟩⟩

end

section
/-! PROOFS. The control flow of a tick (44 R171, R184, R185): how many actions can follow, in which sub-states a tick
ends, and what an action that ends the exchange leaves behind (44 R197). -/

namespace Sys2Proof.Machine

variable {s t : State} {e : Word}

/-! ## Points of the ISR agent use up edges -/

theorem isrLoop_edges_le (edges : List Bool) (s : State) :
    Run.post (isrLoop edges s) (fun t => t.env.edges.length ≤ edges.length - 1) (fun _ => True) := by
  induction edges generalizing s with
  | nil => exact le_refl 0
  | cons edge rest ih =>
    cases edge with
    | false => exact le_refl rest.length
    | true =>
      refine Run.post_seq (Run.post_mono (isrBody_post s) (fun _ => id) (fun _ _ => trivial)) (fun t _ => ?_)
      exact Run.post_mono (ih t) (fun _ used => used.trans (Nat.pred_le rest.length)) (fun _ => id)

/-- A point of the ISR agent does nothing, or uses up an edge of the script (20 R70). -/
theorem isrPoint_spends (s : State) :
    Run.post (isrPoint s) (fun t => t = s ∨ t.env.edges.length < s.env.edges.length) (fun _ => True) := by
  by_cases still : s.params.irqBuild = .polled ∨ s.env.edges = []
  · rw [isrPoint_quiet s still]
    exact .inl rfl
  · obtain ⟨notPolled, someEdge⟩ := not_or.1 still
    have pos := List.length_pos_iff.2 someEdge
    unfold isrPoint
    split
    next polled => exact absurd polled notPolled
    · exact Run.post_mono (isrLoop_edges_le _ s) (fun _ used => .inr (by omega)) (fun _ => id)

/-! ## How many actions can follow -/

/-- The longest way from a sub-state to the end of its tick, reloads apart. -/
def TxrxState.rank : TxrxState → Nat
  | .txIdle => 14
  | .txWaitGt => 13
  | .txWaitFdt => 12
  | .txPrepTx => 11
  | .txTransmit | .txReloadFifo => 10
  | .txWaitWl => 9
  | .txWaitTxe => 8
  | .txDone => 7
  | .rxIdle => 6
  | .rxWaitRxs => 5
  | .rxWaitRxe => 4
  | .rxErrCheck => 3
  | .rxReadData => 2
  | .idle | .txFail | .rxReadFifo | .rxDone | .rxFail => 1

/-- The actions that reloads can still take: two for a water level that is pending, and two for each that an ISR edge
can bring (44 R185). -/
def reloadActions (s : State) : Nat :=
  2 * s.env.edges.length + if s.irq.pending &&& txIrqs s.params = 0 then 0 else 2

/-- A bound on the actions of a tick from here on; past the wait for the water level no reload comes. -/
def actionsLeft (s : State) : Nat :=
  s.txrxState.rank + if s.txrxState.rank < TxrxState.txWaitWl.rank then 0 else reloadActions s

theorem TxrxState.rank_pos (x : TxrxState) : 0 < x.rank := by
  cases x <;> decide

theorem TxrxState.rank_le (x : TxrxState) : x.rank ≤ 14 := by
  cases x <;> decide

theorem actionsLeft_pos (s : State) : 0 < actionsLeft s := Nat.add_pos_left s.txrxState.rank_pos _

/-- The model's fuel is more than any tick needs (log 16). -/
theorem actionsLeft_lt_tickBound (s : State) : actionsLeft s < tickBound s := by
  have rank := s.txrxState.rank_le
  unfold actionsLeft reloadActions tickBound
  split
  · omega
  · split <;> omega

theorem actionsLeft_setTxrx_low {y : TxrxState} (low : y.rank < TxrxState.txWaitWl.rank) (t : State) :
    actionsLeft (t.setTxrx y) = y.rank := by
  have same : (t.setTxrx y).txrxState = y := rfl
  rw [actionsLeft, same, if_pos low, Nat.add_zero]

theorem actionsLeft_setTxrx_high {y : TxrxState} (high : ¬ y.rank < TxrxState.txWaitWl.rank) (t : State) :
    actionsLeft (t.setTxrx y) = y.rank + reloadActions t := by
  have same : (t.setTxrx y).txrxState = y := rfl
  rw [actionsLeft, same, if_neg high]
  rfl

theorem reloadActions_congr (edges : t.env.edges = s.env.edges) (pending : t.irq.pending = s.irq.pending)
    (params : t.params = s.params) : reloadActions t = reloadActions s := by
  rw [reloadActions, edges, pending, params, reloadActions]

theorem reloadActions_draw (d : DrawStep s t) : reloadActions t = reloadActions s := by
  obtain ⟨_, _, rfl, _, _, edges⟩ := d
  exact reloadActions_congr edges rfl rfl

theorem reloadActions_readClock (s : State) : reloadActions (readClock s).2 = reloadActions s := by
  obtain ⟨_, _, h, _, _, edges⟩ := readClock_eq s
  rw [h]
  exact reloadActions_congr edges rfl rfl

@[simp] theorem reloadActions_log (e : Event) (s : State) : reloadActions (s.log e) = reloadActions s := rfl

@[simp] theorem reloadActions_setFifo (total written : Nat) (s : State) :
    reloadActions (s.setFifo total written) = reloadActions s := rfl

@[simp] theorem reloadActions_fsClear (s : State) : reloadActions (fsClear s) = reloadActions s := rfl

@[simp] theorem reloadActions_fifoWrite (bytes : List Byte) (s : State) :
    reloadActions (fifoWrite bytes s).2 = reloadActions s := reloadActions_draw (fifoWrite_draw bytes s)

@[simp] theorem reloadActions_obsOn (s : State) : reloadActions (obsOn s) = reloadActions s := by
  unfold obsOn
  split
  · rfl
  · rfl

/-- A consuming read of TX_WAIT_WL that takes an interrupt has used up the pending one or an edge. -/
theorem reloadActions_taken (spent : t = s ∨ t.env.edges.length < s.env.edges.length) (same : t.params = s.params)
    (taken : t.irq.pending &&& txIrqs s.params ≠ 0) :
    reloadActions (getIrq (txIrqs s.params) t).2 + 2 ≤ reloadActions s := by
  have consumed : reloadActions (getIrq (txIrqs s.params) t).2 = 2 * t.env.edges.length := by
    unfold reloadActions
    have none : t.irq.pending &&& ~~~(txIrqs s.params) &&& txIrqs t.params = 0 := by
      rw [same, BitVec.and_assoc, BitVec.and_comm (~~~(txIrqs s.params)), BitVec.and_not_self]
      exact BitVec.and_zero
    exact congrArg (2 * t.env.edges.length + ·) (if_pos none)
  rw [consumed]
  unfold reloadActions
  obtain rfl | fewer := spent
  · rw [if_neg taken]
  · omega

/-! ## What an action does to the control flow -/

/-- What the terminal cleanup leaves, whichever way it is reached (44 R197, R198). -/
structure ExchangeEnded (t : State) : Prop where
  lifecycle : t.lifecycle = .modeSet
  observation : t.obs.active = false
  defaults : t.cfg = { modeDefaults t.params t.mode with collDetect := t.cfg.collDetect }
  notBusy : t.status ≠ .busy
  callback : ∀ cb, t.cb.post = some cb → ∃ earlier, t.trace = .postCallback cb :: earlier

/-- How a tick that began in `s` ends: in a tick-end sub-state, and in IDLE only by the cleanup or from IDLE. -/
def EndsFrom (s t : State) : Prop :=
  t.txrxState.tickEnd = true ∧ (t.txrxState = .idle → s.txrxState = .idle ∨ ExchangeEnded t)

/-- A drain that never ends hangs a tick in IDLE only where it began there. -/
def HangsFrom (s t : State) : Prop := t.txrxState = .idle → s.txrxState = .idle

/-- What follows an action: a sub-state of the exchange with fewer actions left, or the end of the tick. -/
def FlowFrom (s : State) : Flow × State → Prop
  | (.go _, t) => t.txrxState ≠ .idle ∧ actionsLeft t < actionsLeft s
  | (.yield, t) => EndsFrom s t

/-- Whatever the action answers is followed so; a drain in it that never ends leaves its sub-state. -/
abbrev ActionFlow (s : State) (r : Run (Flow × State)) : Prop :=
  Run.post r (FlowFrom s) (fun u => u.txrxState = s.txrxState)

/-- The engine's consuming read, with what its point of the ISR agent can do and uses up. -/
theorem engineGet_spends (mask : Word) (s : State) :
    Run.post (engineGet mask s) (fun r => ∃ u, AggStep s u ∧ (u = s ∨ u.env.edges.length < s.env.edges.length) ∧
      r = getIrq mask u) (fun u => u.txrxState = s.txrxState) :=
  Run.post_seq (Run.post_mono (Run.post_and (isrPoint_post s) (isrPoint_spends s)) (fun _ => id)
    (fun _ ⟨step, _⟩ => (CalmStep.of_agg step).sub)) (fun u ⟨step, spent⟩ => ⟨u, step, spent, rfl⟩)

theorem SameAggregator.sub (same : SameAggregator s t) : t.txrxState = s.txrxState := by
  simp only [SameAggregator, State.aggregator, Prod.mk.injEq] at same
  obtain ⟨_, _, _, sub, _⟩ := same
  exact sub

theorem failStatus_sub (s : State) : (failStatus s).txrxState = s.txrxState := (SameAggregator.failStatus s).sub

theorem obsOff_sub (s : State) : (obsOff s).txrxState = s.txrxState := (SameAggregator.obsOff s).sub

/-- The last two assignments of the cleanup and its callback, the rest of it made. -/
theorem ExchangeEnded.leave (notBusy : t.status ≠ .busy) (observation : t.obs.active = false)
    (defaults : t.cfg = { modeDefaults t.params t.mode with collDetect := t.cfg.collDetect }) :
    ExchangeEnded (((emitCallback t.cb.post .postCallback t).setTxrx .idle).setLifecycle .modeSet) := by
  rw [emitCallback_eq]
  refine ⟨rfl, observation, defaults, notBusy, fun cb registered => ⟨t.trace, ?_⟩⟩
  have registered : t.cb.post = some cb := registered
  exact congrArg (fun post => callbackEvents post .postCallback ++ t.trace) registered

theorem exchangeEnd_ended (notBusy : s.status ≠ .busy) :
    Run.post (exchangeEnd s) (fun t => t.txrxState = .idle ∧ ExchangeEnded t)
      (fun u => u.txrxState = s.txrxState) := by
  unfold exchangeEnd
  rw [obsOff_eq]
  refine Run.post_seq (Run.post_mono (engineDisable_post _ _) (fun _ => id)
    (fun _ step => (CalmStep.of_agg step).sub)) ?_
  rintro _ ⟨u, ⟨⟨_, _, _, rfl, _⟩, _⟩, rfl⟩
  rw [irqDisable_eq]
  exact ⟨rfl, .leave notBusy rfl rfl⟩

/-- From sub-state `x` on to `y`, with no reload from there. -/
abbrev TxrxState.LeadsTo (x y : TxrxState) : Prop :=
  y ≠ .idle ∧ y.rank < x.rank ∧ y.rank < TxrxState.txWaitWl.rank

namespace ActionFlow

variable {α : Type} {x y : TxrxState}

theorem onward (h : s.txrxState = x) (leads : x.LeadsTo y) (t : State) : ActionFlow s (goTo y t) := by
  obtain ⟨busy, lower, low⟩ := leads
  refine ⟨busy, ?_⟩
  rw [actionsLeft_setTxrx_low low]
  exact Nat.lt_of_lt_of_le (h ▸ lower) (Nat.le_add_right _ _)

/-- On to a sub-state from which reloads may come: none has become possible. -/
theorem loading (h : s.txrxState = x) (lower : y.rank < x.rank) (high : ¬ y.rank < TxrxState.txWaitWl.rank)
    (busy : y ≠ .idle) (same : reloadActions t = reloadActions s) : ActionFlow s (goTo y t) := by
  refine ⟨busy, ?_⟩
  subst h
  rw [actionsLeft_setTxrx_high high, same, actionsLeft, if_neg (by omega)]
  omega

theorem waits (state : t.txrxState = x) (ends : x.tickEnd = true) (busy : x ≠ .idle) : ActionFlow s (yieldIn t) :=
  ⟨state ▸ ends, fun idle => absurd (state.symm.trans idle) busy⟩

/-- The cleanup, once a status other than BUSY has been set. -/
theorem endExchange (state : t.txrxState = s.txrxState) (notBusy : t.status ≠ .busy) :
    ActionFlow s (endExchange t) :=
  Run.post_seq (Run.post_mono (exchangeEnd_ended notBusy) (fun _ => id) (fun _ h => h.trans state))
    (fun _ ⟨idle, ended⟩ => ⟨by rw [idle]; rfl, fun _ => .inr ended⟩)

/-- What follows a computation that never hangs. -/
theorem seq {m : Run α} {f : α → Run (Flow × State)} {P : α → Prop} (hm : Run.post m P (fun _ => False))
    (hf : ∀ a, P a → ActionFlow s (f a)) : ActionFlow s (m >>= f) :=
  Run.post_seq (Run.post_mono hm (fun _ => id) (fun _ => False.elim)) hf

/-- What follows a consuming read, which stays in its sub-state. -/
theorem seqGet {f : Word × State → Run (Flow × State)} {mask : Word} (state : t.txrxState = s.txrxState)
    (hf : ∀ irq u, u.txrxState = s.txrxState → ActionFlow s (f (irq, u))) : ActionFlow s (engineGet mask t >>= f) :=
  Run.post_seq (Run.post_mono (engineGet_calm mask t) (fun _ c => c.sub.trans state) (fun _ c => c.sub.trans state))
    (fun ⟨irq, u⟩ same => hf irq u same)

/-! ## TX -/

theorem txWaitGt (h : s.txrxState = .txWaitGt) : ActionFlow s (txWaitGt s) := by
  unfold Machine.txWaitGt
  split
  · dsimp only [gtIsExpired]
    split
    · exact loading h (by decide) (by decide) nofun (reloadActions_readClock s)
    · exact waits (t := (readClock s).2) h rfl nofun
  · exact loading h (by decide) (by decide) nofun rfl

theorem txWaitFdt (h : s.txrxState = .txWaitFdt) : ActionFlow s (txWaitFdt s) := by
  dsimp only [Machine.txWaitFdt]
  split
  · exact waits (t := (chipStatus s).2) h rfl nofun
  · exact loading h (by decide) (by decide) nofun (reloadActions_draw (chipStatus_draw s))

theorem txPrepTx (h : s.txrxState = .txPrepTx) : ActionFlow s (txPrepTx s) := by
  dsimp only [Machine.txPrepTx, busCmd, busWrite16]
  exact seq (memRead_noHang _ _ _ _ _) (fun bytes _ => loading h (by decide) (by decide) nofun (by simp))

/-- Where the frame's rest goes: a reload is still possible where bytes are left. -/
theorem restOfFrame (h : s.txrxState = x) (lower : TxrxState.txWaitWl.rank < x.rank)
    (same : reloadActions t = reloadActions s) :
    ActionFlow s (if t.fifo.bytesWritten < t.fifo.bytesTotal then goTo .txWaitWl t else goTo .txWaitTxe t) := by
  split
  · exact loading h lower (by decide) nofun same
  · exact onward (y := .txWaitTxe) h ⟨nofun, Nat.lt_trans (by decide) lower, by decide⟩ t

theorem transmit (h : s.txrxState = .txTransmit) (same : reloadActions t = reloadActions s) :
    ActionFlow s (transmit t) := restOfFrame h (by decide) same

theorem txTransmit (h : s.txrxState = .txTransmit) : ActionFlow s (txTransmit s) := by
  unfold Machine.txTransmit
  split
  · exact transmit h rfl
  · dsimp only
    split
    · exact transmit h (reloadActions_draw (syncAnswer_draw s))
    · exact waits (t := (syncAnswer s).2) h rfl nofun

theorem txWaitWl (h : s.txrxState = .txWaitWl) : ActionFlow s (txWaitWl s) := by
  refine Run.post_seq (engineGet_spends _ s) ?_
  rintro _ ⟨u, step, spent, rfl⟩
  have state : u.txrxState = .txWaitWl := (CalmStep.of_agg step).sub.trans h
  dsimp only [getIrq_eq]
  split
  · exact waits (t := (getIrq _ u).2) state rfl nofun
  next taken =>
    split
    · have fewer := reloadActions_taken spent (EngineStep.of_agg step).frame.params taken
      have left : actionsLeft s = TxrxState.txWaitWl.rank + reloadActions s := by
        rw [actionsLeft, h, if_neg (by decide)]
      have reloading := actionsLeft_setTxrx_high (y := .txReloadFifo) (by decide) (getIrq (txIrqs s.params) u).2
      have step : TxrxState.txReloadFifo.rank = TxrxState.txWaitWl.rank + 1 := rfl
      exact ⟨nofun, reloading.trans_lt (by omega)⟩
    · exact onward (y := .txFail) h (by decide) _

theorem txReloadFifo (h : s.txrxState = .txReloadFifo) : ActionFlow s (txReloadFifo s) :=
  seq (memRead_noHang _ _ _ _ _) (fun bytes _ => restOfFrame h (by decide) (by simp))

theorem txWaitTxe (h : s.txrxState = .txWaitTxe) : ActionFlow s (txWaitTxe s) := by
  refine seqGet rfl (fun irq t state => ?_)
  dsimp only
  split
  · exact onward (y := .txDone) h (by decide) t
  · exact waits (state.trans h) rfl nofun

theorem txDone (h : s.txrxState = .txDone) : ActionFlow s (txDone s) := by
  dsimp only [Machine.txDone]
  split
  · exact endExchange (t := (obsOff s).setStatus .none) (obsOff_sub s) nofun
  · exact onward (y := .rxIdle) h (by decide) _

theorem txFail (s : State) : ActionFlow s (txFail s) :=
  endExchange ((failStatus_sub _).trans (obsOff_sub s)) (failStatus_notBusy _)

/-! ## RX -/

theorem rxIdle (h : s.txrxState = .rxIdle) : ActionFlow s (rxIdle s) :=
  seq (memWrite16_unseen _ _ _) (fun t _ => onward (y := .rxWaitRxs) h (by decide) t)

theorem rxWaitRxs (h : s.txrxState = .rxWaitRxs) : ActionFlow s (rxWaitRxs s) := by
  refine seqGet rfl (fun irq t state => ?_)
  dsimp only
  split
  · exact waits (state.trans h) rfl nofun
  · split
    · exact onward (y := .rxWaitRxe) h (by decide) t
    · exact onward (y := .rxFail) h (by decide) _

theorem rxRestart (h : s.txrxState = .rxWaitRxe) (state : t.txrxState = s.txrxState) :
    ActionFlow s (rxRestart t) := by
  refine seqGet state (fun nre u state => ?_)
  dsimp only [nrtRunning]
  split
  · exact onward (y := .rxFail) h (by decide) _
  · split
    · exact onward (y := .rxFail) h (by decide) _
    · refine seqGet state (fun _ v state => ?_)
      dsimp only
      split
      · exact waits (t := (chipStatus v).2) (state.trans h) rfl nofun
      · exact waits (t := (chipStatus v).2.setTxrx .rxWaitRxs) rfl rfl nofun

theorem rxWaitRxe (h : s.txrxState = .rxWaitRxe) : ActionFlow s (rxWaitRxe s) := by
  refine seqGet rfl (fun irq t state => ?_)
  dsimp only
  split
  · exact waits (state.trans h) rfl nofun
  · split
    · exact seqGet state (fun _ u _ => onward (y := .rxErrCheck) h (by decide) u)
    · split
      · exact rxRestart h state
      · exact onward (y := .rxReadFifo) h (by decide) t

theorem rxReadFifo (s : State) : ActionFlow s (rxReadFifo s) :=
  seq (memWrite_unseen _ _ _ _) (fun _ _ => waits rfl rfl nofun)

theorem emdRearm (h : s.txrxState = .rxErrCheck) (state : t.txrxState = s.txrxState) :
    ActionFlow s (emdRearm t) := by
  refine seqGet state (fun nre u _ => ?_)
  dsimp only
  split
  · exact onward (y := .rxFail) h (by decide) _
  · exact waits rfl rfl nofun

theorem emdHandling (h : s.txrxState = .rxErrCheck) (state : t.txrxState = s.txrxState) :
    ActionFlow s (emdHandling t) := by
  unfold Machine.emdHandling
  split
  · refine seq (fsUpdate_unseen t) (fun u same => ?_)
    split
    · exact emdRearm h (same.sub.trans state)
    · exact onward (y := .rxReadData) h (by decide) u
  · exact onward (y := .rxReadData) h (by decide) t

theorem rxErrCheck (h : s.txrxState = .rxErrCheck) (errIrq : Word) : ActionFlow s (rxErrCheck errIrq s) := by
  refine seq (classify_unseen errIrq s) (fun ⟨e, t⟩ same => ?_)
  cases e with
  | none => exact onward (y := .rxReadData) h (by decide) t
  | some e => exact seq (nfcaReclassify_unseen _) (fun u same' => emdHandling h (same'.sub.trans same.sub))

theorem rxReadData (h : s.txrxState = .rxReadData) : ActionFlow s (rxReadData s) := by
  refine seq (fsUpdate_unseen s) (fun t _ => seq (memWrite_unseen _ _ _ _) (fun u _ => ?_))
  refine seq (memWrite16_unseen _ _ _) (fun v _ => ?_)
  split
  · exact onward (y := .rxFail) h (by decide) v
  · exact onward (y := .rxDone) h (by decide) v

end ActionFlow

/-- Every action is followed by a sub-state with fewer actions left, or ends the tick. -/
theorem stateAction_flow (e : Word) (s : State) : ActionFlow s (stateAction e s) := by
  unfold stateAction
  split
  next h => exact ⟨by rw [h]; rfl, fun _ => .inl h⟩
  next h => exact .loading h (by decide) (by decide) nofun rfl
  next h => exact .txWaitGt h
  next h => exact .txWaitFdt h
  next h => exact .txPrepTx h
  next h => exact .txTransmit h
  next h => exact .txWaitWl h
  next h => exact .txReloadFifo h
  next h => exact .txWaitTxe h
  next h => exact .txDone h
  next => exact .txFail s
  next h => exact .rxIdle h
  next h => exact .rxWaitRxs h
  next h => exact .rxWaitRxe h
  next h => exact .rxErrCheck h e
  next h => exact .rxReadData h
  next => exact .rxReadFifo s
  next => exact .endExchange (t := s.setStatus .none) rfl nofun
  next => exact .endExchange (failStatus_sub s) (failStatus_notBusy s)

/-! ## The tick -/

/-- More fuel than there are actions left changes nothing. -/
theorem runActions_enough {n m : Nat} (hn : actionsLeft s ≤ n) (hm : actionsLeft s ≤ m) :
    runActions n e s = runActions m e s := by
  have pos := actionsLeft_pos s
  induction n generalizing m e s with
  | zero => omega
  | succ n ih =>
    obtain ⟨m, rfl⟩ := Nat.exists_eq_succ_of_ne_zero (by omega : m ≠ 0)
    have flow := stateAction_flow e s
    simp only [runActions]
    match hr : stateAction e s with
    | .error _ => rfl
    | .ok (.yield, t) => rfl
    | .ok (.go e', t) =>
      rw [hr] at flow
      have fewer : actionsLeft t < actionsLeft s := flow.2
      exact ih (Nat.le_of_lt_succ (fewer.trans_le hn)) (Nat.le_of_lt_succ (fewer.trans_le hm)) (actionsLeft_pos t)

/-- Enough actions end a tick as they should (44 R184), and none hangs outside the exchange. -/
theorem runActions_ends {n : Nat} (enough : actionsLeft s ≤ n) :
    Run.post (runActions n e s) (EndsFrom s) (HangsFrom s) := by
  induction n generalizing e s with
  | zero => exact absurd (actionsLeft_pos s) (Nat.not_lt.2 enough)
  | succ n ih =>
    have flow : Run.post (stateAction e s) (FlowFrom s) (HangsFrom s) :=
      Run.post_mono (stateAction_flow e s) (fun _ => id) (fun _ same idle => same ▸ idle)
    refine Run.post_seq flow (fun ⟨flow, t⟩ h => ?_)
    cases flow with
    | yield => exact h
    | go e' =>
      obtain ⟨busy, fewer⟩ := h
      exact Run.post_mono (ih (by omega))
        (fun _ ⟨ends, idle⟩ => ⟨ends, fun ended => .inr ((idle ended).resolve_left busy)⟩)
        (fun _ hangs idle => absurd (hangs idle) busy)

theorem tick_ends (s : State) : Run.post (tick s) (EndsFrom s) (HangsFrom s) := by
  have acts : ∀ u, u.txrxState = s.txrxState →
      Run.post (runActions (tickBound u) 0 u) (EndsFrom s) (HangsFrom s) := fun u same => by
    have ended := runActions_ends (e := 0) (actionsLeft_lt_tickBound u).le
    unfold EndsFrom HangsFrom at ended
    rwa [same] at ended
  unfold tick
  dsimp only
  split
  · exact Run.post_seq (Run.post_mono (drain_calm s) (fun _ c => c.sub) (fun _ c idle => c.sub ▸ idle)) acts
  · exact acts s rfl

/-- IDLE has no action, and no drain leaves it. -/
theorem tick_idle (idle : s.txrxState = .idle) :
    Run.post (tick s) (fun t => t.txrxState = .idle) (fun _ => True) := by
  have acts : ∀ u : State, u.txrxState = .idle →
      Run.post (runActions (tickBound u) 0 u) (fun t => t.txrxState = .idle) (fun _ => True) := fun u still => by
    rw [tickBound, runActions_yield (act_idle still)]
    exact still
  unfold tick
  dsimp only
  split
  · exact Run.post_seq (Run.post_mono (drain_calm s) (fun _ c => c.sub.trans idle) (fun _ _ => trivial)) acts
  · exact acts s idle

/-- A WORKER that answers hangs in a drain, or has run its tick to the end. -/
theorem execWorker_next (h : execWorker s = .next t) :
    (∃ u, tick s = .error (.hang u) ∧ t = loopOn .hung u) ∨ ∃ u, tick s = .ok u ∧ t = reply u.status [] u := by
  unfold execWorker at h
  match hr : tick s with
  | .ok u =>
    rw [hr] at h
    exact .inr ⟨u, rfl, (Host.Outcome.next.inj h).symm⟩
  | .error (.hang u) =>
    rw [hr] at h
    exact .inl ⟨u, rfl, (Host.Outcome.next.inj h).symm⟩
  | .error (.fault f) =>
    rw [hr] at h
    cases h

/-! ## The interrupts that the end of an exchange disables -/

/-- With these parameters the enable mask is `w`, or the exchange's interrupts are disabled in it and the mask record
mirrors it; the latter in IDLE. -/
def MasksFrom (p : Config.Params) (w : Word) (s : State) : Prop :=
  s.params = p ∧ (s.txrxState ≠ .idle ∧ s.irq.enabled = w ∨
    s.irq.enabled = w &&& ~~~(exchIrqs p) ∧ s.hwMask = masksOf s.irq.enabled)

theorem masksFrom_tickKeeps {p : Config.Params} {w : Word} : TickKeeps (MasksFrom p w) where
  unseen h same := by
    simp only [SameAggregator, State.aggregator, Prod.mk.injEq] at same
    obtain ⟨irq, masks, _, sub, params⟩ := same
    unfold MasksFrom
    rwa [irq, masks, sub, params]
  enter := fun ⟨params, masks⟩ busy => ⟨params, masks.imp_left fun ⟨_, enabled⟩ => ⟨busy, enabled⟩⟩
  once s h := by
    obtain ⟨⟨_, _, _, only, _⟩, _⟩ := drainOnce_step s
    rw [only]
    exact h
  get _ _ h := h
  leave := fun s ⟨params, masks⟩ => by
    have disabled : s.irq.enabled &&& ~~~(exchIrqs s.params) = w &&& ~~~(exchIrqs p) := by
      rw [params]
      obtain ⟨_, enabled⟩ | ⟨enabled, _⟩ := masks
      · rw [enabled]
      · rw [enabled, BitVec.and_assoc, BitVec.and_self]
    rw [irqDisable_eq]
    exact ⟨params, .inr ⟨disabled, rfl⟩⟩

/-- A tick that ends an exchange disables its interrupts (44 R197). -/
theorem tick_masks (busy : s.txrxState ≠ .idle) (h : tick s = .ok t) (ended : t.txrxState = .idle) :
    t.irq.enabled = s.irq.enabled &&& ~~~(exchIrqs s.params) ∧ t.hwMask = masksOf t.irq.enabled := by
  have kept := (masksFrom_tickKeeps (p := s.params) (w := s.irq.enabled)).tick ⟨rfl, .inl ⟨busy, rfl⟩⟩
  rw [h] at kept
  obtain ⟨_, masks⟩ := kept
  exact masks.resolve_left fun ⟨still, _⟩ => still ended

end Sys2Proof.Machine
end

section
/-! PROOFS. The statements on the end of a tick. -/

open Sys2Proof Sys2Proof.Machine

/-- Settles O50: each action leaves fewer actions or ends the tick, and the fuel is more than the actions left. -/
theorem tickEnds : Obligations.TickEnds := by
  intro s t worker
  obtain ⟨u, _, rfl⟩ | ⟨u, ticked, rfl⟩ := execWorker_next worker
  · exact .inl rfl
  refine .inr ?_
  have ends := tick_ends s
  rw [ticked] at ends
  refine ⟨rfl, ends.1, fun idle => ?_⟩
  have still := tick_idle idle
  rwa [ticked] at still

/-- Settles O51: IDLE is reached from an exchange by the cleanup alone; the masks are kept by all else in the tick. -/
theorem terminalCleansUp : Obligations.TerminalCleansUp := by
  intro s t worker busy idle
  have ends := tick_ends s
  obtain ⟨u, hung, rfl⟩ | ⟨u, ticked, rfl⟩ := execWorker_next worker
  · rw [hung] at ends
    exact absurd (ends idle) busy
  have step := tick_engine s
  rw [ticked] at ends step
  have frame := step.frame
  obtain ⟨_, cleaned⟩ := ends
  have ended := (cleaned idle).resolve_left busy
  obtain ⟨enabled, masks⟩ := tick_masks busy ticked idle
  have defaults := ended.defaults
  rw [frame.params, frame.mode, frame.collDetect] at defaults
  refine ⟨ended.lifecycle, ended.observation, defaults, enabled, masks, ended.notBusy, fun cb registered => ?_⟩
  exact ended.callback cb (frame.cb ▸ registered)

end

section
/-! PROOFS. Ticks in which no interrupt event arrives, action by action (44 R171 to R182, 45 R200, R202): an action that
goes on leaves the tick from the next sub-state, whatever is pending there. -/

namespace Sys2Proof.Machine

variable {s t : State} {b : BufRef} {rest : List Bool}

/-! ## One action of a quiet tick -/

/-- A tick whose first action goes on is the tick from there: both have fuel enough (log 16). -/
theorem worker_goes (still : quiet s = true) (h : stateAction 0 s = .ok (.go 0, t)) (still' : quiet t = true) :
    exec .worker s = exec .worker t := by
  have fewer : actionsLeft t < actionsLeft s := by
    have flow := stateAction_flow 0 s
    rw [h] at flow
    exact flow.2
  have fuel := actionsLeft_lt_tickBound s
  have ticked : tick s = tick t := by
    rw [tick_quiet still, tick_quiet still', ← Nat.sub_add_cancel (Nat.zero_lt_of_lt fuel), runActions_go h]
    exact runActions_enough (Nat.le_sub_one_of_lt (fewer.trans fuel)) (actionsLeft_lt_tickBound t).le
  show settle (tick s >>= _) = settle (tick t >>= _)
  rw [ticked]

theorem worker_yields (still : quiet s = true) (h : stateAction 0 s = .ok (.yield, t)) :
    exec .worker s = .next (reply t.status [] t) := by
  obtain ⟨k, hk⟩ := execWorker_quiet still
  refine hk.trans ?_
  rw [runActions_yield h]
  rfl

/-! ## The waits before a transmission (44 R172 to R174) -/

/-- A reading of the clock takes nothing from the chip's and the sync gate's answers. -/
theorem Env.takeElapsed_answers (e : Env) :
    e.takeElapsed.2.chipBits = e.chipBits ∧ e.takeElapsed.2.sync = e.sync := by
  unfold Env.takeElapsed
  split
  · exact ⟨rfl, rfl⟩
  · exact ⟨rfl, rfl⟩

/-- No event comes while the clock is read. -/
theorem quiet_readClock (s : State) : quiet (readClock s).2 = quiet s := by
  obtain ⟨_, _, h, line, lineRest, edges⟩ := readClock_eq s
  rw [h]
  unfold quiet
  dsimp only [State.setClock, State.setEnv]
  rw [line, lineRest, edges]

theorem setTxrx_same {x : TxrxState} (h : s.txrxState = x) : { s with txrxState := x } = s := by
  rw [← h]

/-- TX_IDLE leads to TX_WAIT_GT. -/
theorem worker_beforeGuard (still : quiet s = true) (before : BeforeGuard s) :
    exec .worker s = exec .worker { s with txrxState := .txWaitGt } := by
  obtain first | waiting := before
  · exact worker_goes still (act_txIdle first) still
  · rw [setTxrx_same waiting]

theorem worker_guardRuns (still : quiet s = true) (before : BeforeGuard s) (armed : s.gtTimer.armed = true)
    (runs : s.clockMs + s.env.takeElapsed.1 - s.gtTimer.startMs < s.gtTimer.durMs) :
    exec .worker s = .next (reply s.status [] { s with
      txrxState := .txWaitGt, clockMs := s.clockMs + s.env.takeElapsed.1, env := s.env.takeElapsed.2 }) :=
  (worker_beforeGuard still before).trans (worker_yields (s := { s with txrxState := .txWaitGt }) still
    (act_txWaitGt_waits rfl armed runs))

/-- The guard time is found over: the stopwatch is disarmed, the clock has been read once. -/
theorem worker_guardOver (still : quiet s = true) (before : BeforeGuard s) (armed : s.gtTimer.armed = true)
    (passed : s.gtTimer.durMs ≤ s.clockMs + s.env.takeElapsed.1 - s.gtTimer.startMs) :
    exec .worker s = exec .worker { s with
      gtTimer := { s.gtTimer with armed := false }, txrxState := .txWaitFdt
      clockMs := s.clockMs + s.env.takeElapsed.1, env := s.env.takeElapsed.2 } := by
  refine (worker_beforeGuard still before).trans ?_
  exact worker_goes still (act_txWaitGt_expired rfl armed passed) ((quiet_readClock s).trans still)

/-- There is no guard time to wait for. -/
theorem worker_unguarded (still : quiet s = true)
    (h : (BeforeGuard s ∧ s.gtTimer.armed = false) ∨ s.txrxState = .txWaitFdt) :
    exec .worker s = exec .worker { s with txrxState := .txWaitFdt } := by
  obtain ⟨before, unarmed⟩ | waiting := h
  · exact (worker_beforeGuard still before).trans (worker_goes still (act_txWaitGt_clear rfl unarmed) still)
  · rw [setTxrx_same waiting]

/-- The state in which a tick first polls the general-purpose timer; `timed` says that it found a guard time over. -/
def guardPassed (timed : Prop) [Decidable timed] (s : State) : State :=
  { s with
    gtTimer := { s.gtTimer with armed := if timed then false else s.gtTimer.armed }
    clockMs := if timed then s.clockMs + s.env.takeElapsed.1 else s.clockMs
    env := if timed then s.env.takeElapsed.2 else s.env
    txrxState := .txWaitFdt }

theorem guardPassed_env (timed : Prop) [Decidable timed] (s : State) :
    quiet (guardPassed timed s) = quiet s ∧ (guardPassed timed s).env.chipBits = s.env.chipBits ∧
      (guardPassed timed s).env.sync = s.env.sync := by
  obtain ⟨chipBits, sync⟩ := s.env.takeElapsed_answers
  by_cases h : timed
  · simp only [guardPassed, h, if_true]
    exact ⟨quiet_readClock s, chipBits, sync⟩
  · simp only [guardPassed, h, if_false]
    exact ⟨rfl, trivial, trivial⟩

theorem worker_guardPassed (still : quiet s = true) (timed : Prop) [Decidable timed]
    (meaning : timed ↔ BeforeGuard s ∧ s.gtTimer.armed = true) (waits : BeforeGuard s ∨ s.txrxState = .txWaitFdt)
    (passed : timed → s.gtTimer.durMs ≤ s.clockMs + s.env.takeElapsed.1 - s.gtTimer.startMs) :
    exec .worker s = exec .worker (guardPassed timed s) := by
  by_cases h : timed
  · obtain ⟨before, armed⟩ := meaning.1 h
    simp only [guardPassed, h, if_true]
    exact worker_guardOver still before armed (passed h)
  · simp only [guardPassed, h, if_false]
    refine worker_unguarded still (waits.imp_left fun before => ⟨before, Bool.eq_false_iff.2 fun armed => ?_⟩)
    exact h (meaning.2 ⟨before, armed⟩)

theorem worker_gptRunning (still : quiet s = true) (h : s.txrxState = .txWaitFdt)
    (runs : s.env.chipBits = true :: rest) :
    exec .worker s = .next (reply s.status [] { s with env := { s.env with chipBits := rest } }) := by
  have waits := act_txWaitFdt (e := 0) h runs
  rw [if_pos rfl, if_pos rfl, ← h] at waits
  exact worker_yields still waits

/-! ## Loading and transmitting (44 R175 to R177) -/

/-- The frame prepared and its first part loaded (44 R175, R176). -/
def framed (b : BufRef) (s : State) : State :=
  { s with
    fifo := { bytesTotal := s.ctx.txBytes, bytesWritten := min s.ctx.txBytes s.params.fifoDepth }
    fifoStatus := { s.fifoStatus with valid := false }
    obs := { s.obs with active := s.obs.active || s.obs.configured }
    txrxState := .txTransmit
    trace := (if s.obs.configured then [.cmd .obsOn] else [])
      ++ [.fifoWrite (bufBytes s.mem b 0 (min s.ctx.txBytes s.params.fifoDepth)),
        .regWrite16 .numTxBytes s.ctx.txBufLen, .cmd .clearFifo, .cmd .resetRxGain] ++ s.trace }

theorem worker_framed (still : quiet s = true) (h : s.txrxState = .txWaitFdt)
    (stopped : s.env.chipBits = false :: rest) (buf : s.ctx.txBuf = some b)
    (inside : inBounds s.params b 0 (min s.ctx.txBytes s.params.fifoDepth) = true) :
    exec .worker s = exec .worker (framed b { s with env := { s.env with chipBits := rest } }) := by
  refine (worker_goes still (act_txWaitFdt h stopped) still).trans ?_
  exact worker_goes still (act_txPrepTx rfl buf inside) still

/-- The transmit command issued, and the wait that follows it (44 R177). -/
def sent (s : State) : State :=
  { s with
    txrxState := if s.fifo.bytesWritten < s.fifo.bytesTotal then .txWaitWl else .txWaitTxe
    trace := .cmd (if s.cfg.txCrc then .transmitWithCrc else .transmitWithoutCrc) :: s.trace }

theorem worker_ungated (still : quiet s = true) (h : s.txrxState = .txTransmit) (ungated : s.cb.sync = none) :
    exec .worker s = exec .worker (sent s) := worker_goes still (act_txTransmit h ungated) still

section Gate

variable {c : Byte} (still : quiet s = true) (h : s.txrxState = .txTransmit) (gated : s.cb.sync = some c)
include still h gated

theorem worker_gateClosed (closed : s.env.sync = false :: rest) :
    exec .worker s = .next (reply s.status [] { s with env := { s.env with sync := rest } }) :=
  worker_yields still (act_txTransmit_closed h gated closed)

theorem worker_gateOpen (isOpen : s.env.sync = true :: rest) :
    exec .worker s = exec .worker (sent { s with env := { s.env with sync := rest } }) :=
  worker_goes still (act_txTransmit_open h gated isOpen) still

end Gate

/-! ## The waits of a transmission (44 R178, R181) -/

theorem and_or_eq_zero {w a b : Word} (h : w &&& (a ||| b) = 0) : w &&& a = 0 ∧ w &&& b = 0 := by
  rw [BitVec.and_or_distrib_left] at h
  exact BitVec.or_eq_zero_iff.1 h

/-- A consuming read leaves no bit of its mask (40 R105). -/
theorem getIrq_pending (mask : Word) (s : State) : (getIrq mask s).2.irq.pending &&& mask = 0 := by
  show s.irq.pending &&& ~~~mask &&& mask = 0
  rw [BitVec.and_assoc, BitVec.and_comm (~~~mask), BitVec.and_not_self]
  exact BitVec.and_zero

/-- Without TXE pending TX_WAIT_TXE takes what is pending and ends the tick. -/
theorem act_txWaitTxe_waits {e : Word} (h : s.txrxState = .txWaitTxe) (edges : noEdges s)
    (none : s.irq.pending &&& irqBit s.params .txe = 0) :
    stateAction e s = .ok (.yield, (getIrq (txIrqs s.params) s).2) := by
  rw [act_txWaitTxe h edges, if_neg (not_not.2 none), if_neg (not_not.2 none), ← h]
  rfl

/-- With no TX interrupt pending either wait of a transmission ends the tick. -/
theorem worker_txWaits (still : quiet s = true) (h : s.txrxState = .txWaitWl ∨ s.txrxState = .txWaitTxe)
    (none : s.irq.pending &&& txIrqs s.params = 0) : exec .worker s = .next (reply s.status [] s) := by
  have edges := quiet_noEdges still
  obtain wl | txe := h
  · have waits := act_txWaitWl (e := 0) wl edges
    rw [if_pos none] at waits
    exact worker_yields still waits
  · have waits := act_txWaitTxe_waits (e := 0) txe edges (and_or_eq_zero none).2
    rw [show (getIrq (txIrqs s.params) s).2 = s from consumed_nothing none] at waits
    exact worker_yields still waits

/-- FWL alone: one chunk more is loaded, and the tick ends in the wait that follows (44 R178, R180). -/
theorem worker_reloads (still : quiet s = true) (h : s.txrxState = .txWaitWl) (buf : s.ctx.txBuf = some b)
    (fwl : s.irq.pending &&& txIrqs s.params = irqBit s.params .fwl)
    (fits : min s.params.wlChunk (s.fifo.bytesTotal - s.fifo.bytesWritten) ≤ s.params.fifoDepth)
    (inside : inBounds s.params b s.fifo.bytesWritten
      (min s.params.wlChunk (s.fifo.bytesTotal - s.fifo.bytesWritten)) = true) :
    exec .worker s = .next (reply s.status [] { (getIrq (txIrqs s.params) s).2 with
      fifo := { s.fifo with bytesWritten :=
        s.fifo.bytesWritten + min s.params.wlChunk (s.fifo.bytesTotal - s.fifo.bytesWritten) }
      fifoStatus := { s.fifoStatus with valid := false }
      txrxState :=
        if s.fifo.bytesWritten + min s.params.wlChunk (s.fifo.bytesTotal - s.fifo.bytesWritten)
          < s.fifo.bytesTotal then .txWaitWl else .txWaitTxe
      trace := .fifoWrite (bufBytes s.mem b s.fifo.bytesWritten
        (min s.params.wlChunk (s.fifo.bytesTotal - s.fifo.bytesWritten))) :: s.trace }) := by
  have reloading := worker_goes still (act_txWaitWl_reloads h (quiet_noEdges still) fwl) still
  have reloaded := reloading.trans (worker_goes still (act_txReloadFifo rfl buf fits inside) still)
  exact reloaded.trans (worker_txWaits still (ite_eq_or_eq _ _ _) (getIrq_pending _ s))

/-- TXE before the whole frame is loaded: the exchange ends with IO (44 R178, R183). -/
theorem worker_txFails (still : quiet s = true) (h : s.txrxState = .txWaitWl)
    (taken : s.irq.pending &&& txIrqs s.params ≠ 0)
    (notAlone : s.irq.pending &&& txIrqs s.params ≠ irqBit s.params .fwl) :
    exec .worker s = .next (reply .io [] (cleanedUp { (getIrq (txIrqs s.params) s).2 with status := .io })) := by
  have failing := act_txWaitWl (e := 0) h (quiet_noEdges still)
  rw [if_neg taken, if_neg notAlone] at failing
  have failed := act_txFail (e := 0)
    (s := { (getIrq (txIrqs s.params) s).2 with status := .io, txrxState := .txFail }) rfl (quiet_noEdges still)
  exact (worker_goes still failing still).trans (worker_yields still failed)

section EndOfTransmission

variable (still : quiet s = true) (h : s.txrxState = .txWaitTxe) (txe : s.irq.pending &&& irqBit s.params .txe ≠ 0)
include still h txe

theorem worker_txDone :
    exec .worker s = exec .worker { (getIrq (txIrqs s.params) s).2 with txrxState := .txDone } :=
  worker_goes still (act_txWaitTxe_done h (quiet_noEdges still) txe) still

/-- The end of transmission of an exchange without reception (44 R182). -/
theorem worker_txEnds (noReception : s.ctx.rxBuf = none) :
    exec .worker s = .next (reply .none [] (cleanedUp { (getIrq (txIrqs s.params) s).2 with status := .none })) :=
  (worker_txDone still h txe).trans (worker_yields still (act_txDone_ends rfl (quiet_noEdges still) noReception))

/-- The end of transmission of an exchange with reception (44 R182). -/
theorem worker_txReceives (reception : s.ctx.rxBuf ≠ none) :
    exec .worker s = exec .worker { (getIrq (txIrqs s.params) s).2 with
      obs := { s.obs with active := false }, txrxState := .rxIdle
      trace := (if s.obs.active then [.cmd .obsOff] else []) ++ s.trace } :=
  (worker_txDone still h txe).trans (worker_goes still (act_txDone_receives rfl reception) still)

end EndOfTransmission

/-! ## The start of a reception (45 R200, R202) -/

/-- The counters and the caller's length zeroed (45 R200). -/
def receptionOpened (s : State) : State :=
  { s with
    fifo := { bytesTotal := 0, bytesWritten := 0 }
    fifoStatus := { s.fifoStatus with valid := false }
    mem := cellWritten s.params s.ctx.rxRcvdLen 0 s.mem
    txrxState := .rxWaitRxs }

theorem worker_rxIdle (still : quiet s = true) (h : s.txrxState = .rxIdle)
    (cell : cellOk s.params s.ctx.rxRcvdLen) : exec .worker s = exec .worker (receptionOpened s) :=
  worker_goes still (act_rxIdle h cell) still

section Rxs

variable (still : quiet s = true) (h : s.txrxState = .rxWaitRxs)
include still h

theorem worker_rxsWaits (none : s.irq.pending &&& rxsMask s.params = 0) :
    exec .worker s = .next (reply s.status [] s) := by
  have waits := act_rxWaitRxs (e := 0) h (quiet_noEdges still)
  rw [if_pos none] at waits
  exact worker_yields still waits

/-- NRE alone: the exchange ends with TIMEOUT. -/
theorem worker_rxsTimeout (taken : s.irq.pending &&& rxsMask s.params ≠ 0)
    (noRxs : s.irq.pending &&& rxsMask s.params &&& irqBit s.params .rxs = 0) :
    exec .worker s = .next (reply .timeout []
      (cleanedUp { (getIrq (rxsMask s.params) s).2 with status := .timeout })) := by
  have failing := act_rxWaitRxs (e := 0) h (quiet_noEdges still)
  rw [if_neg taken, if_neg (not_not.2 noRxs)] at failing
  have failed := act_rxFail (e := 0)
    (s := { (getIrq (rxsMask s.params) s).2 with status := .timeout, txrxState := .rxFail }) rfl (quiet_noEdges still)
  exact (worker_goes still failing still).trans (worker_yields still failed)

theorem worker_rxsStarts (rxs : s.irq.pending &&& rxsMask s.params &&& irqBit s.params .rxs ≠ 0) :
    exec .worker s = exec .worker { (getIrq (rxsMask s.params) s).2 with txrxState := .rxWaitRxe } := by
  have starts := act_rxWaitRxs (e := 0) h (quiet_noEdges still)
  rw [if_neg (and_ne_zero_of_sub rxs), if_pos rxs] at starts
  exact worker_goes still starts still

end Rxs

theorem worker_rxeWaits (still : quiet s = true) (h : s.txrxState = .rxWaitRxe)
    (none : s.irq.pending &&& rxeMask s.params = 0) : exec .worker s = .next (reply s.status [] s) :=
  worker_yields still (act_rxWaitRxe_waits h (quiet_noEdges still) none)

end Sys2Proof.Machine
end

section
/-! PROOFS. The statements on the transmission and on the start of a reception. -/

open Sys2Proof Sys2Proof.Machine

/-- Settles O40: the tick is followed through the waits to the one that holds it. -/
theorem txWaits : Obligations.TxWaits := by
  intro rest s still
  obtain ⟨chipBits, _⟩ := s.env.takeElapsed_answers
  refine ⟨worker_guardRuns still, fun before armed passed runs => ?_, fun unguarded runs => ?_⟩
  · refine (worker_guardOver still before armed passed).trans (worker_gptRunning ?_ rfl (chipBits.trans runs))
    exact (quiet_readClock s).trans still
  · exact (worker_unguarded still unguarded).trans (worker_gptRunning still rfl runs)

/-- Settles O41: the tick is the one from the timer's poll, that is the one from the loaded frame, and there the gate
decides. -/
theorem txLoadsAndTransmits : Obligations.TxLoadsAndTransmits := by
  intro b rest s still d now before timed total n env prepared transmitted waits passed stopped buf inside
  obtain ⟨quiets, chipBits, sync⟩ := guardPassed_env timed s
  have still' : quiet prepared = true := quiets.trans still
  have reached : exec .worker s = exec .worker prepared :=
    (worker_guardPassed still timed Iff.rfl waits passed).trans
      (worker_framed (quiets.trans still) rfl (chipBits.trans stopped) buf inside)
  refine ⟨reached, fun ungated => ?_, fun c more gated => ⟨fun closed => ?_, fun isOpen => ?_⟩⟩
  · have went := reached.trans (worker_ungated still' rfl ungated)
    exact ⟨went, fun none => went.trans (worker_txWaits still' (ite_eq_or_eq _ _ _) none)⟩
  · exact reached.trans (worker_gateClosed still' rfl gated (sync.trans closed))
  · exact reached.trans (worker_gateOpen still' rfl gated (sync.trans isOpen))

/-- Settles O42: a closed gate ends the tick, an open one leaves it to the wait that follows. -/
theorem syncGate : Obligations.SyncGate := by
  intro c rest s still state gated
  refine ⟨worker_gateClosed still state gated, fun isOpen => ?_⟩
  have went := worker_gateOpen still state gated isOpen
  exact ⟨went, fun none => went.trans (worker_txWaits still (ite_eq_or_eq _ _ _) none)⟩

/-- Settles O43: the reload, or the failure, is the second action of its tick. -/
theorem waterLevelReloads : Obligations.WaterLevelReloads := by
  intro b s still state buf
  exact ⟨worker_txWaits still (.inl state), worker_reloads still state buf, worker_txFails still state⟩

/-- Settles O44: TX_DONE, and from there RX_IDLE and RX_WAIT_RXS, in one tick. -/
theorem endOfTransmission : Obligations.EndOfTransmission := by
  intro s still state
  refine ⟨fun noTxe => ?_, worker_txEnds still state, worker_txReceives still state,
    fun txe reception cell none => ?_⟩
  · exact worker_yields still (act_txWaitTxe_waits state (quiet_noEdges still) (not_not.1 noTxe))
  · refine (worker_txReceives still state txe reception).trans ?_
    refine Eq.trans (worker_rxIdle still rfl cell) ?_
    exact worker_rxsWaits still rfl none

/-- Settles O45: the clauses are the cases of the two states' actions. -/
theorem receptionStart : Obligations.ReceptionStart := by
  intro s still
  refine ⟨fun state cell => ?_, worker_rxsWaits still, worker_rxsTimeout still, fun state rxs => ?_⟩
  · have opened := worker_rxIdle still state cell
    exact ⟨opened, fun none => opened.trans (worker_rxsWaits still rfl none)⟩
  · have started := worker_rxsStarts still state rxs
    exact ⟨started, fun none => started.trans (worker_rxeWaits still rfl none)⟩

end

section
/-! PROOFS. START_TRANSCEIVE (44 R170): its refusals in their order, and the accepted start with and without ISR
edges. -/

namespace Sys2Proof.Machine

variable {s t : State} {c : Ctx}

/-! ## The checks -/

theorem Lifecycle.below_modeSet_iff (l : Lifecycle) :
    l.rank < Lifecycle.modeSet.rank ↔ l = .uninit ∨ l = .init := by
  cases l <;> decide

/-- The gate of a start: no mode set yet, or an exchange in progress. -/
theorem startGate_iff (s : State) :
    (s.lifecycle.rank < Lifecycle.modeSet.rank ∨ s.txrxState ≠ .idle) ↔
      (s.lifecycle = .uninit ∨ s.lifecycle = .init ∨ s.txrxState ≠ .idle) := by
  rw [Lifecycle.below_modeSet_iff, or_assoc]

theorem getLsbD_reservedMask (i : Nat) : (0xFFFFFF80 : Word).getLsbD i = (decide (i < 32) && !decide (i < 7)) := by
  have mask : (0xFFFFFF80 : Word) = BitVec.allOnes 32 <<< 7 := by decide
  rw [mask, BitVec.getLsbD_shiftLeft, BitVec.getLsbD_allOnes, Bool.eq_iff_iff]
  simp only [Bool.and_eq_true, Bool.not_eq_true', decide_eq_true_eq, decide_eq_false_iff_not]
  omega

/-- The reserved flags are bits 31:7 (10 R29). -/
theorem flagsReserved_eq_zero_iff (flags : Word) : flagsReserved flags = 0 ↔ flags.extractLsb' 7 25 = 0 := by
  unfold flagsReserved
  constructor
  · intro h
    refine BitVec.eq_of_getLsbD_eq fun i hi => ?_
    have bit : (flags &&& 0xFFFFFF80).getLsbD (7 + i) = false := by rw [h]; exact BitVec.getLsbD_zero
    rw [BitVec.getLsbD_and, getLsbD_reservedMask] at bit
    simpa [hi, show 7 + i < 32 by omega] using bit
  · intro h
    refine BitVec.eq_of_getLsbD_eq fun i hi => ?_
    rw [BitVec.getLsbD_and, getLsbD_reservedMask]
    obtain low | high := Nat.lt_or_ge i 7
    · simp [low]
    · have bit := congrArg (fun w : BitVec 25 => w.getLsbD (i - 7)) h
      simpa [show i - 7 < 25 by omega, show 7 + (i - 7) = i by omega, hi, Nat.not_lt.2 high] using bit

theorem toBuf_eq_none_iff (r : Option Ref) : toBuf r = none ↔ r = none := Option.map_eq_none_iff

section Checks

variable (ready : ¬(s.lifecycle.rank < Lifecycle.modeSet.rank ∨ s.txrxState ≠ .idle))
include ready

theorem startCheck_noField (noField : c.txBuf ≠ none ∧ s.fieldOn = false) : startCheck c s = some .wrongState := by
  rw [startCheck, if_neg ready, if_pos noField]

variable (field : ¬(c.txBuf ≠ none ∧ s.fieldOn = false))
include field

theorem startCheck_badParam (bad : flagsReserved c.flags ≠ 0 ∨
      (c.txBuf ≠ none ∧ (c.txBufLen = 0 ∨ s.params.maxTxBits < c.txBufLen.toNat)) ∨
      (c.txBuf = none ∧ c.rxBuf = none)) : startCheck c s = some .invalidParam := by
  rw [startCheck, if_neg ready, if_neg field]
  split
  · rfl
  next flags =>
    split
    · rfl
    next length =>
      split
      · rfl
      next buffers => exact absurd bad (not_or.2 ⟨flags, not_or.2 ⟨length, buffers⟩⟩)

theorem startCheck_passes (good : ¬(flagsReserved c.flags ≠ 0 ∨
      (c.txBuf ≠ none ∧ (c.txBufLen = 0 ∨ s.params.maxTxBits < c.txBufLen.toNat)) ∨
      (c.txBuf = none ∧ c.rxBuf = none))) : startCheck c s = none := by
  obtain ⟨flags, good⟩ := not_or.1 good
  obtain ⟨length, buffers⟩ := not_or.1 good
  rw [startCheck, if_neg ready, if_neg field, if_neg flags, if_neg length, if_neg buffers]

end Checks

/-! ## The start -/

theorem start_refused {st : Status} (h : startCheck c s = some st) : start c s = .ok (st, s) := by
  unfold start
  rw [h]

/-- With ISR edges an accepted start leaves the same state but for what the agent touches (20 R70). -/
theorem startAccepted_post (c : Ctx) (s : State) :
    Run.post (startAccepted c s) (SameButIsr (started c s)) (fun _ => True) := by
  unfold startAccepted
  rw [startProgram_eq]
  refine Run.post_seq (Run.post_mono (engineGet_post _ _) (fun _ => id) (fun _ _ => trivial)) ?_
  rintro _ ⟨u, ⟨⟨_, _, _, rfl, _⟩, _⟩, rfl⟩
  refine Run.post_seq (Run.post_mono (engineEnable_post _ _) (fun _ => id) (fun _ _ => trivial)) ?_
  rintro _ ⟨v, ⟨⟨_, _, _, rfl, _⟩, _⟩, rfl⟩
  unfold irqEnable
  rw [setEnableMask_eq]
  rfl

theorem startAccepted_faultless (c : Ctx) (s : State) : Run.faultless (startAccepted c s) :=
  Run.faultless_seq (engineGet_faultless _ _) (fun _ =>
    Run.faultless_seq (Run.faultless_seq (isrPoint_faultless _) (fun _ => Run.faultless_ok _))
      (fun _ => Run.faultless_ok _))

theorem SameButIsr.reply (h : SameButIsr s t) (st : Status) (results : List Byte) :
    SameButIsr (reply st results s) (reply st results t) := congrArg (Machine.reply st results) h

/-- The frame configuration of a supported mode, bit by bit (44 R186, 42 R144). -/
theorem flagCfg_supported {m : Mode} (supported : m ∈ supportedModes) (p : Config.Params) (flags : Word) (cd : Bool) :
    flagCfg p m flags cd =
      let bits := (p.modeDefaultTable.lookup m).getD (m == .nfca || m == .nfcaT1t, true)
      { txParity := bits.1 && !flags.getLsbD 0, txCrc := bits.2 && !flags.getLsbD 1
        rxCrcCheck := bits.2 && !flags.getLsbD 3, rxParityKeep := flags.getLsbD 4, agc := !flags.getLsbD 5
        nfcip1 := flags.getLsbD 6, collDetect := cd } := by
  rw [← defaultModeBits_of_supported m supported]
  rfl

/-! ## The command -/

/-- START_TRANSCEIVE with the operands of this context. -/
def startCommand (c : Ctx) (s : State) : Host.Outcome State Fault Refusal :=
  settle do
    let (st, s) ← start c s
    pure (reply st [] s)

theorem exec_startTransceive (txBuf : Option Ref) (txBufLen : Half) (rxBuf : Option Ref) (rxBufLen : Half)
    (rxRcvdLen : Option Ref) (flags fwt : Word) (s : State) :
    exec (.startTransceive txBuf txBufLen rxBuf rxBufLen rxRcvdLen flags fwt) s =
      startCommand (exchangeCtx txBuf txBufLen rxBuf rxBufLen rxRcvdLen flags fwt) s := rfl

theorem startCommand_refused {st : Status} (h : startCheck c s = some st) :
    startCommand c s = .next (reply st [] s) := by
  rw [startCommand, start_refused h]
  rfl

theorem startCommand_accepted (h : startCheck c s = none) :
    startCommand c s = settle (startAccepted c s >>= fun u => .ok (reply .none [] u)) := by
  rw [startCommand, start, h]
  cases startAccepted c s with
  | ok u => rfl
  | error stop => rfl

theorem startCommand_noEdges (h : startCheck c s = none) (edges : noEdges s) :
    startCommand c s = .next (reply .none [] (started c s)) := by
  rw [startCommand_accepted h, startAccepted_noEdges c edges]
  rfl

/-- Whatever edges come, an accepted start answers as without them but for what the ISR agent touches, or hangs in that
agent's drain (log 5). -/
theorem startCommand_edges (h : startCheck c s = none) :
    ∃ t, startCommand c s = .next t ∧
      (SameButIsr (reply .none [] (started c s)) t ∨ t.running = some .hung) := by
  have answered : Run.post (startAccepted c s >>= fun u => .ok (reply .none [] u))
      (SameButIsr (reply .none [] (started c s))) (fun _ => True) :=
    Run.post_seq (startAccepted_post c s) (fun _ same => same.reply .none [])
  have faultless := Run.faultless_seq (startAccepted_faultless c s) fun u => Run.faultless_ok (reply .none [] u)
  obtain ⟨t, run, same | ⟨u, _, rfl⟩⟩ := faultless.settle answered
  · exact ⟨t, (startCommand_accepted h).trans run, .inl same⟩
  · exact ⟨_, (startCommand_accepted h).trans run, .inr rfl⟩

end Sys2Proof.Machine
end

section
/-! PROOFS. The statement on the start of an exchange. -/

open Sys2Proof Sys2Proof.Machine

/-- Settles O36: the checks in their order, and past them the start with or without ISR edges. -/
theorem startTransceive : Obligations.StartTransceive := by
  intro txBuf rxBuf rxRcvdLen txBufLen rxBufLen flags fwt s run notReady noField badParam c bits g
  have command : run = startCommand c s := exec_startTransceive txBuf txBufLen rxBuf rxBufLen rxRcvdLen flags fwt s
  have gate : _ ↔ notReady := startGate_iff s
  have noFieldIff : (c.txBuf ≠ none ∧ s.fieldOn = false) ↔ noField := by
    rw [ne_eq, toBuf_eq_none_iff]
  have badParamIff : (flagsReserved c.flags ≠ 0 ∨
      (c.txBuf ≠ none ∧ (c.txBufLen = 0 ∨ s.params.maxTxBits < c.txBufLen.toNat)) ∨
      (c.txBuf = none ∧ c.rxBuf = none)) ↔ badParam := by
    rw [ne_eq, ne_eq, flagsReserved_eq_zero_iff, toBuf_eq_none_iff, toBuf_eq_none_iff]
  refine ⟨fun closed => ?_, fun ready shut => ?_, fun ready field bad => ?_, fun ready field good => ?_,
    fun supported => flagCfg_supported supported _ _ _, rfl⟩
  · exact command.trans <| startCommand_refused (if_pos (gate.2 closed))
  · exact command.trans <| startCommand_refused (startCheck_noField (mt gate.1 ready) (noFieldIff.2 shut))
  · exact command.trans <| startCommand_refused
      (startCheck_badParam (mt gate.1 ready) (mt noFieldIff.1 field) (badParamIff.2 bad))
  · have passes := startCheck_passes (mt gate.1 ready) (mt noFieldIff.1 field) (mt badParamIff.1 good)
    exact ⟨fun edges => command.trans (startCommand_noEdges passes edges), command ▸ startCommand_edges passes⟩

end

section
/-! PROOFS. Ticks of a reception in which no interrupt event arrives, up to its end of receive (45 R203 to R205): an
automatic restart, and a chunk read at the water level. -/

namespace Sys2Proof.Machine

variable {s t : State} {b : BufRef} {rest : List Bool}

/-! ## Events while answers are taken -/

/-- Taking answers and recording events brings no event. -/
theorem DrawStep.quiet_eq (d : DrawStep s t) : quiet t = quiet s := by
  obtain ⟨_, _, rfl, line, lineRest, edges⟩ := d
  unfold quiet
  dsimp only
  rw [line, lineRest, edges]

/-- A tick that goes on in RX_FAIL ends there with the status set before (45 R218). -/
theorem worker_rxFails {st : Status} (still : quiet s = true)
    (failing : stateAction 0 s = .ok (.go 0, { t with status := st, txrxState := .rxFail }))
    (still' : quiet t = true) (notBusy : st ≠ .busy) :
    exec .worker s = .next { cleanedUp { t with status := st } with response := [st.code], running := none } := by
  have failed := act_rxFail (e := 0) (s := { t with status := st, txrxState := .rxFail }) rfl
    (quiet_noEdges (s := t) still')
  rw [if_neg notBusy] at failed
  exact (worker_goes still failing still').trans
    (worker_yields (s := { t with status := st, txrxState := .rxFail }) still' failed)

/-! ## The automatic restart (45 R203, R204) -/

theorem nrtRunning_off (off : nrtOff s = true) : nrtRunning s = (false, (chipStatus s).2) :=
  Prod.ext ((congrArg (_ && !·) off).trans (Bool.and_false _)) rfl

/-- An NRT that is off is a timeout, whatever the Chip answers. -/
theorem rxRestart_untimed (edges : noEdges s) (noNre : s.irq.pending &&& irqBit s.params .nre = 0)
    (off : nrtOff s = true) :
    rxRestart s = .ok (.go 0, { (chipStatus (getIrq (irqBit s.params .nre) s).2).2 with
      status := .timeout, txrxState := .rxFail }) := by
  rw [rxRestart, engineGet_noEdges _ edges, Run.ok_bind]
  refine (if_neg (not_not.2 noNre)).trans ?_
  rw [nrtRunning_off (by exact off)]
  rfl

/-- What is pending once RX_WAIT_RXE has consumed its interrupts and the restart NRE. -/
abbrev restartLeft (s : State) : Word := s.irq.pending &&& ~~~(rxeMask s.params) &&& ~~~(irqBit s.params .nre)

section Restart

variable (still : quiet s = true) (h : s.txrxState = .rxWaitRxe)
  (noRxe : s.irq.pending &&& rxeMask s.params &&& irqBit s.params .rxe = 0)
  (restart : s.irq.pending &&& rxeMask s.params &&& irqBit s.params .rxRest ≠ 0)
include still h noRxe restart

theorem worker_restartNre
    (nre : s.irq.pending &&& ~~~(rxeMask s.params) &&& irqBit s.params .nre ≠ 0) :
    exec .worker s = .next { cleanedUp { s with
      irq := { s.irq with pending := restartLeft s }, status := .timeout } with
        response := [Status.timeout.code], running := none } := by
  have failing := act_rxWaitRxe_restart (e := 0) h (quiet_noEdges still) noRxe restart
  rw [rxRestart_nre (by exact quiet_noEdges still) (by exact nre)] at failing
  exact worker_rxFails (t := { s with irq := { s.irq with pending := restartLeft s } }) still failing still nofun

variable (noNre : s.irq.pending &&& ~~~(rxeMask s.params) &&& irqBit s.params .nre = 0)
include noNre

theorem worker_restartStopped {drawn : Bool} (draws : s.env.chipBits = drawn :: rest)
    (stopped : drawn = false ∨ s.nrt.regVal = 0) :
    exec .worker s = .next { cleanedUp { s with
      irq := { s.irq with pending := restartLeft s }, status := .timeout
      env := { s.env with chipBits := rest } } with
        response := [Status.timeout.code], running := none } := by
  have off : drawn = false ∨ nrtOff s = true :=
    stopped.imp_right fun zero => (nrtOff_iff s).2 ⟨by rw [h]; nofun, zero⟩
  have failing := act_rxWaitRxe_restart (e := 0) h (quiet_noEdges still) noRxe restart
  rw [rxRestart_off (by exact quiet_noEdges still) (by exact noNre) (by exact draws) (by exact off)] at failing
  exact worker_rxFails (t := { s with
    irq := { s.irq with pending := restartLeft s }, env := { s.env with chipBits := rest } }) still failing still nofun

/-- The NRT of an exchange that wrote it 0 never runs (log 12). -/
theorem worker_restartUntimed (zero : s.nrt.regVal = 0) :
    ∃ u : State, exec .worker s = .next { cleanedUp { u with status := .timeout } with
      response := [Status.timeout.code], running := none } := by
  have off : nrtOff s = true := (nrtOff_iff s).2 ⟨by rw [h]; nofun, zero⟩
  have failing := act_rxWaitRxe_restart (e := 0) h (quiet_noEdges still) noRxe restart
  rw [rxRestart_untimed (by exact quiet_noEdges still) (by exact noNre) (by exact off)] at failing
  exact ⟨_, worker_rxFails still failing ((chipStatus_draw _).quiet_eq.trans still) nofun⟩

theorem worker_restartRuns {rxOn : Bool} (timed : s.nrt.regVal ≠ 0)
    (draws : s.env.chipBits = true :: rxOn :: rest) :
    exec .worker s = .next (reply s.status [] { s with
      irq := { s.irq with pending := restartLeft s &&& ~~~(errIrqs s.params) }
      env := { s.env with chipBits := rest }, txrxState := if rxOn then .rxWaitRxe else .rxWaitRxs }) := by
  have on : nrtOff s = false := Bool.eq_false_iff.2 fun off => timed ((nrtOff_iff s).1 off).2
  have waits := act_rxWaitRxe_restart (e := 0) h (quiet_noEdges still) noRxe restart
  rw [rxRestart_on (by exact quiet_noEdges still) (by exact h) (by exact noNre) (by exact draws) (by exact on)] at waits
  exact worker_yields still waits

end Restart

/-! ## The water level (45 R203, R205) -/

/-- FWL without an end of receive or a restart: one chunk is read, and the tick ends in RX_WAIT_RXE. -/
theorem worker_drainsChunk (still : quiet s = true) (h : s.txrxState = .rxWaitRxe) (buf : s.ctx.rxBuf = some b)
    (taken : s.irq.pending &&& rxeMask s.params ≠ 0)
    (noRxe : s.irq.pending &&& rxeMask s.params &&& irqBit s.params .rxe = 0)
    (noRestart : s.irq.pending &&& rxeMask s.params &&& irqBit s.params .rxRest = 0)
    (fits : s.params.wlChunk ≤ s.params.fifoDepth)
    (inside : min s.params.wlChunk (s.ctx.capBytes - s.fifo.bytesWritten) = 0 ∨
      inBounds s.params b s.fifo.bytesWritten (min s.params.wlChunk (s.ctx.capBytes - s.fifo.bytesWritten)) = true) :
    exec .worker s = .next (reply s.status [] { (getIrq (rxeMask s.params) s).2 with
      fifo := { bytesTotal := s.fifo.bytesTotal + s.params.wlChunk
                bytesWritten := s.fifo.bytesWritten + min s.params.wlChunk (s.ctx.capBytes - s.fifo.bytesWritten) }
      fifoStatus := { s.fifoStatus with valid := false }
      mem := storeBytes b s.fifo.bytesWritten ((s.env.takeFifo s.params.wlChunk).1.take
        (min s.params.wlChunk (s.ctx.capBytes - s.fifo.bytesWritten))) s.mem
      env := (s.env.takeFifo s.params.wlChunk).2
      trace := .fifoRead (s.env.takeFifo s.params.wlChunk).1 :: s.trace }) := by
  have drains := act_rxWaitRxe_drain (e := 0) h (quiet_noEdges still) taken noRxe noRestart
  have read := act_rxReadFifo (e := 0) (s := { (getIrq (rxeMask s.params) s).2 with txrxState := .rxReadFifo })
    rfl buf fits inside
  rw [← h] at read
  exact (worker_goes still drains still).trans (worker_yields still read)

end Sys2Proof.Machine
end

section
/-! PROOFS. The statements on the middle of a reception, on the memory a tick writes, and on the EMD and observation
settings. -/

open Sys2Proof Sys2Proof.Machine

/-- Settles O46: the clauses are the ways out of the restart; an NRT that is off makes the Chip's draw irrelevant. -/
theorem restartHandling : Obligations.RestartHandling := by
  intro rest s still state mask irq left nre noRxe restart
  refine ⟨?_, ?_, ?_, ?_⟩
  · exact worker_restartNre still state noRxe restart
  · intro drawn noNre draws stopped
    exact worker_restartStopped still state noRxe restart noNre draws stopped
  · intro noNre zero
    obtain ⟨u, ended⟩ := worker_restartUntimed still state noRxe restart noNre zero
    exact ⟨_, ended, rfl, rfl, rfl⟩
  · intro rxOn noNre timed draws
    exact worker_restartRuns still state noRxe restart noNre timed draws

/-- Settles O47: the tick waits, or reads one chunk as its second action. -/
theorem midStreamDrain : Obligations.MidStreamDrain := by
  intro b s still state buf mask irq
  refine ⟨worker_rxeWaits still state, fun taken noRxe noRestart fits => ?_⟩
  intro d c inside
  exact worker_drainsChunk still state buf taken noRxe noRestart fits inside

/-- Settles O52: a tick, and a drain in it that never ends, is an engine step. -/
theorem tickWritesOnlyReceiveMemory : Obligations.TickWritesOnlyReceiveMemory := fun s t worker =>
  (execWorker_lawful s t worker).engine.extent

/-- Settles O22: SET_EMD on both sides of its gate; SET_OBS_MODE has none. -/
theorem emdAndObsSetters : Obligations.EmdAndObsSetters := fun enable maxLen _ =>
  ⟨execSetEmd_busy enable maxLen, fun idle => if_neg (not_not.2 idle), rfl⟩

end

section
/-! PROOFS. The end of a reception in one tick without an interrupt event (45 R206 to R218): the classification, which
fetches the FIFO status now or leaves it to the read-out, the re-arm of a short malformed reception, and the read-out. -/

namespace Sys2Proof.Machine

variable {s t w : State} {b : BufRef} {e : Word} {n : Nat}

/-! ## The fetch of the FIFO status (43 R161) -/

/-- A fetch takes answers and fills the cache. -/
theorem refreshed_spec (s : State) :
    ∃ u f, DrawStep s u ∧ f.valid = true ∧ refreshed s = u.setFifoStatus f := by
  cases valid : s.fifoStatus.valid with
  | true => exact ⟨s, s.fifoStatus, .refl s, valid, refreshed_of_valid valid⟩
  | false =>
    rw [← fetchFifoStatus_eq valid]
    exact fetchFifoStatus_spec s

theorem refreshed_edges (s : State) : (refreshed s).env.edges = s.env.edges := by
  obtain ⟨_, f, ⟨_, _, rfl, _, _, edges⟩, _, h⟩ := refreshed_spec s
  rw [h]
  exact edges

theorem refreshed_eq (s : State) :
    refreshed s = { s with
      fifoStatus := (refreshed s).fifoStatus, env := (refreshed s).env, trace := (refreshed s).trace } := by
  obtain ⟨_, f, ⟨_, _, rfl, _⟩, _, h⟩ := refreshed_spec s
  rw [h]
  rfl

/-! A fetch does not see what is pending, the sub-state or the status. -/

theorem refreshed_setPending (v : Word) (s : State) : refreshed (s.setPending v) = (refreshed s).setPending v := by
  unfold refreshed State.setPending
  split
  · rfl
  · rfl

theorem refreshed_setTxrx (v : TxrxState) (s : State) : refreshed (s.setTxrx v) = (refreshed s).setTxrx v := by
  unfold refreshed State.setTxrx
  split
  · rfl
  · rfl

theorem refreshed_setStatus (v : Status) (s : State) : refreshed (s.setStatus v) = (refreshed s).setStatus v := by
  unfold refreshed State.setStatus
  split
  · rfl
  · rfl

theorem refreshed_refreshed (s : State) : refreshed (refreshed s) = refreshed s :=
  refreshed_of_valid (refreshed_valid s)

theorem setStatus_same {st : Status} (h : s.status = st) : s.setStatus st = s := by
  rw [← h]
  rfl

/-- The count shown by the FIFO status, fetched already or not, is one that FIFO_DEPTH admits. -/
def ShownInRange (s : State) : Prop := fifoCount (refreshed s) ≤ (refreshed s).params.fifoDepth

theorem ShownInRange.congr (h : ShownInRange s) (same : refreshed w = refreshed s) : ShownInRange w := by
  unfold ShownInRange
  rw [same]
  exact h

theorem ShownInRange.setStatus (h : ShownInRange s) (st : Status) : ShownInRange (s.setStatus st) := by
  unfold ShownInRange
  rw [refreshed_setStatus]
  exact h

theorem ShownInRange.fifoInRange (h : ShownInRange s) : fifoInRange s := by
  unfold ShownInRange fifoCount at h
  rw [refreshed_params] at h
  exact .inr h

/-- Where the count is in range, a fetch made now or earlier comes to the same. -/
theorem ShownInRange.fsUpdate (h : ShownInRange s) : fsUpdate s = .ok (refreshed s) :=
  fsUpdate_inRange h.fifoInRange

/-! ## The classification (45 R206, R208) -/

/-- The first matching error of a reception, if it has one (45 R206). -/
def firstError (p : Config.Params) (errIrq : Word) (f : FifoStatus) : Option Status :=
  (classifyIrqs p errIrq).or (classifyFifo p f)

/-- The NFC-A short-frame rule (45 R208). -/
def shortFrame (p : Config.Params) (mode : Mode) (f : FifoStatus) (st : Status) : Status :=
  if mode = .nfca ∧ (st = .parity ∨ st = .crc) ∧ incBits p f ≠ 0 ∧ numBytes p f = 1 then .incompleteByte else st

theorem verdict_eq (p : Config.Params) (mode : Mode) (errIrq : Word) (f : FifoStatus) :
    verdict p mode errIrq f = ((firstError p errIrq f).map (shortFrame p mode f)).getD .busy := by
  unfold verdict firstError classifyIrqs
  by_cases hard : hasIrq p errIrq .errHard
  · simp [hard, shortFrame]
  by_cases soft : hasIrq p errIrq .errSoft
  · simp [soft, shortFrame]
  by_cases par : hasIrq p errIrq .par
  · simp [hard, soft, par, shortFrame]
  by_cases col : hasIrq p errIrq .col
  · simp [hard, soft, par, col, shortFrame]
  by_cases crc : hasIrq p errIrq .crc
  · simp [hard, soft, par, col, crc, shortFrame]
  unfold classifyFifo
  by_cases inc : incBits p f = 0
  · cases missing : missingPar p f
    · simp [hard, soft, par, col, crc, inc]
    · simp [hard, soft, par, col, crc, inc, shortFrame]
  · simp [hard, soft, par, col, crc, inc, shortFrame]

theorem refreshed_settings (s : State) :
    (refreshed s).mode = s.mode ∧ (refreshed s).cfg = s.cfg ∧ (refreshed s).emd = s.emd ∧
      (refreshed s).status = s.status := by
  rw [refreshed_eq]
  exact ⟨rfl, rfl, rfl, rfl⟩

/-! Whether a part of the classification fetches the FIFO status or leaves it to a later one, the state it leads to is
the same once fetched. -/

theorem classify_shown (e : Word) (h : ShownInRange s) :
    ∃ w, classify e s = .ok (firstError (refreshed s).params e (refreshed s).fifoStatus, w) ∧
      refreshed w = refreshed s := by
  unfold classify firstError
  rw [refreshed_params]
  cases classifyIrqs s.params e with
  | some st => exact ⟨s, rfl, rfl⟩
  | none =>
    refine ⟨refreshed s, ?_, refreshed_refreshed s⟩
    rw [h.fsUpdate, ← refreshed_params s]
    rfl

theorem nfcaReclassify_shown (h : ShownInRange s) :
    ∃ w, nfcaReclassify s = .ok w ∧ refreshed w = (refreshed s).setStatus
      (shortFrame (refreshed s).params (refreshed s).mode (refreshed s).fifoStatus (refreshed s).status) := by
  obtain ⟨mode, _, _, status⟩ := refreshed_settings s
  unfold nfcaReclassify shortFrame
  rw [mode, status]
  by_cases nfca : s.mode = .nfca ∧ (s.status = .parity ∨ s.status = .crc)
  · obtain ⟨isNfca, checkError⟩ := nfca
    rw [if_pos ⟨isNfca, checkError⟩, h.fsUpdate, Run.ok_bind]
    by_cases short : fifoIncBits (refreshed s) ≠ 0 ∧ fifoCount (refreshed s) = 1
    · refine ⟨_, if_pos short, ?_⟩
      rw [if_pos ⟨isNfca, checkError, short⟩, refreshed_setStatus, refreshed_refreshed]
    · refine ⟨_, if_neg short, ?_⟩
      rw [if_neg (fun ⟨_, _, isShort⟩ => short isShort), setStatus_same status, refreshed_refreshed]
  · refine ⟨s, if_neg nfca, ?_⟩
    rw [if_neg (fun ⟨isNfca, checkError, _⟩ => nfca ⟨isNfca, checkError⟩), setStatus_same status]

/-! ## Protocol error handling (45 R207, R209, R210) -/

theorem emdEligible_iff (cfg : Cfg) (st : Status) :
    emdEligible cfg st = true ↔
      st = .framing ∨ st = .parity ∨ st = .crc ∨ st = .rfCollision ∧ cfg.collDetect = false := by
  cases st <;> simp [emdEligible]

/-- A reception that EMD handling re-arms for: a short one with an eligible error. -/
def ReArms (s : State) : Prop :=
  s.emd.enabled = true ∧ fifoCount s < s.emd.maxLen.toNat ∧ emdEligible s.cfg s.status = true

theorem emdHandling_rearms (h : ShownInRange s) (rearms : ReArms (refreshed s)) :
    emdHandling s = emdRearm (refreshed s) := by
  obtain ⟨_, cfg, emd, status⟩ := refreshed_settings s
  obtain ⟨enabled, short, eligible⟩ := rearms
  rw [emdHandling, if_pos ⟨emd ▸ enabled, cfg ▸ status ▸ eligible⟩, h.fsUpdate, Run.ok_bind, if_pos short]

theorem emdHandling_reads (h : ShownInRange s) (reads : ¬ ReArms (refreshed s)) :
    ∃ w, emdHandling s = .ok (.go 0, w.setTxrx .rxReadData) ∧ refreshed w = refreshed s := by
  obtain ⟨_, cfg, emd, status⟩ := refreshed_settings s
  unfold emdHandling
  by_cases handled : s.emd.enabled ∧ emdEligible s.cfg s.status
  · obtain ⟨enabled, eligible⟩ := handled
    have long : ¬ fifoCount (refreshed s) < (refreshed s).emd.maxLen.toNat := fun short =>
      reads ⟨emd ▸ enabled, short, by rw [cfg, status]; exact eligible⟩
    refine ⟨refreshed s, ?_, refreshed_refreshed s⟩
    rw [if_pos ⟨enabled, eligible⟩, h.fsUpdate, Run.ok_bind, if_neg long]
    rfl
  · exact ⟨s, if_neg handled, rfl⟩

/-- A reception, its FIFO status in the cache, with the result of its classification. -/
def judged (e : Word) (s : State) : State := s.setStatus (verdict s.params s.mode e s.fifoStatus)

/-- RX_ERR_CHECK classifies the reception and hands it to EMD handling, which has nothing to do for a clean one. -/
theorem rxErrCheck_judges (e : Word) (h : ShownInRange s) (busy : s.status = .busy) :
    ∃ w, rxErrCheck e s = emdHandling w ∧ refreshed w = judged e (refreshed s) := by
  obtain ⟨c, classified, sameC⟩ := classify_shown e h
  obtain ⟨_, _, _, statusC⟩ := refreshed_settings c
  obtain ⟨_, _, _, statusS⟩ := refreshed_settings s
  rw [sameC, statusS, busy] at statusC
  unfold judged rxErrCheck
  rw [classified, verdict_eq, Run.ok_bind]
  cases firstError (refreshed s).params e (refreshed s).fifoStatus with
  | none =>
    have clean : emdHandling c = goTo .rxReadData c := if_neg (by simp [← statusC, emdEligible])
    refine ⟨c, clean.symm, ?_⟩
    rw [sameC]
    exact (setStatus_same (statusS.trans busy)).symm
  | some st =>
    obtain ⟨w, reclassified, sameW⟩ := nfcaReclassify_shown ((h.congr sameC).setStatus st)
    refine ⟨w, ?_, ?_⟩
    · dsimp only
      rw [reclassified, Run.ok_bind]
    · rw [sameW, refreshed_setStatus, sameC]
      rfl

theorem ShownInRange.judged (h : ShownInRange s) (same : refreshed w = judged e (refreshed s)) :
    ShownInRange w := by
  unfold ShownInRange
  rw [same]
  exact h

/-- RX_ERR_CHECK re-arms for a short malformed reception, and reads out every other. -/
theorem rxErrCheck_rearms (h : ShownInRange s) (busy : s.status = .busy)
    (rearms : ReArms (judged e (refreshed s))) : rxErrCheck e s = emdRearm (judged e (refreshed s)) := by
  obtain ⟨w, checked, same⟩ := rxErrCheck_judges e h busy
  rw [checked, ← same]
  exact emdHandling_rearms (h.judged same) (same ▸ rearms)

theorem rxErrCheck_reads (h : ShownInRange s) (busy : s.status = .busy)
    (reads : ¬ ReArms (judged e (refreshed s))) :
    ∃ w, rxErrCheck e s = .ok (.go 0, w.setTxrx .rxReadData) ∧ refreshed w = judged e (refreshed s) := by
  obtain ⟨w, checked, same⟩ := rxErrCheck_judges e h busy
  rw [checked, ← same]
  exact emdHandling_reads (h.judged same) (same ▸ reads)

/-! ## The read-out (45 R213 to R216) -/

theorem readOut_eq (valid : s.fifoStatus.valid = true) (h : n ≤ s.params.fifoDepth) :
    readOut n s = ((s.env.takeFifo n).1, { s with
      fifoStatus := { s.fifoStatus with valid := decide (n = 0) }
      env := (s.env.takeFifo n).2
      trace := (if n = 0 then [] else [.fifoRead (s.env.takeFifo n).1]) ++ s.trace }) := by
  unfold readOut
  by_cases zero : n = 0
  · subst zero
    have kept : { s.fifoStatus with valid := true } = s.fifoStatus := by rw [← valid]
    simp [Env.takeFifo, kept]
  · simp [zero, fifoRead, h, fsClear, State.setEnv, State.log, State.setFifoStatus]

/-- The running total of data bytes after the last read, the CRC taken off it (45 R213, R214). -/
theorem countData_total (strip : Bool) (total n : Nat) :
    (countData strip total n).2 = total + n - if strip then 2 else 0 := by
  unfold countData
  cases strip
  · rfl
  · show (if 2 ≤ n then _ else _ : Nat × Nat).2 = total + n - 2
    split
    · show total + (n - 2) = total + n - 2
      omega
    · rfl

theorem readOutOf_total (s : State) (n k : Nat) :
    (readOutOf s n k).total = (countData (stripCrc s.params s.mode s.ctx.flags k) s.fifo.bytesTotal n).2 := by
  rw [countData_total]
  simp [readOutOf, stripCrc, and_assoc]

/-- An overflow is recorded unless the reception has an error already (45 R215). -/
def overflowStatus (st : Status) (total cap : Nat) : Status := if cap < total ∧ st = .busy then .nomem else st

theorem setStatus_overflow (s : State) :
    (if s.ctx.capBytes < s.fifo.bytesTotal ∧ s.status = .busy then s.setStatus .nomem else s) =
      s.setStatus (overflowStatus s.status s.fifo.bytesTotal s.ctx.capBytes) := by
  unfold overflowStatus
  split
  · rfl
  · rfl

/-- BUSY past the overflow check is success (45 R216, R217). -/
theorem finalStatus_eq (st : Status) (total cap : Nat) :
    finalStatus st total cap =
      if overflowStatus st total cap = .busy then .none else overflowStatus st total cap := by
  unfold finalStatus overflowStatus
  by_cases busy : st = .busy
  · by_cases overflow : cap < total
    · simp [busy, overflow]
    · simp [busy, overflow]
  · simp [busy]

/-- The reception read out, its status in the cache: what is stored, counted and reported (45 R213 to R216). -/
def received (b : BufRef) (s : State) : State :=
  let n := fifoCount s
  let r := readOutOf s n (fifoIncBits s)
  let d := s.env.takeFifo n
  { s with
    fifo := { bytesTotal := r.total, bytesWritten := s.fifo.bytesWritten + r.stored }
    fifoStatus := { s.fifoStatus with valid := decide (n = 0) }
    mem := cellWritten s.params s.ctx.rxRcvdLen (BitVec.ofNat 16 (min r.bits 0xFFFF))
      (storeBytes b s.fifo.bytesWritten (d.1.take r.stored) s.mem)
    env := d.2
    trace := (if n = 0 then [] else [.fifoRead d.1]) ++ s.trace }

/-- The terminal that a status leads to (45 R216). -/
def terminalOf (st : Status) : TxrxState := if st = .busy then .rxDone else .rxFail

theorem goTo_terminal (s : State) :
    (if s.status ≠ .busy then goTo .rxFail s else goTo .rxDone s) = .ok (.go 0, s.setTxrx (terminalOf s.status)) := by
  unfold terminalOf
  by_cases busy : s.status = .busy
  · simp [busy, goTo]
  · simp [busy, goTo]

theorem rxReadData_received (valid : s.fifoStatus.valid = true) (inRange : fifoCount s ≤ s.params.fifoDepth)
    (buf : s.ctx.rxBuf = some b)
    (inside : (readOutOf s (fifoCount s) (fifoIncBits s)).stored = 0 ∨
      inBounds s.params b s.fifo.bytesWritten (readOutOf s (fifoCount s) (fifoIncBits s)).stored = true)
    (cell : cellOk s.params s.ctx.rxRcvdLen) :
    ∃ st, st = overflowStatus s.status (received b s).fifo.bytesTotal s.ctx.capBytes ∧
      rxReadData s = .ok (.go 0, { received b s with status := st, txrxState := terminalOf st }) := by
  obtain ⟨_, _, _, len⟩ := Env.takeFifo_keeps (fifoCount s) s.env
  have fits : (readOutOf s (fifoCount s) (fifoIncBits s)).stored ≤ (s.env.takeFifo (fifoCount s)).1.length := by
    rw [len]
    exact (Nat.min_le_left _ _).trans (Nat.sub_le _ _)
  refine ⟨_, rfl, ?_⟩
  unfold rxReadData
  rw [fsUpdate_valid s valid, Run.ok_bind]
  dsimp only
  rw [readOut_eq valid inRange]
  dsimp only
  rw [← readOutOf_stored, ← readOutOf_total, buf, memWrite_take fits (by exact inside), Run.ok_bind,
    setStatus_overflow, memWrite16_ok (by exact cell), Run.ok_bind, goTo_terminal]
  rfl

/-- Either terminal ends the exchange; BUSY becomes NONE (45 R217, R218). -/
theorem act_terminal (h : s.txrxState = terminalOf s.status) (edges : noEdges s) :
    stateAction e s = .ok (.yield, cleanedUp { s with
      status := if s.status = .busy then .none else s.status }) := by
  unfold terminalOf at h
  by_cases busy : s.status = .busy
  · rw [if_pos busy] at h ⊢
    exact act_rxDone h edges
  · rw [if_neg busy] at h
    have failed := act_rxFail (e := e) h edges
    rw [if_neg busy] at failed ⊢
    exact failed

/-! ## The tick that finds an end of receive -/

/-- A tick whose actions end within the fuel is answered. -/
theorem worker_ends (still : quiet s = true) (h : ∀ k, runActions (k + 32) 0 s = .ok t) :
    exec .worker s = .next (reply t.status [] t) := by
  obtain ⟨k, hk⟩ := execWorker_quiet still
  rw [h] at hk
  exact hk

/-- What RX_ERR_CHECK is told to classify: the end of receive, and the errors taken with it (45 R203). -/
def endErrors (s : State) : Word :=
  irqBit s.params .rxe ||| (s.irq.pending &&& ~~~(rxeMask s.params) &&& errIrqs s.params)

/-- What an end of receive and the errors taken with it leave pending (45 R203). -/
def endLeft (s : State) : Word := s.irq.pending &&& ~~~(rxeMask s.params) &&& ~~~(errIrqs s.params)

/-- An end of receive taken, in RX_ERR_CHECK. -/
def endTaken (s : State) : State := (s.setPending (endLeft s)).setTxrx .rxErrCheck

/-- An end of receive classified, its FIFO status fetched (45 R206, R208). -/
def endJudged (s : State) : State :=
  { s with
    irq := { s.irq with pending := endLeft s }
    status := verdict s.params s.mode (endErrors s) (refreshed s).fifoStatus
    txrxState := .rxErrCheck
    fifoStatus := (refreshed s).fifoStatus
    env := (refreshed s).env
    trace := (refreshed s).trace }

theorem judged_endTaken (s : State) : judged (endErrors s) (refreshed (endTaken s)) = endJudged s := by
  rw [endTaken, refreshed_setTxrx, refreshed_setPending, refreshed_eq]
  rfl

section EndOfReceive

variable (still : quiet s = true) (h : s.txrxState = .rxWaitRxe) (busy : s.status = .busy)
  (rxe : s.irq.pending &&& irqBit s.params .rxe ≠ 0)
  (inRange : numBytes s.params (refreshed s).fifoStatus ≤ s.params.fifoDepth)

include inRange in
theorem shownInRange_endTaken : ShownInRange (endTaken s) := by
  rw [ShownInRange, endTaken, refreshed_setTxrx, refreshed_setPending, refreshed_eq]
  exact inRange

include still in
theorem noEdges_endJudged : noEdges (endJudged s) :=
  noEdges_congr (quiet_noEdges still) rfl (refreshed_edges s)

include still h rxe in
theorem runActions_endTaken (k : Nat) :
    runActions (k + 32) 0 s = runActions (k + 31) (endErrors s) (endTaken s) :=
  runActions_go (act_rxWaitRxe_end h (quiet_noEdges still) rxe)

theorem act_endTaken : stateAction e (endTaken s) = rxErrCheck e (endTaken s) := rfl

/-! ## The re-arm (45 R209) -/

/-- The receiver unmasked, and NRE consumed. -/
def unmasked (s : State) : State :=
  { s with
    irq := { s.irq with pending := s.irq.pending &&& ~~~(irqBit s.params .nre) }
    fifoStatus := { s.fifoStatus with valid := false }
    trace := .cmd .unmaskReceive :: s.trace }

theorem emdRearm_noEdges (edges : noEdges s) :
    emdRearm s =
      if s.irq.pending &&& irqBit s.params .nre ≠ 0 then
        .ok (.go 0, { unmasked s with status := .timeout, txrxState := .rxFail })
      else .ok (.yield, { unmasked s with
        status := .busy, fifo := { bytesTotal := 0, bytesWritten := 0 }, txrxState := .rxWaitRxs }) := by
  unfold emdRearm
  dsimp only
  rw [engineGet_noEdges _ (by exact edges), Run.ok_bind]
  simp only [goTo, yieldIn, getIrq, fsClear, busCmd, unmasked, State.log, State.setFifoStatus, State.setPending,
    State.setStatus, State.setFifo, State.setTxrx]
  rfl

variable (rearms : ReArms (endJudged s))

include busy inRange rearms in
theorem act_endTaken_rearms : stateAction (endErrors s) (endTaken s) = emdRearm (endJudged s) := by
  rw [act_endTaken, ← judged_endTaken]
  exact rxErrCheck_rearms (shownInRange_endTaken inRange) busy (judged_endTaken s ▸ rearms)

include still h busy rxe inRange

section ReArm

include rearms

theorem worker_rearms (noNre : endLeft s &&& irqBit s.params .nre = 0) :
    exec .worker s = .next (reply .busy [] { unmasked (endJudged s) with
      status := s.status, fifo := { bytesTotal := 0, bytesWritten := 0 }, txrxState := .rxWaitRxs }) := by
  have rearmed := act_endTaken_rearms busy inRange rearms
  rw [emdRearm_noEdges (noEdges_endJudged still), if_neg (not_not.2 (by exact noNre))] at rearmed
  rw [busy]
  exact worker_ends (t := { unmasked (endJudged s) with
    status := .busy, fifo := { bytesTotal := 0, bytesWritten := 0 }, txrxState := .rxWaitRxs }) still fun k =>
      (runActions_endTaken still h rxe k).trans (runActions_yield rearmed)

/-- NRE pending at the re-arm: the exchange ends with TIMEOUT. -/
theorem worker_rearmNre (nre : endLeft s &&& irqBit s.params .nre ≠ 0) :
    exec .worker s = .next (reply .timeout [] (cleanedUp { unmasked (endJudged s) with status := .timeout })) := by
  have expired := act_endTaken_rearms busy inRange rearms
  rw [emdRearm_noEdges (noEdges_endJudged still), if_pos (by exact nre)] at expired
  have failed := act_rxFail (e := 0)
    (s := { unmasked (endJudged s) with status := .timeout, txrxState := .rxFail }) rfl
    (noEdges_endJudged (s := s) still)
  exact worker_ends (t := cleanedUp { unmasked (endJudged s) with status := .timeout }) still fun k =>
    (runActions_endTaken still h rxe k).trans ((runActions_go expired).trans (runActions_yield failed))

end ReArm

/-- The end of receive that is not re-armed for: the data read out, the exchange ended (45 R213 to R218). -/
theorem worker_received (reads : ¬ ReArms (endJudged s)) (buf : s.ctx.rxBuf = some b)
    (inside : (readOutOf (endJudged s) (fifoCount (endJudged s)) (fifoIncBits (endJudged s))).stored = 0 ∨
      inBounds s.params b s.fifo.bytesWritten
        (readOutOf (endJudged s) (fifoCount (endJudged s)) (fifoIncBits (endJudged s))).stored = true)
    (cell : cellOk s.params s.ctx.rxRcvdLen) :
    ∃ final, final = finalStatus (endJudged s).status (received b (endJudged s)).fifo.bytesTotal s.ctx.capBytes ∧
      exec .worker s = .next (reply final [] (cleanedUp { received b (endJudged s) with status := final })) := by
  obtain ⟨w, checked, same⟩ := rxErrCheck_reads (e := endErrors s) (shownInRange_endTaken inRange) busy
    (judged_endTaken s ▸ reads)
  rw [judged_endTaken] at same
  obtain ⟨st, recorded, read⟩ := rxReadData_received (s := (endJudged s).setTxrx .rxReadData)
    (refreshed_valid s) inRange buf inside cell
  have readW : stateAction 0 (w.setTxrx .rxReadData) = .ok (.go 0,
      { received b (endJudged s) with status := st, txrxState := terminalOf st }) := by
    have shown : ShownInRange (w.setTxrx .rxReadData) := by
      rw [ShownInRange, refreshed_setTxrx, same]
      exact inRange
    show rxReadData (w.setTxrx .rxReadData) = _
    rw [rxReadData_refreshed shown.fifoInRange, refreshed_setTxrx, same]
    exact read
  obtain ⟨_, _, edges, _⟩ := Env.takeFifo_keeps (fifoCount (endJudged s)) (endJudged s).env
  have ended := act_terminal (e := 0)
    (s := { received b (endJudged s) with status := st, txrxState := terminalOf st }) rfl
    (noEdges_congr (noEdges_endJudged still) rfl edges)
  refine ⟨if st = .busy then .none else st, recorded ▸ (finalStatus_eq _ _ _).symm, ?_⟩
  exact worker_ends (t := cleanedUp { received b (endJudged s) with status := if st = .busy then .none else st })
    still fun k => (runActions_endTaken still h rxe k).trans
      ((runActions_go (act_endTaken.trans checked)).trans ((runActions_go readW).trans (runActions_yield ended)))

end EndOfReceive

end Sys2Proof.Machine
end

section
/-! PROOFS. The statements on the end of a reception. -/

open Sys2Proof Sys2Proof.Machine

/-- Settles O49: the re-arm is RX_ERR_CHECK's part of the tick that takes the end of receive. -/
theorem emdRearm : Obligations.EmdRearm := by
  intro s still state busy rxe
  rw [refreshed_eq s]
  intro mask taken err u n v left rearmed inRange enabled short eligible
  have rearms : ReArms (endJudged s) := ⟨enabled, short, (emdEligible_iff _ _).2 eligible⟩
  exact ⟨worker_rearms still state busy rxe inRange rearms, worker_rearmNre still state busy rxe inRange rearms⟩

/-- Settles O48: the read-out of the classified reception, and the terminal its status leads to. -/
theorem receptionReadOut : Obligations.ReceptionReadOut := by
  intro b s still state busy rxe buf
  rw [refreshed_eq s]
  intro mask left err u f n k v r d final inRange notRearmed inside cell
  have reads : ¬ ReArms (endJudged s) := fun ⟨enabled, short, eligible⟩ =>
    notRearmed ⟨enabled, short, (emdEligible_iff _ _).1 eligible⟩
  obtain ⟨_, rfl, ended⟩ := worker_received still state busy rxe inRange reads buf inside cell
  exact ended

end

section
/-! PROOFS. The anticollision helper where its accesses lie inside their regions (46 R240, R243 to R245, R248): what
becomes of its partial byte, its end as one update, and its loop as WORKERs. -/

namespace Sys2Proof.Machine

variable {s u : State} {r cellB cellb : BufRef} {call : Anticoll} {m : List Host.Cell} {st : Status}

/-! ## The partial byte -/

theorem memWrite8_inBounds {i : Nat} {v : Byte} (inside : inBounds s.params r i 1 = true) :
    memWrite8 (some r) i v s = .ok (s.setMem (Memory.store (hostAddr r.region (r.offset + i)) v s.mem)) := by
  simp [memWrite8, memWrite, inside, storeBytes]

/-- Host memory with the upper bits of byte `B` of the buffer cleared, where `b` of its bits are sent (46 R243). -/
def partialCleared (r : BufRef) (B b : Nat) (m : List Host.Cell) : List Host.Cell :=
  if b = 0 then m else Memory.store (hostAddr r.region (r.offset + B)) (bufByte m r B &&& lowMask b) m

theorem clearPartial_inBounds {B b : Nat} (inside : b ≠ 0 → inBounds s.params r B 1 = true) :
    clearPartial (some r) B b s =
      .ok (if b = 0 then 0 else bufByte s.mem r B, s.setMem (partialCleared r B b s.mem)) := by
  unfold clearPartial partialCleared
  split
  · rfl
  next sent =>
    rw [memRead8_inBounds (inside sent), Run.ok_bind, memWrite8_inBounds (inside sent)]
    rfl

/-- Host memory with the sent low bits of byte `B`, as saved, put back under what now stands there (46 R244). -/
def partialRestored (r : BufRef) (B b : Nat) (saved : Byte) (m : List Host.Cell) : List Host.Cell :=
  if b = 0 then m
  else Memory.store (hostAddr r.region (r.offset + B))
    ((bufByte m r B &&& ~~~(lowMask b)) ||| (saved &&& lowMask b)) m

/-- Host memory with the partial byte cleared and merged back at once, as a refused start leaves it (46 R240). -/
def partialMerged (r : BufRef) (B b : Nat) (m : List Host.Cell) : List Host.Cell :=
  if b = 0 then m
  else Memory.store (hostAddr r.region (r.offset + B))
    ((bufByte (partialCleared r B b m) r B &&& ~~~(lowMask b)) ||| (bufByte m r B &&& lowMask b))
    (partialCleared r B b m)

theorem partialRestored_cleared (r : BufRef) (B b : Nat) (m : List Host.Cell) :
    partialRestored r B b (if b = 0 then 0 else bufByte m r B) (partialCleared r B b m) = partialMerged r B b m := by
  unfold partialRestored partialMerged
  split
  next none => exact if_pos none
  · rfl

theorem restorePartial_inBounds (buf : call.buf = some r)
    (inside : call.sentBits ≠ 0 → inBounds s.params r call.sentBytes 1 = true) :
    restorePartial call s =
      .ok (s.setMem (partialRestored r call.sentBytes call.sentBits call.saved s.mem)) := by
  unfold restorePartial partialRestored
  split
  · rfl
  next sent =>
    rw [buf, memRead8_inBounds (inside sent), Run.ok_bind, memWrite8_inBounds (inside sent)]

theorem restorePartial_noBits (none : call.sentBits = 0) : restorePartial call s = .ok (s.setMem s.mem) :=
  if_pos none

/-! ## The end -/

theorem reply_eq (st : Status) (results : List Byte) (s : State) :
    reply st results s = { s with response := st.code :: results, running := none } := rfl

theorem setCollDetect_eq (on : Bool) (s : State) :
    setCollDetect on s =
      let cfg := { s.cfg with collDetect := on }
      { s with cfg, trace := .regWrite .frameCfg (.frameCfg cfg) :: s.trace } := rfl

/-- The helper's end where there is no collision to report (46 R240, R244, R248). -/
theorem finishAnticoll_plain (restored : restorePartial call s = .ok (s.setMem m)) (plain : st ≠ .rfCollision) :
    finishAnticoll call st s =
      let cfg := { s.cfg with collDetect := false }
      .ok { s with
        mem := m, cfg, trace := .regWrite .frameCfg (.frameCfg cfg) :: s.trace
        response := [st.code], running := none } := by
  simp only [finishAnticoll, restored, Run.ok_bind, if_neg plain, Run.pure_eq, setCollDetect_eq, reply_eq, State.setMem]

/-- The helper's end with a collision: its position is drawn, and written to the two cells (46 R245). -/
theorem finishAnticoll_collision (restored : restorePartial call s = .ok (s.setMem m)) (collided : st = .rfCollision)
    (cellB_eq : call.bytesToSend = some cellB) (inB : inBounds s.params cellB 0 1 = true)
    (cellb_eq : call.bitsToSend = some cellb) (inb : inBounds s.params cellb 0 1 = true) :
    finishAnticoll call st s =
      let d := s.env.takeReg
      let pos := collDecode s.params d.1
      let cfg := { s.cfg with collDetect := false }
      .ok { s with
        mem := Memory.store (hostAddr cellb.region cellb.offset) pos.2
          (Memory.store (hostAddr cellB.region cellB.offset) pos.1 m)
        cfg, env := d.2, trace := .regWrite .frameCfg (.frameCfg cfg) :: .regRead .collPos d.1 :: s.trace
        response := [11], running := none } := by
  simp only [finishAnticoll, restored, collided, Run.ok_bind, if_true, writeCollision, cellB_eq, cellb_eq, busRead_eq]
  rw [memWrite8_inBounds (by exact inB), Run.ok_bind, memWrite8_inBounds (by exact inb)]
  simp only [Run.pure_eq, Run.ok_bind, setCollDetect_eq, reply_eq, State.setMem, State.setEnv, State.log, chipAnswer,
    Status.code, Nat.add_zero]

/-! ## The loop -/

/-- A WORKER is its tick: answered, without end, or stopped. -/
theorem execWorker_cases (u : State) :
    (∃ v, tick u = .ok v ∧ exec .worker u = .next (reply v.status [] v)) ∨
    (∃ v, tick u = .error (.hang v) ∧ exec .worker u = .next (loopOn .hung v)) ∨
    (∃ f, tick u = .error (.fault f) ∧ exec .worker u = .fault f) := by
  have worker : exec .worker u = settle (tick u >>= fun v => .ok (reply v.status [] v)) := rfl
  rw [worker]
  match tick u with
  | .ok v => exact .inl ⟨v, rfl, rfl⟩
  | .error (.hang v) => exact .inr (.inl ⟨v, rfl, rfl⟩)
  | .error (.fault f) => exact .inr (.inr ⟨f, rfl, rfl⟩)

/-- A step of the helper's loop is the ISR agent's point, one tick, and what that tick leaves to do (46 R240). -/
theorem step_anticoll (hr : s.running = some (.anticoll call)) (hp : isrPoint s = .ok u) :
    step s = settle (tick u >>= fun v =>
      if v.txrxState = .idle then finishAnticoll call v.status v else .ok (loopOn (.anticoll call) v)) := by
  simp [step, hr, resume, anticollIteration, hp]

end Sys2Proof.Machine
end

section
/-! PROOFS. The statement on the anticollision helper's loop and end. -/

open Sys2Proof Sys2Proof.Machine

/-- Settles O59: the cases are the ways a WORKER goes; an exchange that has ended leads to the helper's end. -/
theorem anticollEnds : Obligations.AnticollEnds := by
  intro call s u hr hp
  have stepped := step_anticoll hr hp
  obtain ⟨v, ticked, worker⟩ | ⟨v, ticked, worker⟩ | ⟨f, ticked, worker⟩ := execWorker_cases u <;>
    rw [ticked] at stepped <;> rw [worker]
  case inl =>
    refine ⟨?_, nofun⟩
    rintro t ⟨⟩
    refine ⟨fun running => absurd rfl running, fun _ busy => stepped.trans (congrArg settle (if_neg busy)), ?_⟩
    intro r _ idle buf inside
    have params : v.params = s.params := (tick_params ticked).trans (isrPoint_params hp)
    have last : step s = settle (finishAnticoll call v.status v) := step_anticoll_last hr hp ticked idle
    rw [← params] at inside ⊢
    have restored := restorePartial_inBounds (s := v) buf inside
    refine ⟨fun plain => last.trans (congrArg settle (finishAnticoll_plain restored plain)), ?_⟩
    intro cellB cellb collided cellB_eq inB cellb_eq inb
    exact last.trans (congrArg settle (finishAnticoll_collision restored collided cellB_eq inB cellb_eq inb))
  case inr.inl =>
    refine ⟨?_, nofun⟩
    rintro t ⟨⟩
    exact ⟨fun _ => stepped, nofun, fun _ => nofun⟩
  case inr.inr =>
    refine ⟨fun _ next => absurd next nofun, ?_⟩
    rintro _ ⟨⟩
    exact stepped

end

section
/-! PROOFS. The start of the anticollision helper (46 R240, R241, R243, R248): its gate, its operand checks, and the
inner start, refused or accepted. -/

namespace Sys2Proof.Machine

variable {s u : State} {r : BufRef} {B b saved : Byte} {buf bytesToSend bitsToSend rxLength : Option BufRef}
  {fwt : Word} {st : Status}

/-! ## The gate and the operand checks -/

/-- The helper's gate (46 R240, R248). -/
theorem execAnticoll_notReady
    (closed : s.lifecycle = .uninit ∨ s.lifecycle = .init ∨ s.txrxState ≠ .idle ∨ s.mode ≠ .nfca)
    (buf bytesToSend bitsToSend rxLength : Option Ref) (fwt : Word) :
    exec (.iso14443aAnticollFrame buf bytesToSend bitsToSend rxLength fwt) s = .next (reply .wrongState [] s) := by
  show execIso14443aAnticollFrame buf bytesToSend bitsToSend rxLength fwt s = _
  unfold execIso14443aAnticollFrame
  split
  · rfl
  next gate =>
    rw [startGate_iff, not_or, not_or] at gate
    obtain ⟨uninit, init, idle⟩ := gate
    refine if_pos ?_
    exact ((closed.resolve_left uninit).resolve_left init).resolve_left idle

theorem anticollLengthsOk_iff (p : Config.Params) (B b : Nat) :
    anticollLengthsOk p B b = true ↔
      b ≤ 7 ∧ B + (if b ≠ 0 then 1 else 0) ≤ p.anticollFrameLen ∧ ¬(B = 0 ∧ b = 0) := decide_eq_true_iff

/-- The call in its loop, or at its end: its operands, what the cells said, and the saved byte. -/
abbrev anticollCall (buf bytesToSend bitsToSend : Option BufRef) (B b saved : Byte) : Anticoll :=
  { buf, bytesToSend, bitsToSend, sentBytes := B.toNat, sentBits := b.toNat, saved }

section Cells

variable (readB : memRead8 bytesToSend 0 s = .ok B) (readb : memRead8 bitsToSend 0 s = .ok b)
include readB readb

theorem beginAnticoll_badLengths (bad : anticollLengthsOk s.params B.toNat b.toNat = false) :
    beginAnticoll buf bytesToSend bitsToSend rxLength fwt s = .ok (reply .invalidParam [] s) := by
  simp only [beginAnticoll, readB, readb, Run.ok_bind, bad, if_true, Run.pure_eq]

variable (good : anticollLengthsOk s.params B.toNat b.toNat = true)
  (cleared : clearPartial buf B.toNat b.toNat (setCollDetect true s) = .ok (saved, u))
include good cleared

/-- Past its checks the helper starts its exchange with the partial byte cleared and collision detection on. -/
theorem beginAnticoll_starts :
    beginAnticoll buf bytesToSend bitsToSend rxLength fwt s =
      (start (anticollCtx u.params buf rxLength B.toNat b.toNat fwt) u >>= fun (st, v) =>
        if st ≠ .none then finishAnticoll (anticollCall buf bytesToSend bitsToSend B b saved) st v
        else .ok (loopOn (.anticoll (anticollCall buf bytesToSend bitsToSend B b saved)) v)) := by
  simp only [beginAnticoll, readB, readb, Run.ok_bind, good, cleared, Bool.true_eq_false, if_false]
  rfl

/-- A refused inner start is the helper's end with the refusal's status. -/
theorem beginAnticoll_refused
    (refusal : startCheck (anticollCtx u.params buf rxLength B.toNat b.toNat fwt) u = some st)
    (notNone : st ≠ .none) :
    beginAnticoll buf bytesToSend bitsToSend rxLength fwt s =
      finishAnticoll (anticollCall buf bytesToSend bitsToSend B b saved) st u := by
  rw [beginAnticoll_starts readB readb good cleared, start_refused refusal, Run.ok_bind]
  exact if_pos notNone

theorem beginAnticoll_accepted
    (passes : startCheck (anticollCtx u.params buf rxLength B.toNat b.toNat fwt) u = none) :
    beginAnticoll buf bytesToSend bitsToSend rxLength fwt s =
      (startAccepted (anticollCtx u.params buf rxLength B.toNat b.toNat fwt) u >>= fun v =>
        .ok (loopOn (.anticoll (anticollCall buf bytesToSend bitsToSend B b saved)) v)) := by
  rw [beginAnticoll_starts readB readb good cleared, start, passes]
  exact bind_assoc _ _ _

end Cells

/-! ## The inner start -/

/-- What START_TRANSCEIVE's parameter checks see of the helper's operands: the length of the frame alone. -/
theorem anticollCtx_badParam_iff (p : Config.Params) (r : BufRef) (rxLength : Option BufRef) (fwt : Word)
    (small : b.toNat ≤ 7) (someBits : ¬(B.toNat = 0 ∧ b.toNat = 0)) :
    let c := anticollCtx p (some r) rxLength B.toNat b.toNat fwt
    (flagsReserved c.flags ≠ 0 ∨ (c.txBuf ≠ none ∧ (c.txBufLen = 0 ∨ p.maxTxBits < c.txBufLen.toNat)) ∨
      (c.txBuf = none ∧ c.rxBuf = none)) ↔ p.maxTxBits < 8 * B.toNat + b.toNat := by
  have length : (BitVec.ofNat 16 (8 * B.toNat + b.toNat)).toNat = 8 * B.toNat + b.toNat := by
    rw [BitVec.toNat_ofNat]
    have := B.isLt
    omega
  have nonzero : BitVec.ofNat 16 (8 * B.toNat + b.toNat) ≠ 0#16 := fun zero => by
    rw [zero, BitVec.toNat_zero] at length
    omega
  have flags : flagsReserved acFlags = 0 := by decide
  simp [anticollCtx, flags, length, nonzero]

theorem startAccepted_loopOn_noEdges (c : Ctx) (loop : Running) (edges : noEdges s) :
    settle (startAccepted c s >>= fun v => .ok (loopOn loop v)) = .next (loopOn loop (started c s)) := by
  rw [startAccepted_noEdges c edges]
  rfl

/-- Whatever edges come, a loop that follows an accepted start is entered as without them but for what the ISR agent
touches, or the command hangs in that agent's drain (log 5). -/
theorem startAccepted_loopOn_edges (c : Ctx) (loop : Running) (s : State) :
    ∃ t, settle (startAccepted c s >>= fun v => .ok (loopOn loop v)) = .next t ∧
      (SameButIsr (loopOn loop (started c s)) t ∨ t.running = some .hung) := by
  have entered : Run.post (startAccepted c s >>= fun v => .ok (loopOn loop v))
      (SameButIsr (loopOn loop (started c s))) (fun _ => True) :=
    Run.post_seq (startAccepted_post c s) (fun _ same => congrArg (loopOn loop) same)
  have faultless := Run.faultless_seq (startAccepted_faultless c s) fun v => Run.faultless_ok (loopOn loop v)
  obtain ⟨t, run, same | ⟨u, _, rfl⟩⟩ := faultless.settle entered
  · exact ⟨t, run, .inl same⟩
  · exact ⟨_, run, .inr rfl⟩

/-! ## The start -/

/-- The state the helper starts its exchange in: the partial byte cleared, collision detection on. -/
abbrev anticollPrepared (r : BufRef) (B b : Nat) (s : State) : State :=
  (setCollDetect true s).setMem (partialCleared r B b s.mem)

section Checks

variable (ready : ¬(s.lifecycle.rank < Lifecycle.modeSet.rank ∨ s.txrxState ≠ .idle))
include ready

theorem anticollPrepared_noField (shut : s.fieldOn = false) :
    startCheck (anticollCtx s.params (some r) rxLength B.toNat b.toNat fwt) (anticollPrepared r B.toNat b.toNat s) =
      some .wrongState :=
  startCheck_noField (s := anticollPrepared r B.toNat b.toNat s) ready ⟨nofun, shut⟩

variable (field : s.fieldOn = true) (small : b.toNat ≤ 7) (someBits : ¬(B.toNat = 0 ∧ b.toNat = 0))
include field small someBits

theorem anticollPrepared_tooLong (long : s.params.maxTxBits < 8 * B.toNat + b.toNat) :
    startCheck (anticollCtx s.params (some r) rxLength B.toNat b.toNat fwt) (anticollPrepared r B.toNat b.toNat s) =
      some .invalidParam :=
  startCheck_badParam (s := anticollPrepared r B.toNat b.toNat s) ready
    (fun ⟨_, shut⟩ => nomatch field.symm.trans shut)
    ((anticollCtx_badParam_iff s.params r rxLength fwt small someBits).2 long)

theorem anticollPrepared_passes (short : 8 * B.toNat + b.toNat ≤ s.params.maxTxBits) :
    startCheck (anticollCtx s.params (some r) rxLength B.toNat b.toNat fwt) (anticollPrepared r B.toNat b.toNat s) =
      none :=
  startCheck_passes (s := anticollPrepared r B.toNat b.toNat s) ready
    (fun ⟨_, shut⟩ => nomatch field.symm.trans shut)
    (mt (anticollCtx_badParam_iff s.params r rxLength fwt small someBits).1 (Nat.not_lt.2 short))

end Checks

section Start

variable (readB : memRead8 bytesToSend 0 s = .ok B) (readb : memRead8 bitsToSend 0 s = .ok b)
  (good : anticollLengthsOk s.params B.toNat b.toNat = true)
  (inside : b.toNat ≠ 0 → inBounds s.params r B.toNat 1 = true)
include readB readb good inside

/-- A refused inner start: the partial byte merged back, collision detection off again (46 R240). -/
theorem beginAnticoll_innerRefused
    (refusal : startCheck (anticollCtx s.params (some r) rxLength B.toNat b.toNat fwt)
      (anticollPrepared r B.toNat b.toNat s) = some st) (notNone : st ≠ .none) (plain : st ≠ .rfCollision) :
    beginAnticoll (some r) bytesToSend bitsToSend rxLength fwt s =
      let on := { s.cfg with collDetect := true }
      let off := { s.cfg with collDetect := false }
      .ok { s with
        cfg := off
        mem := partialMerged r B.toNat b.toNat s.mem
        trace := .regWrite .frameCfg (.frameCfg off) :: .regWrite .frameCfg (.frameCfg on) :: s.trace
        response := [st.code], running := none } := by
  have cleared := clearPartial_inBounds (s := setCollDetect true s) inside
  rw [beginAnticoll_refused readB readb good cleared refusal notNone]
  have restored : restorePartial
      (anticollCall (some r) bytesToSend bitsToSend B b (if b.toNat = 0 then 0 else bufByte s.mem r B.toNat))
      (anticollPrepared r B.toNat b.toNat s) =
      .ok ((anticollPrepared r B.toNat b.toNat s).setMem (partialMerged r B.toNat b.toNat s.mem)) := by
    rw [← partialRestored_cleared]
    exact restorePartial_inBounds rfl inside
  exact finishAnticoll_plain restored plain

/-- An accepted inner start: the exchange is started, and the command goes on in its loop. -/
theorem beginAnticoll_inLoop
    (passes : startCheck (anticollCtx s.params (some r) rxLength B.toNat b.toNat fwt)
      (anticollPrepared r B.toNat b.toNat s) = none) :
    beginAnticoll (some r) bytesToSend bitsToSend rxLength fwt s =
      (startAccepted (anticollCtx s.params (some r) rxLength B.toNat b.toNat fwt)
        (anticollPrepared r B.toNat b.toNat s) >>= fun v =>
          .ok (loopOn (.anticoll (anticollCall (some r) bytesToSend bitsToSend B b
            (if b.toNat = 0 then 0 else bufByte s.mem r B.toNat))) v)) :=
  beginAnticoll_accepted readB readb good (clearPartial_inBounds (s := setCollDetect true s) inside) passes

end Start

/-- A null buffer without a partial byte reaches an inner start that refuses it (log 28). -/
theorem beginAnticoll_noBuf (readB : memRead8 bytesToSend 0 s = .ok B) (readb : memRead8 bitsToSend 0 s = .ok b)
    (good : anticollLengthsOk s.params B.toNat b.toNat = true) (noBits : b.toNat = 0)
    (ready : ¬(s.lifecycle.rank < Lifecycle.modeSet.rank ∨ s.txrxState ≠ .idle)) :
    beginAnticoll none bytesToSend bitsToSend rxLength fwt s =
      let on := { s.cfg with collDetect := true }
      let off := { s.cfg with collDetect := false }
      .ok { s with
        cfg := off
        trace := .regWrite .frameCfg (.frameCfg off) :: .regWrite .frameCfg (.frameCfg on) :: s.trace
        response := [7], running := none } := by
  have cleared : clearPartial none B.toNat b.toNat (setCollDetect true s) = .ok (0, setCollDetect true s) :=
    if_pos noBits
  have refusal : startCheck (anticollCtx s.params none rxLength B.toNat b.toNat fwt) (setCollDetect true s) =
      some .invalidParam :=
    startCheck_badParam (s := setCollDetect true s) ready (fun ⟨sends, _⟩ => sends rfl) (.inr (.inr ⟨rfl, rfl⟩))
  rw [beginAnticoll_refused readB readb good cleared refusal nofun]
  exact finishAnticoll_plain (s := setCollDetect true s) (restorePartial_noBits noBits) nofun

end Sys2Proof.Machine
end

section
/-! PROOFS. The statement on the start of the anticollision helper. -/

open Sys2Proof Sys2Proof.Machine

/-- Settles O58: the gate, the lengths in the cells, and the inner start, which sees the prepared state. -/
theorem anticollStarts : Obligations.AnticollStarts := by
  intro buf bytesToSend bitsToSend rxLength fwt s run
  refine ⟨fun closed => execAnticoll_notReady closed _ _ _ _ _, ?_⟩
  intro cellB cellb ready idle mode cellB_eq inB cellb_eq inb B b len on off
  have command : run = settle (beginAnticoll (toBuf buf) (some cellB) (some cellb) (toBuf rxLength) fwt s) :=
    cellB_eq ▸ cellb_eq ▸ execAnticoll_ready ready idle mode _ _ _ _ _
  have readB := memRead8_inBounds inB
  have readb := memRead8_inBounds inb
  have gate : ¬(s.lifecycle.rank < Lifecycle.modeSet.rank ∨ s.txrxState ≠ .idle) := by
    rw [startGate_iff]
    obtain modeSet | txrx := ready
    · simp [modeSet, idle]
    · simp [txrx, idle]
  constructor
  · intro bad
    have badLengths : anticollLengthsOk s.params B b = false := by
      rw [Bool.eq_false_iff, ne_eq, anticollLengthsOk_iff]
      omega
    exact command.trans (congrArg settle (beginAnticoll_badLengths readB readb badLengths))
  intro small fits someBits
  have good : anticollLengthsOk s.params B b = true := (anticollLengthsOk_iff _ _ _).2 ⟨small, fits, someBits⟩
  constructor
  · intro r buf_eq inside a low save cleared merged s1 refused c call inLoop
    rw [buf_eq] at command
    have refusedBy {st : Status} refusal (notNone : st ≠ .none) (plain : st ≠ .rfCollision) :=
      command.trans (congrArg settle (beginAnticoll_innerRefused readB readb good inside refusal notNone plain))
    refine ⟨fun shut => ?_, fun field long => ?_, fun field short => ?_⟩
    · exact refusedBy (anticollPrepared_noField gate shut) nofun nofun
    · exact refusedBy (anticollPrepared_tooLong gate field small someBits long) nofun nofun
    · have entered := command.trans (congrArg settle
        (beginAnticoll_inLoop readB readb good inside (anticollPrepared_passes gate field small someBits short)))
      exact ⟨fun edges => entered.trans (startAccepted_loopOn_noEdges (s := anticollPrepared r B b s) _ _ edges),
        entered ▸ startAccepted_loopOn_edges _ _ _⟩
  · intro noBuf noBits
    rw [noBuf] at command
    exact command.trans (congrArg settle (beginAnticoll_noBuf readB readb good noBits gate))

end

section
/-! PROOFS. How a command can stop (60 R273, 46 R247), said once (`StopsOnly`): most always answer, the fetches of the
FIFO status can find a count out of range, a tick and the anticollision helper can fault, three helpers are refused. -/

namespace Sys2Proof.Machine

variable {i : Instr} {s : State}

/-! ## Computations without a model fault -/

theorem Run.faultless_ite {α : Type} {p : Prop} [Decidable p] {a b : Run α} (ha : Run.faultless a)
    (hb : Run.faultless b) : Run.faultless (if p then a else b) := by
  split
  · exact ha
  · exact hb

theorem engineDisable_faultless (mask : Word) (s : State) : Run.faultless (engineDisable mask s) :=
  Run.faultless_seq (isrPoint_faultless s) (fun _ => Run.faultless_ok _)

theorem exchangeEnd_faultless (s : State) : Run.faultless (exchangeEnd s) :=
  Run.faultless_seq (engineDisable_faultless _ _) (fun _ => Run.faultless_ok _)

theorem fieldOffBody_faultless (s : State) : Run.faultless (fieldOffBody s) :=
  Run.faultless_ite (Run.faultless_seq (exchangeEnd_faultless _) (fun _ => Run.faultless_ok _)) (Run.faultless_ok _)

theorem start_faultless (c : Ctx) (s : State) : Run.faultless (start c s) := by
  unfold start
  split
  · exact Run.faultless_ok _
  · exact Run.faultless_seq (startAccepted_faultless c s) (fun _ => Run.faultless_ok _)

/-! ## The outcomes of a command -/

/-- What the outcome of a command can be: a next state, or the stop that its opcode admits. -/
inductive StopsOnly (i : Instr) : Host.Outcome State Fault Refusal → Prop
  | answers (t : State) : StopsOnly i (.next t)
  | refusedHelper (op : opcode i ∈ [(0x71 : Byte), 0x72, 0x73]) : StopsOnly i (.refused (.refusedHelper (opcode i)))
  | engineFault (op : opcode i ∈ [(0x31 : Byte), 0x70]) (f : Fault) : StopsOnly i (.fault f)
  | countFault (op : opcode i ∈ [(0x60 : Byte), 0x62, 0x63, 0x64]) : StopsOnly i (.fault .chipRange)

namespace StopsOnly

theorem ite {p : Prop} [Decidable p] {a b : Host.Outcome State Fault Refusal} (ha : StopsOnly i a)
    (hb : StopsOnly i b) : StopsOnly i (if p then a else b) := by
  split
  · exact ha
  · exact hb

/-- A faultless computation always answers, be it by a hang (log 5). -/
theorem faultless {r : Run State} (h : Run.faultless r) : StopsOnly i (settle r) := by
  match r with
  | .ok t => exact .answers t
  | .error (.hang u) => exact .answers _
  | .error (.fault f) => exact absurd rfl (h f)

theorem engine {r : Run State} (op : opcode i ∈ [(0x31 : Byte), 0x70]) : StopsOnly i (settle r) := by
  match r with
  | .ok t => exact .answers t
  | .error (.hang u) => exact .answers _
  | .error (.fault f) => exact .engineFault op f

theorem fifoQuery (op : opcode i ∈ [(0x60 : Byte), 0x62, 0x63, 0x64]) (field : State → List Byte) (s : State) :
    StopsOnly i (fifoQuery field s) := by
  unfold Machine.fifoQuery
  obtain ⟨_, e⟩ | ⟨_, _, e⟩ | ⟨_, _, e⟩ := fsUpdate_cases s <;> rw [e]
  · exact .answers _
  · exact .answers _
  · exact .countFault op

end StopsOnly

theorem execSetMode_stops (mode txBR rxBR : Byte) (s : State) : StopsOnly i (execSetMode mode txBR rxBR s) := by
  refine .ite (.answers _) (.ite (.answers _) ?_)
  split
  · exact .answers _
  · exact .answers _
  · exact .ite (.answers _) (.answers _)

theorem execDeinit_stops (s : State) : StopsOnly i (execDeinit s) := by
  have disables (t : State) : Run.faultless (engineDisable 0xFFFFFFFF t >>= fun u =>
      pure (reply .none [] (resetKeeping u))) :=
    Run.faultless_seq (engineDisable_faultless _ t) (fun _ => Run.faultless_ok _)
  exact .ite (.answers _)
    (.faultless (Run.faultless_ite (Run.faultless_seq (fieldOffBody_faultless s) disables) (disables s)))

theorem execIrqIsr_stops (s : State) : StopsOnly i (execIrqIsr s) := by
  unfold execIrqIsr
  split
  · exact .answers s
  · exact .faultless (isrBody_faultless s)

/-- Every command stops only as its opcode admits. -/
theorem exec_stops (i : Instr) (s : State) : StopsOnly i (exec i s) := by
  cases i with
  | init => exact .ite (.answers _) (.ite (.answers _) (.answers _))
  | deinit => exact execDeinit_stops s
  | setMode => exact execSetMode_stops _ _ _ s
  | setBitrate => exact .ite (.answers _) (.ite (.answers _) (.answers _))
  | getBitrate => exact .ite (.answers _) (.answers _)
  | fieldOn => exact .ite (.answers _) (.answers _)
  | fieldOff =>
    exact .ite (.answers _) (.faultless (Run.faultless_seq (fieldOffBody_faultless s) fun _ => Run.faultless_ok _))
  | startTransceive => exact .faultless (Run.faultless_seq (start_faultless _ s) fun _ => Run.faultless_ok _)
  | transceiveBlocking =>
    exact .faultless (Run.faultless_seq (start_faultless _ s) fun _ =>
      Run.faultless_ite (Run.faultless_ok _) (Run.faultless_ok _))
  | worker => exact .engine (.head _)
  | irqPoll => exact .faultless (Run.faultless_seq (drain_faultless s) fun _ => Run.faultless_ok _)
  | irqWait => exact .faultless (waitIteration_faultless _ _ _ _)
  | irqIsr => exact execIrqIsr_stops s
  | fifoStatusUpdate | fifoGetNumBytes | fifoGetIncBits | fifoIsMissingPar => exact .fifoQuery (by simp [opcode]) _ s
  | iso14443aAnticollFrame => exact .ite (.answers _) (.ite (.answers _) (.engine (.tail _ (.head _))))
  | iso14443aShortFrame | iso15693AnticollFrame | iso15693Eof => exact .refusedHelper (by simp [opcode])
  | setEmd => exact .ite (.answers _) (.answers _)
  | getMode | setFdtPoll | setFdtListen | setGt | getTransceiveStatus | getTransceiveState | setPreCb | setPostCb
  | setSyncCb | setIrqCb | irqEnable | irqDisable | irqGet | fifoStatusClear | setObsMode => exact .answers _

end Sys2Proof.Machine
end

section
/-! PROOFS. The statement on the stops. -/

open Sys2Proof Sys2Proof.Machine

/-- Settles O56: the refusals and faults are the stops that `StopsOnly` lists. -/
theorem stopsByName : Obligations.StopsByName := by
  refine ⟨fun _ _ _ _ _ _ => rfl, fun _ _ _ _ _ _ => rfl, fun _ _ _ _ => rfl, fun i s r refused => ?_,
    fun i s f faulted => ?_⟩
  · have stops := exec_stops i s
    rw [refused] at stops
    cases stops with
    | refusedHelper op => exact ⟨op, rfl⟩
  · have stops := exec_stops i s
    rw [faulted] at stops
    cases stops with
    | engineFault op => exact .inl op
    | countFault op => exact .inr ⟨op, rfl⟩

end

section
/-! PROOFS. FIELD_ON, FIELD_OFF and DEINIT (47 R251, R253, R254): the terminal cleanup and the field's end, with and
without ISR edges, and the reset that follows them. -/

namespace Sys2Proof.Machine

variable {s t u : State}

/-! ## Computations that answer or hang -/

/-- A faultless command answers as it is known to, or hangs (log 5). -/
theorem Run.faultless.completes {r : Run State} {Q : State → Prop} (hr : Run.faultless r)
    (hp : Run.post r Q (fun _ => True)) : ∃ t, Machine.settle r = .next t ∧ (Q t ∨ t.running = some .hung) := by
  obtain ⟨t, run, answered | ⟨_, _, rfl⟩⟩ := hr.settle hp
  · exact ⟨t, run, .inl answered⟩
  · exact ⟨_, run, .inr rfl⟩

theorem SameButIsr.refl (s : State) : SameButIsr s s := rfl

/-! ## FIELD_ON (47 R253) -/

theorem execFieldOn_gated (h : s.lifecycle = .uninit ∨ s.txrxState ≠ .idle) :
    execFieldOn s = .next (reply .wrongState [] s) := if_pos (rateGate_shut h)

theorem execFieldOn_unguarded (up : s.lifecycle ≠ .uninit) (idle : s.txrxState = .idle) (noGuard : s.gt = 0) :
    execFieldOn s = .next (reply .none [] (gtDisarm ((busCmd .fieldOn s).setFieldOn true))) := by
  unfold execFieldOn
  rw [if_neg (rateGate_open up idle)]
  exact congrArg (fun u => Host.Outcome.next (reply .none [] u)) (if_neg (not_not.2 noGuard))

theorem gtDisarm_eq (s : State) : gtDisarm s = { s with gtTimer := { s.gtTimer with armed := false } } := rfl

/-- 41 R125 as one update. -/
theorem gtStart_eq (ms : Nat) (s : State) : gtStart ms s = { s with
    gtTimer := { armed := true, startMs := s.clockMs + s.env.takeElapsed.1, durMs := ms }
    clockMs := s.clockMs + s.env.takeElapsed.1, env := s.env.takeElapsed.2 } := rfl

theorem toMs_one (p : Config.Params) (c : Nat) : toMs p c 1 = ceilDiv c p.fcPerMs := by
  rw [toMs, Nat.mul_one]

/-! ## The terminal cleanup (44 R197) -/

/-- With ISR edges the cleanup leaves the same state but for what the agent touches (20 R70). -/
theorem exchangeEnd_post (s : State) : Run.post (exchangeEnd s) (SameButIsr (cleanedUp s)) (fun _ => True) := by
  unfold exchangeEnd
  rw [obsOff_eq]
  refine Run.post_seq (Run.post_mono (engineDisable_post _ _) (fun _ => id) (fun _ _ => trivial)) ?_
  rintro _ ⟨u, ⟨⟨_, _, _, rfl, _⟩, _⟩, rfl⟩
  rw [irqDisable_eq, emitCallback_eq]
  rfl

theorem failStatus_eq (s : State) :
    failStatus s = { s with status := if s.status = .busy then .system else s.status } := by
  unfold failStatus
  split
  · rfl
  · rfl

/-! ## FIELD_OFF past its gate (47 R254) -/

theorem fieldOffBody_idle (idle : s.txrxState = .idle) : fieldOffBody s = .ok (switchFieldOff s) :=
  if_neg (not_not.2 idle)

theorem fieldOffBody_busy (busy : s.txrxState ≠ .idle) :
    fieldOffBody s = (exchangeEnd (failStatus s) >>= fun u => .ok (switchFieldOff u)) := if_pos busy

theorem fieldSwitchedOff_idle (idle : s.txrxState = .idle) : fieldSwitchedOff s = switchFieldOff s :=
  congrArg switchFieldOff (if_neg (not_not.2 idle))

theorem fieldSwitchedOff_busy (busy : s.txrxState ≠ .idle) :
    fieldSwitchedOff s = switchFieldOff (cleanedUp (failStatus s)) := by
  rw [failStatus_eq]
  exact congrArg switchFieldOff (if_pos busy)

theorem fieldOffBody_noEdges (h : s.txrxState = .idle ∨ noEdges s) : fieldOffBody s = .ok (fieldSwitchedOff s) := by
  by_cases idle : s.txrxState = .idle
  · rw [fieldOffBody_idle idle, fieldSwitchedOff_idle idle]
  · have edges : noEdges (failStatus s) := by
      rw [failStatus_eq]
      exact h.resolve_left idle
    rw [fieldOffBody_busy idle, exchangeEnd_noEdges edges, fieldSwitchedOff_busy idle, Run.ok_bind]

/-- Whatever edges come, the field's end is the same but for what the ISR agent touches. -/
theorem fieldOffBody_sameButIsr (s : State) :
    Run.post (fieldOffBody s) (SameButIsr (fieldSwitchedOff s)) (fun _ => True) := by
  by_cases idle : s.txrxState = .idle
  · rw [fieldOffBody_idle idle, fieldSwitchedOff_idle idle]
    exact SameButIsr.refl _
  · rw [fieldOffBody_busy idle, fieldSwitchedOff_busy idle]
    exact Run.post_seq (exchangeEnd_post (failStatus s)) (fun _ same => congrArg switchFieldOff same)

/-! ## FIELD_OFF -/

theorem execFieldOff_gated (down : s.lifecycle = .uninit) : execFieldOff s = .next (reply .wrongState [] s) :=
  if_pos (belowInit_eq_true down)

theorem execFieldOff_up (up : s.lifecycle ≠ .uninit) :
    execFieldOff s = settle (fieldOffBody s >>= fun u => .ok (reply .none [] u)) :=
  if_neg (by rw [belowInit_eq_false up]; exact Bool.false_ne_true)

/-! ## DEINIT (47 R251) -/

/-- DEINIT's first part: an exchange or a field is ended. -/
def endActivity (s : State) : Run State :=
  if s.fieldOn = true ∨ s.txrxState ≠ .idle then fieldOffBody s else .ok s

/-- What DEINIT's first part leaves where no ISR edge comes. -/
abbrev activityEnded (s : State) : State :=
  if s.fieldOn = true ∨ s.txrxState ≠ .idle then fieldSwitchedOff s else s

/-- DEINIT's second part: every interrupt disabled, the block state reset, NONE answered. -/
def maskAndReset (s : State) : Run State := do
  let s ← engineDisable 0xFFFFFFFF s
  pure (reply .none [] (resetKeeping s))

theorem execDeinit_down (down : s.lifecycle = .uninit) : execDeinit s = .next (reply .none [] s) := if_pos down

theorem execDeinit_up (up : s.lifecycle ≠ .uninit) : execDeinit s = settle (endActivity s >>= maskAndReset) := by
  rw [execDeinit, if_neg up, endActivity]
  split
  · rfl
  · rfl

theorem endActivity_noEdges (edges : noEdges s) : endActivity s = .ok (activityEnded s) := by
  unfold endActivity activityEnded
  split
  · exact fieldOffBody_noEdges (.inr edges)
  · rfl

theorem endActivity_sameButIsr (s : State) :
    Run.post (endActivity s) (SameButIsr (activityEnded s)) (fun _ => True) := by
  unfold endActivity activityEnded
  split
  · exact fieldOffBody_sameButIsr s
  · exact SameButIsr.refl s

theorem endActivity_faultless (s : State) : Run.faultless (endActivity s) :=
  Run.faultless_ite (fieldOffBody_faultless s) (Run.faultless_ok s)

theorem fieldSwitchedOff_surroundings (s : State) :
    (fieldSwitchedOff s).params = s.params ∧ (fieldSwitchedOff s).env = s.env := by
  unfold fieldSwitchedOff
  dsimp only
  split
  · exact ⟨rfl, rfl⟩
  · exact ⟨rfl, rfl⟩

theorem activityEnded_noEdges (edges : noEdges s) : noEdges (activityEnded s) := by
  obtain ⟨params, env⟩ := fieldSwitchedOff_surroundings s
  unfold activityEnded
  split
  · exact noEdges_congr edges params (congrArg Env.edges env)
  · exact edges

/-- Disabling all 32 bits leaves the enable mask 0 (40 R102). -/
theorem irqDisable_all (s : State) : irqDisable 0xFFFFFFFF s = { s with
    irq := { s.irq with enabled := 0 }, hwMask := masksOf 0, trace := maskEvents s.hwMask 0 ++ s.trace } := by
  have none_left : s.irq.enabled &&& ~~~(0xFFFFFFFF : Word) = 0 := BitVec.and_zero
  rw [irqDisable_eq, none_left]

theorem maskAndReset_noEdges (edges : noEdges s) : maskAndReset s = .ok { resetFields s with
    trace := maskEvents s.hwMask 0 ++ s.trace, response := [0], running := none } := by
  unfold maskAndReset
  rw [engineDisable_noEdges _ edges, irqDisable_all]
  rfl

/-- The block state of `s` reset and NONE answered, whatever was recorded and drawn on the way. -/
def ResetAnswered (s t : State) : Prop :=
  t = { resetFields s with trace := t.trace, env := t.env, response := [0], running := none }

/-- What the ISR agent touches of the block state is reset with the rest. -/
theorem maskAndReset_post (same : SameButIsr u s) :
    Run.post (maskAndReset s) (ResetAnswered u) (fun _ => True) := by
  refine Run.post_seq (Run.post_mono (engineDisable_post _ s) (fun _ => id) (fun _ _ => trivial)) ?_
  rintro _ ⟨v, ⟨⟨_, _, _, rfl, _⟩, _⟩, rfl⟩
  rw [irqDisable_all, same]
  rfl

theorem maskAndReset_faultless (s : State) : Run.faultless (maskAndReset s) :=
  Run.faultless_seq (engineDisable_faultless _ s) (fun _ => Run.faultless_ok _)

end Sys2Proof.Machine
end

section
/-! PROOFS. INIT (47 R250). -/

namespace Sys2Proof.Machine

variable {s : State}

/-- Outside an exchange every read shows the Chip's draw (41 R131). -/
theorem busRead_idle (r : Reg) (idle : s.txrxState = .idle) : busRead r s =
    (s.env.takeReg.1, { s with env := s.env.takeReg.2, trace := .regRead r s.env.takeReg.1 :: s.trace }) := by
  have on : nrtOff s = false := by simp [nrtOff, idle]
  have shows : chipAnswer s r s.env.takeReg.1 = s.env.takeReg.1 := by
    unfold chipAnswer
    rw [on]
    split
    · rfl
    · rfl
  rw [busRead_eq, shows]
  rfl

/-- The interrupt status read away, register by register (47 R250). -/
theorem statusReads_idle (idle : s.txrxState = .idle) :
    (busRead (.irqStatus 2) (busRead (.irqStatus 1) (busRead (.irqStatus 0) s).2).2).2 =
      let b0 := s.env.takeReg
      let b1 := b0.2.takeReg
      let b2 := b1.2.takeReg
      { s with
        env := b2.2
        trace := .regRead (.irqStatus 2) b2.1 :: .regRead (.irqStatus 1) b1.1 :: .regRead (.irqStatus 0) b0.1 ::
          s.trace } := by
  rw [busRead_idle (.irqStatus 0) idle]
  rw [busRead_idle (.irqStatus 1) (by exact idle)]
  rw [busRead_idle (.irqStatus 2) (by exact idle)]

/-- The three mask registers written with 0xFF (47 R250). -/
def allMasked (s : State) : State :=
  busWrite (.irqMask 2) (.byte 0xFF) (busWrite (.irqMask 1) (.byte 0xFF) (busWrite (.irqMask 0) (.byte 0xFF) s))

theorem allMasked_eq (s : State) : allMasked s = { s with
    trace := .regWrite (.irqMask 2) (.byte 0xFF) :: .regWrite (.irqMask 1) (.byte 0xFF) ::
      .regWrite (.irqMask 0) (.byte 0xFF) :: s.trace } := rfl

theorem bringUp_eq (s : State) : bringUp s =
    (busCmd .fieldOff (busRead (.irqStatus 2) (busRead (.irqStatus 1)
      (busRead (.irqStatus 0) (allMasked s)).2).2).2).setLifecycle .init := rfl

theorem bringUp_idle (idle : s.txrxState = .idle) :
    bringUp s =
      let b0 := s.env.takeReg
      let b1 := b0.2.takeReg
      let b2 := b1.2.takeReg
      { s with
        lifecycle := .init, env := b2.2
        trace := [.cmd .fieldOff, .regRead (.irqStatus 2) b2.1, .regRead (.irqStatus 1) b1.1,
          .regRead (.irqStatus 0) b0.1, .regWrite (.irqMask 2) (.byte 0xFF), .regWrite (.irqMask 1) (.byte 0xFF),
          .regWrite (.irqMask 0) (.byte 0xFF)] ++ s.trace } := by
  rw [bringUp_eq, statusReads_idle (s := allMasked s) idle, allMasked_eq]
  rfl

/-- The state in which INIT checks the identity it has read. -/
abbrev identityRead (s : State) : State :=
  { resetFields s with
    env := s.env.takeReg.2, trace := .regRead .icIdentity s.env.takeReg.1 :: s.trace }

theorem execInit_idle (idle : s.txrxState = .idle) :
    execInit s =
      if chipIdOk s.params s.env.takeReg.1 then .next (reply .none [] (bringUp (identityRead s)))
      else .next (reply .hwMismatch [] (identityRead s)) := if_neg (not_not.2 idle)

end Sys2Proof.Machine
end

section
/-! PROOFS. TRANSCEIVE_BLOCKING (47 R258): its refusals, its accepted start, and one step of its loop. -/

namespace Sys2Proof.Machine

variable {s u : State} {c : Ctx}

/-! ## The checks, in the command's operands -/

theorem exchangeCtx_noField_iff (txBuf : Option Ref) (txBufLen : Half) (rxBuf : Option Ref) (rxBufLen : Half)
    (rxRcvdLen : Option Ref) (flags fwt : Word) (s : State) :
    ((exchangeCtx txBuf txBufLen rxBuf rxBufLen rxRcvdLen flags fwt).txBuf ≠ none ∧ s.fieldOn = false) ↔
      (txBuf ≠ none ∧ s.fieldOn = false) := by
  rw [exchangeCtx, ne_eq, toBuf_eq_none_iff]

theorem exchangeCtx_badParam_iff (txBuf : Option Ref) (txBufLen : Half) (rxBuf : Option Ref) (rxBufLen : Half)
    (rxRcvdLen : Option Ref) (flags fwt : Word) (p : Config.Params) :
    let c := exchangeCtx txBuf txBufLen rxBuf rxBufLen rxRcvdLen flags fwt
    (flagsReserved c.flags ≠ 0 ∨ (c.txBuf ≠ none ∧ (c.txBufLen = 0 ∨ p.maxTxBits < c.txBufLen.toNat)) ∨
      (c.txBuf = none ∧ c.rxBuf = none)) ↔
    (flags.extractLsb' 7 25 ≠ 0 ∨ (txBuf ≠ none ∧ (txBufLen = 0 ∨ p.maxTxBits < txBufLen.toNat)) ∨
      (txBuf = none ∧ rxBuf = none)) := by
  dsimp only [exchangeCtx]
  rw [ne_eq, ne_eq, flagsReserved_eq_zero_iff, toBuf_eq_none_iff, toBuf_eq_none_iff]

/-! ## The start -/

/-- TRANSCEIVE_BLOCKING with the operands of this context. -/
def blockingCommand (c : Ctx) (s : State) : Host.Outcome State Fault Refusal :=
  settle do
    let (st, s) ← start c s
    if st ≠ .none then pure (reply st [] s) else pure (loopOn .blocking s)

theorem exec_transceiveBlocking (txBuf : Option Ref) (txBufLen : Half) (rxBuf : Option Ref) (rxBufLen : Half)
    (rxRcvdLen : Option Ref) (flags fwt : Word) (s : State) :
    exec (.transceiveBlocking txBuf txBufLen rxBuf rxBufLen rxRcvdLen flags fwt) s =
      blockingCommand (exchangeCtx txBuf txBufLen rxBuf rxBufLen rxRcvdLen flags fwt) s := rfl

theorem blockingCommand_refused {st : Status} (h : startCheck c s = some st) (notNone : st ≠ .none) :
    blockingCommand c s = .next (reply st [] s) := by
  rw [blockingCommand, start_refused h]
  exact congrArg settle (if_pos notNone)

theorem blockingCommand_accepted (h : startCheck c s = none) :
    blockingCommand c s = settle (startAccepted c s >>= fun u => .ok (loopOn .blocking u)) := by
  rw [blockingCommand, start, h]
  exact congrArg settle (bind_assoc _ _ _)

/-! ## The loop -/

/-- A step of the loop is the ISR agent's point, one tick, and the answer where that tick ended the exchange. -/
theorem step_blocking (hr : s.running = some .blocking) (hp : isrPoint s = .ok u) :
    step s = settle (tick u >>= fun v =>
      if v.txrxState = .idle then .ok (reply v.status [] v) else .ok (loopOn .blocking v)) := by
  simp [step, hr, resume, blockingIteration, hp]

end Sys2Proof.Machine
end

section
/-! PROOFS. The statements on bring-up, the field, the queries, the callbacks and the blocking exchange. -/

open Sys2Proof Sys2Proof.Machine

/-- Settles O17: the cleanup of an exchange in progress is the only part in which the ISR agent can run. -/
theorem fieldOff : Obligations.FieldOff := by
  refine fun s => ⟨execFieldOff_gated, fun up calm => ?_, fun up => ?_⟩
  · exact (execFieldOff_up up).trans (by rw [fieldOffBody_noEdges calm]; rfl)
  · have faultless := Run.faultless_seq (fieldOffBody_faultless s) fun u => Run.faultless_ok (reply .none [] u)
    have answered : Run.post (fieldOffBody s >>= fun u => .ok (reply .none [] u))
        (SameButIsr (reply .none [] (fieldSwitchedOff s))) (fun _ => True) :=
      Run.post_seq (fieldOffBody_sameButIsr s) fun _ same => same.reply .none []
    obtain ⟨t, run, outcome⟩ := faultless.completes answered
    exact ⟨t, (execFieldOff_up up).trans run, outcome⟩

/-- Settles O18: the end of what runs, then the masking and the reset, each with or without ISR edges. -/
theorem deinit : Obligations.Deinit := by
  refine fun s => ⟨execDeinit_down, fun up => ⟨fun edges => ?_, ?_⟩⟩
  · refine (execDeinit_up up).trans ?_
    rw [endActivity_noEdges edges, Run.ok_bind, maskAndReset_noEdges (activityEnded_noEdges edges), settle_ok]
  · have faultless := Run.faultless_seq (endActivity_faultless s) maskAndReset_faultless
    obtain ⟨t, run, outcome⟩ := faultless.completes
      (Run.post_seq (endActivity_sameButIsr s) fun _ same => maskAndReset_post same)
    exact ⟨t, (execDeinit_up up).trans run, outcome⟩

/-- Settles O37: the checks in their order, and past them the start followed by the loop. -/
theorem blockingStarts : Obligations.BlockingStarts := by
  intro txBuf rxBuf rxRcvdLen txBufLen rxBufLen flags fwt s run notReady noField badParam c
  have command : run = blockingCommand c s :=
    exec_transceiveBlocking txBuf txBufLen rxBuf rxBufLen rxRcvdLen flags fwt s
  have gate : _ ↔ notReady := startGate_iff s
  have noFieldIff : _ ↔ noField := exchangeCtx_noField_iff txBuf txBufLen rxBuf rxBufLen rxRcvdLen flags fwt s
  have badParamIff : _ ↔ badParam :=
    exchangeCtx_badParam_iff txBuf txBufLen rxBuf rxBufLen rxRcvdLen flags fwt s.params
  refine ⟨fun refused => ?_, fun ready field bad => ?_, fun ready field good => ?_⟩
  · have wrongState : startCheck c s = some .wrongState := by
      by_cases closed : notReady
      · exact if_pos (gate.2 closed)
      · exact startCheck_noField (mt gate.1 closed) (noFieldIff.2 (refused.resolve_left closed))
    exact command.trans (blockingCommand_refused wrongState nofun)
  · exact command.trans <| blockingCommand_refused
      (startCheck_badParam (mt gate.1 ready) (mt noFieldIff.1 field) (badParamIff.2 bad)) nofun
  · have accepted := command.trans <| blockingCommand_accepted
      (startCheck_passes (mt gate.1 ready) (mt noFieldIff.1 field) (mt badParamIff.1 good))
    exact ⟨fun edges => accepted.trans (startAccepted_loopOn_noEdges c .blocking edges),
      accepted ▸ startAccepted_loopOn_edges c .blocking s⟩

/-- Settles O38: the cases are the ways a WORKER goes, and whether its exchange has ended. -/
theorem blockingLoop : Obligations.BlockingLoop := by
  intro s u hr hp
  have stepped := step_blocking hr hp
  obtain ⟨v, ticked, worker⟩ | ⟨v, ticked, worker⟩ | ⟨f, ticked, worker⟩ := execWorker_cases u <;>
    rw [ticked] at stepped <;> rw [worker]
  case inl =>
    refine ⟨?_, nofun⟩
    rintro t ⟨⟩
    exact ⟨fun _ idle => ⟨stepped.trans (congrArg settle (if_pos idle)), rfl⟩,
      fun _ busy => stepped.trans (congrArg settle (if_neg busy)), fun running => absurd rfl running⟩
  case inr.inl =>
    refine ⟨?_, nofun⟩
    rintro t ⟨⟩
    exact ⟨nofun, nofun, fun _ => stepped⟩
  case inr.inr =>
    refine ⟨fun _ next => absurd next nofun, ?_⟩
    rintro _ ⟨⟩
    exact stepped

/-- Settles O16: past the gate, the field switched on and the stopwatch disarmed or started. -/
theorem fieldOn : Obligations.FieldOn := by
  refine fun s => ⟨execFieldOn_gated, fun up idle noGuard => ?_, fun up idle guard => ?_⟩
  · have disarmed := execFieldOn_unguarded up idle noGuard
    rw [gtDisarm_eq] at disarmed
    exact disarmed
  · have timed := execFieldOn_guarded up idle guard
    rw [gtStart_eq, toMs_one] at timed
    exact timed

/-- Settles O19: the status reads of the bring-up come after the reset, so outside an exchange. -/
theorem init : Obligations.Init := by
  refine fun s => ⟨execInit_busy, fun idle => ⟨fun rejected => ?_, fun accepted => ?_⟩⟩
  · refine (execInit_idle idle).trans ?_
    rw [rejected]
    rfl
  · refine (execInit_idle idle).trans ?_
    rw [accepted, bringUp_idle (s := identityRead s) rfl]
    rfl

/-- Settles O20: the codes are looked up status by status and sub-state by sub-state. -/
theorem transceiveQueries : Obligations.TransceiveQueries := by
  refine fun s => ⟨rfl, rfl, ?_, ?_⟩
  · cases s.status <;> decide
  · cases s.txrxState <;> decide

/-- Settles O21: a setter is one field update and an answer. -/
theorem callbackSetters : Obligations.CallbackSetters := fun _ _ => ⟨rfl, rfl, rfl, rfl⟩

end

section
/-! PROOFS. The command port (log 1), a drain that never ends (log 5), and the commands that an exchange shuts out
(70 R294). -/

namespace Sys2Proof.Machine

variable {s t : State}

/-! ## The port -/

theorem decode_of_decodeTableWord {nbits w : Nat} {i : Instr} (h : decodeTableWord nbits w = some i) :
    decode (wordBytes nbits w) = .ok i := by
  unfold decodeTableWord at h
  split at h
  next dec => rwa [Option.some.inj h] at dec
  next => cases h

/-- A presented command stands before what the port held, so the port is as it was once the command is taken. -/
theorem step_presentCommand {bytes : List Byte} {i : Instr} (dec : decode bytes = .ok i) :
    step (presentCommand bytes s) = exec i { s with running := none } :=
  step_decoded (s := presentCommand bytes s) rfl rfl dec

theorem step_waiting (idle : s.running = none) (empty : s.port = []) : step s = .next s := by
  simp only [step, idle, takeCommand, empty]

/-! ## A drain that never ends -/

theorem step_hung (hung : s.running = some .hung) : step s = .next (drainOnce s) := by
  simp only [step, hung, resume]

theorem AggStep.onlyIsr (h : AggStep s t) : SameButIsr s t := by
  obtain ⟨⟨_, _, _, rfl, _⟩, _⟩ := h
  rfl

/-! ## Commands shut out by an exchange -/

/-- The gates of the six commands agree in an exchange: each answers WRONG_STATE, whatever else it checks. -/
theorem exec_busy_of_shutOut {i : Instr} (busy : s.txrxState ≠ .idle)
    (shutOut : opcode i ∈ [(0x30 : Byte), 0x10, 0x12, 0x80, 0x20, 0x01]) :
    exec i s = .next (reply .wrongState [] s) := by
  cases i with
  | startTransceive => exact execStartTransceive_busy _ _ _ _ _ _ _ busy
  | setMode mode txBR rxBR => exact execSetMode_busy mode txBR rxBR busy
  | setBitrate txBR rxBR => exact execSetBitrate_busy txBR rxBR busy
  | setEmd enable maxLen => exact execSetEmd_busy enable maxLen busy
  | fieldOn => exact execFieldOn_busy busy
  | init => exact execInit_busy busy
  | _ => exact absurd shutOut (by simp [opcode])

end Sys2Proof.Machine
end

section
/-! PROOFS. The statements on reset, on the port, and on one exchange at a time. -/

open Sys2Proof Sys2Proof.Machine

/-- Settles O1: field by field, the value that `State.reset` was given. -/
theorem resetState : Obligations.ResetState :=
  ⟨rfl, rfl, rfl, rfl, rfl, rfl, rfl, rfl, rfl, rfl, rfl, rfl, rfl, rfl, rfl, rfl, rfl, rfl, rfl, rfl, rfl, rfl⟩

/-- Settles O6: a step of a hung command is one drain iteration, which is an aggregator step. -/
theorem portSteps : Obligations.PortSteps := by
  refine ⟨fun _ _ _ _ word => step_presentCommand (decode_of_decodeTableWord word), fun _ => step_waiting,
    fun s hung => ?_⟩
  have drains := drainOnce_step s
  exact ⟨drainOnce s, step_hung hung, drains.onlyIsr, drains.enabled⟩

/-- Settles O55: the answer WRONG_STATE is the byte 6 and the command's return. -/
theorem oneExchangeAtATime : Obligations.OneExchangeAtATime := fun _ _ => exec_busy_of_shutOut

end
